-- ==== Sys2Proof/Word.lean ====
section
/-!
DEFINITION. Word.lean: the widths of host-visible words and the index types of the part's banks.
-/

namespace Sys2Proof

/-- One byte of a host record. -/
abbrev Byte := BitVec 8
/-- A two-byte field. -/
abbrev Half := BitVec 16
/-- A four-byte field, and the width of a register. -/
abbrev Word := BitVec 32
/-- An eight-byte field: host addresses, timebase counts. -/
abbrev Long := BitVec 64

/-- ST0 to ST7. -/
abbrev StreamId := Fin 8
/-- SL0 to SL15. -/
abbrev ListId := Fin 16
/-- CH0 to CH31. -/
abbrev ChannelId := Fin 32
/-- CV0 to CV3. -/
abbrev ConverterId := Fin 4
/-- PG0 to PG3. -/
abbrev GeneratorId := Fin 4
/-- TRIG0 to TRIG3. -/
abbrev LineId := Fin 4
/-- CR0 to CR3. -/
abbrev RingId := Fin 4
/-- WA0 to WA15. -/
abbrev WatchId := Fin 16
/-- BW0 to BW3. -/
abbrev WindowId := Fin 4

end Sys2Proof
end

