-- ==== Sys2Proof/Syntax.lean ====
section
/-!
DEFINITION. Syntax.lean: the commands of the part, one constructor for each row of spec/opcode_table.json.
Orders carry the fields of 12_record_and_register_formats.md Tables 12-4 and 12-5 at their full widths, so that
every value the host can write is an operand and the owners' checks decide.
-/

namespace Sys2Proof

/-- The flags and tag of an order's header (Table 12-4); the kind is the command itself. -/
structure OrderHeader where
  silent : Bool
  tag : Word
deriving DecidableEq, Repr

/-- One step entry of LOAD SCAN (R30, Table 12-5). -/
structure StepEntry where
  channel : Byte
  averaging : Byte
deriving DecidableEq, Repr

/-- One descriptor entry of POST BUFFERS (R82, Table 12-5). -/
structure DescriptorEntry where
  address : Long
  length : Word
  tag : Word
deriving DecidableEq, Repr

/-- The payload of SET PACE (R105, Table 12-5). -/
structure PaceFields where
  generator : Byte
  source : Byte
  gate : Byte
  mode : Byte
  prescale : Word
  divide : Word
  burst : Word
deriving DecidableEq, Repr

/-- The payload of CONFIGURE STREAM (R3, Table 12-5). -/
structure ConfigureFields where
  stream : Byte
  scanList : Byte
  generator : Byte
  ring : Byte
  passesPerBlock : Half
  pages : Byte
  policies : Byte
  depth : Half
  flushMs : Half
  startKind : Byte
  startLine : Byte
  stopKind : Byte
  stopLine : Byte
  count : Word
  startTime : Long
  stopTime : Long
deriving DecidableEq, Repr

/-- The payload of SET WATCH (R117, Table 12-5). -/
structure WatchFields where
  watch : Byte
  channel : Byte
  filter : Byte
  action : Byte
  low : Half
  high : Half
  hysteresis : Half
  persistence : Byte
  alert : Byte
  note : Byte
  ring : Byte
deriving DecidableEq, Repr

/-- One completion ring entry of the Control Block (Table 12-3). -/
structure RingEntry where
  base : Long
  size : Word
  holdoff : Word
  threshold : Half
  enable : Bool
deriving DecidableEq, Repr

/-- The Control Block as the part reads it (R170, Table 12-2). -/
structure ControlBlock where
  format : Word
  orderBase : Long
  orderSize : Word
  rings : Vector RingEntry 4
deriving DecidableEq, Repr

/-- An input voltage: `num / (denPred + 1)` volts. -/
structure Voltage where
  num : Int
  denPred : Nat
deriving DecidableEq, Repr, Inhabited

/-- The size of a register access in bytes (R167). DESIGN CHOICE (notes/assumptions/20.md): R167 says nothing of an access
of 5, 6 or 7 bytes, and the model has no such access. -/
inductive AccessWidth where
  | one | two | three | four | eight
deriving DecidableEq, Repr

/-- The number of bytes of an access. -/
def AccessWidth.bytes : AccessWidth → Nat
  | .one => 1 | .two => 2 | .three => 3 | .four => 4 | .eight => 8

/-- What the first sample after a reset finds on the pins (R110, R114): bit n of `trig` is set when TRIGn is
HIGH, and `sync` says whether SYNC is high. -/
structure PinLevels where
  trig : BitVec 4
  sync : Bool
deriving DecidableEq, Repr

/-- The commands. A command with an operand `order`, `streams` or `watches` hands one event to several receivers
whose order the spec leaves open: the receivers listed are served first, in that order, the others after them in
number order (notes/assumptions/5.md). -/
inductive Instr where
  /-- NOP (R148). -/
  | nop (h : OrderHeader)
  /-- READ STATUS (R149). -/
  | readStatus (h : OrderHeader) (target stream part : Byte) (address : Long)
  /-- SET CHANNEL (R39). -/
  | setChannel (h : OrderHeader) (channel range settle : Byte)
  /-- LOAD SCAN (R30). -/
  | loadScan (h : OrderHeader) (list mode count : Byte) (entries : Vector StepEntry 6)
  /-- CLEAR SCAN (R33). -/
  | clearScan (h : OrderHeader) (list : Byte)
  /-- SET PACE (R105). -/
  | setPace (h : OrderHeader) (f : PaceFields)
  /-- RUN PACE (R106). -/
  | runPace (h : OrderHeader) (generator : Byte)
  /-- HALT PACE (R107). -/
  | haltPace (h : OrderHeader) (generator : Byte)
  /-- SET LINE (R112). -/
  | setLine (h : OrderHeader) (line polarity : Byte)
  /-- CONFIGURE STREAM (R3). -/
  | configureStream (h : OrderHeader) (f : ConfigureFields)
  /-- ARM STREAM (R5). -/
  | armStream (h : OrderHeader) (stream : Byte)
  /-- START STREAM (R8). -/
  | startStream (h : OrderHeader) (stream : Byte)
  /-- STOP STREAM (R16). -/
  | stopStream (h : OrderHeader) (stream : Byte)
  /-- ABORT STREAM (R22). -/
  | abortStream (h : OrderHeader) (stream : Byte)
  /-- RESET STREAM (R25). -/
  | resetStream (h : OrderHeader) (stream : Byte)
  /-- POST BUFFERS (R82). -/
  | postBuffers (h : OrderHeader) (stream count : Byte) (entries : Vector DescriptorEntry 3)
  /-- RECLAIM BUFFERS (R84). -/
  | reclaimBuffers (h : OrderHeader) (stream : Byte)
  /-- SET WINDOW (R80). -/
  | setWindow (h : OrderHeader) (window enabled use : Byte) (base mask : Long)
  /-- SET WATCH (R117). -/
  | setWatch (h : OrderHeader) (f : WatchFields)
  /-- CLEAR WATCH (R119). -/
  | clearWatch (h : OrderHeader) (watch : Byte)
  /-- SET TIMEBASE (R131). -/
  | setTimebase (h : OrderHeader) (role : Byte)
  /-- ARM SYNC (R132). -/
  | armSync (h : OrderHeader) (preset : Long) (timeout : Word)
  /-- FIRE SYNC (R133). -/
  | fireSync (h : OrderHeader) (mode : Byte) (time : Long)
  /-- An order whose kind code names no order (R145). -/
  | unknownKind (h : OrderHeader) (kind : Half)
  /-- An order fetch that returns an error or times out (R144). -/
  | orderRead
  /-- The end of a status write's flush read: `ok` is a successful reply (R150). -/
  | statusWriteEnd (ok : Bool)
  /-- A LINK CONTROL write with RESET 0 (R169). -/
  | linkControlEnable (enable : Bool)
  /-- A LINK CONTROL write with RESET 1 (R176). -/
  | linkReset
  /-- The link reset takes effect (R176); `pins` is what the first sample after it finds (R110). -/
  | linkResetEffect (pins : PinLevels)
  /-- A STOPPING link with no host read outstanding enters DOWN (R174). -/
  | linkDown
  /-- An ORDER TAIL write (R142). -/
  | orderTailWrite (value : Word)
  /-- A CR HEAD write (R156). -/
  | crHeadWrite (ring : RingId) (value : Word)
  /-- A write of the register window (R167): offset, access size and value. -/
  | registerWrite (offset : BitVec 12) (width : AccessWidth) (value : Long)
  /-- The Control Block read returns these contents (R171). -/
  | controlBlockLoad (cb : ControlBlock)
  /-- The Control Block read returns an error or times out (R170). -/
  | controlBlockRead
  /-- Power-on reset (R177); `pins` is what the first sample after it finds (R110). -/
  | powerOnReset (pins : PinLevels)
  /-- An edge of a trigger line (R111). In `order` 0 to 7 are streams and 8 to 11 generators; `streams` is the
  order in which a tick issued on the edge is served. -/
  | trigEdge (line : LineId) (order : List (Fin 12)) (streams : List StreamId)
  /-- A change of a trigger line's active state, as the gates see it (R103). -/
  | gateChange (line : LineId) (active : Bool)
  /-- A falling edge of SYNC (R134). -/
  | syncFallingEdge (streams : List StreamId)
  /-- A generator completes an interval and issues a tick (R102, R108). -/
  | tick (generator : GeneratorId) (streams : List StreamId)
  /-- The count reaches the time `time` (R137). -/
  | timeReached (time : Long) (streams : List StreamId)
  /-- A SYNC pulse ends (R133). -/
  | syncPulseEnd
  /-- The sync arm expires (R135). -/
  | armTimeout
  /-- A conversion in progress ends (R48); `inputs` are the voltages its individual conversions find. -/
  | stepCompletion (converter : ConverterId) (inputs : Vector Voltage 8)
  /-- A stream takes the oldest return on its way to it (R50). -/
  | returnTaken (stream : StreamId)
  /-- The Watch Unit takes one of the offers on their way to it, 0 the oldest (R120). -/
  | watchOffer (which : Nat) (watches : List WatchId)
  /-- The Stream Controller takes a watch's START request (R18). -/
  | watchStartRequest (watch : WatchId)
  /-- The Stream Controller takes a watch's HALT request (R19). -/
  | watchHaltRequest (watch : WatchId)
  /-- A watch takes the answer to its request (R123). -/
  | watchAnswer (watch : WatchId)
  /-- The free delivery arbiter grants an eligible stream (R86, R87). -/
  | deliveryGrant
  /-- The flush read of the block write in flight returns successfully (R90). -/
  | blockWriteSuccess
  /-- The flush read of the block write in flight returns an error or times out (R91). -/
  | blockWriteFailure
  /-- The flush timer of a stream's current buffer expires (R96). -/
  | flushTimerExpiry (stream : StreamId)
  /-- A ring's holdoff timer expires (R164). -/
  | holdoffExpiry (ring : RingId)
  /-- The waiting Order Unit offers its record again (R147). -/
  | orderRecordReoffer
  /-- The Timebase offers its held record again (R136). -/
  | timebaseRecordReoffer
  /-- An order fetch ends after a teardown or link reset began (R144). -/
  | orderFetchEndAfterTeardown
deriving DecidableEq, Repr

end Sys2Proof
end

