-- ==== Sys2Proof/WellFormed.lean ====
section
/-!
DEFINITION. WellFormed.lean: which terms of `Instr` are commands of the part.
-/

namespace Sys2Proof

/-- The kind codes of Table 12-5, in the table's order. -/
def knownKinds : List Half :=
  [0x0001, 0x0002, 0x0010, 0x0011, 0x0012, 0x0020, 0x0021, 0x0022, 0x0023, 0x0030, 0x0031, 0x0032, 0x0033,
   0x0034, 0x0035, 0x0040, 0x0041, 0x0042, 0x0050, 0x0051, 0x0060, 0x0061, 0x0062]

/-- An order of unknown kind carries a code that Table 12-5 does not name (R145, R178). Every other term is a
command whatever its operands, because the owners' checks answer every field value. -/
def Instr.wellFormed : Instr → Bool
  | .unknownKind _ kind => !knownKinds.contains kind
  | _ => true

end Sys2Proof
end

