-- ==== Sys2Proof/Decode.lean ====
section
/-!
DEFINITION. Decode.lean: the byte layouts of what the host hands to the part (12_record_and_register_formats.md):
orders (Tables 12-4, 12-5, R178) and the Control Block (Tables 12-2, 12-3), with the order encoder after the decoder.
The opcode table itself gives its rows no bits (notes/assumptions/30.md).
-/

namespace Sys2Proof

/-- The command a word spells by the opcode table's bits: no row of spec/opcode_table.json carries bits, so no word
spells one (notes/assumptions/30.md). -/
def decodeTableWord (_nbits _w : Nat) : Option Instr := none

/-- The low `n` bytes of a number, least significant first (00_scope.md section 4, "All records in host memory are
little-endian"). -/
def le : Nat → Nat → List Byte
  | 0, _ => []
  | n + 1, x => BitVec.ofNat 8 x :: le n (x / 256)

/-- The number whose little-endian bytes are given. -/
def ofLe : List Byte → Nat
  | [] => 0
  | b :: bs => b.toNat + 256 * ofLe bs

/-- Bytes written over a record from an offset on. -/
def overwrite (record : List Byte) (offset : Nat) (bytes : List Byte) : List Byte :=
  record.take offset ++ bytes ++ record.drop (offset + bytes.length)

/-- A record of `n` bytes with the fields given by offset; every other byte is 0 (R179). -/
def layout (n : Nat) (fields : List (Nat × List Byte)) : List Byte :=
  fields.foldl (fun record f => overwrite record f.1 f.2) (List.replicate n 0)

/-- The unsigned value of the `n` bytes at an offset. -/
def fieldAt (offset n : Nat) (bytes : List Byte) : Nat := ofLe ((bytes.drop offset).take n)

/-- The byte at an offset. -/
def byteAt (offset : Nat) (bytes : List Byte) : Byte := bytes.getD offset 0

/-- The two-byte field at an offset. -/
def halfAt (offset : Nat) (bytes : List Byte) : Half := BitVec.ofNat 16 (fieldAt offset 2 bytes)

/-- The four-byte field at an offset. -/
def wordAt (offset : Nat) (bytes : List Byte) : Word := BitVec.ofNat 32 (fieldAt offset 4 bytes)

/-- The eight-byte field at an offset. -/
def longAt (offset : Nat) (bytes : List Byte) : Long := BitVec.ofNat 64 (fieldAt offset 8 bytes)

/-- The step entry i of LOAD SCAN, at 12 + 2 × i (Table 12-5). -/
def stepEntryAt (bytes : List Byte) (i : Nat) : StepEntry :=
  ⟨byteAt (12 + 2 * i) bytes, byteAt (13 + 2 * i) bytes⟩

/-- The descriptor i of POST BUFFERS, at 16 + 16 × i (Table 12-5). -/
def descriptorEntryAt (bytes : List Byte) (i : Nat) : DescriptorEntry :=
  ⟨longAt (16 + 16 * i) bytes, wordAt (24 + 16 * i) bytes, wordAt (28 + 16 * i) bytes⟩

/-- The payload of SET PACE (Table 12-5). -/
def paceFieldsAt (b : List Byte) : PaceFields :=
  { generator := byteAt 8 b, source := byteAt 9 b, gate := byteAt 10 b, mode := byteAt 11 b,
    prescale := wordAt 12 b, divide := wordAt 16 b, burst := wordAt 20 b }

/-- The payload of CONFIGURE STREAM (Table 12-5). -/
def configureFieldsAt (b : List Byte) : ConfigureFields :=
  { stream := byteAt 8 b, scanList := byteAt 9 b, generator := byteAt 10 b, ring := byteAt 11 b,
    passesPerBlock := halfAt 12 b, pages := byteAt 14 b, policies := byteAt 15 b, depth := halfAt 16 b,
    flushMs := halfAt 18 b, startKind := byteAt 20 b, startLine := byteAt 21 b, stopKind := byteAt 22 b,
    stopLine := byteAt 23 b, count := wordAt 24 b, startTime := longAt 32 b, stopTime := longAt 40 b }

/-- The payload of SET WATCH (Table 12-5). -/
def watchFieldsAt (b : List Byte) : WatchFields :=
  { watch := byteAt 8 b, channel := byteAt 9 b, filter := byteAt 10 b, action := byteAt 11 b, low := halfAt 12 b,
    high := halfAt 14 b, hysteresis := halfAt 16 b, persistence := byteAt 18 b, alert := byteAt 19 b,
    note := byteAt 20 b, ring := byteAt 21 b }

/-- The order in a slot of 64 bytes (R178): reserved bytes and flag bits other than SILENT are not examined, and a
kind code that Table 12-5 does not name is an order of unknown kind. -/
def decodeOrder (b : List Byte) : Option Instr :=
  if b.length ≠ 64 then none else
  let h : OrderHeader := ⟨(byteAt 2 b).getLsbD 0, wordAt 4 b⟩
  let kind := halfAt 0 b
  some <|
    if kind = 0x0001 then .nop h
    else if kind = 0x0002 then .readStatus h (byteAt 8 b) (byteAt 9 b) (byteAt 10 b) (longAt 16 b)
    else if kind = 0x0010 then .setChannel h (byteAt 8 b) (byteAt 9 b) (byteAt 10 b)
    else if kind = 0x0011 then
      .loadScan h (byteAt 8 b) (byteAt 9 b) (byteAt 10 b)
        #v[stepEntryAt b 0, stepEntryAt b 1, stepEntryAt b 2, stepEntryAt b 3, stepEntryAt b 4, stepEntryAt b 5]
    else if kind = 0x0012 then .clearScan h (byteAt 8 b)
    else if kind = 0x0020 then .setPace h (paceFieldsAt b)
    else if kind = 0x0021 then .runPace h (byteAt 8 b)
    else if kind = 0x0022 then .haltPace h (byteAt 8 b)
    else if kind = 0x0023 then .setLine h (byteAt 8 b) (byteAt 9 b)
    else if kind = 0x0030 then .configureStream h (configureFieldsAt b)
    else if kind = 0x0031 then .armStream h (byteAt 8 b)
    else if kind = 0x0032 then .startStream h (byteAt 8 b)
    else if kind = 0x0033 then .stopStream h (byteAt 8 b)
    else if kind = 0x0034 then .abortStream h (byteAt 8 b)
    else if kind = 0x0035 then .resetStream h (byteAt 8 b)
    else if kind = 0x0040 then
      .postBuffers h (byteAt 8 b) (byteAt 9 b)
        #v[descriptorEntryAt b 0, descriptorEntryAt b 1, descriptorEntryAt b 2]
    else if kind = 0x0041 then .reclaimBuffers h (byteAt 8 b)
    else if kind = 0x0042 then
      .setWindow h (byteAt 8 b) (byteAt 9 b) (byteAt 10 b) (longAt 16 b) (longAt 24 b)
    else if kind = 0x0050 then .setWatch h (watchFieldsAt b)
    else if kind = 0x0051 then .clearWatch h (byteAt 8 b)
    else if kind = 0x0060 then .setTimebase h (byteAt 8 b)
    else if kind = 0x0061 then .armSync h (longAt 8 b) (wordAt 16 b)
    else if kind = 0x0062 then .fireSync h (byteAt 8 b) (longAt 16 b)
    else .unknownKind h kind

/-- The ring entry n of a Control Block, at 0x20 + 24 × n (Table 12-3). -/
def ringEntryAt (b : List Byte) (n : Nat) : RingEntry :=
  let at' := 32 + 24 * n
  { base := longAt at' b, size := wordAt (at' + 8) b, holdoff := wordAt (at' + 12) b,
    threshold := halfAt (at' + 16) b, enable := (byteAt (at' + 18) b).getLsbD 0 }

/-- The Control Block in 128 bytes of host memory (Table 12-2). -/
def ControlBlock.ofBytes (b : List Byte) : ControlBlock :=
  { format := wordAt 0 b, orderBase := longAt 8 b, orderSize := wordAt 16 b,
    rings := #v[ringEntryAt b 0, ringEntryAt b 1, ringEntryAt b 2, ringEntryAt b 3] }

/-- The kind code of an order command (Table 12-5), none for a command that is no order. -/
def Instr.kindCode : Instr → Option Half
  | .nop _ => some 0x0001
  | .readStatus _ _ _ _ _ => some 0x0002
  | .setChannel _ _ _ _ => some 0x0010
  | .loadScan _ _ _ _ _ => some 0x0011
  | .clearScan _ _ => some 0x0012
  | .setPace _ _ => some 0x0020
  | .runPace _ _ => some 0x0021
  | .haltPace _ _ => some 0x0022
  | .setLine _ _ _ => some 0x0023
  | .configureStream _ _ => some 0x0030
  | .armStream _ _ => some 0x0031
  | .startStream _ _ => some 0x0032
  | .stopStream _ _ => some 0x0033
  | .abortStream _ _ => some 0x0034
  | .resetStream _ _ => some 0x0035
  | .postBuffers _ _ _ _ => some 0x0040
  | .reclaimBuffers _ _ => some 0x0041
  | .setWindow _ _ _ _ _ _ => some 0x0042
  | .setWatch _ _ => some 0x0050
  | .clearWatch _ _ => some 0x0051
  | .setTimebase _ _ => some 0x0060
  | .armSync _ _ _ => some 0x0061
  | .fireSync _ _ _ => some 0x0062
  | .unknownKind _ kind => some kind
  | .orderRead | .statusWriteEnd _ | .linkControlEnable _ | .linkReset | .linkResetEffect _ | .linkDown
  | .orderTailWrite _ | .crHeadWrite _ _ | .registerWrite _ _ _ | .controlBlockLoad _ | .controlBlockRead
  | .powerOnReset _ | .trigEdge _ _ _ | .gateChange _ _ | .syncFallingEdge _ | .tick _ _ | .timeReached _ _
  | .syncPulseEnd | .armTimeout | .stepCompletion _ _ | .returnTaken _ | .watchOffer _ _ | .watchStartRequest _
  | .watchHaltRequest _ | .watchAnswer _ | .deliveryGrant | .blockWriteSuccess | .blockWriteFailure
  | .flushTimerExpiry _ | .holdoffExpiry _ | .orderRecordReoffer | .timebaseRecordReoffer
  | .orderFetchEndAfterTeardown => none

/-- The header bytes of an order (Table 12-4). -/
def OrderHeader.fields (h : OrderHeader) (kind : Half) : List (Nat × List Byte) :=
  [(0, le 2 kind.toNat), (2, [if h.silent then 1 else 0]), (4, le 4 h.tag.toNat)]

/-- A slot of 64 bytes with a header and payload fields. -/
def orderBytes (h : OrderHeader) (kind : Half) (payload : List (Nat × List Byte)) : List Byte :=
  layout 64 (h.fields kind ++ payload)

/-- The payload bytes of step entry i (Table 12-5). -/
def StepEntry.fields (e : StepEntry) (i : Nat) : List (Nat × List Byte) :=
  [(12 + 2 * i, [e.channel, e.averaging])]

/-- The payload bytes of descriptor i (Table 12-5). -/
def DescriptorEntry.fields (e : DescriptorEntry) (i : Nat) : List (Nat × List Byte) :=
  [(16 + 16 * i, le 8 e.address.toNat ++ le 4 e.length.toNat ++ le 4 e.tag.toNat)]

/-- The 64 bytes that software writes for an order (Tables 12-4 and 12-5), none for a command that is no order. -/
def encodeOrder : Instr → Option (List Byte)
  | .nop h => some (orderBytes h 0x0001 [])
  | .readStatus h target stream part address =>
    some (orderBytes h 0x0002 [(8, [target, stream, part]), (16, le 8 address.toNat)])
  | .setChannel h channel range settle => some (orderBytes h 0x0010 [(8, [channel, range, settle])])
  | .loadScan h list mode count e =>
    some (orderBytes h 0x0011 ([(8, [list, mode, count])] ++ e[0].fields 0 ++ e[1].fields 1 ++ e[2].fields 2
      ++ e[3].fields 3 ++ e[4].fields 4 ++ e[5].fields 5))
  | .clearScan h list => some (orderBytes h 0x0012 [(8, [list])])
  | .setPace h f =>
    some (orderBytes h 0x0020 [(8, [f.generator, f.source, f.gate, f.mode]), (12, le 4 f.prescale.toNat),
      (16, le 4 f.divide.toNat), (20, le 4 f.burst.toNat)])
  | .runPace h generator => some (orderBytes h 0x0021 [(8, [generator])])
  | .haltPace h generator => some (orderBytes h 0x0022 [(8, [generator])])
  | .setLine h line polarity => some (orderBytes h 0x0023 [(8, [line, polarity])])
  | .configureStream h f =>
    some (orderBytes h 0x0030 [(8, [f.stream, f.scanList, f.generator, f.ring]), (12, le 2 f.passesPerBlock.toNat),
      (14, [f.pages, f.policies]), (16, le 2 f.depth.toNat), (18, le 2 f.flushMs.toNat),
      (20, [f.startKind, f.startLine, f.stopKind, f.stopLine]), (24, le 4 f.count.toNat),
      (32, le 8 f.startTime.toNat), (40, le 8 f.stopTime.toNat)])
  | .armStream h stream => some (orderBytes h 0x0031 [(8, [stream])])
  | .startStream h stream => some (orderBytes h 0x0032 [(8, [stream])])
  | .stopStream h stream => some (orderBytes h 0x0033 [(8, [stream])])
  | .abortStream h stream => some (orderBytes h 0x0034 [(8, [stream])])
  | .resetStream h stream => some (orderBytes h 0x0035 [(8, [stream])])
  | .postBuffers h stream count e =>
    some (orderBytes h 0x0040 ([(8, [stream, count])] ++ e[0].fields 0 ++ e[1].fields 1 ++ e[2].fields 2))
  | .reclaimBuffers h stream => some (orderBytes h 0x0041 [(8, [stream])])
  | .setWindow h window enabled use base mask =>
    some (orderBytes h 0x0042 [(8, [window, enabled, use]), (16, le 8 base.toNat), (24, le 8 mask.toNat)])
  | .setWatch h f =>
    some (orderBytes h 0x0050 [(8, [f.watch, f.channel, f.filter, f.action]), (12, le 2 f.low.toNat),
      (14, le 2 f.high.toNat), (16, le 2 f.hysteresis.toNat), (18, [f.persistence, f.alert, f.note, f.ring])])
  | .clearWatch h watch => some (orderBytes h 0x0051 [(8, [watch])])
  | .setTimebase h role => some (orderBytes h 0x0060 [(8, [role])])
  | .armSync h preset timeout => some (orderBytes h 0x0061 [(8, le 8 preset.toNat), (16, le 4 timeout.toNat)])
  | .fireSync h mode time => some (orderBytes h 0x0062 [(8, [mode]), (16, le 8 time.toNat)])
  | .unknownKind h kind => some (orderBytes h kind [])
  | .orderRead | .statusWriteEnd _ | .linkControlEnable _ | .linkReset | .linkResetEffect _ | .linkDown
  | .orderTailWrite _ | .crHeadWrite _ _ | .registerWrite _ _ _ | .controlBlockLoad _ | .controlBlockRead
  | .powerOnReset _ | .trigEdge _ _ _ | .gateChange _ _ | .syncFallingEdge _ | .tick _ _ | .timeReached _ _
  | .syncPulseEnd | .armTimeout | .stepCompletion _ _ | .returnTaken _ | .watchOffer _ _ | .watchStartRequest _
  | .watchHaltRequest _ | .watchAnswer _ | .deliveryGrant | .blockWriteSuccess | .blockWriteFailure
  | .flushTimerExpiry _ | .holdoffExpiry _ | .orderRecordReoffer | .timebaseRecordReoffer
  | .orderFetchEndAfterTeardown => none

end Sys2Proof
end

