-- ==== Sys2Proof/Config.lean ====
section
/-!
DEFINITION. Config.lean: the free values. Each is an opaque constant: nothing in Lean can evaluate it, and a claim
that holds of the model holds whatever it is. They stand for what the outside world does, and for orders the spec
leaves open, when the part runs with no command waiting.
-/

namespace Sys2Proof

/-- The voltage on a channel at a moment of elapsed time (R38); used by the idle step's step completions
(notes/assumptions/21.md). -/
opaque Config.inputVoltage : Nat → Nat → Voltage

/-- Whether message interrupts are enabled in the function's configuration at a moment of elapsed time (R175,
notes/assumptions/12.md). -/
opaque Config.messageEnabled : Nat → Bool

/-- The address and the data that the function's configuration gives for the message of a vector at a moment of elapsed
time (R175, notes/assumptions/12.md). -/
opaque Config.messageAddress : Nat → RingId → Long
opaque Config.messageData : Nat → RingId → Word

/-- What a read of the register window gives that is not aligned to its size, or crosses the end of a register: by the
moment of elapsed time, the offset and the number of bytes (R167, notes/assumptions/37.md). -/
opaque Config.unalignedRead : Nat → Nat → Nat → Long

/-- Which sample of the reference periods that pass from a moment of elapsed time on finds an undriven SYNC line that was
low high: its number, from 1 to the number of periods that pass, and any other number when none does (R114,
notes/assumptions/10.md). -/
opaque Config.syncRise : Nat → Nat → Nat

/-- Which of several due events the idle step takes first (notes/assumptions/1.md). -/
opaque Config.choice : Nat → Nat

/-- The order in which an idle step's event is handed to several streams (notes/assumptions/5.md). -/
opaque Config.streamOrder : Nat → List StreamId

/-- The order in which an idle step's edge of a trigger line is handed to its receivers: streams 0 to 7, generators 8 to 11
(notes/assumptions/5.md). -/
opaque Config.receiverOrder : Nat → List (Fin 12)

/-- The order in which several trigger lines hand over what they owe before time passes (notes/assumptions/8.md). -/
opaque Config.lineOrder : Nat → List LineId

/-- The order in which an idle step's offer is handed to several watches (notes/assumptions/5.md). -/
opaque Config.watchOrder : Nat → List WatchId

end Sys2Proof
end

