-- ==== Sys2Proof/Machine/State.lean ====
section
/-!
DEFINITION. Machine/State.lean: the state of the part as plain data, grouped by the block that owns it
(00_scope.md Table 0-1), the reasons a step can stop, and the state after power-on reset.
-/

namespace Sys2Proof.Machine

/-! ### Streams (STC) -/

/-- Table 1-2. -/
inductive StreamState where
  | unconfigured | idle | armed | running | draining | faulted
deriving DecidableEq, Repr

/-- The start condition of a stream (Table 1-1). -/
inductive StartCondition where
  | now
  | external
  | line (n : LineId)
  | time (t : Long)
deriving DecidableEq, Repr

/-- The stop condition of a stream (Table 1-1). -/
inductive StopCondition where
  | none
  | count (n : Nat)
  | line (n : LineId)
  | time (t : Long)
deriving DecidableEq, Repr

/-- The slip and overrun policies (Table 1-1). -/
inductive Policy where
  | mark | halt
deriving DecidableEq, Repr

/-- Table 1-4. -/
inductive TriggerSource where
  | now
  | lateTime
  | time
  | line (n : LineId)
  | order
  | watch (m : WatchId)
deriving DecidableEq, Repr

/-- Table 1-5. -/
inductive EndReason where
  | untriggered | stopOrder | countReached | stopLine | stopTime | watchHalt | slipHalt | overrunHalt | aborted
  | writeError | teardown
deriving DecidableEq, Repr

/-- The configuration that CONFIGURE STREAM writes (Table 1-1). -/
structure StreamConfig where
  scanList : ListId
  generator : GeneratorId
  ring : RingId
  passesPerBlock : Nat
  depth : Nat
  start : StartCondition
  stop : StopCondition
  slipPolicy : Policy
  overrunPolicy : Policy
  flushMs : Nat
deriving DecidableEq, Repr

/-- The trigger field (Table 1-1). -/
structure Trigger where
  time : Long
  source : TriggerSource
deriving DecidableEq, Repr

/-- The pass in progress (R49): the identity of its record in the staging queue and the step being walked. -/
structure PassInProgress where
  pass : Nat
  step : Nat
deriving DecidableEq, Repr

/-- One stream context (R1, Table 1-1). -/
structure StreamContext where
  state : StreamState
  config : Option StreamConfig
  pagesHeld : Nat
  nextPass : Option Word
  begun : Nat
  slippedSince : Nat
  droppedSince : Nat
  totalCompleted : Nat
  totalSlipped : Nat
  totalDropped : Nat
  totalBlocks : Word
  nextSequence : Word
  trigger : Option Trigger
  endReason : Option EndReason
  pass : Option PassInProgress
deriving DecidableEq, Repr

/-- A context after power-on or link reset (R1, last column of Table 1-1). -/
def StreamContext.reset : StreamContext where
  state := .unconfigured
  config := none
  pagesHeld := 0
  nextPass := none
  begun := 0
  slippedSince := 0
  droppedSince := 0
  totalCompleted := 0
  totalSlipped := 0
  totalDropped := 0
  totalBlocks := 0
  nextSequence := 0
  trigger := none
  endReason := none
  pass := none

/-! ### Samples, converters, scan table -/

/-- A sample: its code and CLIP flag (R47). -/
structure Sample where
  code : Half
  clip : Bool
deriving DecidableEq, Repr

/-- A return that a converter handed to its owner and the stream has not yet taken (R48). -/
structure Return where
  pass : Nat
  step : Nat
  sample : Sample
  time : Long
deriving DecidableEq, Repr

/-- One step of a scan list (R28). -/
structure ScanStep where
  channel : ChannelId
  averaging : Nat
deriving DecidableEq, Repr

/-- One entry of the Channel Table (R35). -/
structure ChannelSetting where
  range : Fin 4
  settle : Fin 16
deriving DecidableEq, Repr

/-- A request in a converter's slot (R43). -/
structure Request where
  stream : StreamId
  pass : Nat
  step : Nat
  channel : ChannelId
  averaging : Nat
deriving DecidableEq, Repr

/-- A conversion in progress (R43, R46); the owner is absent when it has been orphaned (R54). -/
structure Conversion where
  owner : Option StreamId
  pass : Nat
  step : Nat
  channel : ChannelId
  averaging : Nat
  range : Fin 4
  settle : Fin 16
  endsAt : Nat
deriving DecidableEq, Repr

/-- One converter (R43, Table 3-1). -/
structure Converter where
  slots : Vector (Option Request) 8
  conversion : Option Conversion
  lastChannel : Option ChannelId
  grantPointer : StreamId
deriving DecidableEq, Repr

/-- A converter after power-on reset (R43). -/
def Converter.reset : Converter where
  slots := Vector.replicate 8 none
  conversion := none
  lastChannel := none
  grantPointer := 7

/-! ### Sample Store (SST) -/

/-- A pass record (R63, Table 4-1): one slot for each step. -/
structure PassRecord where
  pass : Nat
  number : Option Word
  start : Long
  complete : Bool
  slots : List (Option Sample)
  slips : Nat
  droppedBefore : Nat
deriving DecidableEq, Repr

/-- A closed block: its records and the facts of its mark (R63, R69). -/
structure Block where
  records : List PassRecord
  slips : Nat
  short : Bool
  final : Bool
  writing : Bool
deriving DecidableEq, Repr

/-- A staging queue (R63): the closed blocks from the head, then the records after the last mark. In ARMED these are
the history and the pass in progress, afterwards the block in formation or the unnumbered tail (R68). -/
structure Staging where
  closed : List Block
  forming : List PassRecord
deriving DecidableEq, Repr

/-- A staging queue that holds nothing. -/
def Staging.empty : Staging := ⟨[], []⟩

/-! ### Delivery Unit (DLU) -/

/-- What a window allows the part to write (R78). -/
inductive WindowUse where
  | buffers | status | both
deriving DecidableEq, Repr

/-- A buffer window (R78, Table 5-1). -/
structure Window where
  enabled : Bool
  base : Long
  mask : Long
  use : WindowUse
deriving DecidableEq, Repr

/-- A window after power-on or link reset (Table 5-1). -/
def Window.reset : Window := ⟨false, 0, 0, .buffers⟩

/-- A descriptor and its fill record (R81); the flush timer holds the moment it expires (R95). -/
structure Descriptor where
  address : Long
  length : Nat
  tag : Word
  fill : Nat
  blocks : Nat
  firstSequence : Word
  lastSequence : Word
  timer : Option Nat
  flushDue : Bool
deriving DecidableEq, Repr

/-- The block write in flight (R87); `issued` is the moment its flush read was issued (R88). -/
structure BlockWrite where
  stream : StreamId
  target : Long
  tag : Word
  size : Nat
  sequence : Word
  issued : Nat
deriving DecidableEq, Repr

/-! ### Pace generators (PCG) and lines (LIN) -/

/-- The source of a generator (Table 6-1). -/
inductive PaceSource where
  | reference
  | trig (n : LineId)
deriving DecidableEq, Repr

/-- The mode of a generator (Table 6-1). -/
inductive PaceMode where
  | continuous | burst
deriving DecidableEq, Repr

/-- The state of a generator (R101). -/
inductive PaceState where
  | stopped | running | gated | done
deriving DecidableEq, Repr

/-- A pace generator (R101, Table 6-1). `owed` counts source events that have come and are not yet taken, because
the first of them completes an interval and its tick is due (notes/assumptions/6.md). -/
structure Generator where
  source : PaceSource
  prescale : Nat
  divide : Nat
  gate : Option LineId
  mode : PaceMode
  burst : Nat
  state : PaceState
  prescaleCount : Nat
  divideCount : Nat
  ticks : Nat
  owed : Nat
deriving DecidableEq, Repr

/-- A generator after power-on or link reset (Table 6-1). -/
def Generator.reset : Generator where
  source := .reference
  prescale := 1
  divide := 50
  gate := none
  mode := .continuous
  burst := 1
  state := .stopped
  prescaleCount := 0
  divideCount := 0
  ticks := 0
  owed := 0

/-- The polarity of a trigger line (R110). -/
inductive Polarity where
  | activeHigh | activeLow
deriving DecidableEq, Repr

/-- What a line has yet to hand to one group of its receivers from the sample that found it ACTIVE: the edge, when the gates
followed the sample first, or the change of active state, when the edge was taken first (R110, R111). The model's own
(notes/assumptions/8.md). -/
inductive LineOwed where
  | nothing | edge | change
deriving DecidableEq, Repr

/-- A trigger line: its polarity and its level as last sampled (R110), what it owes, and the moment of elapsed time before
which no sample can find it changed again, because a line is sampled once in every reference period (R110). The last two
are the model's own (notes/assumptions/8.md). -/
structure Line where
  polarity : Polarity
  high : Bool
  owed : LineOwed
  nextSample : Nat
deriving DecidableEq, Repr

/-! ### Watches (WCU) -/

/-- The action of a watch (Table 7-1). -/
inductive WatchAction where
  | none
  | start (n : StreamId)
  | halt (n : StreamId)
deriving DecidableEq, Repr

/-- The state of a watch (Table 7-1). -/
inductive WatchState where
  | inside | above | below
deriving DecidableEq, Repr

/-- The run side of a watch (Table 7-1). -/
inductive RunSide where
  | none | high | low
deriving DecidableEq, Repr

/-- The outcome of a watch's action (R124). -/
inductive ActionOutcome where
  | none | taken | ignored
deriving DecidableEq, Repr

/-- An offer of a sample (R52); the pass number is absent for "pre-trigger". -/
structure Offer where
  stream : StreamId
  channel : ChannelId
  sample : Sample
  time : Long
  number : Option Word
deriving DecidableEq, Repr

/-- A WATCH_EVENT record before its outcome and lost count are known (R124). -/
structure WatchEvent where
  watch : WatchId
  state : WatchState
  offer : Offer
  action : WatchAction
deriving DecidableEq, Repr

/-- The answer wait of a watch (R123): the request on its way, the answer once the Stream Controller gave it, the
held record when note is yes, and whether SET WATCH or CLEAR WATCH has replaced the setting since. -/
structure AnswerWait where
  request : WatchAction
  answer : Option ActionOutcome
  held : Option WatchEvent
  replaced : Bool
deriving DecidableEq, Repr

/-- A watch entry (R116, Table 7-1). -/
structure Watch where
  enabled : Bool
  channel : ChannelId
  filter : Option StreamId
  low : Half
  high : Half
  hysteresis : Nat
  persistence : Nat
  alert : Fin 4
  action : WatchAction
  note : Bool
  ring : RingId
  state : WatchState
  runCount : Nat
  runSide : RunSide
  lost : Nat
  wait : Option AnswerWait
  waiting : List Offer
deriving DecidableEq, Repr

/-- A watch after power-on or link reset (Table 7-1). -/
def Watch.reset : Watch where
  enabled := false
  channel := 0
  filter := none
  low := 0
  high := 0
  hysteresis := 0
  persistence := 1
  alert := 0
  action := .none
  note := false
  ring := 0
  state := .inside
  runCount := 0
  runSide := .none
  lost := 0
  wait := none
  waiting := []

/-! ### Completion records and rings (CMU) -/

/-- Table 9-3. -/
inductive Status where
  | done | unknownKind | badField | wrongState | inUse | noPages | queueFull | outsideWindow | writeError | backlog
deriving DecidableEq, Repr

/-- The flags of a BUFFER_DONE record (Tables 5-2 and 12-6). -/
structure BufferFlags where
  full : Bool := false
  final : Bool := false
  flushed : Bool := false
  aborted : Bool := false
  fault : Bool := false
  returned : Bool := false
deriving DecidableEq, Repr

/-- The event of a STREAM_STATE record with what it carries (R2). -/
inductive StreamEvent where
  | triggered (source : TriggerSource) (k : Nat)
  | draining (reason : EndReason) (begun : Nat)
  | ended (reason : EndReason) (begun : Nat) (nextSequence : Word)
  | faulted (reason : EndReason) (begun : Nat) (nextSequence : Word)
deriving DecidableEq, Repr

/-- The role of the part on SYNC (R129). -/
inductive Role where
  | off | leader | follower
deriving DecidableEq, Repr

/-- The event of a TIMEBASE_EVENT record (R136). -/
inductive TimebaseEvent where
  | syncTaken | syncExpired
deriving DecidableEq, Repr

/-- A completion record as its producer forms it (R161, Table 10-3); the phase is added at the write (R155). -/
inductive Record where
  | orderDone (index : Nat) (kind : Half) (status : Status) (tag : Word) (detail : Word)
  | bufferDone (stream : StreamId) (flags : BufferFlags) (tag : Word) (bytes : Nat) (blocks : Nat)
      (firstSequence lastSequence : Word)
  | streamState (stream : StreamId) (event : StreamEvent) (time : Long)
  | watchEvent (event : WatchEvent) (outcome : ActionOutcome) (lost : Nat)
  | timebaseEvent (event : TimebaseEvent) (role : Role) (timeoutMs : Nat) (preset count : Long)
deriving DecidableEq, Repr

/-- The holdoff timer of a ring (R154). -/
inductive HoldoffTimer where
  | stopped
  | running (expiry : Nat)
  | expired
deriving DecidableEq, Repr

/-- An enabled completion ring (R154, Table 10-1). -/
structure Ring where
  base : Long
  size : Nat
  threshold : Nat
  holdoffUs : Nat
  written : Nat
  returned : Nat
  waiting : List Record
  armed : Bool
  count : Nat
  timer : HoldoffTimer
deriving DecidableEq, Repr

/-- A record in an outbox with the ring it is bound for (R160). -/
structure OutboxEntry where
  ring : RingId
  record : Record
deriving DecidableEq, Repr

/-! ### Timebase (TMB) -/

/-- The sync arm (R129, R132); no expiry moment when the timeout is 0. -/
structure SyncArm where
  preset : Long
  timeoutMs : Nat
  expiry : Option Nat
deriving DecidableEq, Repr

/-- The fire field (R129, R133). -/
inductive Fire where
  | absent
  | waiting (t : Long)
  | driving (endsAt : Nat)
deriving DecidableEq, Repr

/-- The Timebase (R129, Table 8-1), with the report of room it has received for its hold slot (R157). -/
structure Timebase where
  count : Long
  role : Role
  arm : Option SyncArm
  fire : Fire
  hold : Option Record
  roomReported : Bool
deriving DecidableEq, Repr

/-! ### Order Unit (ORU) and Host Link (HLK) -/

/-- The geometry of the Order Ring (R141). -/
structure OrderRing where
  base : Long
  size : Nat
deriving DecidableEq, Repr

/-- The order in hand (R143, R146): its slot, kind, tag and SILENT flag. -/
structure OrderInHand where
  index : Nat
  kind : Half
  tag : Word
  silent : Bool
deriving DecidableEq, Repr

/-- The Order Unit's walk (Table 9-1), with the moment its read was issued or the records it still has to place. -/
inductive OrderWork where
  | idle
  | fetching (issued : Nat)
  | executing (order : OrderInHand) (issued : Nat)
  | placing (order : OrderInHand) (left : List OutboxEntry)
deriving DecidableEq, Repr

/-- The Order Unit (R141, R143), with the report of room it has received (R147). -/
structure OrderUnit where
  geometry : Option OrderRing
  head : Nat
  tail : Nat
  work : OrderWork
  roomReported : Bool
deriving DecidableEq, Repr

/-- Table 11-2. -/
inductive LinkState where
  | down | loading | up | stopping | fault
deriving DecidableEq, Repr

/-- The fault cause of LINK STATUS (R168). -/
inductive FaultCause where
  | none | controlBlockRead | controlBlockInvalid | orderRead | badTail | badHead
deriving DecidableEq, Repr

/-- The Host Link (R168); `cbRead` is the moment the Control Block read in flight was issued (R170). -/
structure HostLink where
  state : LinkState
  enable : Bool
  resetPending : Bool
  cbAddress : Long
  cause : FaultCause
  detail : Half
  cbRead : Option Nat
deriving DecidableEq, Repr

/-- One transaction that the part issues on the link: a posted write, a read of host memory, or the message of a
vector, which is a posted write of data to an address (R175, notes/assumptions/13.md). -/
inductive BusItem where
  | write (address : Long) (bytes : List Byte)
  | read (address : Long) (length : Nat)
  | message (vector : RingId) (address : Long) (data : Word)
deriving DecidableEq, Repr

/-! ### The whole part -/

/-- The state of the part. `pending` is the queue of commands, `elapsed` the reference periods of elapsed time
(R130, notes/assumptions/2.md), `choices` the number of free choices the idle step has made
(notes/assumptions/1.md), `bus` what the part has issued on the link, oldest first, `nextPassId` the identity the
next pass will get (R49), and `becameEligible` the streams that became eligible since the last grant, in the order taken
(R86, notes/assumptions/24.md). -/
structure State where
  pending : List Instr
  elapsed : Nat
  choices : Nat
  bus : List BusItem
  nextPassId : Nat
  link : HostLink
  orders : OrderUnit
  rings : Vector (Option Ring) 4
  outboxes : Vector (List OutboxEntry) 8
  streams : Vector StreamContext 8
  returns : Vector (List Return) 8
  scanLists : Vector (List ScanStep) 16
  channels : Vector ChannelSetting 32
  converters : Vector Converter 4
  freePages : Nat
  staging : Vector Staging 8
  windows : Vector Window 4
  buffers : Vector (List Descriptor) 8
  writeInFlight : Option BlockWrite
  grantPointer : StreamId
  becameEligible : List StreamId
  generators : Vector Generator 4
  lines : Vector Line 4
  syncHigh : Bool
  syncNext : Nat
  watches : Vector Watch 16
  alertLevel : Fin 4
  offers : List Offer
  timebase : Timebase
deriving DecidableEq, Repr

/-- No reason: the part has no state it stops in. A link fault (R173) and a stream in FAULTED (R24) are states the
machine goes on from (notes/assumptions/28.md). -/
inductive Fault where
deriving DecidableEq, Repr

/-- Why a command has no meaning. -/
inductive Refusal where
  /-- Raised by `exec` for a row that has no meaning yet; safe. -/
  | notModelled (mnemonic : String)
  /-- Raised by a meaning for a term that `Instr.wellFormed` refuses, which is no command of the part; safe. -/
  | illFormed (mnemonic : String)
deriving DecidableEq, Repr

/-- The part right after power-on reset (R177): every field as its chapter gives it. The levels of the trigger lines
follow the pins and have no reset value; LOW is the model's choice (notes/assumptions/9.md). -/
def State.reset : State where
  pending := []
  elapsed := 0
  choices := 0
  bus := []
  nextPassId := 0
  link := ⟨.down, false, false, 0, .none, 0, none⟩
  orders := ⟨none, 0, 0, .idle, false⟩
  rings := Vector.replicate 4 none
  outboxes := Vector.replicate 8 []
  streams := Vector.replicate 8 StreamContext.reset
  returns := Vector.replicate 8 []
  scanLists := Vector.replicate 16 []
  channels := Vector.replicate 32 ⟨0, 0⟩
  converters := Vector.replicate 4 Converter.reset
  freePages := 64
  staging := Vector.replicate 8 Staging.empty
  windows := Vector.replicate 4 Window.reset
  buffers := Vector.replicate 8 []
  writeInFlight := none
  grantPointer := 7
  becameEligible := []
  generators := Vector.replicate 4 Generator.reset
  lines := Vector.replicate 4 ⟨.activeHigh, false, .nothing, 1⟩
  syncHigh := true
  syncNext := 1
  watches := Vector.replicate 16 Watch.reset
  alertLevel := 0
  offers := []
  timebase := ⟨0, .off, none, .absent, none, false⟩

end Sys2Proof.Machine
end

