-- ==== Sys2Proof/Machine/Formats.lean ====
section
/-!
DEFINITION. Machine/Formats.lean: the byte layouts of what the part writes (12_record_and_register_formats.md):
the codes of Table 12-8, completion records (Table 12-6) and blocks (Table 12-7).
-/

namespace Sys2Proof.Machine

/-! ### Codes (Table 12-8) -/

def Status.code : Status → Nat
  | .done => 0 | .unknownKind => 1 | .badField => 2 | .wrongState => 3 | .inUse => 4 | .noPages => 5
  | .queueFull => 6 | .outsideWindow => 7 | .writeError => 8 | .backlog => 9

def TriggerSource.code : TriggerSource → Nat
  | .now => 1 | .lateTime => 2 | .time => 3 | .line _ => 4 | .order => 5 | .watch _ => 6

/-- The line or watch number of a trigger source, 0 where it names neither (R2, R179). -/
def TriggerSource.number : TriggerSource → Nat
  | .line n => n.val
  | .watch m => m.val
  | .now | .lateTime | .time | .order => 0

def EndReason.code : EndReason → Nat
  | .untriggered => 1 | .stopOrder => 2 | .countReached => 3 | .stopLine => 4 | .stopTime => 5 | .watchHalt => 6
  | .slipHalt => 7 | .overrunHalt => 8 | .aborted => 9 | .writeError => 10 | .teardown => 11

def StreamState.code : StreamState → Nat
  | .unconfigured => 0 | .idle => 1 | .armed => 2 | .running => 3 | .draining => 4 | .faulted => 5

def StartCondition.code : StartCondition → Nat
  | .now => 0 | .external => 1 | .line _ => 2 | .time _ => 3

def StopCondition.code : StopCondition → Nat
  | .none => 0 | .count _ => 1 | .line _ => 2 | .time _ => 3

def PaceSource.code : PaceSource → Nat
  | .reference => 0
  | .trig n => n.val + 1

def gateCode : Option LineId → Nat
  | none => 0
  | some n => n.val + 1

def PaceMode.code : PaceMode → Nat
  | .continuous => 0 | .burst => 1

def PaceState.code : PaceState → Nat
  | .stopped => 0 | .running => 1 | .gated => 2 | .done => 3

def WindowUse.code : WindowUse → Nat
  | .buffers => 0 | .status => 1 | .both => 2

def filterCode : Option StreamId → Nat
  | none => 0
  | some n => n.val + 1

def WatchAction.code : WatchAction → Nat
  | .none => 0
  | .start n => n.val + 1
  | .halt n => n.val + 9

def WatchState.code : WatchState → Nat
  | .inside => 0 | .above => 1 | .below => 2

def RunSide.code : RunSide → Nat
  | .none => 0 | .high => 1 | .low => 2

def ActionOutcome.code : ActionOutcome → Nat
  | .none => 0 | .taken => 1 | .ignored => 2

def Role.code : Role → Nat
  | .off => 0 | .leader => 1 | .follower => 2

def TimebaseEvent.code : TimebaseEvent → Nat
  | .syncTaken => 1 | .syncExpired => 2

def Fire.code : Fire → Nat
  | .absent => 0 | .waiting _ => 1 | .driving _ => 2

def OrderWork.code : OrderWork → Nat
  | .idle => 0 | .fetching _ => 1 | .executing _ _ => 2 | .placing _ _ => 3

def LinkState.code : LinkState → Nat
  | .down => 0 | .loading => 1 | .up => 2 | .stopping => 3 | .fault => 4

def FaultCause.code : FaultCause → Nat
  | .none => 0 | .controlBlockRead => 1 | .controlBlockInvalid => 2 | .orderRead => 3 | .badTail => 4 | .badHead => 5

/-- A bit of a flags byte. -/
def bit (b : Bool) (n : Nat) : Nat := if b then 2 ^ n else 0

/-- A flags byte of BUFFER_DONE (Table 12-6). -/
def BufferFlags.code (f : BufferFlags) : Nat :=
  bit f.full 0 + bit f.final 1 + bit f.flushed 2 + bit f.aborted 3 + bit f.fault 4 + bit f.returned 5

/-! ### Completion records (Table 12-6) -/

/-- The fields of a STREAM_STATE record after its stream and event (R2, R179). -/
def StreamEvent.fields : StreamEvent → List (Nat × List Byte)
  | .triggered source k => [(3, le 1 0), (4, le 1 source.code), (5, le 1 source.number), (16, le 4 k)]
  | .draining reason begun => [(3, le 1 1), (4, le 1 reason.code), (20, le 4 begun)]
  | .ended reason begun next => [(3, le 1 2), (4, le 1 reason.code), (20, le 4 begun), (24, le 4 next.toNat)]
  | .faulted reason begun next => [(3, le 1 3), (4, le 1 reason.code), (20, le 4 begun), (24, le 4 next.toNat)]

/-- The fields of a WATCH_EVENT record (R124, Table 12-6): the pass number of a pre-trigger offer is 0 (R179), and
so is the outcome's action on a return to INSIDE, which the event carries as NONE. -/
def WatchEvent.fields (e : WatchEvent) (outcome : ActionOutcome) (lost : Nat) : List (Nat × List Byte) :=
  [(2, le 1 e.watch.val), (3, le 1 e.state.code), (4, le 1 e.offer.stream.val),
   (5, le 1 (bit e.offer.sample.clip 0 + bit e.offer.number.isNone 1)), (6, le 2 e.offer.sample.code.toNat),
   (8, le 8 e.offer.time.toNat), (16, le 4 ((e.offer.number.getD 0).toNat)), (20, le 1 e.action.code),
   (21, le 1 outcome.code), (22, le 2 lost)]

/-- The kind code of a record (Table 12-6, byte 0). -/
def Record.kind : Record → Nat
  | .orderDone _ _ _ _ _ => 1
  | .bufferDone _ _ _ _ _ _ _ => 2
  | .streamState _ _ _ => 3
  | .watchEvent _ _ _ => 4
  | .timebaseEvent _ _ _ _ _ => 5

/-- The fields of a record after its kind and phase (Table 12-6). -/
def Record.fields : Record → List (Nat × List Byte)
  | .orderDone index kind status tag detail =>
    [(2, le 2 index), (4, le 2 kind.toNat), (6, le 1 status.code), (8, le 4 tag.toNat), (12, le 4 detail.toNat)]
  | .bufferDone stream flags tag bytes blocks first last =>
    [(2, le 1 stream.val), (3, le 1 flags.code), (4, le 4 tag.toNat), (8, le 4 bytes), (12, le 4 blocks),
     (16, le 4 first.toNat), (20, le 4 last.toNat)]
  | .streamState stream event time => [(2, le 1 stream.val), (8, le 8 time.toNat)] ++ event.fields
  | .watchEvent event outcome lost => event.fields outcome lost
  | .timebaseEvent event role timeout preset count =>
    [(2, le 1 event.code), (3, le 1 role.code), (4, le 4 timeout), (8, le 8 preset.toNat), (16, le 8 count.toNat)]

/-- The 32 bytes of a record written with a phase (R155, R161, Table 12-6). -/
def Record.bytes (r : Record) (phase : Bool) : List Byte :=
  layout 32 ([(0, le 1 r.kind), (1, le 1 (bit phase 0))] ++ r.fields)

/-! ### Blocks (Table 12-7) -/

/-- The size of a block of `passes` passes of `steps` samples (R72). -/
def blockSize (passes steps : Nat) : Nat := 32 + 4 * passes * steps

/-- A sample word (Table 12-7): `slipped` is set only in the word of step 0 (R72). -/
def sampleWord (x : Option Sample) (slipped : Bool) : List Byte :=
  let smp := x.getD ⟨0, false⟩
  le 2 smp.code.toNat ++ le 1 (bit smp.clip 0 + bit slipped 1) ++ le 1 0

/-- The sample words of one pass, in slot order (R72). -/
def passWords (r : PassRecord) : List Byte :=
  match r.slots with
  | [] => []
  | x :: xs => sampleWord x (0 < r.slips) ++ xs.flatMap (fun y => sampleWord y false)

/-- The attempts dropped just before a block's first pass (R72). -/
def Block.dropped (b : Block) : Nat := (b.records.head?.map (·.droppedBefore)).getD 0

/-- The flags of a block header: GAP when the dropped count is not zero (R89). -/
def Block.flags (b : Block) : Nat := bit (b.dropped != 0) 0 + bit b.short 1 + bit b.final 2

/-- The header of a block (R89, Table 12-7). -/
def Block.header (b : Block) (stream : StreamId) (steps : Nat) (sequence : Word) : List Byte :=
  let first := b.records.head?
  layout 32
    [(0, le 1 stream.val), (1, le 1 b.flags), (2, le 2 b.records.length), (4, le 1 steps),
     (6, le 2 (blockSize b.records.length steps)), (8, le 4 sequence.toNat),
     (12, le 4 (((first.bind (·.number)).getD 0).toNat)), (16, le 8 (match first with | some r => r.start.toNat | none => 0)),
     (24, le 2 b.slips), (26, le 2 b.dropped)]

/-- The bytes of a block: the header and then the samples, pass by pass (R72, R88). -/
def Block.bytes (b : Block) (stream : StreamId) (steps : Nat) (sequence : Word) : List Byte :=
  b.header stream steps sequence ++ b.records.flatMap passWords

end Sys2Proof.Machine
end

