-- ==== Sys2Proof/Machine/Ops.lean ====
section
/-!
DEFINITION. Machine/Ops.lean: the shared operations under every block: access to the banks of the state, saturating
counters, the passing of time (R130, Table 8-2), the counting of generators (R102) and the link's output.
-/

namespace Sys2Proof.Machine

/-! ### Banks -/

/-- A bank with its entry `i` changed. -/
def upd {α : Type} {n : Nat} (v : Vector α n) (i : Fin n) (f : α → α) : Vector α n := v.set i.val (f v[i]) i.isLt

/-- A bank with every entry changed. -/
def mapAll {α : Type} {n : Nat} (v : Vector α n) (f : α → α) : Vector α n := Vector.ofFn (fun i => f v[i])

def allStreams : List StreamId := [0, 1, 2, 3, 4, 5, 6, 7]
def allWatches : List WatchId := [0, 1, 2, 3, 4, 5, 6, 7, 8, 9, 10, 11, 12, 13, 14, 15]
def allFours : List (Fin 4) := [0, 1, 2, 3]

/-- Round-robin order: the stream after the pointer first, wrapping from ST7 to ST0, the pointer last (R45, R86). -/
def roundRobin (pointer : StreamId) : List StreamId := [1, 2, 3, 4, 5, 6, 7, 0].map (pointer + ·)

/-- The receivers `l` of one event in the order a command asks for: those in `pref` first, as they stand there, the
others after them. A single receiver needs no order (notes/assumptions/5.md). -/
def arrange {α : Type} [DecidableEq α] (pref : List α) (l : List α) : List α :=
  match l with
  | [] => []
  | [x] => [x]
  | l => pref.eraseDups.filter (fun x => l.contains x) ++ l.filter (fun x => !pref.contains x)

def State.modStream (s : State) (i : StreamId) (f : StreamContext → StreamContext) : State :=
  { s with streams := upd s.streams i f }
def State.modStaging (s : State) (i : StreamId) (f : Staging → Staging) : State :=
  { s with staging := upd s.staging i f }
def State.modBuffers (s : State) (i : StreamId) (f : List Descriptor → List Descriptor) : State :=
  { s with buffers := upd s.buffers i f }
def State.modOutbox (s : State) (i : StreamId) (f : List OutboxEntry → List OutboxEntry) : State :=
  { s with outboxes := upd s.outboxes i f }
def State.modReturns (s : State) (i : StreamId) (f : List Return → List Return) : State :=
  { s with returns := upd s.returns i f }
def State.modConverter (s : State) (c : ConverterId) (f : Converter → Converter) : State :=
  { s with converters := upd s.converters c f }
def State.modGenerator (s : State) (g : GeneratorId) (f : Generator → Generator) : State :=
  { s with generators := upd s.generators g f }
def State.modWatch (s : State) (m : WatchId) (f : Watch → Watch) : State :=
  { s with watches := upd s.watches m f }
def State.modLine (s : State) (n : LineId) (f : Line → Line) : State := { s with lines := upd s.lines n f }
def State.setRing (s : State) (n : RingId) (r : Ring) : State :=
  { s with rings := upd s.rings n (fun _ => some r) }

/-! ### Counters -/

/-- A saturating counter counts one (R1). -/
def satSucc (limit x : Nat) : Nat := min (x + 1) limit

/-- The top of the 16-bit "since last block" and lost counters. -/
def limit16 : Nat := 65535
/-- The top of the 32-bit counts and totals. -/
def limit32 : Nat := 4294967295

/-! ### Time -/

/-- Reference periods in a microsecond (Table 8-2). -/
def periodsPerUs : Nat := 50
/-- Reference periods in a millisecond (Table 8-2). -/
def periodsPerMs : Nat := 50000
/-- The 50 ms host read timeout (R174). -/
def hostReadTimeout : Nat := 50 * periodsPerMs
/-- The length of a SYNC pulse (R133). -/
def pulsePeriods : Nat := 50

/-- The timebase count after `d` reference periods: it stays at 2^64 − 1 (R130). -/
def advanceCount (count : Long) (d : Nat) : Long := BitVec.ofNat 64 (min (count.toNat + d) (2 ^ 64 - 1))

/-- Source events per tick (R102). -/
def Generator.interval (g : Generator) : Nat := g.prescale * g.divide

/-- Source events counted in the present interval, from the two counts (R102). -/
def Generator.counted (g : Generator) : Nat := g.divideCount * g.prescale + g.prescaleCount

/-- A generator with `n` source events of the present interval counted. -/
def Generator.setCounted (g : Generator) (n : Nat) : Generator :=
  { g with prescaleCount := n % g.prescale, divideCount := n / g.prescale }

/-- One source event counted by a RUNNING generator, as R102 words it; the second value says whether a tick is
issued. -/
def Generator.sourceEvent (g : Generator) : Generator × Bool :=
  if g.prescaleCount + 1 < g.prescale then ({ g with prescaleCount := g.prescaleCount + 1 }, false)
  else if g.divideCount + 1 < g.divide then
    ({ g with prescaleCount := 0, divideCount := g.divideCount + 1 }, false)
  else ({ g with prescaleCount := 0, divideCount := 0 }, true)

/-- `n` more source events reach a RUNNING generator: it counts them up to the one that completes an interval, and
owes that one and those after it until its tick is taken (notes/assumptions/6.md). -/
def Generator.receive (g : Generator) (n : Nat) : Generator :=
  let total := g.counted + g.owed + n
  if total < g.interval then { g.setCounted total with owed := 0 }
  else { g.setCounted (g.interval - 1) with owed := total - (g.interval - 1) }

/-- Whether a generator counts reference periods (R102). -/
def Generator.countsPeriods (g : Generator) : Bool := g.state == .running && g.source == .reference

/-- Source events that are still to come before the next tick of a generator (0 when one is owed). -/
def Generator.remaining (g : Generator) : Nat := if g.owed = 0 then g.interval - g.counted else 0

/-- Whether the part is driving SYNC: only while a pulse is DRIVING (R114, R133). -/
def Fire.drives : Fire → Bool
  | .driving _ => true
  | .absent | .waiting _ => false

/-- The number of the sample, of the `d` that come next, that finds an undriven low SYNC line high; none when it stays as
it is (R114, notes/assumptions/10.md). -/
def State.syncRise (s : State) (d : Nat) : Option Nat :=
  if s.syncHigh || s.timebase.fire.drives then none
  else if 1 ≤ Config.syncRise s.elapsed d ∧ Config.syncRise s.elapsed d ≤ d then some (Config.syncRise s.elapsed d)
  else none

/-- `d` reference periods pass: the count and the elapsed time advance (R130), RUNNING generators on the reference
clock receive source events (R102), and an undriven SYNC line that was low may be found high by one of the samples; the
next one is a reference period later (R114, notes/assumptions/10.md). -/
def passTime (d : Nat) (s : State) : State :=
  if d = 0 then s else
  { s with
    elapsed := s.elapsed + d
    timebase := { s.timebase with count := advanceCount s.timebase.count d }
    generators := mapAll s.generators (fun g => if g.countsPeriods then g.receive d else g)
    syncHigh := s.syncHigh || (s.syncRise d).isSome
    syncNext :=
      match s.syncRise d with
      | some r => s.elapsed + r + 1
      | none => s.syncNext }

/-- Time passes up to a moment, when that moment has not yet come (notes/assumptions/2.md). -/
def passTo (moment : Nat) (s : State) : State := passTime (moment - s.elapsed) s

/-! ### The link's output -/

/-- The part issues a transaction (notes/assumptions/13.md). -/
def State.emit (s : State) (item : BusItem) : State := { s with bus := s.bus ++ [item] }

/-- Whether a read issued at a moment can still end by its reply: once its 50 ms have run out the reply is discarded on
arrival and ends nothing (R174, notes/assumptions/38.md). -/
def State.inTime (s : State) (issued : Nat) : Bool := decide (s.elapsed ≤ issued + hostReadTimeout)

/-- Whether the link is UP. -/
def State.linkUp (s : State) : Bool := s.link.state == .up

/-- The number of host reads outstanding (R174): an Order Unit read, a block write's flush read, the Control Block
read. -/
def State.readsOutstanding (s : State) : Nat :=
  (match s.orders.work with
    | .fetching _ | .executing _ _ => 1
    | .idle | .placing _ _ => 0)
  + (if s.writeInFlight.isSome then 1 else 0) + (if s.link.cbRead.isSome then 1 else 0)

end Sys2Proof.Machine
end

