-- ==== Sys2Proof/Machine/Rings.lean ====
section
/-!
DEFINITION. Machine/Rings.lean: the Completion Unit (10_completion_rings_and_notification.md): ring positions, record
writes, messages, placement, outboxes and head writes.
-/

namespace Sys2Proof.Machine

/-- The places of a ring's pending list (R158). -/
def pendingLimit : Nat := 16

/-- Slots written and not yet returned (R154). -/
def Ring.outstanding (r : Ring) : Nat := (r.written + 2 * r.size - r.returned) % (2 * r.size)

/-- Free slots (R154). -/
def Ring.free (r : Ring) : Nat := r.size - r.outstanding

/-- The phase of the next record: 1 while W is below size (R154). -/
def Ring.phase (r : Ring) : Bool := decide (r.written < r.size)

/-- The host address of the next slot (R154). -/
def Ring.slotAddress (r : Ring) : Long := r.base + BitVec.ofNat 64 (32 * (r.written % r.size))

/-- Whether a ring has room: a free slot with an empty pending list, or a place in the pending list (R157). -/
def Ring.hasRoom (r : Ring) : Bool := (r.waiting.isEmpty && decide (0 < r.free)) || decide (r.waiting.length < pendingLimit)

/-- The record write as the ring sees it: W advances, the count rises, and the holdoff timer starts on the first
record after a message (R155, R163). -/
def Ring.afterWrite (r : Ring) (now : Nat) : Ring :=
  { r with
    written := (r.written + 1) % (2 * r.size)
    count := r.count + 1
    timer := if r.count = 0 ∧ r.holdoffUs ≠ 0 then .running (now + r.holdoffUs * periodsPerUs) else r.timer }

/-- Whether a message is due (R162). -/
def Ring.messageDue (r : Ring) : Bool :=
  r.armed && decide (1 ≤ r.count) && (decide (r.threshold ≤ r.count) || r.timer == .expired)

/-- The ring once its message is sent (R162). -/
def Ring.afterMessage (r : Ring) : Ring := { r with count := 0, armed := false, timer := .stopped }

/-- A message is a posted write of the data to the address that the configuration gives for the ring's vector, issued only
while message interrupts are enabled and the link is UP (R175). -/
def issueMessage (n : RingId) (s : State) : State :=
  if s.linkUp && Config.messageEnabled s.elapsed then
    s.emit (.message n (Config.messageAddress s.elapsed n) (Config.messageData s.elapsed n))
  else s

/-- R162 is examined for a ring: the message is sent when it is due. -/
def examineMessage (n : RingId) (s : State) : State :=
  match s.rings[n] with
  | none => s
  | some r => if r.messageDue then (issueMessage n s).setRing n r.afterMessage else s

/-- A record is written into the next slot of a ring that has a free slot (R155). -/
def writeRecord (n : RingId) (r : Ring) (record : Record) (s : State) : State :=
  examineMessage n ((s.emit (.write r.slotAddress (record.bytes r.phase))).setRing n (r.afterWrite s.elapsed))

/-- A record is offered to a ring (R158): the state once it is placed, or none when it is not placed. A ring that is
not enabled places nothing (R161). -/
def place (n : RingId) (record : Record) (s : State) : Option State :=
  match s.rings[n] with
  | none => none
  | some r =>
    if r.waiting = [] ∧ 0 < r.free then some (writeRecord n r record s)
    else if r.waiting.length < pendingLimit then some (s.setRing n { r with waiting := r.waiting ++ [record] })
    else none

/-- A record joins a stream's outbox, bound for the ring the stream is bound to (R160). A record that joins an empty
outbox is offered at once. Nothing is written once a teardown has begun (R166). -/
def joinOutbox (i : StreamId) (record : Record) (s : State) : State :=
  match s.streams[i].config with
  | none => s
  | some c =>
    if !s.linkUp then s
    else if s.outboxes[i] = [] then
      match place c.ring record s with
      | some s' => s'
      | none => s.modOutbox i (fun _ => [⟨c.ring, record⟩])
    else s.modOutbox i (fun o => o ++ [⟨c.ring, record⟩])

/-- Pending records move into the free slots of a ring, oldest first (R157 step 1); `fuel` bounds the moves. -/
def movePending (n : RingId) : Nat → State → State
  | 0, s => s
  | fuel + 1, s =>
    match s.rings[n] with
    | none => s
    | some r =>
      match r.waiting with
      | [] => s
      | record :: rest =>
        if 0 < r.free then
          let r' := { r with waiting := rest }
          movePending n fuel (writeRecord n r' record (s.setRing n r'))
        else s

/-- An outbox is served: its oldest record is placed while its ring has room (R157 step 2). -/
def serveOutbox (i : StreamId) : Nat → State → State
  | 0, s => s
  | fuel + 1, s =>
    match s.outboxes[i] with
    | [] => s
    | e :: rest =>
      match place e.ring e.record s with
      | some s' => serveOutbox i fuel (s'.modOutbox i (fun _ => rest))
      | none => s

/-- The ring on which the Order Unit waits with a record it could not place (R147). -/
def OrderUnit.waitingOn (o : OrderUnit) : Option RingId :=
  match o.work with
  | .placing _ (e :: _) => some e.ring
  | .placing _ [] | .idle | .fetching _ | .executing _ _ => none

/-- The Completion Unit reports room on a ring to the producers that wait for it (R157 step 3). -/
def reportRoom (n : RingId) (s : State) : State :=
  match s.rings[n] with
  | none => s
  | some r =>
    if r.hasRoom then
      { s with
        orders := if s.orders.waitingOn = some n then { s.orders with roomReported := true } else s.orders
        timebase :=
          if n = 0 ∧ s.timebase.hold.isSome then { s.timebase with roomReported := true } else s.timebase }
    else s

/-- A ring is re-armed after an accepted head write, and R162 is examined (R165). -/
def rearm (n : RingId) (s : State) : State :=
  match s.rings[n] with
  | none => s
  | some r => examineMessage n (s.setRing n { r with armed := true })

/-- The number of slots a head value would return (R156). -/
def Ring.returns (r : Ring) (value : Nat) : Nat := (value + 2 * r.size - r.returned) % (2 * r.size)

/-- Whether a head value is BAD HEAD (R156). -/
def Ring.badHead (r : Ring) (value : Nat) : Bool :=
  decide (2 * r.size ≤ value) || decide (r.outstanding < r.returns value)

end Sys2Proof.Machine
end

