-- ==== Sys2Proof/Machine/Converters.lean ====
section
/-!
DEFINITION. Machine/Converters.lean: the Converter Bank and the requests of a pass (03_converters_and_passes.md), with
the code a conversion gives (02_scan_lists_and_channels.md R38).
-/

namespace Sys2Proof.Machine

/-! ### Codes and averaging -/

/-- The full scale of a range in volts (Table 2-2). -/
def fullScale : Fin 4 → Nat
  | 0 => 10 | 1 => 5 | 2 => 2 | 3 => 1

/-- The whole number nearest to `a / b`, the one nearer to zero when `a / b` lies midway (R38), for `b` above 0. -/
def nearest (a b : Nat) : Nat := (2 * a + b - 1) / (2 * b)

/-- The code nearest to V × 32768 / FS before limiting (R38). -/
def exactCode (v : Voltage) (range : Fin 4) : Int :=
  let k : Int := nearest (v.num.natAbs * 32768) ((v.denPred + 1) * fullScale range)
  if v.num < 0 then -k else k

/-- One conversion: its code and whether it was saturated (R38). -/
def convert (v : Voltage) (range : Fin 4) : Int × Bool :=
  let k := exactCode v range
  if 32767 < k then (32767, true) else if k < -32768 then (-32768, true) else (k, false)

/-- The sample of a step (R47): the codes are added, the sum is divided by their number with the fraction dropped
toward zero, and CLIP is set if a conversion was saturated. -/
def formSample (averaging : Nat) (range : Fin 4) (inputs : Vector Voltage 8) : Sample :=
  let codes := (inputs.toList.take averaging).map (fun v => convert v range)
  { code := BitVec.ofInt 16 (Int.tdiv ((codes.map Prod.fst).foldl (· + ·) 0) averaging)
    clip := codes.any Prod.snd }

/-! ### Requests and grants -/

/-- The converter that serves a channel (R37). -/
def converterOf (c : ChannelId) : ConverterId := ⟨c.val / 8, by omega⟩

/-- The steps of the list a stream is bound to (R29, R34); none for a stream without configuration. -/
def State.stepsOf (s : State) (i : StreamId) : List ScanStep :=
  match s.streams[i].config with
  | some c => s.scanLists[c.scanList]
  | none => []

/-- Reference periods of a step: the settle, if one applies, and the conversions of 2 µs each (R46). -/
def stepPeriods (settles : Bool) (settle : Fin 16) (averaging : Nat) : Nat :=
  ((if settles then 1 + settle.val else 0) + 2 * averaging) * periodsPerUs

/-- A converter grants a request at a moment, with the channel's setting as it stands (R46). -/
def Converter.grant (c : Converter) (q : Request) (setting : ChannelSetting) (now : Nat) : Converter :=
  { c with
    conversion := some
      { owner := some q.stream, pass := q.pass, step := q.step, channel := q.channel, averaging := q.averaging,
        range := setting.range, settle := setting.settle,
        endsAt := now + stepPeriods (c.lastChannel != some q.channel) setting.settle q.averaging }
    lastChannel := some q.channel
    grantPointer := q.stream }

/-- A request reaches a converter: an idle one grants it at once, a busy one keeps it in the stream's slot (R44). -/
def Converter.takeRequest (c : Converter) (q : Request) (setting : ChannelSetting) (now : Nat) : Converter :=
  match c.conversion with
  | none => c.grant q setting now
  | some _ => { c with slots := upd c.slots q.stream (fun _ => some q) }

/-- The waiting request an idle converter grants next: the first filled slot after the grant pointer (R45). -/
def Converter.nextWaiting (c : Converter) : Option Request :=
  (roundRobin c.grantPointer).findSome? (fun i => c.slots[i])

/-- A converter that has become idle grants the next waiting request, if there is one (R45). -/
def Converter.grantNext (c : Converter) (channels : Vector ChannelSetting 32) (now : Nat) : Converter :=
  match c.nextWaiting with
  | none => c
  | some q => { c with slots := upd c.slots q.stream (fun _ => none) }.grant q channels[q.channel] now

/-- A converter's part of a withdrawal: the stream's request leaves its slot, its conversion is orphaned, and the grant
pointer stays (R54). -/
def Converter.withdraw (c : Converter) (i : StreamId) : Converter :=
  { c with
    slots := upd c.slots i (fun _ => none)
    conversion := c.conversion.map (fun v => if v.owner = some i then { v with owner := none } else v) }

/-- A converter at a teardown or link reset: slots emptied, the conversion orphaned, last channel none (R59, R60). -/
def Converter.clear (c : Converter) : Converter :=
  { c with
    slots := Vector.replicate 8 none
    conversion := c.conversion.map (fun v => { v with owner := none })
    lastChannel := none }

/-- An accepted SET CHANNEL reaches the converter: a last channel that is this channel is forgotten (R40, R58). -/
def Converter.forget (c : Converter) (ch : ChannelId) : Converter :=
  if c.lastChannel = some ch then { c with lastChannel := none } else c

/-- A stream places the request for the step it is walking with the converter that serves the step's channel
(R44, R49). -/
def placeRequest (i : StreamId) (s : State) : State :=
  match s.streams[i].pass with
  | none => s
  | some p =>
    match (s.stepsOf i)[p.step]? with
    | none => s
    | some step =>
      s.modConverter (converterOf step.channel) (fun c =>
        c.takeRequest ⟨i, p.pass, p.step, step.channel, step.averaging⟩ s.channels[step.channel] s.elapsed)

/-- A withdrawal of a stream's pass in progress, at the converters and at the stream (R54). -/
def withdrawPass (i : StreamId) (s : State) : State :=
  { s with converters := mapAll s.converters (fun c => c.withdraw i) }.modStream i
    (fun x => { x with pass := none })

end Sys2Proof.Machine
end

