-- ==== Sys2Proof/Machine/Staging.lean ====
section
/-!
DEFINITION. Machine/Staging.lean: the Sample Store's accounts of a staging queue (04_sample_store_and_staging.md),
as functions of the queue alone.
-/

namespace Sys2Proof.Machine

/-- Slots of a page (R61). -/
def slotsPerPage : Nat := 128

/-- All records of a staging queue, oldest first (R63). -/
def Staging.records (q : Staging) : List PassRecord := q.closed.flatMap (·.records) ++ q.forming

/-- The slots in use: S for each record (R63). -/
def Staging.slotsInUse (q : Staging) (steps : Nat) : Nat := steps * q.records.length

/-- The ready block of a stream: the oldest closed block, when it is READY (R73). -/
def Staging.readyBlock (q : Staging) : Option Block :=
  match q.closed with
  | [] => none
  | b :: _ => if b.writing then none else some b

/-- A new pass record with S slots reserved (R64, Table 4-1). -/
def newRecord (pass : Nat) (number : Option Word) (start : Long) (steps dropped : Nat) : PassRecord :=
  { pass := pass, number := number, start := start, complete := false, slots := List.replicate steps none, slips := 0,
    droppedBefore := dropped }

/-- A record joins the tail of the queue (R64). -/
def Staging.append (q : Staging) (r : PassRecord) : Staging := { q with forming := q.forming ++ [r] }

/-- The record of a pass is changed. -/
def Staging.modRecord (q : Staging) (pass : Nat) (f : PassRecord → PassRecord) : Staging :=
  { q with forming := q.forming.map (fun r => if r.pass = pass then f r else r) }

/-- The record of a pass, if the queue holds it. -/
def Staging.findRecord (q : Staging) (pass : Nat) : Option PassRecord := q.forming.find? (fun r => r.pass == pass)

/-- The record of a pass leaves the queue. -/
def Staging.dropRecord (q : Staging) (pass : Nat) : Staging :=
  { q with forming := q.forming.filter (fun r => r.pass != pass) }

/-- The sample of a step goes into its slot (R50, R66). -/
def PassRecord.writeSlot (r : PassRecord) (step : Nat) (x : Sample) : PassRecord :=
  { r with slots := r.slots.set step (some x) }

/-- The complete records of the history or of the block in formation. -/
def Staging.completeCount (q : Staging) : Nat := (q.forming.filter (·.complete)).length

/-- The oldest complete records are discarded until at most `keep` remain (R66, R68). -/
def Staging.trim (q : Staging) (keep : Nat) : Staging := { q with forming := q.forming.drop (q.completeCount - keep) }

/-- In ARMED the oldest history records are discarded one by one until S slots are free (R64). -/
def Staging.makeRoom (q : Staging) (steps capacity : Nat) : Staging :=
  let used := q.slotsInUse steps
  { q with forming := q.forming.drop ((used + steps - capacity + (steps - 1)) / steps) }

/-- The history records are numbered −k to −1, oldest first (R68): the record with j others after it gets −(j + 1). -/
def numberHistory : List PassRecord → List PassRecord
  | [] => []
  | r :: rest => { r with number := some (BitVec.ofInt 32 (-((rest.length : Int) + 1))) } :: numberHistory rest

/-- A block closed from records (R69 to R71). -/
def closedBlock (records : List PassRecord) (slips : Nat) (short final : Bool) : Block :=
  { records := records, slips := slips, short := short, final := final, writing := false }

/-- The block in formation is closed with the slip count of the stream's counter, when it holds a record
(R70, R71). -/
def Staging.close (q : Staging) (slips : Nat) (short final : Bool) : Staging :=
  match q.forming with
  | [] => q
  | r :: rest => ⟨q.closed ++ [closedBlock (r :: rest) slips short final], []⟩

/-- Every run of P complete records from the head of the block in formation is closed (R68 step 4); the first block
takes the slip counter. `fuel` bounds the blocks. -/
def closeRuns (p : Nat) : Nat → List PassRecord → Nat → List Block × List PassRecord
  | 0, forming, _ => ([], forming)
  | fuel + 1, forming, slips =>
    if 0 < p ∧ p ≤ forming.length ∧ (forming.take p).all (·.complete) then
      let rest := closeRuns p fuel (forming.drop p) 0
      (closedBlock (forming.take p) slips false false :: rest.1, rest.2)
    else ([], forming)

/-- The block in formation has reached P complete records (R69). -/
def Staging.full (q : Staging) (p : Nat) : Bool := decide (p ≤ q.completeCount)

/-- The newest closed block is marked FINAL when it is READY (R71). -/
def markNewestFinal : List Block → List Block
  | [] => []
  | [b] => [if b.writing then b else { b with final := true }]
  | b :: c :: rest => b :: markNewestFinal (c :: rest)

/-- The drain-end mark (R71). -/
def Staging.drainEnd (q : Staging) (slips : Nat) : Staging :=
  match q.forming with
  | [] => { q with closed := markNewestFinal q.closed }
  | _ :: _ => q.close slips true true

/-- Only the WRITING head block stays (R74, R76). -/
def Staging.keepWriting (q : Staging) : Staging :=
  match q.closed with
  | b :: _ => if b.writing then ⟨[b], []⟩ else Staging.empty
  | [] => Staging.empty

/-- The head block begins its write (R73). -/
def Staging.startWrite (q : Staging) : Staging :=
  match q.closed with
  | [] => q
  | b :: rest => { q with closed := { b with writing := true } :: rest }

/-- The head block leaves the queue (R73). -/
def Staging.dropHead (q : Staging) : Staging := { q with closed := q.closed.tail }

/-- Whether nothing is staged (R21). -/
def Staging.isEmpty (q : Staging) : Bool := q.closed.isEmpty && q.forming.isEmpty

end Sys2Proof.Machine
end

