-- ==== Sys2Proof/Machine/Delivery.lean ====
section
/-!
DEFINITION. Machine/Delivery.lean: windows, buffers and block delivery (05_buffers_and_block_delivery.md), and the accepted
head write, whose served outboxes make streams eligible.
-/

namespace Sys2Proof.Machine

/-- The places of a buffer queue (R81). -/
def bufferLimit : Nat := 32
/-- The longest buffer, 4 MiB (R81). -/
def maxBufferBytes : Nat := 4194304

/-! ### Windows -/

/-- Whether an address matches a window (R79). -/
def Window.covers (w : Window) (a : Long) : Bool := w.enabled && (a &&& w.mask) == (w.base &&& w.mask)

/-- Whether a window's use allows buffers (R79). -/
def WindowUse.allowsBuffers : WindowUse → Bool
  | .buffers | .both => true
  | .status => false

/-- Whether a window's use allows status records (R79). -/
def WindowUse.allowsStatus : WindowUse → Bool
  | .status | .both => true
  | .buffers => false

/-- Whether an area from its first to its last byte is accepted by one window for a purpose (R79). -/
def State.accepts (s : State) (allows : WindowUse → Bool) (first last : Long) : Bool :=
  allFours.any (fun w => (s.windows[w]).covers first && (s.windows[w]).covers last && allows (s.windows[w]).use)

/-! ### Buffers -/

/-- The max block bytes of a stream, 32 + 4 × P × S (00_scope.md section 4); 0 for a stream without configuration. -/
def State.maxBlockBytes (s : State) (i : StreamId) : Nat :=
  match s.streams[i].config with
  | some c => blockSize c.passesPerBlock (s.stepsOf i).length
  | none => 0

/-- A descriptor as it joins a queue (R81). -/
def Descriptor.fresh (e : DescriptorEntry) : Descriptor :=
  { address := e.address, length := e.length.toNat, tag := e.tag, fill := 0, blocks := 0, firstSequence := 0,
    lastSequence := 0, timer := none, flushDue := false }

/-- Whether a head descriptor is the current buffer: a block has been written into it (R81). -/
def Descriptor.isCurrent (d : Descriptor) : Bool := decide (0 < d.blocks)

/-- The current buffer of a stream (R81). -/
def State.currentBuffer (s : State) (i : StreamId) : Option Descriptor := s.buffers[i].head?.filter (·.isCurrent)

/-- The BUFFER_DONE record of a descriptor (R93): both sequences are 0 when no block was written. -/
def Descriptor.doneRecord (d : Descriptor) (i : StreamId) (flags : BufferFlags) : Record :=
  .bufferDone i flags d.tag d.fill d.blocks (if d.blocks = 0 then 0 else d.firstSequence)
    (if d.blocks = 0 then 0 else d.lastSequence)

/-- The BUFFER_DONE RETURNED record of a descriptor: zero bytes and blocks (R25, R84, R93). -/
def Descriptor.returnedRecord (d : Descriptor) (i : StreamId) : Record :=
  .bufferDone i { returned := true } d.tag 0 0 0 0

/-- The head descriptor is completed with flags: it leaves the queue and its record joins the outbox (R93). -/
def completeBuffer (i : StreamId) (flags : BufferFlags) (s : State) : State :=
  match s.buffers[i] with
  | [] => s
  | d :: rest => joinOutbox i (d.doneRecord i flags) (s.modBuffers i (fun _ => rest))

/-- The current buffer, if one is open, is completed with flags (R21, R22, R94). -/
def completeCurrent (i : StreamId) (flags : BufferFlags) (s : State) : State :=
  match s.currentBuffer i with
  | none => s
  | some _ => completeBuffer i flags s

/-- The head descriptor of a stream is changed. -/
def modHead (i : StreamId) (f : Descriptor → Descriptor) (s : State) : State :=
  s.modBuffers i (fun q =>
    match q with
    | [] => []
    | d :: rest => f d :: rest)

/-- A successful write into a descriptor (R90 step 3). -/
def Descriptor.addBlock (d : Descriptor) (w : BlockWrite) : Descriptor :=
  { d with
    fill := d.fill + w.size
    blocks := d.blocks + 1
    firstSequence := if d.blocks = 0 then w.sequence else d.firstSequence
    lastSequence := w.sequence }

/-! ### The arbiter -/

/-- Whether a block write of a stream is in flight. -/
def State.writing (s : State) (i : StreamId) : Bool :=
  match s.writeInFlight with
  | some w => w.stream == i
  | none => false

/-- Whether a stream is eligible for delivery (R85, R97). -/
def State.eligible (s : State) (i : StreamId) : Bool :=
  s.linkUp && (s.staging[i]).readyBlock.isSome && !(s.buffers[i]).isEmpty && (s.outboxes[i]).isEmpty

/-- A stream that a transition from `before` to `after` made eligible is noted behind those that became eligible before it
(R85, R86, notes/assumptions/24.md). -/
def noteEligible (i : StreamId) (before after : State) : State :=
  if before.eligible i = false ∧ after.eligible i = true then
    { after with becameEligible := after.becameEligible.erase i ++ [i] }
  else after

/-- A grant (R87, R88): the head block becomes WRITING, its bytes and the flush read of its last word are issued at
the target's address + fill, with the stream's next block sequence, which does not change yet. -/
def grantWrite (i : StreamId) (s : State) : State :=
  match s.staging[i].readyBlock, s.buffers[i].head? with
  | some b, some d =>
    let steps := (s.stepsOf i).length
    let size := blockSize b.records.length steps
    let sequence := s.streams[i].nextSequence
    let address := d.address + BitVec.ofNat 64 d.fill
    let s := s.modStaging i Staging.startWrite
    let s := s.emit (.write address (b.bytes i steps sequence))
    let s := s.emit (.read (address + BitVec.ofNat 64 (size - 4)) 0)
    { s with
      writeInFlight := some ⟨i, d.address, d.tag, size, sequence, s.elapsed⟩, grantPointer := i, becameEligible := [] }
  | _, _ => s

/-- The choice when a write ends: the free arbiter grants the first eligible stream after its grant pointer (R86). -/
def chooseGrant (s : State) : State :=
  if s.writeInFlight.isSome then s else
  match (roundRobin s.grantPointer).find? (fun i => s.eligible i) with
  | some i => grantWrite i s
  | none => s

/-- The choice while the arbiter is free: of the streams that became eligible the first one taken is granted (R86). -/
def grantFirst (s : State) : State :=
  if s.writeInFlight.isSome then s else
  match s.becameEligible.find? (fun i => s.eligible i) with
  | some i => grantWrite i s
  | none => chooseGrant s

/-! ### Head writes -/

/-- The outboxes are served in stream-number order, and a stream whose outbox empties may become eligible (R157 step 2,
R85). -/
def serveOutboxes (s : State) : State :=
  allStreams.foldl (fun s i => noteEligible i s (serveOutbox i (s.outboxes[i]).length s)) s

/-- An accepted head write: the slots are returned, waiting records move, the outboxes are served, room is reported, and
the ring is re-armed (R156, R157, R165). -/
def acceptHead (n : RingId) (r : Ring) (value : Nat) (s : State) : State :=
  let s := s.setRing n { r with returned := value }
  let s := movePending n r.waiting.length s
  rearm n (reportRoom n (serveOutboxes s))

/-! ### The target after a write -/

/-- The room test after a successful write (R90 step 4, R92, R96). -/
def roomTest (i : StreamId) (s : State) : State :=
  match s.buffers[i] with
  | [] => s
  | d :: _ =>
    if d.length - d.fill < s.maxBlockBytes i then completeBuffer i { full := true, flushed := d.flushDue } s
    else if d.flushDue then completeBuffer i { flushed := true } s
    else s

/-- The flush timer starts with the first block of a buffer that stays open (R90 step 5, R95). `first` says that the
write was the target's first block, `depth` how long the queue was before the room test, so that a completed target
starts no timer of the next descriptor. -/
def startFlushTimer (i : StreamId) (first : Bool) (depth : Nat) (s : State) : State :=
  match s.streams[i].config with
  | none => s
  | some c =>
    if first && decide ((s.buffers[i]).length = depth) && decide (c.flushMs ≠ 0) then
      modHead i (fun d => { d with timer := some (s.elapsed + c.flushMs * periodsPerMs) }) s
    else s

end Sys2Proof.Machine
end

