-- ==== Sys2Proof/Machine/Streams.lean ====
section
/-!
DEFINITION. Machine/Streams.lean: the Stream Controller's transitions (01_streams.md), which the orders, ticks, edges,
times, watch requests, returns and block writes share.
-/

namespace Sys2Proof.Machine

/-- A stream is active when it is ARMED, RUNNING or DRAINING (00_scope.md section 4). -/
def StreamState.active : StreamState → Bool
  | .armed | .running | .draining => true
  | .unconfigured | .idle | .faulted => false

/-- A stream is configured in every state except UNCONFIGURED (00_scope.md section 4). -/
def StreamState.configured : StreamState → Bool
  | .unconfigured => false
  | .idle | .armed | .running | .draining | .faulted => true

/-- The capacity of a stream in slots (section 4.2). -/
def StreamContext.capacity (x : StreamContext) : Nat := x.pagesHeld * slotsPerPage

/-- The run state as CONFIGURE STREAM and ARM STREAM clear it (R4, R6). -/
def StreamContext.clearRun (x : StreamContext) : StreamContext :=
  { x with
    nextPass := none, begun := 0, slippedSince := 0, droppedSince := 0, totalCompleted := 0, totalSlipped := 0,
    totalDropped := 0, totalBlocks := 0, nextSequence := 0, trigger := none, endReason := none }

/-- Whether a stream is in fast drain: DRAINING with end reason ABORTED (R20, R23). -/
def StreamContext.fastDrain (x : StreamContext) : Bool := x.state == .draining && x.endReason == some .aborted

/-- A STREAM_STATE record of a stream joins its outbox, stamped with the count (R2). -/
def streamRecord (i : StreamId) (event : StreamEvent) (s : State) : State :=
  joinOutbox i (.streamState i event s.timebase.count) s

/-- A stream enters IDLE with an end reason and an ENDED record (Table 1-3, R2). -/
def endStream (i : StreamId) (reason : EndReason) (s : State) : State :=
  let x := s.streams[i]
  streamRecord i (.ended reason x.begun x.nextSequence)
    (s.modStream i (fun x => { x with state := .idle, endReason := some reason }))

/-- The ordinary drain completes when no pass is in progress, nothing is staged and no block write of the stream is in
flight (R21). -/
def drainComplete (i : StreamId) (s : State) : State :=
  let x := s.streams[i]
  if x.state = .draining ∧ x.fastDrain = false ∧ x.pass = none ∧ (s.staging[i]).isEmpty = true ∧ s.writing i = false then
    match x.endReason with
    | some reason => endStream i reason (completeCurrent i { final := true } s)
    | none => s
  else s

/-- The stream's slip counter, taken by a block that closes when one does, is cleared (R69). -/
def clearSlips (i : StreamId) (closes : Bool) (s : State) : State :=
  if closes then s.modStream i (fun x => { x with slippedSince := 0 }) else s

/-- The drain-end mark (R71). -/
def drainEndMark (i : StreamId) (s : State) : State :=
  let slips := s.streams[i].slippedSince
  let closes := !(s.staging[i]).forming.isEmpty
  clearSlips i closes (s.modStaging i (fun q => q.drainEnd slips))

/-- A RUNNING stream enters DRAINING for a reason other than ABORT STREAM: the DRAINING record joins, and with no pass in
progress the drain-end mark is placed and the drain may complete at once (R2, R20, R21, R71, R75). -/
def enterDraining (i : StreamId) (reason : EndReason) (s : State) : State :=
  let x := s.streams[i]
  let t := s.modStream i (fun x => { x with state := .draining, endReason := some reason })
  let t := streamRecord i (.draining reason x.begun) t
  noteEligible i s (if x.pass.isNone then drainComplete i (drainEndMark i t) else t)

/-- An ARMED stream ends: its history is discarded, its pass withdrawn, and it enters IDLE (R16, R19, R22, R74). -/
def endArmed (i : StreamId) (reason : EndReason) (s : State) : State :=
  endStream i reason (withdrawPass i (s.modStaging i (fun _ => Staging.empty)))

/-- The history at a trigger as the Sample Store fixes it: trimmed, numbered (R9 step 4 and 5, R68 steps 1 to 3). The
second value is k. -/
def fixHistory (inProgress : Bool) (depth : Nat) (q : Staging) : Staging × Nat :=
  if inProgress = false then ({ q with forming := numberHistory q.forming }, q.forming.length)
  else if 1 ≤ depth then
    let q := q.trim (depth - 1)
    ({ q with forming := numberHistory q.forming }, q.forming.length)
  else (q, 0)

/-- The stop condition TIME is examined against the count while the stream is RUNNING (R15, R137). -/
def examineStopTime (i : StreamId) (s : State) : State :=
  match s.streams[i].config with
  | none => s
  | some c =>
    match c.stop with
    | .time t => if s.streams[i].state = .running ∧ t ≤ s.timebase.count then enterDraining i .stopTime s else s
    | .none | .count _ | .line _ => s

/-- The trigger is taken (R9, R68): the stream enters RUNNING, its history is numbered and forms blocks, the TRIGGERED
record joins, and a stop time already reached drains it at once (R15). -/
def takeTrigger (i : StreamId) (source : TriggerSource) (s : State) : State :=
  match s.streams[i].config with
  | none => s
  | some c =>
    let x := s.streams[i]
    let h := fixHistory x.pass.isSome c.depth s.staging[i]
    let runs := closeRuns c.passesPerBlock h.1.forming.length h.1.forming x.slippedSince
    let t := s.modStaging i (fun _ => ⟨h.1.closed ++ runs.1, runs.2⟩)
    let t := t.modStream i (fun x =>
      { x with
        state := .running, trigger := some ⟨s.timebase.count, source⟩, nextPass := some 0, begun := 0 })
    let t := clearSlips i (!runs.1.isEmpty) t
    noteEligible i s (examineStopTime i (streamRecord i (.triggered source h.2) t))

/-- A pass begins: its record joins the staging queue, the pass in progress becomes present, and step 0 is requested
(R49, R64). -/
def beginPass (i : StreamId) (number : Option Word) (dropped : Nat) (s : State) : State :=
  let pass := s.nextPassId
  let s := s.modStaging i (fun q => q.append (newRecord pass number s.timebase.count (s.stepsOf i).length dropped))
  let s := s.modStream i (fun x => { x with pass := some ⟨pass, 0⟩ })
  placeRequest i { s with nextPassId := pass + 1 }

/-- A tick begins a history pass of an ARMED stream (R7, R64). -/
def beginHistory (i : StreamId) (s : State) : State :=
  beginPass i none 0 (s.modStaging i (fun q => q.makeRoom (s.stepsOf i).length s.streams[i].capacity))

/-- Whether COUNT N is met: the attempt that brought the passes begun to N has ended (R14). -/
def countMet (c : StreamConfig) (begun : Nat) : Bool :=
  match c.stop with
  | .count n => decide (begun = n)
  | .none | .line _ | .time _ => false

/-- A slip (R12, R53, R66). -/
def takeSlip (i : StreamId) (c : StreamConfig) (p : PassInProgress) (s : State) : State :=
  let s := s.modStream i (fun x =>
    { x with slippedSince := satSucc limit16 x.slippedSince, totalSlipped := satSucc limit32 x.totalSlipped })
  let s := s.modStaging i (fun q => q.modRecord p.pass (fun r => { r with slips := satSucc limit16 r.slips }))
  match c.slipPolicy with
  | .mark => s
  | .halt => enterDraining i .slipHalt s

/-- An attempt finds no room: the overrun is counted, the block in formation closes SHORT, and the overrun policy and
then COUNT decide (R13, R14, R70). -/
def takeOverrun (i : StreamId) (c : StreamConfig) (s : State) : State :=
  let slips := s.streams[i].slippedSince
  let closes := !(s.staging[i]).forming.isEmpty
  let t := s.modStream i (fun x =>
    { x with droppedSince := satSucc limit16 x.droppedSince, totalDropped := satSucc limit32 x.totalDropped })
  let t := clearSlips i closes (t.modStaging i (fun q => q.close slips true false))
  noteEligible i s
    (match c.overrunPolicy with
    | .halt => enterDraining i .overrunHalt t
    | .mark => if countMet c t.streams[i].begun then enterDraining i .countReached t else t)

/-- A pass attempt of a RUNNING stream (R11, R64, R65). -/
def takeAttempt (i : StreamId) (c : StreamConfig) (s : State) : State :=
  let number := s.streams[i].nextPass.getD 0
  let s := s.modStream i (fun x => { x with nextPass := some (number + 1), begun := satSucc limit32 x.begun })
  let x := s.streams[i]
  let steps := (s.stepsOf i).length
  if (s.staging[i]).slotsInUse steps + steps ≤ x.capacity then
    beginPass i (some number) x.droppedSince (s.modStream i (fun x => { x with droppedSince := 0 }))
  else takeOverrun i c s

/-- A stream takes a tick of its generator by the rules of its state (R108). -/
def takeTick (i : StreamId) (s : State) : State :=
  let x := s.streams[i]
  match x.config with
  | none => s
  | some c =>
    match x.state with
    | .armed => if x.pass.isSome then s else beginHistory i s
    | .running =>
      match x.pass with
      | some p => takeSlip i c p s
      | none => takeAttempt i c s
    | .unconfigured | .idle | .draining | .faulted => s

/-- A stream takes an edge of a trigger line: its start line triggers it when it is ARMED, its stop line drains it when it
is RUNNING (R8, R15, R111). -/
def takeEdge (n : LineId) (i : StreamId) (s : State) : State :=
  let x := s.streams[i]
  match x.config with
  | none => s
  | some c =>
    match x.state with
    | .armed => if c.start = .line n then takeTrigger i (.line n) s else s
    | .running => if c.stop = .line n then enterDraining i .stopLine s else s
    | .unconfigured | .idle | .draining | .faulted => s

/-- A stream's timed conditions are examined against the count (R8, R15, R137). -/
def takeTime (i : StreamId) (s : State) : State :=
  let x := s.streams[i]
  match x.config with
  | none => s
  | some c =>
    match x.state with
    | .armed =>
      match c.start with
      | .time t => if t ≤ s.timebase.count then takeTrigger i .time s else s
      | .now | .external | .line _ => s
    | .running => examineStopTime i s
    | .unconfigured | .idle | .draining | .faulted => s

/-- A watch's START request at its target (R18), with the answer. -/
def takeStartRequest (m : WatchId) (i : StreamId) (s : State) : State × ActionOutcome :=
  if s.streams[i].state = .armed then (takeTrigger i (.watch m) s, .taken) else (s, .ignored)

/-- A watch's HALT request at its target (R19), with the answer. -/
def takeHaltRequest (i : StreamId) (s : State) : State × ActionOutcome :=
  match s.streams[i].state with
  | .running => (enterDraining i .watchHalt s, .taken)
  | .armed => (endArmed i .watchHalt s, .taken)
  | .unconfigured | .idle | .draining | .faulted => (s, .ignored)

/-- A numbered pass completes in RUNNING or DRAINING: it counts, and the block in formation closes at P passes
(R9, R11, R69). -/
def countPass (i : StreamId) (c : StreamConfig) (s : State) : State :=
  let s := s.modStream i (fun x => { x with totalCompleted := satSucc limit32 x.totalCompleted })
  let slips := s.streams[i].slippedSince
  let closes := (s.staging[i]).full c.passesPerBlock
  clearSlips i closes (s.modStaging i (fun q => if closes then q.close slips false false else q))

/-- The pass in progress completes (R51): its record is marked, the pass in progress becomes absent, and the stream acts
by its state; an unnumbered tail is discarded (R9, R68). -/
def completePass (i : StreamId) (c : StreamConfig) (p : PassInProgress) (s : State) : State :=
  let t := s.modStaging i (fun q => q.modRecord p.pass (fun r => { r with complete := true }))
  let t := t.modStream i (fun x => { x with pass := none })
  let numbered := (((t.staging[i]).findRecord p.pass).bind (·.number)).isSome
  noteEligible i s
    (match t.streams[i].state with
    | .armed => t.modStaging i (fun q => q.trim c.depth)
    | .running =>
      if numbered then
        let t := countPass i c t
        if countMet c t.streams[i].begun then enterDraining i .countReached t else t
      else t.modStaging i (fun q => q.dropRecord p.pass)
    | .draining =>
      let t := if numbered then countPass i c t else t.modStaging i (fun q => q.dropRecord p.pass)
      drainComplete i (drainEndMark i t)
    | .unconfigured | .idle | .faulted => t)

/-- A stream takes a return (R50): one that names the pass in progress at its current step fills its slot, is offered to
the Watch Unit (R52), and leads to the next request or completes the pass; any other is discarded. -/
def takeReturn (i : StreamId) (r : Return) (s : State) : State :=
  let x := s.streams[i]
  match x.config, x.pass with
  | some c, some p =>
    if r.pass ≠ p.pass ∨ r.step ≠ p.step then s else
    let steps := s.stepsOf i
    let number := ((s.staging[i]).findRecord p.pass).bind (·.number)
    let s := s.modStaging i (fun q => q.modRecord p.pass (fun e => e.writeSlot p.step r.sample))
    let s :=
      match steps[p.step]? with
      | some step =>
        if x.state.active then { s with offers := s.offers ++ [⟨i, step.channel, r.sample, r.time, number⟩] } else s
      | none => s
    if p.step + 1 < steps.length then
      placeRequest i (s.modStream i (fun x => { x with pass := some { p with step := p.step + 1 } }))
    else completePass i c p s
  | _, _ => s

/-- ABORT STREAM in RUNNING or DRAINING with no block write of the stream in flight (R22). -/
def abortNow (i : StreamId) (s : State) : State :=
  let s := withdrawPass i (s.modStaging i (fun _ => Staging.empty))
  endStream i .aborted (completeCurrent i { aborted := true } s)

/-- ABORT STREAM in RUNNING or DRAINING with a block write of the stream in flight: fast drain (R23, R94). -/
def abortFast (i : StreamId) (s : State) : State :=
  let x := s.streams[i]
  let s := withdrawPass i (s.modStaging i Staging.keepWriting)
  let s := modHead i (fun d => { d with timer := none, flushDue := false }) s
  let s := s.modStream i (fun x => { x with state := .draining, endReason := some .aborted })
  if x.state = .running then streamRecord i (.draining .aborted x.begun) s else s

/-- The end of an arming is considered after a successful write (R90 step 6). -/
def afterWriteSuccess (i : StreamId) (s : State) : State :=
  if s.streams[i].fastDrain then endStream i .aborted (completeCurrent i { aborted := true } s)
  else drainComplete i s

/-- A block write of a RUNNING or DRAINING stream fails (R24, R91). -/
def failStream (i : StreamId) (s : State) : State :=
  let s := withdrawPass i (s.modStaging i (fun _ => Staging.empty))
  let s := completeBuffer i { fault := true } s
  let x := s.streams[i]
  let s := s.modStream i (fun x => { x with state := .faulted, endReason := some .writeError })
  streamRecord i (.faulted .writeError x.begun x.nextSequence) s

/-- A stream at the beginning of a teardown (R26). -/
def StreamContext.teardown (x : StreamContext) : StreamContext :=
  if x.state.active then { x with state := .idle, endReason := some .teardown, pass := none } else x

end Sys2Proof.Machine
end

