-- ==== Sys2Proof/Machine/Pacing.lean ====
section
/-!
DEFINITION. Machine/Pacing.lean: ticks, gates and trigger lines (06_pacing_and_external_lines.md).
-/

namespace Sys2Proof.Machine

/-- The active state of a line, from its level under its polarity (R110). -/
def Line.active (l : Line) : Bool :=
  match l.polarity with
  | .activeHigh => l.high
  | .activeLow => !l.high

/-- A line whose level is such that its active state is `active` (R110). -/
def Line.setActive (l : Line) (active : Bool) : Line :=
  match l.polarity with
  | .activeHigh => { l with high := active }
  | .activeLow => { l with high := !active }

/-- The configured streams bound to a generator (R108). -/
def State.boundTo (s : State) (g : GeneratorId) : List StreamId :=
  allStreams.filter (fun i => (s.streams[i]).state.configured &&
    match (s.streams[i]).config with
    | some c => c.generator == g
    | none => false)

/-- A burst that has reached its count ends in DONE, with the prescale and divide counts 0 (R104). -/
def Generator.endBurst (g : Generator) : Generator :=
  if g.mode = .burst ∧ g.burst ≤ g.ticks then { g with state := .done, prescaleCount := 0, divideCount := 0, owed := 0 }
  else g

/-- A generator issues a tick: it is counted, handed to the bound streams, and the burst may end (R102, R104, R108). -/
def issueTick (g : GeneratorId) (order : List StreamId) (s : State) : State :=
  let s := s.modGenerator g (fun x => { x with ticks := satSucc limit32 x.ticks })
  let s := (arrange order (s.boundTo g)).foldl (fun s i => takeTick i s) s
  s.modGenerator g Generator.endBurst

/-- The source event that completes an interval is taken: both counts return to 0, and the events owed after it are
received (R102, notes/assumptions/6.md). -/
def Generator.completeInterval (g : Generator) : Generator :=
  { g with prescaleCount := 0, divideCount := 0, owed := g.owed - 1 }.receive 0

/-- A generator takes an edge of its source line (R102, R111). -/
def takeSourceEdge (n : LineId) (g : GeneratorId) (order : List StreamId) (s : State) : State :=
  let x := s.generators[g]
  if x.state = .running ∧ x.source = .trig n then
    let s' := s.modGenerator g (fun y => y.sourceEvent.1)
    if x.sourceEvent.2 then issueTick g order s' else s'
  else s

/-- A generator follows a change of its gate line (R103). A gate that closes leaves uncounted the source events the
generator has not taken. -/
def Generator.followGate (g : Generator) (n : LineId) (active : Bool) : Generator :=
  if g.gate = some n then
    match g.state, active with
    | .running, false => { g with state := .gated, owed := 0 }
    | .gated, true => { g with state := .running }
    | _, _ => g
  else g

/-- The receivers of an edge: streams 0 to 7, generators 8 to 11 (R111). -/
def takeEdgeAt (n : LineId) (streams : List StreamId) (r : Fin 12) (s : State) : State :=
  if h : r.val < 8 then takeEdge n ⟨r.val, h⟩ s else takeSourceEdge n ⟨r.val - 8, by omega⟩ streams s

def allReceivers : List (Fin 12) := [0, 1, 2, 3, 4, 5, 6, 7, 8, 9, 10, 11]

/-- Whether a stream acts on an edge of a line (R111). -/
def StreamContext.minds (x : StreamContext) (n : LineId) : Bool :=
  match x.config with
  | none => false
  | some c => (x.state == .armed && c.start == .line n) || (x.state == .running && c.stop == .line n)

/-- The receivers that may act on an edge of a line: streams that start or stop on it, generators that count it, and the
streams those tick (R111). -/
def State.receivers (s : State) (n : LineId) : List (Fin 12) :=
  allReceivers.filter (fun r =>
    if h : r.val < 8 then (s.streams.get ⟨r.val, h⟩).minds n
    else
      let g := s.generators.get ⟨r.val - 8, by omega⟩
      g.state == .running && g.source == .trig n)

/-- Whether an active stream or a counting generator uses a line (R112): the lowest-numbered stream, or 8 plus the
lowest-numbered generator. -/
def State.lineUser (s : State) (n : LineId) : Option Nat :=
  let stream := allStreams.find? (fun i => (s.streams[i]).state.active &&
    match (s.streams[i]).config with
    | some c => c.start == .line n || c.stop == .line n
    | none => false)
  let generator := allFours.find? (fun g =>
    ((s.generators[g]).state == .running || (s.generators[g]).state == .gated) &&
      ((s.generators[g]).source == .trig n || (s.generators[g]).gate == some n))
  match stream, generator with
  | some i, _ => some i.val
  | none, some g => some (8 + g.val)
  | none, none => none

end Sys2Proof.Machine
end

