-- ==== Sys2Proof/Machine/Watches.lean ====
section
/-!
DEFINITION. Machine/Watches.lean: the Watch Unit (07_watches_and_alert_levels.md).
-/

namespace Sys2Proof.Machine

/-- The places for waiting offers (R123). -/
def waitingLimit : Nat := 16

/-- The alert level of a watch table: the highest among the enabled watches in ABOVE or BELOW, else 0 (R125). -/
def alertOf (watches : Vector Watch 16) : Fin 4 :=
  allWatches.foldl (fun level m =>
    let w := watches[m]
    if w.enabled && w.state != .inside then max level w.alert else level) 0

/-- The alert level is recomputed and handed to the Line Interface (R125). -/
def recomputeAlert (s : State) : State := { s with alertLevel := alertOf s.watches }

/-- ALERT0 and ALERT1 (R114, Table 7-3). -/
def State.alert0 (s : State) : Bool := s.alertLevel.val % 2 == 1
def State.alert1 (s : State) : Bool := s.alertLevel.val / 2 == 1

/-- A WATCH_EVENT record is handed to placement on the ring of the watch's setting (R124): placed, the lost count
becomes 0; not placed, it is dropped and counted, but for a record whose setting was replaced (R123). -/
def placeWatchEvent (m : WatchId) (e : WatchEvent) (outcome : ActionOutcome) (replaced : Bool) (s : State) : State :=
  let w := s.watches[m]
  match place w.ring (.watchEvent e outcome w.lost) s with
  | some s' => s'.modWatch m (fun w => { w with lost := 0 })
  | none => if replaced then s else s.modWatch m (fun w => { w with lost := satSucc limit16 w.lost })

/-- A watch enters ABOVE or BELOW (R121): the alert level is recomputed, its request is handed to the Stream Controller
with the record held (R123), or with action NONE its record is placed at once (R124). -/
def enterWatch (m : WatchId) (state : WatchState) (o : Offer) (s : State) : State :=
  let w := s.watches[m]
  let e : WatchEvent := ⟨m, state, o, w.action⟩
  let s := recomputeAlert (s.modWatch m (fun w => { w with state := state, runCount := 0, runSide := .none }))
  match w.action with
  | .none => if w.note then placeWatchEvent m e .none false s else s
  | .start _ | .halt _ =>
    s.modWatch m (fun x => { x with wait := some ⟨w.action, none, if w.note then some e else none, false⟩ })

/-- A watch returns to INSIDE (R122). -/
def returnWatch (m : WatchId) (o : Offer) (s : State) : State :=
  let w := s.watches[m]
  let s := recomputeAlert (s.modWatch m (fun w => { w with state := .inside, runCount := 0, runSide := .none }))
  if w.note then placeWatchEvent m ⟨m, .inside, o, .none⟩ .none false s else s

/-- A sample out of band on a side counts, and enters the state of that side at the persistence (R121). -/
def countRun (m : WatchId) (side : RunSide) (state : WatchState) (o : Offer) (s : State) : State :=
  let w := s.watches[m]
  let run := if w.runSide = side then w.runCount + 1 else 1
  if run = w.persistence then enterWatch m state o s
  else s.modWatch m (fun w => { w with runCount := run, runSide := side })

/-- A watch judges an offer in its state (R121, R122); thresholds are exact integers. -/
def judge (m : WatchId) (o : Offer) (s : State) : State :=
  let w := s.watches[m]
  let x := o.sample.code.toInt
  match w.state with
  | .inside =>
    if w.high.toInt < x then countRun m .high .above o s
    else if x < w.low.toInt then countRun m .low .below o s
    else s.modWatch m (fun w => { w with runCount := 0, runSide := .none })
  | .above => if x ≤ w.high.toInt - (w.hysteresis : Int) then returnWatch m o s else s
  | .below => if w.low.toInt + (w.hysteresis : Int) ≤ x then returnWatch m o s else s

/-- The conditions under which a watch judges an offer (R120). -/
def Watch.matches (w : Watch) (o : Offer) : Bool :=
  w.enabled && w.channel == o.channel &&
    match w.filter with
    | none => true
    | some i => i == o.stream

/-- An offer reaches a watch (R120, R123): a watch with an answer wait keeps it, up to 16, and judges it later. -/
def offerTo (m : WatchId) (o : Offer) (s : State) : State :=
  let w := s.watches[m]
  if w.matches o then
    match w.wait with
    | some _ =>
      if w.waiting.length < waitingLimit then s.modWatch m (fun w => { w with waiting := w.waiting ++ [o] }) else s
    | none => judge m o s
  else s

/-- The watches an offer reaches (R120). -/
def State.watchesFor (s : State) (o : Offer) : List WatchId := allWatches.filter (fun m => (s.watches[m]).matches o)

/-- The answer of the Stream Controller reaches a watch's answer wait. -/
def giveAnswer (m : WatchId) (a : ActionOutcome) (s : State) : State :=
  s.modWatch m (fun w => { w with wait := w.wait.map (fun t => { t with answer := some a }) })

/-- A watch takes its answer (R123): the held record is completed and placed, the answer wait ends, and the waiting
offers are judged by the setting as it stands (notes/assumptions/18.md). -/
def endWait (m : WatchId) (t : AnswerWait) (a : ActionOutcome) (s : State) : State :=
  let s :=
    match t.held with
    | some e => placeWatchEvent m e a t.replaced s
    | none => s
  let offers := (s.watches[m]).waiting
  offers.foldl (fun s o => offerTo m o s) (s.modWatch m (fun w => { w with wait := none, waiting := [] }))

/-- The judgement of a watch as SET WATCH and CLEAR WATCH reset it (R118, R119); an answer wait stays, and remembers
that the setting it belongs to was replaced (R123). -/
def Watch.resetJudgement (w : Watch) : Watch :=
  { w with
    state := .inside, runCount := 0, runSide := .none, lost := 0
    wait := w.wait.map (fun t => { t with replaced := true }) }

/-- A watch at the beginning of a teardown (R126). -/
def Watch.teardown (w : Watch) : Watch :=
  { w with state := .inside, runCount := 0, runSide := .none, lost := 0, wait := none, waiting := [] }

end Sys2Proof.Machine
end

