-- ==== Sys2Proof/Machine/Synchronization.lean ====
section
/-!
DEFINITION. Machine/Synchronization.lean: the Timebase's pulses, loads, records and timed conditions
(08_timebase_and_synchronization.md).
-/

namespace Sys2Proof.Machine

/-- A SYNC pulse begins: the fire field becomes DRIVING, and ends 50 reference periods later (R133). -/
def beginPulse (s : State) : State :=
  { s with timebase := { s.timebase with fire := .driving (s.elapsed + pulsePeriods) } }

/-- A waiting fire whose time the count has reached begins its pulse (R133, R137). -/
def examineFire (s : State) : State :=
  match s.timebase.fire with
  | .waiting t => if t ≤ s.timebase.count then beginPulse s else s
  | .absent | .driving _ => s

/-- Whether a stream watches a time that the count has reached (R137). -/
def StreamContext.timeMet (x : StreamContext) (count : Long) : Bool :=
  match x.config with
  | none => false
  | some c =>
    match x.state, c.start, c.stop with
    | .armed, .time t, _ => decide (t ≤ count)
    | .running, _, .time t => decide (t ≤ count)
    | _, _, _ => false

/-- The streams whose timed conditions are met (R137). -/
def State.timedStreams (s : State) : List StreamId := allStreams.filter (fun i => (s.streams[i]).timeMet s.timebase.count)

/-- Every timed condition is examined against the count (R137). -/
def examineTimes (order : List StreamId) (s : State) : State :=
  examineFire ((arrange order s.timedStreams).foldl (fun s i => takeTime i s) s)

/-- A TIMEBASE_EVENT record is handed to placement on CR0, or goes into the hold slot (R136); nothing is kept once a
teardown has begun (R166). -/
def handTimebaseEvent (r : Record) (s : State) : State :=
  if !s.linkUp then s else
  match place 0 r s with
  | some s' => s'
  | none => { s with timebase := { s.timebase with hold := some r } }

/-- An armed part loads its preset (R134 steps 1 to 4). -/
def syncLoad (a : SyncArm) (s : State) : State :=
  let r : Record := .timebaseEvent .syncTaken s.timebase.role a.timeoutMs a.preset s.timebase.count
  handTimebaseEvent r { s with timebase := { s.timebase with count := a.preset, arm := none } }

/-- An arm expires (R135). -/
def syncExpire (a : SyncArm) (s : State) : State :=
  let r : Record := .timebaseEvent .syncExpired s.timebase.role a.timeoutMs a.preset s.timebase.count
  handTimebaseEvent r { s with timebase := { s.timebase with arm := none } }

/-- The Timebase at a teardown or link reset: count and role are kept, the arm and a waiting fire end, a pulse being
driven goes on, the hold slot is emptied (R139, R176, Table 8-4). R114 says that SYNC is undriven after link reset: a pulse
that the reset finds being driven runs to its end all the same (notes/assumptions/34.md). -/
def Timebase.clear (t : Timebase) : Timebase :=
  { t with
    arm := none
    fire :=
      match t.fire with
      | .driving e => .driving e
      | .absent | .waiting _ => .absent
    hold := none
    roomReported := false }

end Sys2Proof.Machine
end

