-- ==== Sys2Proof/Machine/Link.lean ====
section
/-!
DEFINITION. Machine/Link.lean: the Host Link (11_host_link.md): teardown, faults, loading, resets and the register
window's reads.
-/

namespace Sys2Proof.Machine

/-- The Order Unit at the beginning of a teardown (R153): reads in flight end on the bus, records not yet placed are
dropped, head and tail are kept (R141). The ring geometry is forgotten, so that none is held in LOADING (R170,
notes/assumptions/36.md). -/
def OrderUnit.teardown (o : OrderUnit) : OrderUnit :=
  { o with
    geometry := none
    work :=
      match o.work with
      | .placing _ _ => .idle
      | .idle => .idle
      | .fetching t => .fetching t
      | .executing x t => .executing x t
    roomReported := false }

/-- A generator at the beginning of a teardown: STOPPED, with its counts and configuration (R109). -/
def Generator.teardown (g : Generator) : Generator := { g with state := .stopped, owed := 0 }

/-- The staging queue of a stream at the beginning of a teardown: an active stream keeps only a WRITING block (R76). -/
def teardownStaging (x : StreamContext) (q : Staging) : Staging := if x.state.active then q.keepWriting else q

/-- The beginning of teardown, handed to every block (R172, Table 11-4). -/
def teardown (s : State) : State :=
  recomputeAlert
    { s with
      streams := mapAll s.streams StreamContext.teardown
      staging := Vector.ofFn (fun i => teardownStaging s.streams[i] s.staging[i])
      converters := mapAll s.converters Converter.clear
      buffers := Vector.replicate 8 []
      outboxes := Vector.replicate 8 []
      rings := Vector.replicate 4 none
      generators := mapAll s.generators Generator.teardown
      watches := mapAll s.watches Watch.teardown
      offers := []
      timebase := s.timebase.clear
      orders := s.orders.teardown
      becameEligible := [] }

/-- A fault is reported: the first one taken in UP is latched, moves the link to FAULT and begins teardown (R173). -/
def linkFault (cause : FaultCause) (detail : Half) (s : State) : State :=
  if s.linkUp then
    let s := { s with link := { s.link with state := .fault, cause := cause, detail := detail } }
    teardown s
  else s

/-- The link enters FAULT from LOADING, which needs no teardown (R170). -/
def loadingFault (cause : FaultCause) (detail : Half) (s : State) : State :=
  { s with link := { s.link with state := .fault, cause := cause, detail := detail } }

/-- The link enters LOADING and the Control Block read is issued, unless its area passes the end of the address space
(R170). -/
def startLoading (s : State) : State :=
  if 2 ^ 64 - 1 < s.link.cbAddress.toNat + 127 then loadingFault .controlBlockInvalid 9 s
  else
    let s := { s with link := { s.link with state := .loading, cbRead := some s.elapsed } }
    s.emit (.read s.link.cbAddress 128)

/-! ### Control Block checks (R171, Table 11-3) -/

/-- A size that is a power of two from 16 to 4096. -/
def sizeOk (n : Nat) : Bool := [16, 32, 64, 128, 256, 512, 1024, 2048, 4096].contains n

/-- A base that is a multiple of `unit`, with `unit` × size bytes inside the address space. -/
def baseOk (base size unit : Nat) : Bool := base % unit == 0 && decide (base + unit * size - 1 ≤ 2 ^ 64 - 1)

/-- The lowest enabled ring whose entry fails a check. -/
def firstFailing (cb : ControlBlock) (ok : RingEntry → Bool) : Option RingId :=
  allFours.find? (fun n => (cb.rings[n]).enable && !ok (cb.rings[n]))

/-- The fault detail of a failing ring check: the check number, with the ring in the second byte. -/
def ringDetail (check : Nat) (n : RingId) : Half := BitVec.ofNat 16 (check + 256 * n.val)

/-- The detail of the first check of Table 11-3 that a Control Block fails, none when every check passes. -/
def checkControlBlock (cb : ControlBlock) : Option Half :=
  if cb.format ≠ 1 then some 1
  else if !sizeOk cb.orderSize.toNat then some 2
  else if !baseOk cb.orderBase.toNat cb.orderSize.toNat 64 then some 3
  else if !(cb.rings[0]).enable then some 4
  else match firstFailing cb (fun r => sizeOk r.size.toNat) with
  | some n => some (ringDetail 5 n)
  | none => match firstFailing cb (fun r => baseOk r.base.toNat r.size.toNat 32) with
    | some n => some (ringDetail 6 n)
    | none => match firstFailing cb (fun r => decide (1 ≤ r.threshold.toNat ∧ r.threshold.toNat ≤ 64)) with
      | some n => some (ringDetail 7 n)
      | none => match firstFailing cb (fun r => decide (r.holdoff.toNat ≤ 65535)) with
        | some n => some (ringDetail 8 n)
        | none => none

/-- A ring at a successful loading (R154, Table 10-1). -/
def loadRing (e : RingEntry) : Option Ring :=
  if e.enable then
    some
      { base := e.base, size := e.size.toNat, threshold := e.threshold.toNat, holdoffUs := e.holdoff.toNat, written := 0,
        returned := 0, waiting := [], armed := true, count := 0, timer := .stopped }
  else none

/-- The loading takes effect (R171): rings and Order Ring are set and the link enters UP. -/
def loadControlBlock (cb : ControlBlock) (s : State) : State :=
  { s with
    link := { s.link with state := .up, cause := .none, detail := 0 }
    rings := Vector.ofFn (fun n => loadRing cb.rings[n])
    orders := { s.orders with geometry := some ⟨cb.orderBase, cb.orderSize.toNat⟩, head := 0, tail := 0 } }

/-! ### Resets -/

/-- A trigger line as the first sample after a reset finds it at a moment, under ACTIVE HIGH: no edge is taken from that
sample, and the next one is one reference period later (R110). -/
def sampledLine (p : PinLevels) (moment : Nat) (n : LineId) : Line :=
  ⟨.activeHigh, p.trig.getLsbD n.val, .nothing, moment + 1⟩

/-- The effect of a link reset (R176): every block at its link-reset values (R27, R42, R60, R76, R99, R109, R127, R139,
R153, R166), and the link DOWN. -/
def linkResetValues (p : PinLevels) (s : State) : State :=
  { s with
    link := ⟨.down, false, false, 0, .none, 0, none⟩
    orders := ⟨none, 0, 0, .idle, false⟩
    rings := Vector.replicate 4 none
    outboxes := Vector.replicate 8 []
    streams := Vector.replicate 8 StreamContext.reset
    scanLists := Vector.replicate 16 []
    channels := Vector.replicate 32 ⟨0, 0⟩
    converters := mapAll s.converters (fun c => { c.clear with grantPointer := 7 })
    freePages := 64
    staging := Vector.replicate 8 Staging.empty
    windows := Vector.replicate 4 Window.reset
    buffers := Vector.replicate 8 []
    writeInFlight := none
    grantPointer := 7
    becameEligible := []
    generators := Vector.replicate 4 Generator.reset
    lines := Vector.ofFn (fun n => sampledLine p s.elapsed n)
    syncHigh := p.sync
    syncNext := s.elapsed + 1
    watches := Vector.replicate 16 Watch.reset
    alertLevel := 0
    offers := []
    timebase := s.timebase.clear }

/-- Power-on reset (R177): every block at its power-on values without waiting. The queue and the model's own clock,
counters and output are not the part's state (notes/assumptions/22.md). -/
def powerOnValues (p : PinLevels) (s : State) : State :=
  { State.reset with
    pending := s.pending
    elapsed := s.elapsed
    choices := s.choices
    bus := s.bus
    nextPassId := s.nextPassId
    lines := Vector.ofFn (fun n => sampledLine p s.elapsed n)
    syncHigh := p.sync
    syncNext := s.elapsed + 1 }

/-! ### Register reads (R167, R168, Table 12-1) -/

/-- The value of the register at an offset of the window, 0 at an offset that holds none. -/
def readRegister (s : State) (offset : BitVec 12) : Word :=
  if offset = 0x000 then BitVec.ofNat 32 (bit s.link.enable 0 + bit s.link.resetPending 1)
  else if offset = 0x004 then
    BitVec.ofNat 32 (s.link.state.code + 16 * s.link.cause.code + 256 * s.readsOutstanding + 65536 * s.link.detail.toNat)
  else if offset = 0x008 then s.link.cbAddress.extractLsb' 0 32
  else if offset = 0x00C then s.link.cbAddress.extractLsb' 32 32
  else if offset = 0x010 then BitVec.ofNat 32 s.orders.tail
  else if offset = 0x020 then headRegister 0
  else if offset = 0x024 then headRegister 1
  else if offset = 0x028 then headRegister 2
  else if offset = 0x02C then headRegister 3
  else 0
where
  /-- The returned position of an enabled ring, 0 otherwise. -/
  headRegister (n : RingId) : Word :=
    match s.rings[n] with
    | some r => BitVec.ofNat 32 r.returned
    | none => 0

/-- The offsets that hold a register (Table 12-1). -/
def registerOffsets : List Nat := [0x000, 0x004, 0x008, 0x00C, 0x010, 0x020, 0x024, 0x028, 0x02C]

/-- Whether an access of `n` bytes at an offset touches a register. -/
def touchesRegister (offset n : Nat) : Bool := registerOffsets.any (fun r => decide (offset < r + 4 ∧ r < offset + n))

/-- A read of the window (R167): the bytes asked for of one register, or two registers for an aligned 8-byte read. What
any other read that touches a register gives is stated nowhere and is a free value (notes/assumptions/37.md). -/
def readWindow (s : State) (offset : BitVec 12) (width : AccessWidth) : Long :=
  let o := offset.toNat
  let n := width.bytes
  if o % 4 + n ≤ 4 then
    BitVec.ofNat 64 ((readRegister s (offset &&& 0xFFC)).toNat / 2 ^ (8 * (o % 4)) % 2 ^ (8 * n))
  else if n = 8 ∧ o % 8 = 0 then
    BitVec.ofNat 64 ((readRegister s offset).toNat + 2 ^ 32 * (readRegister s (offset + 4)).toNat)
  else if touchesRegister o n then Config.unalignedRead s.elapsed o n
  else 0

end Sys2Proof.Machine
end

