-- ==== Sys2Proof/Machine/Operands.lean ====
section
/-!
DEFINITION. Machine/Operands.lean: the values that the fields of an order name (12_record_and_register_formats.md
Tables 12-5 and 12-8, R178); a field outside its range names none.
-/

namespace Sys2Proof.Machine

/-- An index below `n`. -/
def index? (n : Nat) (x : Byte) : Option (Fin n) := if h : x.toNat < n then some ⟨x.toNat, h⟩ else none

/-- A yes-or-no byte: 0 or 1 (R178). -/
def flag? (x : Byte) : Option Bool := if x = 0 then some false else if x = 1 then some true else none

/-- A number inside a range. -/
def inRange? (low high x : Nat) : Option Nat := if low ≤ x ∧ x ≤ high then some x else none

/-- The averaging of a step: 1, 2, 4 or 8 (R28). -/
def averaging? (x : Byte) : Option Nat := if [1, 2, 4, 8].contains x.toNat then some x.toNat else none

/-- A step entry of LOAD SCAN (R30 check 3). -/
def step? (e : StepEntry) : Option ScanStep := do
  let channel ← index? 32 e.channel
  let averaging ← averaging? e.averaging
  return ⟨channel, averaging⟩

/-- The source of a generator: 0 REFERENCE, 1 to 4 TRIG0 to TRIG3. -/
def source? (x : Byte) : Option PaceSource :=
  if x = 0 then some .reference else (index? 4 (x - 1)).map .trig

/-- The gate of a generator: 0 NONE, 1 to 4 TRIG0 to TRIG3. -/
def gate? (x : Byte) : Option (Option LineId) := if x = 0 then some none else (index? 4 (x - 1)).map some

/-- The mode of a generator: 0 CONTINUOUS, 1 BURST. -/
def paceMode? (x : Byte) : Option PaceMode := (flag? x).map (fun b => if b then .burst else .continuous)

/-- The polarity of a line: 0 ACTIVE HIGH, 1 ACTIVE LOW. -/
def polarity? (x : Byte) : Option Polarity := (flag? x).map (fun b => if b then .activeLow else .activeHigh)

/-- The use of a window: 0 BUFFERS, 1 STATUS, 2 BOTH. -/
def use? (x : Byte) : Option WindowUse :=
  if x = 0 then some .buffers else if x = 1 then some .status else if x = 2 then some .both else none

/-- The filter of a watch: 0 ANY, 1 to 8 ST0 to ST7. -/
def filter? (x : Byte) : Option (Option StreamId) := if x = 0 then some none else (index? 8 (x - 1)).map some

/-- The action of a watch: 0 NONE, 1 to 8 START ST0 to ST7, 9 to 16 HALT ST0 to ST7. -/
def action? (x : Byte) : Option WatchAction :=
  if x = 0 then some .none
  else if x.toNat ≤ 8 then (index? 8 (x - 1)).map .start
  else (index? 8 (x - 9)).map .halt

/-- The role of SET TIMEBASE: 0 OFF, 1 LEADER, 2 FOLLOWER. -/
def role? (x : Byte) : Option Role :=
  if x = 0 then some .off else if x = 1 then some .leader else if x = 2 then some .follower else none

/-- The start condition of CONFIGURE STREAM; the line is examined only for LINE and T only for TIME (R178). -/
def start? (f : ConfigureFields) : Option StartCondition :=
  if f.startKind = 0 then some .now
  else if f.startKind = 1 then some .external
  else if f.startKind = 2 then (index? 4 f.startLine).map .line
  else if f.startKind = 3 then some (.time f.startTime)
  else none

/-- The stop condition of CONFIGURE STREAM; the line is examined only for LINE, N only for COUNT, and T only for TIME
(R178). N is at least 1 (R3). -/
def stop? (f : ConfigureFields) : Option StopCondition :=
  if f.stopKind = 0 then some .none
  else if f.stopKind = 1 then (inRange? 1 4294967295 f.count.toNat).map .count
  else if f.stopKind = 2 then (index? 4 f.stopLine).map .line
  else if f.stopKind = 3 then some (.time f.stopTime)
  else none

/-- A policy bit of CONFIGURE STREAM: set HALT, clear MARK (Table 12-5). -/
def policy (b : Bool) : Policy := if b then .halt else .mark

/-- The configuration that CONFIGURE STREAM names, with the pages asked for; none when a field lies outside the range of
Table 1-1 (R3 stage 2, first check). -/
def streamConfig? (f : ConfigureFields) : Option (StreamConfig × Nat) := do
  let scanList ← index? 16 f.scanList
  let generator ← index? 4 f.generator
  let ring ← index? 4 f.ring
  let p ← inRange? 1 256 f.passesPerBlock.toNat
  let pages ← inRange? 1 64 f.pages.toNat
  let depth ← inRange? 0 1024 f.depth.toNat
  let start ← start? f
  let stop ← stop? f
  return (⟨scanList, generator, ring, p, depth, start, stop, policy (f.policies.getLsbD 0), policy (f.policies.getLsbD 1),
    f.flushMs.toNat⟩, pages)

/-- The configuration fields of a generator that SET PACE names; none when one is out of range or a code is not defined
(R105 check 3). -/
def pace? (f : PaceFields) : Option Generator := do
  let source ← source? f.source
  let gate ← gate? f.gate
  let mode ← paceMode? f.mode
  let prescale ← inRange? 1 65536 f.prescale.toNat
  let divide ← inRange? 1 65536 f.divide.toNat
  let burst ← inRange? 1 65536 f.burst.toNat
  return { Generator.reset with source, gate, mode, prescale, divide, burst }

/-- The watch number and setting that SET WATCH names, enabled and with the judgement of R118; none when a field is out
of range (R117 check 1). -/
def watch? (f : WatchFields) : Option (WatchId × Watch) := do
  let m ← index? 16 f.watch
  let channel ← index? 32 f.channel
  let filter ← filter? f.filter
  let action ← action? f.action
  let hysteresis ← inRange? 0 4095 f.hysteresis.toNat
  let persistence ← inRange? 1 16 f.persistence.toNat
  let alert ← index? 4 f.alert
  let note ← flag? f.note
  let ring ← index? 4 f.ring
  return (m, { Watch.reset with
    enabled := true, channel, filter, low := f.low, high := f.high, hysteresis, persistence, alert, action, note, ring })

end Sys2Proof.Machine
end

