-- ==== Sys2Proof/Machine/Orders.lean ====
section
/-!
DEFINITION. Machine/Orders.lean: the Order Unit (09_the_order_ring.md): fetching, taking and answering.
-/

namespace Sys2Proof.Machine

/-- What a meaning answers. -/
abbrev Outcome := Host.Outcome State Fault Refusal

/-- An owner's answer to an order (R145, R146): the state it leaves, the status and detail, and the RETURNED records the
Order Unit places before the order's own (R147). -/
structure Answer where
  state : State
  status : Status
  detail : Nat := 0
  returned : List OutboxEntry := []

/-- The order was carried out. -/
def accept (s : State) : Answer := { state := s, status := .done }

/-- The order was refused, and nothing changed at its owner (R145). -/
def refuse (s : State) (status : Status) (detail : Nat) : Answer := { state := s, status := status, detail := detail }

/-- The number of orders available (R141). -/
def OrderUnit.available (o : OrderUnit) : Nat :=
  match o.geometry with
  | some g => (o.tail + g.size - o.head) % g.size
  | none => 0

/-- The Order Unit begins a fetch when it is IDLE, the link is UP and orders are available: one read of the slot at the
head (R143). -/
def beginFetch (s : State) : State :=
  match s.orders.geometry, s.orders.work with
  | some g, .idle =>
    if s.linkUp = true ∧ s.orders.available ≠ 0 then
      let s := s.emit (.read (g.base + BitVec.ofNat 64 (64 * s.orders.head)) 64)
      { s with orders := { s.orders with work := .fetching s.elapsed } }
    else s
  | _, _ => s

/-- The head after a read: from size − 1 to 0 (R143). -/
def OrderUnit.nextHead (o : OrderUnit) : Nat :=
  match o.geometry with
  | some g => if o.head + 1 = g.size then 0 else o.head + 1
  | none => o.head + 1

/-- The Order Unit hands its records to the Completion Unit one at a time; a record that is not placed waits with those
behind it, and after the last one the unit is IDLE and may fetch (R143, R147). -/
def placeLeft (order : OrderInHand) : List OutboxEntry → State → State
  | [], s => beginFetch { s with orders := { s.orders with work := .idle, roomReported := false } }
  | e :: rest, s =>
    match place e.ring e.record s with
    | some s' => placeLeft order rest s'
    | none => { s with orders := { s.orders with work := .placing order (e :: rest), roomReported := false } }

/-- The ORDER_DONE record of an order (R146): none when it was SILENT and ended with DONE. -/
def orderDone (order : OrderInHand) (status : Status) (detail : Nat) : List OutboxEntry :=
  if order.silent = true ∧ status = .done then []
  else [⟨0, .orderDone order.index order.kind status order.tag (BitVec.ofNat 32 detail)⟩]

/-- The outcome of an order is known: its records are placed (R146, R147). -/
def finishOrder (order : OrderInHand) (a : Answer) : State :=
  placeLeft order (a.returned ++ orderDone order a.status a.detail) a.state

/-- A fetch ends without an order taken: the head does not move (R144, R153). -/
def dropFetch (s : State) : State := { s with orders := { s.orders with work := .idle } }

/-- The read of the slot at the head returns successfully with an order of a kind: the order becomes the order in hand,
the head advances, and `body` takes it (R143, R145). While the link is not UP the result is discarded (R144). A late reply
ends nothing (R174). Without a fetch in flight no order can be taken, and nothing changes (notes/assumptions/3.md). -/
def takeOrder (kind : Half) (h : OrderHeader) (body : OrderInHand → State → State) (s : State) : State :=
  match s.orders.work with
  | .fetching issued =>
    if !s.inTime issued then s
    else if s.linkUp then
      let order : OrderInHand := ⟨s.orders.head, kind, h.tag, h.silent⟩
      body order
        { s with orders := { s.orders with head := s.orders.nextHead, work := .executing order s.elapsed } }
    else dropFetch s
  | .idle | .executing _ _ | .placing _ _ => s

/-- An order whose owner decides its outcome in the event in which it takes it (R145). -/
def takeDecided (kind : Half) (h : OrderHeader) (owner : State → Answer) (s : State) : State :=
  takeOrder kind h (fun order s => finishOrder order (owner s)) s

/-- The ring a RETURNED record goes to: the stream's, or CR0 when that ring is not enabled (R147). -/
def State.returnRing (s : State) (n : RingId) : RingId := if (s.rings[n]).isSome then n else 0

/-- The RETURNED records of every descriptor of a stream, oldest first (R25, R84). -/
def State.returnedRecords (s : State) (i : StreamId) : List OutboxEntry :=
  match s.streams[i].config with
  | some c => (s.buffers[i]).map (fun d => ⟨s.returnRing c.ring, d.returnedRecord i⟩)
  | none => []

end Sys2Proof.Machine
end

