-- ==== Sys2Proof/Machine/BufferOrders.lean ====
section
/-!
DEFINITION. Machine/BufferOrders.lean: the orders to the Delivery Unit (05_buffers_and_block_delivery.md).
-/

namespace Sys2Proof.Machine

/-- Whether a stream takes POST BUFFERS (R82 check 2). -/
def StreamState.takesBuffers : StreamState → Bool
  | .idle | .armed | .running | .draining => true
  | .unconfigured | .faulted => false

/-- The fields of a descriptor entry against a stream's max block bytes (R82 check 3, first part). -/
def entryFieldsOk (e : DescriptorEntry) (maxBytes : Nat) : Bool :=
  decide (e.address.toNat % 8 = 0) && decide (e.length.toNat % 8 = 0) && decide (maxBytes ≤ e.length.toNat) &&
    decide (e.length.toNat ≤ maxBufferBytes) && decide (e.address.toNat + e.length.toNat - 1 ≤ 2 ^ 64 - 1)

/-- The last byte of a descriptor's area. -/
def entryLast (e : DescriptorEntry) : Long := e.address + (e.length.setWidth 64 - 1)

/-- The first check that a descriptor fails, with its status and detail; entries are counted from 1 in the detail (R82
check 3). -/
def State.badDescriptor (s : State) (maxBytes : Nat) : List DescriptorEntry → Nat → Option (Status × Nat)
  | [], _ => none
  | e :: rest, n =>
    if !entryFieldsOk e maxBytes then some (.badField, n)
    else if !s.accepts WindowUse.allowsBuffers e.address (entryLast e) then some (.outsideWindow, n)
    else s.badDescriptor maxBytes rest (n + 1)

/-- POST BUFFERS at the Delivery Unit (R82, R83); the stream may become eligible (R85). -/
def postBuffersOwner (stream count : Byte) (entries : Vector DescriptorEntry 3) (s : State) : Answer :=
  match index? 8 stream, inRange? 1 3 count.toNat with
  | some i, some n =>
    if !(s.streams[i]).state.takesBuffers then refuse s .wrongState 0
    else
      let used := entries.toList.take n
      match s.badDescriptor (s.maxBlockBytes i) used 1 with
      | some (status, detail) => refuse s status detail
      | none =>
        if bufferLimit < (s.buffers[i]).length + n then refuse s .queueFull (bufferLimit - (s.buffers[i]).length)
        else accept (noteEligible i s (s.modBuffers i (fun q => q ++ used.map Descriptor.fresh)))
  | _, _ => refuse s .badField 0

/-- RECLAIM BUFFERS at the Delivery Unit (R84). -/
def reclaimOwner (stream : Byte) (s : State) : Answer :=
  match index? 8 stream with
  | none => refuse s .badField 0
  | some i =>
    match (s.streams[i]).state with
    | .idle | .faulted =>
      if !(s.outboxes[i]).isEmpty then refuse s .backlog 0
      else
        { state := s.modBuffers i (fun _ => []), status := .done, detail := (s.buffers[i]).length,
          returned := s.returnedRecords i }
    | .unconfigured | .armed | .running | .draining => refuse s .wrongState 0

/-- SET WINDOW at the Delivery Unit (R80). -/
def setWindowOwner (window enabled use : Byte) (base mask : Long) (s : State) : Answer :=
  match index? 4 window, flag? enabled, use? use with
  | some n, some e, some u => accept { s with windows := upd s.windows n (fun _ => ⟨e, base, mask, u⟩) }
  | _, _, _ => refuse s .badField 0

/-! ### Meanings -/

/-- POST BUFFERS (R82, R83). -/
def execPostBuffers (h : OrderHeader) (stream count : Byte) (entries : Vector DescriptorEntry 3) (s : State) : Outcome :=
  .next (takeDecided 0x0040 h (postBuffersOwner stream count entries) s)

/-- RECLAIM BUFFERS (R84). -/
def execReclaimBuffers (h : OrderHeader) (stream : Byte) (s : State) : Outcome :=
  .next (takeDecided 0x0041 h (reclaimOwner stream) s)

/-- SET WINDOW (R80). -/
def execSetWindow (h : OrderHeader) (window enabled use : Byte) (base mask : Long) (s : State) : Outcome :=
  .next (takeDecided 0x0042 h (setWindowOwner window enabled use base mask) s)

end Sys2Proof.Machine
end

