-- ==== Sys2Proof/Machine/Lines.lean ====
section
/-!
DEFINITION. Machine/Lines.lean: what trigger lines hand to their receivers, and how it comes before time passes
(06_pacing_and_external_lines.md).
-/

namespace Sys2Proof.Machine

/-- A line has handed over what it owed. -/
def Line.settled (l : Line) : Line := { l with owed := .nothing }

/-- A sample at a moment of elapsed time finds a line changed, with something still to be handed over. The next sample
is one reference period later (R110). -/
def Line.sampled (l : Line) (moment : Nat) (active : Bool) (owed : LineOwed) : Line :=
  { l.setActive active with owed := owed, nextSample := moment + 1 }

/-- An edge is handed to its receivers (R111). -/
def handEdge (n : LineId) (order : List (Fin 12)) (streams : List StreamId) (s : State) : State :=
  (arrange order (s.receivers n)).foldl (fun s r => takeEdgeAt n streams r s) s

/-- A change of active state is handed to the gates (R103, R111). -/
def handChange (n : LineId) (active : Bool) (s : State) : State :=
  { s with generators := mapAll s.generators (fun g => g.followGate n active) }

/-- A line hands over what it owes, an edge in an order of its receivers that is a free value (R111,
notes/assumptions/8.md). -/
def settleLine (n : LineId) (s : State) : State :=
  match (s.lines[n]).owed with
  | .nothing => s
  | .edge => handEdge n (Config.receiverOrder s.choices) (Config.streamOrder s.choices) (s.modLine n Line.settled)
  | .change => handChange n true (s.modLine n Line.settled)

/-- Whether a trigger line owes something. -/
def State.linesOwe (s : State) : Bool := allFours.any (fun n => (s.lines[n]).owed != .nothing)

/-- Every line hands over what it owes, in an order of the lines that is a free value (notes/assumptions/8.md). -/
def settleLines (s : State) : State :=
  (arrange (Config.lineOrder s.choices) allFours).foldl (fun s n => settleLine n s) s

/-- The state in which time can pass up to a moment: when it has not come yet, the lines hand over what they owe first,
so that an edge is taken at the sample that found its line ACTIVE, with the count of that sample (R110,
notes/assumptions/8.md). -/
def State.readyAt (s : State) (moment : Nat) : State :=
  if decide (s.elapsed < moment) && s.linesOwe then settleLines s else s

/-- The moment of the sample that finds a line changed: not before its next sample (R110). A sample that finds the line
as it was has none. -/
def State.sampleMoment (s : State) (n : LineId) (active : Bool) : Nat :=
  if (s.lines[n]).active = active then 0 else (s.lines[n]).nextSample

/-- The state at the sample of a line: where the line has changed in this reference period already, the next one has
come (R110). That the command lets it pass is DESIGN CHOICE (notes/assumptions/8.md). -/
def State.atSample (s : State) (n : LineId) (active : Bool) : State :=
  let m := s.sampleMoment n active
  passTo m (s.readyAt m)

/-- The moment at which the part samples the edge of its own pulse: one reference period after the pulse began (R133). -/
def ownEdge (endsAt : Nat) : Nat := endsAt - (pulsePeriods - 1)

/-- The moment of the sample that finds a high SYNC line low: not before its next sample (R114), and while the part's own
pulse is driven the sample after the pulse began (R133, notes/assumptions/11.md). -/
def State.syncMoment (s : State) : Nat :=
  match s.timebase.fire with
  | .driving e => max (ownEdge e) s.syncNext
  | .absent | .waiting _ => s.syncNext

/-- The state at the sample that finds a high SYNC line low. The trigger lines hand over what they owe first, so that no
load of that sample changes the count of their edges (R110, R134, notes/assumptions/8.md). -/
def State.atSyncSample (s : State) : State :=
  if s.syncHigh then passTo s.syncMoment (s.readyAt (s.elapsed + 1)) else s

end Sys2Proof.Machine
end

