-- ==== Sys2Proof/Machine/DeliveryEvents.lean ====
section
/-!
DEFINITION. Machine/DeliveryEvents.lean: grants and ends of block writes, flush and holdoff timers, and the Timebase's
re-offer (05_buffers_and_block_delivery.md, 10_completion_rings_and_notification.md).
-/

namespace Sys2Proof.Machine

/-- The end of a block write after a teardown began: the WRITING block leaves, and the result is discarded (R76, R98). -/
def discardWrite (w : BlockWrite) (s : State) : State :=
  { s with writeInFlight := none }.modStaging w.stream Staging.dropHead

/-- The stream counters after a successful write (R90 step 2). -/
def StreamContext.countBlock (x : StreamContext) : StreamContext :=
  { x with nextSequence := x.nextSequence + 1, totalBlocks := x.totalBlocks + 1 }

/-- A block write succeeds: staging, stream counters and fill record (R90 steps 1 to 3). The write is no longer in flight
while its end is handled (notes/assumptions/25.md). -/
def recordBlock (w : BlockWrite) (s : State) : State :=
  let s := { s with writeInFlight := none }.modStaging w.stream Staging.dropHead
  modHead w.stream (fun d => d.addBlock w) (s.modStream w.stream StreamContext.countBlock)

/-- Whether a write is the first block of its target (R90 step 3). -/
def State.firstBlock (s : State) (i : StreamId) : Bool :=
  match s.buffers[i] with
  | d :: _ => decide (d.blocks = 0)
  | [] => false

/-- A block write in flight succeeds (R90). -/
def succeedWrite (w : BlockWrite) (s : State) : State :=
  let i := w.stream
  let first := s.firstBlock i
  let depth := (s.buffers[i]).length
  chooseGrant (afterWriteSuccess i (startFlushTimer i first depth (roomTest i (recordBlock w s))))

/-- The flush read of the block write in flight returns successfully (R90, R98); a late reply ends nothing (R174). -/
def endWrite (s : State) : State :=
  match s.writeInFlight with
  | none => s
  | some w =>
    if !s.inTime w.issued then s else if s.linkUp then succeedWrite w s else discardWrite w s

/-- The block write in flight fails (R91, R98). -/
def failWrite (s : State) : State :=
  match s.writeInFlight with
  | none => s
  | some w =>
    if s.linkUp then chooseGrant (failStream w.stream { s with writeInFlight := none }) else discardWrite w s

/-- A flush timer expires (R96). -/
def expireFlush (i : StreamId) (s : State) : State :=
  match (s.buffers[i]).head?.bind (·.timer) with
  | none => s
  | some e =>
    let s := passTo e s
    if s.writing i then modHead i (fun d => { d with timer := none, flushDue := true }) s
    else completeBuffer i { flushed := true } s

/-- A holdoff timer expires (R164). -/
def expireHoldoff (n : RingId) (s : State) : State :=
  match s.rings[n] with
  | none => s
  | some r =>
    match r.timer with
    | .running e => examineMessage n ((passTo e s).setRing n { r with timer := .expired })
    | .stopped | .expired => s

/-- The moment at which a stream's flush timer expires (R95). -/
def State.flushMoment (s : State) (i : StreamId) : Nat := ((s.buffers[i]).head?.bind (·.timer)).getD 0

/-- The moment at which a ring's holdoff timer expires (R163). -/
def State.holdoffMoment (s : State) (n : RingId) : Nat :=
  match s.rings[n] with
  | some r =>
    match r.timer with
    | .running e => e
    | .stopped | .expired => 0
  | none => 0

/-- The Timebase takes the report of room and offers its held record to CR0 again (R136, R157). -/
def reofferTimebaseRecord (s : State) : State :=
  match s.timebase.hold with
  | none => s
  | some r =>
    if s.timebase.roomReported then
      match place 0 r s with
      | some s' => { s' with timebase := { s'.timebase with hold := none, roomReported := false } }
      | none => { s with timebase := { s.timebase with roomReported := false } }
    else s

/-! ### Meanings -/

/-- DELIVERY_GRANT (R86 to R89). -/
def execDeliveryGrant (s : State) : Outcome := .next (grantFirst s)

/-- BLOCK_WRITE_SUCCESS (R90). -/
def execBlockWriteSuccess (s : State) : Outcome := .next (endWrite s)

/-- BLOCK_WRITE_FAILURE (R91). -/
def execBlockWriteFailure (s : State) : Outcome := .next (failWrite s)

/-- FLUSH_TIMER_EXPIRY (R96). -/
def execFlushTimerExpiry (stream : StreamId) (s : State) : Outcome :=
  .next (expireFlush stream (s.readyAt (s.flushMoment stream)))

/-- HOLDOFF_EXPIRY (R164). -/
def execHoldoffExpiry (ring : RingId) (s : State) : Outcome :=
  .next (expireHoldoff ring (s.readyAt (s.holdoffMoment ring)))

/-- TIMEBASE_RECORD_REOFFER (R136). -/
def execTimebaseRecordReoffer (s : State) : Outcome := .next (reofferTimebaseRecord s)

end Sys2Proof.Machine
end

