-- ==== Sys2Proof/Machine/LineEvents.lean ====
section
/-!
DEFINITION. Machine/LineEvents.lean: edges and levels of the pins, ticks and the Timebase's moments
(06_pacing_and_external_lines.md, 08_timebase_and_synchronization.md).
-/

namespace Sys2Proof.Machine

/-- An edge is taken (R110, R111): a sample finds an INACTIVE line ACTIVE, and the change is still to be handed to the
gates; or the edge is the one that the line owes since its change was handed to the gates. A line that was ACTIVE already
gives no edge (notes/assumptions/8.md). The sample before may be the last one before SET LINE, read under the new polarity
(notes/assumptions/39.md). -/
def takeLineEdge (n : LineId) (order : List (Fin 12)) (streams : List StreamId) (s : State) : State :=
  let l := s.lines[n]
  if l.active = false then
    handEdge n order streams (s.modLine n (fun l => l.sampled s.elapsed true .change))
  else if l.owed = .edge then handEdge n order streams (s.modLine n Line.settled)
  else s

/-- A change of active state reaches the gates (R103, R110): a sample finds the line changed, and after a change to ACTIVE
its edge is still to be handed to the other receivers; or the change is the one that the line owes since its edge was
taken. A sample that finds the line as it was is no change (notes/assumptions/8.md). -/
def takeLineChange (n : LineId) (active : Bool) (s : State) : State :=
  let l := s.lines[n]
  if l.active = active then
    if active = true ∧ l.owed = .change then handChange n true (s.modLine n Line.settled) else s
  else
    handChange n active (s.modLine n (fun l => l.sampled s.elapsed active (if active then .edge else .nothing)))

/-- An armed part loads its preset (R134): conditions that the count of the sample meets are met before the load, which
undoes nothing, and every condition is examined against the new count after it (R137). -/
def takeLoad (a : SyncArm) (streams : List StreamId) (s : State) : State :=
  examineTimes streams (syncLoad a (examineTimes streams s))

/-- A falling edge of SYNC reaches the Timebase (R114, R134): a sample finds a high line low. A line that is low already
cannot fall, and nothing changes (notes/assumptions/10.md). -/
def handSyncEdge (streams : List StreamId) (s : State) : State :=
  if s.syncHigh = false then s else
  let s := { s with syncHigh := false, syncNext := s.elapsed + 1 }
  match s.timebase.role, s.timebase.arm with
  | .leader, some a => takeLoad a streams s
  | .follower, some a => takeLoad a streams s
  | _, _ => s

/-- A RUNNING generator on the reference clock completes its interval and issues a tick (R102, R108). A generator on a
trigger line counts edges and issues its ticks as it takes them, and one that is not RUNNING counts nothing: neither
completes an interval here (notes/assumptions/7.md). -/
def completeTick (g : GeneratorId) (streams : List StreamId) (s : State) : State :=
  let x := s.generators[g]
  if x.countsPeriods then issueTick g streams ((passTime x.remaining s).modGenerator g Generator.completeInterval)
  else s

/-- The count reaches a time (R137). -/
def reachTime (t : Long) (streams : List StreamId) (s : State) : State :=
  examineTimes streams (passTime (t.toNat - s.timebase.count.toNat) s)

/-- A pulse ends: SYNC is released and the fire field becomes absent (R133). A line that was high when the pulse began has
fallen by then, so its edge is taken first where no command has taken it (notes/assumptions/11.md). -/
def endPulse (s : State) : State :=
  match s.timebase.fire with
  | .driving e =>
    let s := passTo e (handSyncEdge (Config.streamOrder s.choices) s.atSyncSample)
    { s with timebase := { s.timebase with fire := .absent } }
  | .absent | .waiting _ => s

/-- The expiry moment of the arm is reached (R135). -/
def expireArm (s : State) : State :=
  match s.timebase.arm with
  | some a =>
    match a.expiry with
    | some e => syncExpire a (passTo e s)
    | none => s
  | none => s

/-! ### Moments -/

/-- The moment of the tick of a RUNNING generator on the reference clock (R102). -/
def State.tickMoment (s : State) (g : GeneratorId) : Nat :=
  if (s.generators[g]).countsPeriods then s.elapsed + (s.generators[g]).remaining else 0

/-- The moment at which the count reaches a time (R137). -/
def State.timeMoment (s : State) (t : Long) : Nat := s.elapsed + (t.toNat - s.timebase.count.toNat)

/-- The moment at which a pulse ends (R133). -/
def State.pulseMoment (s : State) : Nat :=
  match s.timebase.fire with
  | .driving e => e
  | .absent | .waiting _ => 0

/-- The moment at which the arm expires (R135). -/
def State.armMoment (s : State) : Nat := (s.timebase.arm.bind (·.expiry)).getD 0

/-! ### Meanings -/

/-- TRIG_EDGE (R111). -/
def execTrigEdge (line : LineId) (order : List (Fin 12)) (streams : List StreamId) (s : State) : Outcome :=
  .next (takeLineEdge line order streams (s.atSample line true))

/-- GATE_CHANGE (R103). -/
def execGateChange (line : LineId) (active : Bool) (s : State) : Outcome :=
  .next (takeLineChange line active (s.atSample line active))

/-- SYNC_FALLING_EDGE (R134). -/
def execSyncFallingEdge (streams : List StreamId) (s : State) : Outcome :=
  .next (handSyncEdge streams s.atSyncSample)

/-- TICK (R102, R108). -/
def execTick (generator : GeneratorId) (streams : List StreamId) (s : State) : Outcome :=
  .next (completeTick generator streams (s.readyAt (s.tickMoment generator)))

/-- TIME_REACHED (R137). -/
def execTimeReached (time : Long) (streams : List StreamId) (s : State) : Outcome :=
  .next (reachTime time streams (s.readyAt (s.timeMoment time)))

/-- SYNC_PULSE_END (R133). -/
def execSyncPulseEnd (s : State) : Outcome := .next (endPulse (s.readyAt s.pulseMoment))

/-- ARM_TIMEOUT (R135). -/
def execArmTimeout (s : State) : Outcome := .next (expireArm (s.readyAt s.armMoment))

end Sys2Proof.Machine
end

