-- ==== Sys2Proof/Machine/LinkEvents.lean ====
section
/-!
DEFINITION. Machine/LinkEvents.lean: register writes, the Control Block read's end and the link's own transitions
(11_host_link.md).
-/

namespace Sys2Proof.Machine

/-- The link enters a state. -/
def State.setLink (s : State) (x : LinkState) : State := { s with link := { s.link with state := x } }

/-- A LINK CONTROL write with RESET 0 (R169); ignored while a link reset is pending. -/
def writeEnable (enable : Bool) (s : State) : State :=
  if s.link.resetPending then s
  else
    let s := { s with link := { s.link with enable := enable } }
    match s.link.state, enable with
    | .down, true => startLoading s
    | .loading, false => s.setLink .stopping
    | .up, false => teardown (s.setLink .stopping)
    | _, _ => s

/-- A LINK CONTROL write with RESET 1 (R176 step 1); ignored while a link reset is pending (R169). -/
def writeReset (s : State) : State :=
  if s.link.resetPending then s
  else
    let s := { s with link := { s.link with resetPending := true } }
    match s.link.state with
    | .up => teardown (s.setLink .stopping)
    | .down | .loading | .stopping | .fault => s

/-- The pending link reset takes effect once no host read is outstanding (R176 steps 2 and 3). -/
def resetEffect (p : PinLevels) (s : State) : State :=
  if s.link.resetPending = true ∧ s.readsOutstanding = 0 then linkResetValues p s else s

/-- A STOPPING link with no host read outstanding enters DOWN, and loads at once with ENABLE 1 (R169, R174). A pending
link reset takes its place (notes/assumptions/14.md). -/
def reachDown (s : State) : State :=
  if s.link.state = .stopping ∧ s.readsOutstanding = 0 ∧ s.link.resetPending = false then
    let s := s.setLink .down
    if s.link.enable then startLoading s else s
  else s

/-- An ORDER TAIL write (R142); taken in UP only. -/
def writeTail (value : Word) (s : State) : State :=
  if !s.linkUp then s
  else match s.orders.geometry with
  | none => s
  | some g =>
    if value.toNat < g.size then beginFetch { s with orders := { s.orders with tail := value.toNat } }
    else linkFault .badTail (value.extractLsb' 0 16) s

/-- The fault detail of BAD HEAD: the ring in the second byte, the low byte of the value in the low byte (R173). -/
def badHeadDetail (n : RingId) (value : Word) : Half := BitVec.ofNat 16 (256 * n.val + value.toNat % 256)

/-- A CR HEAD write (R156); taken in UP only. -/
def writeHead (n : RingId) (value : Word) (s : State) : State :=
  if !s.linkUp then s
  else match s.rings[n] with
  | none => s
  | some r =>
    if r.badHead value.toNat then linkFault .badHead (badHeadDetail n value) s
    else acceptHead n r value.toNat s

/-- The Control Block address changes in DOWN only (R167, Table 11-1). -/
def writeCbAddress (address : Long) (s : State) : State :=
  if s.link.state = .down then { s with link := { s.link with cbAddress := address } } else s

/-- An aligned 4-byte write at an offset of the window (R167, Table 12-1). -/
def writeRegister (offset : BitVec 12) (value : Word) (s : State) : State :=
  if offset = 0x000 then if value.getLsbD 1 then writeReset s else writeEnable (value.getLsbD 0) s
  else if offset = 0x008 then writeCbAddress (s.link.cbAddress.extractLsb' 32 32 ++ value) s
  else if offset = 0x00C then writeCbAddress (value ++ s.link.cbAddress.extractLsb' 0 32) s
  else if offset = 0x010 then writeTail value s
  else if offset = 0x020 then writeHead 0 value s
  else if offset = 0x024 then writeHead 1 value s
  else if offset = 0x028 then writeHead 2 value s
  else if offset = 0x02C then writeHead 3 value s
  else s

/-- A write of the window (R167): a write of fewer than 4 bytes or at an offset that is not aligned to its size is
ignored, an 8-byte write is two 4-byte writes, the lower offset first (notes/assumptions/20.md). -/
def writeWindow (offset : BitVec 12) (width : AccessWidth) (value : Long) (s : State) : State :=
  match width with
  | .one | .two | .three => s
  | .four => if offset.toNat % 4 = 0 then writeRegister offset (value.extractLsb' 0 32) s else s
  | .eight =>
    if offset.toNat % 8 = 0 then
      writeRegister (offset + 4) (value.extractLsb' 32 32) (writeRegister offset (value.extractLsb' 0 32) s)
    else s

/-- The Control Block read has ended (R174). -/
def State.endCbRead (s : State) : State := { s with link := { s.link with cbRead := none } }

/-- Whether the end of a Control Block read is acted on: in LOADING with no link reset pending (R169, R170, R176). -/
def State.loads (s : State) : Bool := s.link.state == .loading && !s.link.resetPending

/-- The Control Block read returns its contents (R171); discarded outside LOADING. A late reply ends nothing (R174). -/
def endLoading (cb : ControlBlock) (s : State) : State :=
  match s.link.cbRead with
  | none => s
  | some issued =>
    if !s.inTime issued then s else
    let s := s.endCbRead
    if s.loads then
      match checkControlBlock cb with
      | none => loadControlBlock cb s
      | some detail => loadingFault .controlBlockInvalid detail s
    else s

/-- The Control Block read fails (R170); discarded outside LOADING. -/
def failLoading (s : State) : State :=
  match s.link.cbRead with
  | none => s
  | some _ =>
    let s := s.endCbRead
    if s.loads then loadingFault .controlBlockRead 0 s else s

/-! ### Meanings -/

/-- LINK_CONTROL_ENABLE (R169). -/
def execLinkControlEnable (enable : Bool) (s : State) : Outcome := .next (writeEnable enable s)

/-- LINK_RESET (R176). -/
def execLinkReset (s : State) : Outcome := .next (writeReset s)

/-- LINK_RESET_EFFECT (R176). -/
def execLinkResetEffect (pins : PinLevels) (s : State) : Outcome := .next (resetEffect pins s)

/-- LINK_DOWN (R174). -/
def execLinkDown (s : State) : Outcome := .next (reachDown s)

/-- ORDER_TAIL_WRITE (R142). -/
def execOrderTailWrite (value : Word) (s : State) : Outcome := .next (writeTail value s)

/-- CR_HEAD_WRITE (R156). -/
def execCrHeadWrite (ring : RingId) (value : Word) (s : State) : Outcome := .next (writeHead ring value s)

/-- REGISTER_WRITE (R167). -/
def execRegisterWrite (offset : BitVec 12) (width : AccessWidth) (value : Long) (s : State) : Outcome :=
  .next (writeWindow offset width value s)

/-- CONTROL_BLOCK_LOAD (R171). -/
def execControlBlockLoad (cb : ControlBlock) (s : State) : Outcome := .next (endLoading cb s)

/-- CONTROL_BLOCK_READ (R170). -/
def execControlBlockRead (s : State) : Outcome := .next (failLoading s)

/-- POWER_ON_RESET (R177). -/
def execPowerOnReset (pins : PinLevels) (s : State) : Outcome := .next (powerOnValues pins s)

end Sys2Proof.Machine
end

