-- ==== Sys2Proof/Machine/StatusRecords.lean ====
section
/-!
DEFINITION. Machine/StatusRecords.lean: the status sections that READ STATUS writes (09_the_order_ring.md R151, R152;
12_record_and_register_formats.md Tables 12-9 to 12-12, R179). Every section is 64 bytes; a byte no table names is 0.
-/

namespace Sys2Proof.Machine

/-- The bytes that begin every section, of a stream too: target, stream number (0 for PART), section number, and the count
(R151, section 12.7). DEDUCED (notes/assumptions/35.md): where R140 says that the stream status record does not carry the
count, it speaks of the section's own fields, and none of a stream section's carries it. -/
def sectionHead (target stream part : Nat) (count : Long) : List (Nat × List Byte) :=
  [(0, le 1 target), (1, le 1 stream), (2, le 1 part), (8, le 8 count.toNat)]

/-- The line, N and T of a start condition: 0 where they do not apply (R178, R179). -/
def StartCondition.lineField : StartCondition → Nat
  | .line n => n.val
  | .now | .external | .time _ => 0
def StartCondition.timeField : StartCondition → Nat
  | .time t => t.toNat
  | .now | .external | .line _ => 0
def StopCondition.lineField : StopCondition → Nat
  | .line n => n.val
  | .none | .count _ | .time _ => 0
def StopCondition.countField : StopCondition → Nat
  | .count n => n
  | .none | .line _ | .time _ => 0
def StopCondition.timeField : StopCondition → Nat
  | .time t => t.toNat
  | .none | .count _ | .line _ => 0

/-- A policy as its bit. -/
def Policy.halts : Policy → Bool
  | .halt => true
  | .mark => false

/-- The configuration fields of stream section 0 (Table 12-9). -/
def configFields (s : State) (i : StreamId) (c : StreamConfig) : List (Nat × List Byte) :=
  [(5, le 1 c.scanList.val), (6, le 1 (s.stepsOf i).length), (7, le 1 c.generator.val), (16, le 1 c.ring.val),
   (18, le 1 (bit c.slipPolicy.halts 0 + bit c.overrunPolicy.halts 1)), (20, le 2 c.passesPerBlock), (22, le 2 c.depth),
   (26, le 2 (s.maxBlockBytes i)), (28, le 2 c.flushMs), (30, le 1 c.start.code), (31, le 1 c.start.lineField),
   (32, le 1 c.stop.code), (33, le 1 c.stop.lineField), (36, le 4 c.stop.countField), (40, le 8 c.start.timeField),
   (48, le 8 c.stop.timeField)]

/-- Stream section 0, configuration (Tables 9-4 and 12-9). -/
def streamSection0 (s : State) (i : StreamId) : List Byte :=
  let x := s.streams[i]
  layout 64 (sectionHead 0 i.val 0 s.timebase.count ++
    [(3, le 1 x.state.code), (4, le 1 (match x.endReason with | some r => r.code | none => 0)),
     (17, le 1 x.pagesHeld), (24, le 2 x.capacity)] ++
    (match x.config with | some c => configFields s i c | none => []))

/-- Stream section 1, run (Tables 9-4 and 12-10). -/
def streamSection1 (s : State) (i : StreamId) : List Byte :=
  let x := s.streams[i]
  let q := s.staging[i]
  let d := s.currentBuffer i
  let timerRuns := match (s.buffers[i]).head? with | some d => d.timer.isSome | none => false
  let flags := bit x.pass.isSome 0 + bit (s.writing i) 1 + bit timerRuns 2 + bit x.nextPass.isSome 3
    + 32 * (s.outboxes[i]).length
  let trigger := match x.trigger with | some t => t.source.code + 16 * t.source.number | none => 0
  layout 64 (sectionHead 0 i.val 1 s.timebase.count ++
    [(3, le 1 flags), (4, le 1 trigger), (5, le 3 (match d with | some d => d.fill | none => 0)),
     (16, le 8 (match x.trigger with | some t => t.time.toNat | none => 0)), (24, le 4 ((x.nextPass.getD 0).toNat)),
     (28, le 4 x.begun), (32, le 4 x.totalCompleted), (36, le 4 x.totalSlipped), (40, le 4 x.totalDropped),
     (44, le 4 x.nextSequence.toNat), (48, le 2 x.slippedSince), (50, le 2 x.droppedSince),
     (52, le 2 (q.slotsInUse (s.stepsOf i).length)), (54, le 2 q.closed.length),
     (56, le 4 (match d with | some d => d.tag.toNat | none => 0)),
     (60, le 2 (match d with | some d => min d.blocks 65535 | none => 0)),
     (62, le 1 (match x.pass with | some p => p.step | none => 0)), (63, le 1 (s.buffers[i]).length)])

/-- The milliseconds left before the arm expires, rounded down, or 0 without timeout (R140). -/
def msLeft (now : Nat) (a : SyncArm) : Nat :=
  match a.expiry with
  | some e => (e - now) / periodsPerMs
  | none => 0

/-- A bit of a byte for each trigger line. -/
def lineBits (s : State) (f : Line → Bool) : Nat :=
  bit (f (s.lines[0])) 0 + bit (f (s.lines[1])) 1 + bit (f (s.lines[2])) 2 + bit (f (s.lines[3])) 3

/-- The event of a held TIMEBASE_EVENT record, 0 when the hold slot is empty (Table 12-8). -/
def holdCode : Option Record → Nat
  | some (.timebaseEvent e _ _ _ _) => e.code
  | _ => 0

/-- PART section 0 (Tables 9-5 and 12-11). -/
def partSection0 (s : State) : List Byte :=
  let t := s.timebase
  layout 64 (sectionHead 1 0 0 t.count ++
    [(3, le 1 s.orders.work.code), (4, le 1 s.freePages),
     (5, le 1 (match s.writeInFlight with | some w => w.stream.val | none => 8)), (6, le 1 s.grantPointer.val),
     (7, le 1 t.role.code), (16, le 2 s.orders.head), (18, le 2 s.orders.tail), (20, le 1 (bit t.arm.isSome 0)),
     (21, le 1 t.fire.code), (22, le 1 (holdCode t.hold)), (23, le 1 (bit s.syncHigh 0 + bit t.fire.drives 1)),
     (24, le 4 (match t.arm with | some a => a.timeoutMs | none => 0)),
     (28, le 4 (match t.arm with | some a => msLeft s.elapsed a | none => 0)),
     (32, le 8 (match t.arm with | some a => a.preset.toNat | none => 0)),
     (40, le 8 (match t.fire with | .waiting time => time.toNat | .absent | .driving _ => 0)),
     (48, le 1 (lineBits s (fun l => l.polarity == .activeLow))), (49, le 1 (lineBits s (·.high))),
     (50, le 1 (lineBits s (·.active))), (51, le 1 s.alertLevel.val)])

/-- A generator entry of 24 bytes at an offset (Table 12-12). -/
def generatorFields (g : Generator) (o : Nat) : List (Nat × List Byte) :=
  [(o, le 1 g.state.code), (o + 1, le 1 g.source.code), (o + 2, le 1 (gateCode g.gate)), (o + 3, le 1 g.mode.code),
   (o + 4, le 4 g.prescale), (o + 8, le 4 g.divide), (o + 12, le 4 g.burst), (o + 16, le 2 g.prescaleCount),
   (o + 18, le 2 g.divideCount), (o + 20, le 4 g.ticks)]

/-- A window entry of 24 bytes at an offset (Table 12-12). -/
def windowFields (w : Window) (o : Nat) : List (Nat × List Byte) :=
  [(o, le 1 (bit w.enabled 0)), (o + 1, le 1 w.use.code), (o + 8, le 8 w.base.toNat), (o + 16, le 8 w.mask.toNat)]

/-- A watch entry of 12 bytes at an offset (Table 12-12). -/
def watchFields (w : Watch) (o : Nat) : List (Nat × List Byte) :=
  [(o, le 1 (bit w.enabled 0 + bit w.note 1 + bit w.wait.isSome 2 + 8 * w.state.code + 32 * w.runSide.code)),
   (o + 1, le 1 (w.channel.val + 32 * w.ring.val)), (o + 2, le 1 (filterCode w.filter + 16 * (w.persistence - 1))),
   (o + 3, le 1 (w.action.code + 32 * w.alert.val)), (o + 4, le 2 w.low.toNat), (o + 6, le 2 w.high.toNat),
   (o + 8, le 2 (w.hysteresis + 4096 * w.runCount)), (o + 10, le 2 w.lost)]

/-- A PART section by number (Table 9-5): 0 part, 1 and 2 pace, 3 and 4 windows, 5 to 8 watches. -/
def partSection (s : State) (n : Fin 9) : List Byte :=
  let head := sectionHead 1 0 n.val s.timebase.count
  let pace (a b : GeneratorId) := layout 64 (head ++ generatorFields s.generators[a] 16 ++ generatorFields s.generators[b] 40)
  let windows (a b : WindowId) := layout 64 (head ++ windowFields s.windows[a] 16 ++ windowFields s.windows[b] 40)
  let watches (a b c d : WatchId) := layout 64 (head ++ watchFields s.watches[a] 16 ++ watchFields s.watches[b] 28
    ++ watchFields s.watches[c] 40 ++ watchFields s.watches[d] 52)
  match n with
  | 0 => partSection0 s
  | 1 => pace 0 1
  | 2 => pace 2 3
  | 3 => windows 0 1
  | 4 => windows 2 3
  | 5 => watches 0 1 2 3
  | 6 => watches 4 5 6 7
  | 7 => watches 8 9 10 11
  | 8 => watches 12 13 14 15

/-- What READ STATUS asks for (R149 check 1): the section's bytes, none when the fields name no section. -/
def statusSection (target stream part : Byte) (s : State) : Option (List Byte) :=
  if target = 0 then
    match index? 8 stream with
    | some i => if part = 0 then some (streamSection0 s i) else if part = 1 then some (streamSection1 s i) else none
    | none => none
  else if target = 1 then (index? 9 part).map (partSection s)
  else none

end Sys2Proof.Machine
end

