-- ==== Sys2Proof/Machine/OrderEvents.lean ====
section
/-!
DEFINITION. Machine/OrderEvents.lean: the Order Unit's own orders and the ends of its reads (09_the_order_ring.md).
-/

namespace Sys2Proof.Machine

/-- READ STATUS's checks (R149): the section's bytes when they pass, else the refusal. The state is the one in which the
order is taken. -/
def checkStatus (target stream part : Byte) (address : Long) (s : State) : Except (Status × Nat) (List Byte) :=
  match statusSection target stream part s with
  | none => .error (.badField, 1)
  | some bytes =>
    if address.toNat % 8 ≠ 0 ∨ 2 ^ 64 - 1 < address.toNat + 63 then .error (.badField, 2)
    else if !s.accepts WindowUse.allowsStatus address (address + 63) then .error (.outsideWindow, 0)
    else .ok bytes

/-- READ STATUS at the Order Unit: an accepted one issues its section and the flush read, and stays EXECUTING (R149,
R150). -/
def takeStatus (target stream part : Byte) (address : Long) (order : OrderInHand) (s : State) : State :=
  match checkStatus target stream part address s with
  | .error (status, detail) => finishOrder order (refuse s status detail)
  | .ok bytes => (s.emit (.write address bytes)).emit (.read (address + 60) 0)

/-- The end of a status write (R150): DONE or WRITE ERROR while the link is UP, discarded otherwise (R153). A late
successful reply ends nothing (R174). -/
def endStatusWrite (ok : Bool) (s : State) : State :=
  match s.orders.work with
  | .executing order issued =>
    if ok && !s.inTime issued then s
    else if s.linkUp then finishOrder order (refuse s (if ok then .done else .writeError) 0) else dropFetch s
  | .idle | .fetching _ | .placing _ _ => s

/-- A failed order fetch (R144): a fault while the link is UP, discarded otherwise. -/
def failFetch (s : State) : State :=
  match s.orders.work with
  | .fetching _ =>
    if s.linkUp then linkFault .orderRead (BitVec.ofNat 16 s.orders.head) (dropFetch s) else dropFetch s
  | .idle | .executing _ _ | .placing _ _ => s

/-- A fetch in flight ends after a teardown or link reset began (R144, R153). -/
def endLateFetch (s : State) : State :=
  match s.orders.work with
  | .fetching _ => if s.linkUp then s else dropFetch s
  | .idle | .executing _ _ | .placing _ _ => s

/-- The waiting Order Unit takes the report of room and offers its record again (R147). -/
def reofferOrderRecord (s : State) : State :=
  match s.orders.work with
  | .placing order left => if s.orders.roomReported then placeLeft order left s else s
  | .idle | .fetching _ | .executing _ _ => s

/-! ### Meanings -/

/-- NOP (R148). -/
def execNop (h : OrderHeader) (s : State) : Outcome :=
  .next (takeDecided 0x0001 h accept s)

/-- READ STATUS (R149 to R152). -/
def execReadStatus (h : OrderHeader) (target stream part : Byte) (address : Long) (s : State) : Outcome :=
  .next (takeOrder 0x0002 h (takeStatus target stream part address) s)

/-- An order of unknown kind (R145, R178). A term that carries a known kind is no command (`Instr.wellFormed`). -/
def execUnknownKind (h : OrderHeader) (kind : Half) (s : State) : Outcome :=
  if knownKinds.contains kind then .refused (.illFormed "UNKNOWN_KIND")
  else .next (takeDecided kind h (fun s => refuse s .unknownKind 0) s)

/-- ORDER_READ: an order fetch fails (R144). -/
def execOrderRead (s : State) : Outcome := .next (failFetch s)

/-- STATUS_WRITE_END (R150). -/
def execStatusWriteEnd (ok : Bool) (s : State) : Outcome := .next (endStatusWrite ok s)

/-- ORDER_RECORD_REOFFER (R147). -/
def execOrderRecordReoffer (s : State) : Outcome := .next (reofferOrderRecord s)

/-- ORDER_FETCH_END_AFTER_TEARDOWN (R144). -/
def execOrderFetchEndAfterTeardown (s : State) : Outcome := .next (endLateFetch s)

end Sys2Proof.Machine
end

