-- ==== Sys2Proof/Machine/SampleEvents.lean ====
section
/-!
DEFINITION. Machine/SampleEvents.lean: step completions, returns, and the offers, requests and answers between streams
and watches (03_converters_and_passes.md, 07_watches_and_alert_levels.md).
-/

namespace Sys2Proof.Machine

/-- A converter's conversion ends: the owner's return is sent, an orphan's sample is discarded, and the next waiting
request is granted (R45, R48, R57). -/
def completeStep (c : ConverterId) (inputs : Vector Voltage 8) (s : State) : State :=
  match (s.converters[c]).conversion with
  | none => s
  | some v =>
    let s := passTo v.endsAt s
    let s :=
      match v.owner with
      | some i =>
        let r : Return := ⟨v.pass, v.step, formSample v.averaging v.range inputs, s.timebase.count⟩
        s.modReturns i (fun l => l ++ [r])
      | none => s
    s.modConverter c (fun x => { x with conversion := none }.grantNext s.channels s.elapsed)

/-- The moment at which a converter's conversion ends (R46). -/
def State.stepMoment (s : State) (c : ConverterId) : Nat :=
  match (s.converters[c]).conversion with
  | some v => v.endsAt
  | none => 0

/-- A stream takes the oldest return on its way to it (R50). -/
def takeOldestReturn (i : StreamId) (s : State) : State :=
  match s.returns[i] with
  | [] => s
  | r :: rest => takeReturn i r (s.modReturns i (fun _ => rest))

/-- The Watch Unit takes an offer (R120). -/
def takeOffer (which : Nat) (watches : List WatchId) (s : State) : State :=
  match s.offers[which]? with
  | none => s
  | some o =>
    let s := { s with offers := s.offers.eraseIdx which }
    (arrange watches (s.watchesFor o)).foldl (fun s m => offerTo m o s) s

/-- The request of a watch that is on its way to the Stream Controller (R123). -/
def Watch.request (w : Watch) : WatchAction :=
  match w.wait with
  | some t => if t.answer.isNone then t.request else .none
  | none => .none

/-- The Stream Controller takes a START request and answers it (R18, R123). -/
def answerStart (m : WatchId) (s : State) : State :=
  match (s.watches[m]).request with
  | .start i =>
    let r := takeStartRequest m i s
    giveAnswer m r.2 r.1
  | .halt _ | .none => s

/-- The Stream Controller takes a HALT request and answers it (R19, R123). -/
def answerHalt (m : WatchId) (s : State) : State :=
  match (s.watches[m]).request with
  | .halt i =>
    let r := takeHaltRequest i s
    giveAnswer m r.2 r.1
  | .start _ | .none => s

/-- A watch takes the answer to its request (R123). -/
def takeAnswer (m : WatchId) (s : State) : State :=
  match (s.watches[m]).wait with
  | some t =>
    match t.answer with
    | some a => endWait m t a s
    | none => s
  | none => s

/-! ### Meanings -/

/-- STEP_COMPLETION (R48). -/
def execStepCompletion (converter : ConverterId) (inputs : Vector Voltage 8) (s : State) : Outcome :=
  .next (completeStep converter inputs (s.readyAt (s.stepMoment converter)))

/-- RETURN_TAKEN (R50 to R52). -/
def execReturnTaken (stream : StreamId) (s : State) : Outcome := .next (takeOldestReturn stream s)

/-- WATCH_OFFER (R120 to R122). -/
def execWatchOffer (which : Nat) (watches : List WatchId) (s : State) : Outcome := .next (takeOffer which watches s)

/-- WATCH_START_REQUEST (R18). -/
def execWatchStartRequest (watch : WatchId) (s : State) : Outcome := .next (answerStart watch s)

/-- WATCH_HALT_REQUEST (R19). -/
def execWatchHaltRequest (watch : WatchId) (s : State) : Outcome := .next (answerHalt watch s)

/-- WATCH_ANSWER (R123). -/
def execWatchAnswer (watch : WatchId) (s : State) : Outcome := .next (takeAnswer watch s)

end Sys2Proof.Machine
end

