-- ==== Sys2Proof/Machine/SetupOrders.lean ====
section
/-!
DEFINITION. Machine/SetupOrders.lean: the orders to the Scan Table and Channel Table (02_scan_lists_and_channels.md),
the Pace Generators and the Line Interface (06_pacing_and_external_lines.md).
-/

namespace Sys2Proof.Machine

/-! ### Scan Table and Channel Table -/

/-- Whether a stream is active and has a channel in a step of its list (R39 check 2). -/
def State.converts (s : State) (i : StreamId) (ch : ChannelId) : Bool :=
  (s.streams[i]).state.active && (s.stepsOf i).any (fun x => x.channel == ch)

/-- Whether a stream is configured and bound to a list (R29). -/
def State.bindsList (s : State) (i : StreamId) (l : ListId) : Bool :=
  (s.streams[i]).state.configured &&
    match (s.streams[i]).config with
    | some c => c.scanList == l
    | none => false

/-- The lowest-numbered configured stream bound to a list (R29). -/
def State.listUser (s : State) (l : ListId) : Option StreamId := allStreams.find? (fun i => s.bindsList i l)

/-- A channel's setting is written, and the converter that serves it forgets it as last channel (R40). -/
def writeChannel (ch : ChannelId) (x : ChannelSetting) (s : State) : State :=
  { s with channels := upd s.channels ch (fun _ => x) }.modConverter (converterOf ch) (fun c => c.forget ch)

/-- SET CHANNEL at the Channel Table (R39, R40). -/
def setChannelOwner (channel range settle : Byte) (s : State) : Answer :=
  match index? 32 channel, index? 4 range, index? 16 settle with
  | some ch, some r, some n =>
    match allStreams.find? (fun i => s.converts i ch) with
    | some i => refuse s .inUse i.val
    | none => accept (writeChannel ch ⟨r, n⟩ s)
  | _, _, _ => refuse s .badField 0

/-- The steps of a list are replaced. -/
def State.setList (s : State) (l : ListId) (steps : List ScanStep) : State :=
  { s with scanLists := upd s.scanLists l (fun _ => steps) }

/-- The first of the entries that names no step, by its index (R30 check 3). -/
def firstBadStep : List StepEntry → Nat → Option Nat
  | [], _ => none
  | e :: rest, i => if (step? e).isNone then some i else firstBadStep rest (i + 1)

/-- LOAD SCAN at the Scan Table (R30 to R32); the mode byte 1 is APPEND. -/
def loadScanOwner (list mode count : Byte) (entries : Vector StepEntry 6) (s : State) : Answer :=
  match index? 16 list, flag? mode, inRange? 1 6 count.toNat with
  | some l, some append, some n =>
    match s.listUser l with
    | some i => refuse s .inUse i.val
    | none =>
      let used := entries.toList.take n
      match firstBadStep used 0 with
      | some i => refuse s .badField (i + 1)
      | none =>
        let old := if append then s.scanLists[l] else []
        if 32 < old.length + n then refuse s .badField 7
        else accept (s.setList l (old ++ used.filterMap step?))
  | _, _, _ => refuse s .badField 0

/-- CLEAR SCAN at the Scan Table (R33). -/
def clearScanOwner (list : Byte) (s : State) : Answer :=
  match index? 16 list with
  | none => refuse s .badField 0
  | some l =>
    match s.listUser l with
    | some i => refuse s .inUse i.val
    | none => accept (s.setList l [])

/-! ### Pace Generators -/

/-- Whether a generator takes SET PACE and RUN PACE: STOPPED or DONE (R105, R106). -/
def PaceState.atRest : PaceState → Bool
  | .stopped | .done => true
  | .running | .gated => false

/-- Whether a generator's gate names the line that is its source (R105 check 5). -/
def Generator.gatesSource (g : Generator) : Bool :=
  match g.source, g.gate with
  | .trig n, some m => n == m
  | .trig _, none | .reference, _ => false

/-- SET PACE at the Pace Generators block (R105). -/
def setPaceOwner (f : PaceFields) (s : State) : Answer :=
  match index? 4 f.generator with
  | none => refuse s .badField 0
  | some g =>
    if !(s.generators[g]).state.atRest then refuse s .wrongState 0
    else match pace? f with
    | none => refuse s .badField 1
    | some x =>
      if x.source = .reference ∧ x.interval < 50 then refuse s .badField 2
      else if x.gatesSource then refuse s .badField 3
      else accept (s.modGenerator g (fun _ => x))

/-- Whether a generator's gate line is inactive (R106). -/
def State.gateClosed (s : State) (g : GeneratorId) : Bool :=
  match (s.generators[g]).gate with
  | some n => !(s.lines[n]).active
  | none => false

/-- A generator as an accepted RUN PACE leaves it (R106). -/
def Generator.begin (x : Generator) (closed : Bool) : Generator :=
  { x with
    prescaleCount := 0, divideCount := 0, ticks := 0, owed := 0
    state := if closed then .gated else .running }

/-- RUN PACE at the Pace Generators block (R106). -/
def runPaceOwner (generator : Byte) (s : State) : Answer :=
  match index? 4 generator with
  | none => refuse s .badField 0
  | some g =>
    if !(s.generators[g]).state.atRest then refuse s .wrongState 0
    else accept (s.modGenerator g (fun x => x.begin (s.gateClosed g)))

/-- HALT PACE at the Pace Generators block (R107); source events not yet taken find the generator STOPPED. -/
def haltPaceOwner (generator : Byte) (s : State) : Answer :=
  match index? 4 generator with
  | none => refuse s .badField 0
  | some g => accept (s.modGenerator g (fun x => { x with state := .stopped, owed := 0 }))

/-! ### Line Interface -/

/-- SET LINE at the Line Interface (R112). An unused line has no receiver for what it owes. DEDUCED
(notes/assumptions/39.md): the active state is at once that of the last sample's level under the new polarity, and that
sample counts as the one before the next: if it is INACTIVE so, the first sample after SET LINE that finds the line
ACTIVE is an edge. -/
def setLineOwner (line polarity : Byte) (s : State) : Answer :=
  match index? 4 line, polarity? polarity with
  | some n, some p =>
    match s.lineUser n with
    | some user => refuse s .inUse user
    | none => accept (s.modLine n (fun l => { l with polarity := p, owed := .nothing }))
  | _, _ => refuse s .badField 0

/-! ### Meanings -/

/-- SET CHANNEL (R39, R40). -/
def execSetChannel (h : OrderHeader) (channel range settle : Byte) (s : State) : Outcome :=
  .next (takeDecided 0x0010 h (setChannelOwner channel range settle) s)

/-- LOAD SCAN (R30 to R32). -/
def execLoadScan (h : OrderHeader) (list mode count : Byte) (entries : Vector StepEntry 6) (s : State) : Outcome :=
  .next (takeDecided 0x0011 h (loadScanOwner list mode count entries) s)

/-- CLEAR SCAN (R33). -/
def execClearScan (h : OrderHeader) (list : Byte) (s : State) : Outcome :=
  .next (takeDecided 0x0012 h (clearScanOwner list) s)

/-- SET PACE (R105). -/
def execSetPace (h : OrderHeader) (f : PaceFields) (s : State) : Outcome :=
  .next (takeDecided 0x0020 h (setPaceOwner f) s)

/-- RUN PACE (R106). -/
def execRunPace (h : OrderHeader) (generator : Byte) (s : State) : Outcome :=
  .next (takeDecided 0x0021 h (runPaceOwner generator) s)

/-- HALT PACE (R107). -/
def execHaltPace (h : OrderHeader) (generator : Byte) (s : State) : Outcome :=
  .next (takeDecided 0x0022 h (haltPaceOwner generator) s)

/-- SET LINE (R112). -/
def execSetLine (h : OrderHeader) (line polarity : Byte) (s : State) : Outcome :=
  .next (takeDecided 0x0023 h (setLineOwner line polarity) s)

end Sys2Proof.Machine
end

