-- ==== Sys2Proof/Machine/StreamOrders.lean ====
section
/-!
DEFINITION. Machine/StreamOrders.lean: the orders to the Stream Controller (01_streams.md). A stream number above 7 is
refused before every other check (R178).
-/

namespace Sys2Proof.Machine

/-- An order that names a stream: a number above 7 is BAD FIELD, detail 0 (R178). -/
def onStream (stream : Byte) (owner : StreamId → State → Answer) (s : State) : Answer :=
  match index? 8 stream with
  | some i => owner i s
  | none => refuse s .badField 0

/-- CONFIGURE STREAM's state check (R3 stage 1): UNCONFIGURED, or IDLE with an empty buffer queue. -/
def State.configurable (s : State) (i : StreamId) : Bool :=
  (s.streams[i]).state == .unconfigured || ((s.streams[i]).state == .idle && (s.buffers[i]).isEmpty)

/-- CONFIGURE STREAM's checks on the bound list, the ring and the capacity (R3 stage 2). -/
def State.configFits (s : State) (c : StreamConfig) (pages : Nat) : Bool :=
  let steps := (s.scanLists[c.scanList]).length
  decide (1 ≤ steps) && (s.rings[c.ring]).isSome && decide (c.passesPerBlock * steps ≤ 2048) &&
    decide (max (c.passesPerBlock * steps) (c.depth * steps) + steps ≤ pages * slotsPerPage)

/-- A context as an accepted CONFIGURE STREAM leaves it (R4). -/
def StreamContext.configure (x : StreamContext) (c : StreamConfig) (pages : Nat) : StreamContext :=
  { x.clearRun with state := .idle, config := some c, pagesHeld := pages }

/-- The effect of CONFIGURE STREAM: the holding is adjusted and the configuration replaced (R4, R62). -/
def configure (i : StreamId) (c : StreamConfig) (pages : Nat) (s : State) : State :=
  { s with freePages := s.freePages + (s.streams[i]).pagesHeld - pages }.modStream i (fun x => x.configure c pages)

/-- CONFIGURE STREAM at the Stream Controller (R3, R4). -/
def configureOwner (f : ConfigureFields) (i : StreamId) (s : State) : Answer :=
  if !s.configurable i then refuse s .wrongState 0
  else match streamConfig? f with
  | none => refuse s .badField 0
  | some (c, pages) =>
    if !s.configFits c pages then refuse s .badField 0
    else if s.freePages + (s.streams[i]).pagesHeld < pages then refuse s .noPages 0
    else accept (configure i c pages s)

/-- The effect of ARM STREAM (R6): the run state is cleared, and the start condition decides. -/
def arm (i : StreamId) (c : StreamConfig) (s : State) : State :=
  let s := s.modStream i StreamContext.clearRun
  match c.start with
  | .now => takeTrigger i .now s
  | .time t => if t ≤ s.timebase.count then takeTrigger i .lateTime s else s.modStream i (fun x => { x with state := .armed })
  | .external | .line _ => s.modStream i (fun x => { x with state := .armed })

/-- ARM STREAM at the Stream Controller (R5, R6). -/
def armOwner (i : StreamId) (s : State) : Answer :=
  match (s.streams[i]).state, (s.streams[i]).config with
  | .idle, some c =>
    if !(s.outboxes[i]).isEmpty then refuse s .backlog 0
    else if (s.rings[c.ring]).isNone then refuse s .badField 0
    else accept (arm i c s)
  | _, _ => refuse s .wrongState 0

/-- START STREAM at the Stream Controller (R8). -/
def startOwner (i : StreamId) (s : State) : Answer :=
  if (s.streams[i]).state = .armed then accept (takeTrigger i .order s) else refuse s .wrongState 0

/-- STOP STREAM at the Stream Controller (R16). -/
def stopOwner (i : StreamId) (s : State) : Answer :=
  match (s.streams[i]).state with
  | .armed => accept (endArmed i .untriggered s)
  | .running => accept (enterDraining i .stopOrder s)
  | .unconfigured | .idle | .draining | .faulted => refuse s .wrongState 0

/-- ABORT STREAM in RUNNING or DRAINING (R22, R23): a further one in fast drain changes nothing. -/
def abortRun (i : StreamId) (s : State) : State :=
  if (s.streams[i]).fastDrain then s else if s.writing i then abortFast i s else abortNow i s

/-- ABORT STREAM at the Stream Controller (R22, R23). -/
def abortOwner (i : StreamId) (s : State) : Answer :=
  match (s.streams[i]).state with
  | .armed => accept (endArmed i .aborted s)
  | .running | .draining => accept (abortRun i s)
  | .unconfigured | .idle | .faulted => refuse s .wrongState 0

/-- The effect of RESET STREAM on an IDLE or FAULTED stream (R25). -/
def resetStream (i : StreamId) (s : State) : State :=
  ({ s with freePages := s.freePages + (s.streams[i]).pagesHeld }.modBuffers i (fun _ => [])).modStream i
    (fun _ => StreamContext.reset)

/-- RESET STREAM at the Stream Controller (R25). -/
def resetOwner (i : StreamId) (s : State) : Answer :=
  match (s.streams[i]).state with
  | .unconfigured => accept s
  | .armed | .running | .draining => refuse s .wrongState 0
  | .idle | .faulted =>
    if !(s.outboxes[i]).isEmpty then refuse s .backlog 0
    else { state := resetStream i s, status := .done, returned := s.returnedRecords i }

/-! ### Meanings -/

/-- CONFIGURE STREAM (R3, R4). -/
def execConfigureStream (h : OrderHeader) (f : ConfigureFields) (s : State) : Outcome :=
  .next (takeDecided 0x0030 h (onStream f.stream (configureOwner f)) s)

/-- ARM STREAM (R5, R6). -/
def execArmStream (h : OrderHeader) (stream : Byte) (s : State) : Outcome :=
  .next (takeDecided 0x0031 h (onStream stream armOwner) s)

/-- START STREAM (R8, R9). -/
def execStartStream (h : OrderHeader) (stream : Byte) (s : State) : Outcome :=
  .next (takeDecided 0x0032 h (onStream stream startOwner) s)

/-- STOP STREAM (R16). -/
def execStopStream (h : OrderHeader) (stream : Byte) (s : State) : Outcome :=
  .next (takeDecided 0x0033 h (onStream stream stopOwner) s)

/-- ABORT STREAM (R22, R23). -/
def execAbortStream (h : OrderHeader) (stream : Byte) (s : State) : Outcome :=
  .next (takeDecided 0x0034 h (onStream stream abortOwner) s)

/-- RESET STREAM (R25). -/
def execResetStream (h : OrderHeader) (stream : Byte) (s : State) : Outcome :=
  .next (takeDecided 0x0035 h (onStream stream resetOwner) s)

end Sys2Proof.Machine
end

