-- ==== Sys2Proof/Machine/TimebaseOrders.lean ====
section
/-!
DEFINITION. Machine/TimebaseOrders.lean: the orders to the Timebase (08_timebase_and_synchronization.md).
-/

namespace Sys2Proof.Machine

/-- The Timebase is changed. -/
def State.modTimebase (s : State) (f : Timebase → Timebase) : State := { s with timebase := f s.timebase }

/-- A waiting fire is cancelled when the new role is not LEADER (R131). -/
def Fire.underRole (x : Fire) (role : Role) : Fire :=
  match x, role with
  | .waiting t, .leader => .waiting t
  | .waiting _, .off => .absent
  | .waiting _, .follower => .absent
  | .absent, _ => .absent
  | .driving e, _ => .driving e

/-- SET TIMEBASE at the Timebase (R131). -/
def setTimebaseOwner (role : Byte) (s : State) : Answer :=
  match role? role with
  | none => refuse s .badField 0
  | some r =>
    if s.timebase.arm.isSome then refuse s .wrongState 1
    else if s.timebase.fire.drives then refuse s .wrongState 2
    else accept (s.modTimebase (fun t => { t with role := r, fire := t.fire.underRole r }))

/-- ARM SYNC at the Timebase (R132). -/
def armSyncOwner (preset : Long) (timeout : Word) (s : State) : Answer :=
  if 60000 < timeout.toNat then refuse s .badField 0
  else if s.timebase.role = .off then refuse s .wrongState 1
  else if s.timebase.arm.isSome then refuse s .wrongState 2
  else if s.timebase.hold.isSome then refuse s .backlog 0
  else
    let expiry := if timeout = 0 then none else some (s.elapsed + timeout.toNat * periodsPerMs)
    accept (s.modTimebase (fun t => { t with arm := some ⟨preset, timeout.toNat, expiry⟩ }))

/-- FIRE SYNC at the Timebase (R133); the mode byte 1 is AT. -/
def fireSyncOwner (mode : Byte) (time : Long) (s : State) : Answer :=
  match flag? mode with
  | none => refuse s .badField 0
  | some atTime =>
    if s.timebase.role ≠ .leader then refuse s .wrongState 1
    else if s.timebase.fire ≠ .absent then refuse s .wrongState 2
    else if atTime = false ∨ time ≤ s.timebase.count then accept (beginPulse s)
    else accept (s.modTimebase (fun t => { t with fire := .waiting time }))

/-! ### Meanings -/

/-- SET TIMEBASE (R131). -/
def execSetTimebase (h : OrderHeader) (role : Byte) (s : State) : Outcome :=
  .next (takeDecided 0x0060 h (setTimebaseOwner role) s)

/-- ARM SYNC (R132). -/
def execArmSync (h : OrderHeader) (preset : Long) (timeout : Word) (s : State) : Outcome :=
  .next (takeDecided 0x0061 h (armSyncOwner preset timeout) s)

/-- FIRE SYNC (R133). -/
def execFireSync (h : OrderHeader) (mode : Byte) (time : Long) (s : State) : Outcome :=
  .next (takeDecided 0x0062 h (fireSyncOwner mode time) s)

end Sys2Proof.Machine
end

