-- ==== Sys2Proof/Machine/WatchOrders.lean ====
section
/-!
DEFINITION. Machine/WatchOrders.lean: the orders to the Watch Unit (07_watches_and_alert_levels.md).
-/

namespace Sys2Proof.Machine

/-- A watch with the setting of an accepted SET WATCH: its judgement is reset, and its answer wait and waiting offers
stay (R118, R123). -/
def Watch.replaceSetting (old new : Watch) : Watch :=
  { new with
    wait := old.wait.map (fun t => { t with replaced := true })
    waiting := old.waiting }

/-- SET WATCH at the Watch Unit (R117, R118). -/
def setWatchOwner (f : WatchFields) (s : State) : Answer :=
  match watch? f with
  | none => refuse s .badField 1
  | some (m, w) =>
    if w.high.toInt ≤ w.low.toInt then refuse s .badField 2
    else if w.note && (s.rings[w.ring]).isNone then refuse s .badField 3
    else accept (recomputeAlert (s.modWatch m (fun old => old.replaceSetting w)))

/-- CLEAR WATCH at the Watch Unit (R119). -/
def clearWatchOwner (watch : Byte) (s : State) : Answer :=
  match index? 16 watch with
  | none => refuse s .badField 0
  | some m => accept (recomputeAlert (s.modWatch m (fun w => { w.resetJudgement with enabled := false })))

/-! ### Meanings -/

/-- SET WATCH (R117, R118). -/
def execSetWatch (h : OrderHeader) (f : WatchFields) (s : State) : Outcome :=
  .next (takeDecided 0x0050 h (setWatchOwner f) s)

/-- CLEAR WATCH (R119). -/
def execClearWatch (h : OrderHeader) (watch : Byte) (s : State) : Outcome :=
  .next (takeDecided 0x0051 h (clearWatchOwner watch) s)

end Sys2Proof.Machine
end

