-- ==== Sys2Proof/Machine/Dispatch.lean ====
section
/-!
DEFINITION. Machine/Dispatch.lean: which meaning each command has.
-/

namespace Sys2Proof.Machine

/-- The effect of a command on everything but the queue. -/
def exec (i : Instr) (s : State) : Host.Outcome State Fault Refusal :=
  match i with
  | .nop h => Sys2Proof.Machine.execNop h s
  | .readStatus h target stream part address => Sys2Proof.Machine.execReadStatus h target stream part address s
  | .setChannel h channel range settle => Sys2Proof.Machine.execSetChannel h channel range settle s
  | .loadScan h list mode count entries => Sys2Proof.Machine.execLoadScan h list mode count entries s
  | .clearScan h list => Sys2Proof.Machine.execClearScan h list s
  | .setPace h f => Sys2Proof.Machine.execSetPace h f s
  | .runPace h generator => Sys2Proof.Machine.execRunPace h generator s
  | .haltPace h generator => Sys2Proof.Machine.execHaltPace h generator s
  | .setLine h line polarity => Sys2Proof.Machine.execSetLine h line polarity s
  | .configureStream h f => Sys2Proof.Machine.execConfigureStream h f s
  | .armStream h stream => Sys2Proof.Machine.execArmStream h stream s
  | .startStream h stream => Sys2Proof.Machine.execStartStream h stream s
  | .stopStream h stream => Sys2Proof.Machine.execStopStream h stream s
  | .abortStream h stream => Sys2Proof.Machine.execAbortStream h stream s
  | .resetStream h stream => Sys2Proof.Machine.execResetStream h stream s
  | .postBuffers h stream count entries => Sys2Proof.Machine.execPostBuffers h stream count entries s
  | .reclaimBuffers h stream => Sys2Proof.Machine.execReclaimBuffers h stream s
  | .setWindow h window enabled use base mask => Sys2Proof.Machine.execSetWindow h window enabled use base mask s
  | .setWatch h f => Sys2Proof.Machine.execSetWatch h f s
  | .clearWatch h watch => Sys2Proof.Machine.execClearWatch h watch s
  | .setTimebase h role => Sys2Proof.Machine.execSetTimebase h role s
  | .armSync h preset timeout => Sys2Proof.Machine.execArmSync h preset timeout s
  | .fireSync h mode time => Sys2Proof.Machine.execFireSync h mode time s
  | .unknownKind h kind => Sys2Proof.Machine.execUnknownKind h kind s
  | .orderRead => Sys2Proof.Machine.execOrderRead s
  | .statusWriteEnd ok => Sys2Proof.Machine.execStatusWriteEnd ok s
  | .linkControlEnable enable => Sys2Proof.Machine.execLinkControlEnable enable s
  | .linkReset => Sys2Proof.Machine.execLinkReset s
  | .linkResetEffect pins => Sys2Proof.Machine.execLinkResetEffect pins s
  | .linkDown => Sys2Proof.Machine.execLinkDown s
  | .orderTailWrite value => Sys2Proof.Machine.execOrderTailWrite value s
  | .crHeadWrite ring value => Sys2Proof.Machine.execCrHeadWrite ring value s
  | .registerWrite offset width value => Sys2Proof.Machine.execRegisterWrite offset width value s
  | .controlBlockLoad cb => Sys2Proof.Machine.execControlBlockLoad cb s
  | .controlBlockRead => Sys2Proof.Machine.execControlBlockRead s
  | .powerOnReset pins => Sys2Proof.Machine.execPowerOnReset pins s
  | .trigEdge line order streams => Sys2Proof.Machine.execTrigEdge line order streams s
  | .gateChange line active => Sys2Proof.Machine.execGateChange line active s
  | .syncFallingEdge streams => Sys2Proof.Machine.execSyncFallingEdge streams s
  | .tick generator streams => Sys2Proof.Machine.execTick generator streams s
  | .timeReached time streams => Sys2Proof.Machine.execTimeReached time streams s
  | .syncPulseEnd => Sys2Proof.Machine.execSyncPulseEnd s
  | .armTimeout => Sys2Proof.Machine.execArmTimeout s
  | .stepCompletion converter inputs => Sys2Proof.Machine.execStepCompletion converter inputs s
  | .returnTaken stream => Sys2Proof.Machine.execReturnTaken stream s
  | .watchOffer which watches => Sys2Proof.Machine.execWatchOffer which watches s
  | .watchStartRequest watch => Sys2Proof.Machine.execWatchStartRequest watch s
  | .watchHaltRequest watch => Sys2Proof.Machine.execWatchHaltRequest watch s
  | .watchAnswer watch => Sys2Proof.Machine.execWatchAnswer watch s
  | .deliveryGrant => Sys2Proof.Machine.execDeliveryGrant s
  | .blockWriteSuccess => Sys2Proof.Machine.execBlockWriteSuccess s
  | .blockWriteFailure => Sys2Proof.Machine.execBlockWriteFailure s
  | .flushTimerExpiry stream => Sys2Proof.Machine.execFlushTimerExpiry stream s
  | .holdoffExpiry ring => Sys2Proof.Machine.execHoldoffExpiry ring s
  | .orderRecordReoffer => Sys2Proof.Machine.execOrderRecordReoffer s
  | .timebaseRecordReoffer => Sys2Proof.Machine.execTimebaseRecordReoffer s
  | .orderFetchEndAfterTeardown => Sys2Proof.Machine.execOrderFetchEndAfterTeardown s

end Sys2Proof.Machine
end

