-- ==== Sys2Proof/Machine/Idle.lean ====
section
/-!
DEFINITION. Machine/Idle.lean: what the part does while no command waits (notes/assumptions/1.md). An event of its own
that is due is queued as the command that stands for it; where none is due, one reference period passes (R130). Which of
several due events comes first, what the inputs read and in what order independent receivers take an event are free
values of Config.
-/

namespace Sys2Proof.Machine

/-- A moment that elapsed time has reached. -/
def State.reached (s : State) (moment : Nat) : Bool := decide (moment ≤ s.elapsed)

/-- A host read issued at a moment has been outstanding for 50 ms (R174). -/
def State.timedOut (s : State) (issued : Nat) : Bool := s.reached (issued + hostReadTimeout)

/-- Ticks of generators that owe one (R102). -/
def dueTicks (s : State) : List Instr :=
  (allFours.filter (fun g => (s.generators[g]).countsPeriods && decide (0 < (s.generators[g]).owed))).map
    (fun g => .tick g (Config.streamOrder s.choices))

/-- Edges and changes that trigger lines still owe to a group of their receivers (R111). -/
def dueLines (s : State) : List Instr :=
  allFours.filterMap (fun n =>
    match (s.lines[n]).owed with
    | .nothing => none
    | .edge => some (.trigEdge n (Config.receiverOrder s.choices) (Config.streamOrder s.choices))
    | .change => some (.gateChange n true))

/-- A timed condition that the count has reached (R137). -/
def dueTimes (s : State) : List Instr :=
  let fire :=
    match s.timebase.fire with
    | .waiting t => decide (t ≤ s.timebase.count)
    | .absent | .driving _ => false
  if !s.timedStreams.isEmpty || fire then [.timeReached s.timebase.count (Config.streamOrder s.choices)] else []

/-- The edge and the end of the part's own SYNC pulse (R133). -/
def duePulse (s : State) : List Instr :=
  match s.timebase.fire with
  | .driving e =>
    (if s.syncHigh && s.reached s.syncMoment then [.syncFallingEdge (Config.streamOrder s.choices)] else [])
      ++ (if s.reached e then [.syncPulseEnd] else [])
  | .absent | .waiting _ => []

/-- The expiry of the sync arm (R135). -/
def dueArm (s : State) : List Instr :=
  match s.timebase.arm.bind (·.expiry) with
  | some e => if s.reached e then [.armTimeout] else []
  | none => []

/-- The voltages that the individual conversions of a conversion find: conversion k of a ends 2 µs × (a − 1 − k) before
the step does (R46, notes/assumptions/21.md). -/
def conversionInputs (v : Conversion) : Vector Voltage 8 :=
  Vector.ofFn (fun k => Config.inputVoltage v.channel.val (v.endsAt - 2 * periodsPerUs * (v.averaging - 1 - k.val)))

/-- Conversions that have reached their end time (R48). -/
def dueSteps (s : State) : List Instr :=
  allFours.filterMap (fun c =>
    match (s.converters[c]).conversion with
    | some v => if s.reached v.endsAt then some (.stepCompletion c (conversionInputs v)) else none
    | none => none)

/-- Returns on their way to streams (R50). -/
def dueReturns (s : State) : List Instr :=
  (allStreams.filter (fun i => !(s.returns[i]).isEmpty)).map .returnTaken

/-- Offers on their way to the Watch Unit (R120). -/
def dueOffers (s : State) : List Instr :=
  (List.range s.offers.length).map (fun n => .watchOffer n (Config.watchOrder s.choices))

/-- Requests of watches and their answers on their way (R123). -/
def dueRequests (s : State) : List Instr :=
  allWatches.filterMap (fun m =>
    match (s.watches[m]).wait with
    | none => none
    | some t =>
      match t.answer, t.request with
      | some _, _ => some (.watchAnswer m)
      | none, .start _ => some (.watchStartRequest m)
      | none, .halt _ => some (.watchHaltRequest m)
      | none, .none => none)

/-- A grant that the free arbiter can make (R86). -/
def dueGrant (s : State) : List Instr :=
  if s.writeInFlight.isNone && allStreams.any (fun i => s.eligible i) then [.deliveryGrant] else []

/-- Flush timers that have reached their moment (R96). -/
def dueFlushes (s : State) : List Instr :=
  (allStreams.filter (fun i =>
    match (s.buffers[i]).head?.bind (·.timer) with
    | some e => s.reached e
    | none => false)).map .flushTimerExpiry

/-- Holdoff timers that have reached their moment (R164). -/
def dueHoldoffs (s : State) : List Instr :=
  (allFours.filter (fun n =>
    match s.rings[n] with
    | some r =>
      match r.timer with
      | .running e => s.reached e
      | .stopped | .expired => false
    | none => false)).map .holdoffExpiry

/-- Host reads whose 50 ms have run out (R174). -/
def dueTimeouts (s : State) : List Instr :=
  (match s.orders.work with
    | .fetching t => if s.timedOut t then (if s.linkUp then [.orderRead] else [.orderFetchEndAfterTeardown]) else []
    | .executing _ t => if s.timedOut t then [.statusWriteEnd false] else []
    | .idle | .placing _ _ => [])
  ++ (match s.writeInFlight with
    | some w => if s.timedOut w.issued then [.blockWriteFailure] else []
    | none => [])
  ++ (match s.link.cbRead with
    | some t => if s.timedOut t then [.controlBlockRead] else []
    | none => [])

/-- Records that producers offer again after a report of room (R157). -/
def dueReoffers (s : State) : List Instr :=
  (match s.orders.work with
    | .placing _ _ => if s.orders.roomReported then [.orderRecordReoffer] else []
    | .idle | .fetching _ | .executing _ _ => [])
  ++ (if s.timebase.hold.isSome && s.timebase.roomReported then [.timebaseRecordReoffer] else [])

/-- The pins as they stand. -/
def State.pins (s : State) : PinLevels where
  trig := BitVec.ofNat 4 (bit s.lines[0].high 0 + bit s.lines[1].high 1 + bit s.lines[2].high 2 + bit s.lines[3].high 3)
  sync := s.syncHigh

/-- The link's own transitions (R174, R176). -/
def dueLink (s : State) : List Instr :=
  if s.readsOutstanding = 0 then
    if s.link.resetPending then [.linkResetEffect s.pins]
    else if s.link.state = .stopping then [.linkDown] else []
  else []

/-- The events of the part's own that are due. -/
def dueEvents (s : State) : List Instr :=
  dueTicks s ++ dueLines s ++ dueTimes s ++ duePulse s ++ dueArm s ++ dueSteps s ++ dueReturns s ++ dueOffers s ++ dueRequests s
    ++ dueGrant s ++ dueFlushes s ++ dueHoldoffs s ++ dueTimeouts s ++ dueReoffers s ++ dueLink s

/-- The part with no command waiting. -/
def idle (s : State) : State :=
  match dueEvents s with
  | [] => passTime 1 s
  | [e] => { s with pending := [e], choices := s.choices + 1 }
  | e :: f :: rest =>
    let l := e :: f :: rest
    { s with pending := [l.getD (Config.choice s.choices % l.length) e], choices := s.choices + 1 }

end Sys2Proof.Machine
end

