-- ==== Sys2Proof/Safety.lean ====
section
/-!
DEFINITION. Safety.lean: the terms in which statements speak about the machine: when an order can be taken and what
its answer leaves, the safe conditions the spec promises at every moment, and what a safe run is.
-/

namespace Sys2Proof.Machine

/-! ### Orders -/

/-- Whether a read of a slot of the Order Ring is in flight (R143). -/
def OrderWork.isFetching : OrderWork → Bool
  | .fetching _ => true
  | .idle | .executing _ _ | .placing _ _ => false

/-- An order can be taken: the link is UP and the read of the slot at the head is in flight for no more than 50 ms (R143,
R174). -/
def State.takesOrder (s : State) : Prop :=
  s.linkUp = true ∧ ∃ issued, s.orders.work = .fetching issued ∧ s.inTime issued = true

/-- The order in hand when an order of a kind is taken in a state (R143 step 1). -/
def State.inHand (s : State) (kind : Half) (h : OrderHeader) : OrderInHand := ⟨s.orders.head, kind, h.tag, h.silent⟩

/-- The state in which the owner of an order decides: the order is in hand and the head has advanced (R143). -/
def State.taking (s : State) (kind : Half) (h : OrderHeader) : State :=
  { s with
    orders := { s.orders with head := s.orders.nextHead, work := .executing (s.inHand kind h) s.elapsed } }

/-- The state that an order taken in `s` leaves when its owner answers with `a`: the owner's state with the order's
records placed (R145 to R147). -/
def State.answered (s : State) (kind : Half) (h : OrderHeader) (a : State → Answer) : State :=
  finishOrder (s.inHand kind h) (a (s.taking kind h))

/-- The byte that carries an index or a small number. -/
def byteOf (n : Nat) : Byte := BitVec.ofNat 8 n

/-! ### Bytes -/

/-- `n` bytes that hold the given fields, each at an offset, of a size, little-endian with what its size can hold of its
value, and 0 in every byte of no field (R179). -/
structure HasLayout (n : Nat) (fields : List (Nat × Nat × Nat)) (b : List Byte) : Prop where
  length : b.length = n
  field : ∀ f ∈ fields, fieldAt f.1 f.2.1 b = f.2.2 % 256 ^ f.2.1
  rest : ∀ k : Nat, (∀ f ∈ fields, k < f.1 ∨ f.1 + f.2.1 ≤ k) → byteAt k b = 0

/-! ### Streams -/

/-- A state that stream `i` cannot tell from another when it takes a tick: its own context, staging, buffers and outbox,
the tables, the count and elapsed time, the link and the write in flight are the same. Other streams that took the tick
before it may have changed the converters, the rings, the output and the model's own counters. -/
structure State.SeesAlike (s : State) (i : StreamId) (t : State) : Prop where
  stream : s.streams[i] = t.streams[i]
  staging : s.staging[i] = t.staging[i]
  buffers : s.buffers[i] = t.buffers[i]
  outbox : s.outboxes[i] = t.outboxes[i]
  scanLists : s.scanLists = t.scanLists
  channels : s.channels = t.channels
  count : s.timebase.count = t.timebase.count
  elapsed : s.elapsed = t.elapsed
  link : s.link = t.link
  writeInFlight : s.writeInFlight = t.writeInFlight

/-! ### What holds at every moment -/

/-- The pages of all streams together. -/
def pagesHeldByAll (v : Vector StreamContext 8) : Nat :=
  v[0].pagesHeld + v[1].pagesHeld + v[2].pagesHeld + v[3].pagesHeld + v[4].pagesHeld + v[5].pagesHeld + v[6].pagesHeld
    + v[7].pagesHeld

/-- The free page pool plus the pages held by all streams number exactly 64 (R61). -/
def State.PagesAccounted (s : State) : Prop := s.freePages + pagesHeldByAll s.streams = 64

/-- A ring in order (R154, R155, R158): positions below twice its size, no more slots written and not returned than it
has, and at most 16 pending records. -/
structure Ring.Ordered (r : Ring) : Prop where
  size_pos : 0 < r.size
  written_lt : r.written < 2 * r.size
  returned_lt : r.returned < 2 * r.size
  outstanding_le : r.outstanding ≤ r.size
  waiting_le : r.waiting.length ≤ pendingLimit

/-- Every enabled ring is in order. -/
def State.RingsOrdered (s : State) : Prop := ∀ (n : RingId) (r : Ring), s.rings[n] = some r → r.Ordered

/-- Outside UP no completion ring is enabled (R166), so nothing can be written or reported, and no geometry of the Order
Ring is held (R141, R170). -/
def State.QuietOutsideUp (s : State) : Prop :=
  s.linkUp = false → (∀ n : RingId, s.rings[n] = none) ∧ s.orders.geometry = none

/-- No buffer queue holds more than 32 descriptors (R81). -/
def State.BuffersBounded (s : State) : Prop := ∀ i : StreamId, (s.buffers[i]).length ≤ bufferLimit

/-- The STREAM_STATE records that a stream's arming can still give rise to: TRIGGERED, DRAINING, and ENDED or FAULTED
(R2). -/
def StreamState.recordsAhead : StreamState → Nat
  | .armed => 3
  | .running => 2
  | .draining => 1
  | .unconfigured | .idle | .faulted => 0

/-- A descriptor that a block has been written into, or whose flush timer runs (R81, R95). -/
def Descriptor.inUse (d : Descriptor) : Bool := decide (0 < d.blocks) || d.timer.isSome

/-- The BUFFER_DONE records that a stream can still give rise to without a further grant: at most one, of the buffer in use
or the target of the write in flight (R97). -/
def State.buffersAhead (s : State) (i : StreamId) : Nat :=
  if s.writing i = true ∨ (s.buffers[i]).head?.any (·.inUse) = true then 1 else 0

/-- The outboxes in order, with what keeps them so. No outbox holds more than 6 records, with the records that the stream
can still give rise to before its outbox empties counted in (R2, R97, R160); only the head of a buffer queue is in use
(R81); only the head block of a staging queue is being written, and by the write in flight (R73); in UP blocks and writes
belong to RUNNING and DRAINING streams, and outside UP no stream is active, no outbox holds a record and no block is left
but one being written (R172); a fast drain holds one block at most (R23); and in DOWN and LOADING no write is in flight
(R174). -/
structure State.OutboxesOrdered (s : State) : Prop where
  outbox : ∀ i : StreamId,
    (s.outboxes[i]).length + (s.streams[i]).state.recordsAhead + s.buffersAhead i ≤ 6
  fresh : ∀ i : StreamId, ∀ d ∈ (s.buffers[i]).tail, d.inUse = false
  head : ∀ (i : StreamId) (b : Block) (rest : List Block), (s.staging[i]).closed = b :: rest →
    (b.writing = true → s.writing i = true) ∧ ∀ x ∈ rest, x.writing = false
  up : s.linkUp = true → ∀ i : StreamId, (s.staging[i]).closed ≠ [] ∨ s.writing i = true →
    (s.streams[i]).state = .running ∨ (s.streams[i]).state = .draining
  notUp : s.linkUp = false → ∀ i : StreamId, (s.streams[i]).state.active = false ∧ s.outboxes[i] = [] ∧
    ((s.staging[i]).closed = [] ∨ ((s.staging[i]).closed.length = 1 ∧ s.writing i = true))
  fast : ∀ i : StreamId, (s.streams[i]).fastDrain = true →
    (s.streams[i]).pass = none ∧ (s.staging[i]).forming = [] ∧ (s.staging[i]).closed.length ≤ 1
  quiet : s.link.state = .down ∨ s.link.state = .loading → s.writeInFlight = none

/-- What the spec promises of every moment. -/
structure State.Safe (s : State) : Prop where
  pages : s.PagesAccounted
  rings : s.RingsOrdered
  quiet : s.QuietOutsideUp
  buffers : s.BuffersBounded
  outboxes : s.OutboxesOrdered

/-- A safe run of `n` steps: every state it passes through is safe. -/
def SafeRun : Nat → State → Prop
  | 0, s => s.Safe
  | n + 1, s => s.Safe ∧ ∀ t, step s = .next t → SafeRun n t

end Sys2Proof.Machine
end

