-- ==== Sys2Proof/Certificates/Slice0/Obligations.lean ====
section
/-!
DEFINITION. Certificates/Slice0/Obligations.lean: what is stated about the machine, by the spec's numbered rules. An order
is stated as `exec c s = .next (s.answered kind h owner)`: the owner's function says what the order leaves and with which
status and detail it is answered, and what `answered` then does is stated by `Obligations.OrderIsAnswered`
and
`Obligations.RecordPlacement`. -/

open Sys2Proof Sys2Proof.Machine

/-! ### The machine -/

/-- One step runs the command at the front of the queue on the state with the queue's rest. -/
def Obligations.StepRunsFrontCommand : Prop :=
  ∀ (c : Instr) (rest : List Instr) (s : State),
    step { s with pending := c :: rest } = exec c { s with pending := rest }

/-- With no command waiting and nothing due, one reference period passes (R130 for the count, R102 for the generators);
that the idle part lets a period pass is the model's choice (notes/assumptions/1.md), as is when SYNC is found high
again (notes/assumptions/10.md). The generator's arithmetic counts a source event as R102 words it: the prescale count
rises and returns to 0 at prescale, then the divide count rises and returns to 0 at divide, and then a tick is issued;
the event that completes the interval is owed until its tick is taken (notes/assumptions/6.md). -/
def Obligations.IdlePeriodCounts : Prop :=
  (∀ s : State, s.pending = [] → dueEvents s = [] →
    ∃ t, step s = .next t ∧ t.elapsed = s.elapsed + 1 ∧
      t.timebase.count.toNat = min (s.timebase.count.toNat + 1) (2 ^ 64 - 1) ∧
      (∀ g : GeneratorId, t.generators[g] =
        if (s.generators[g]).state = .running ∧ (s.generators[g]).source = .reference
        then (s.generators[g]).receive 1 else s.generators[g]) ∧
      (s.syncHigh = true → t.syncHigh = true) ∧
      t.syncNext = (if t.syncHigh = s.syncHigh then s.syncNext else t.elapsed + 1) ∧
      t = { s with
            elapsed := t.elapsed, timebase := { s.timebase with count := t.timebase.count },
            generators := t.generators, syncHigh := t.syncHigh, syncNext := t.syncNext }) ∧
  (∀ g : Generator, g.prescaleCount < g.prescale → g.divideCount < g.divide → g.owed = 0 →
    (g.prescaleCount + 1 < g.prescale → g.receive 1 = { g with prescaleCount := g.prescaleCount + 1 }) ∧
    (g.prescaleCount + 1 = g.prescale → g.divideCount + 1 < g.divide →
      g.receive 1 = { g with prescaleCount := 0, divideCount := g.divideCount + 1 }) ∧
    (g.prescaleCount + 1 = g.prescale → g.divideCount + 1 = g.divide →
      (g.receive 1).owed = 1 ∧
        (g.receive 1).completeInterval = { g with prescaleCount := 0, divideCount := 0, owed := 0 }))

/-- With no command waiting a due event of the part's own is queued as the command that stands for it; that the part
does so, and that free values choose among several, is the model's choice (notes/assumptions/1.md). Which events are
due: an interval that is complete (R102), what a trigger line owes (R111, notes/assumptions/8.md), a timed condition
that is met (R137), the edge and the end of a pulse (R133), the expiry of the arm (R135), the end of a conversion (R48),
returns (R50), offers (R120), requests and answers (R123), a grant (R86), flush and holdoff timers (R96, R164), the 50
ms timeout of each host read (R174), second offers after a report of room (R157) and the link's own transitions (R174,
R176). Nothing that comes from outside is ever due. -/
def Obligations.DueEventsAreQueued : Prop :=
  ∀ (s : State) (order : List StreamId), order = Config.streamOrder s.choices →
    (s.pending = [] → dueEvents s ≠ [] →
      ∃ e ∈ dueEvents s, step s = .next { s with pending := [e], choices := s.choices + 1 }) ∧
    (∀ (g : GeneratorId) (l : List StreamId), .tick g l ∈ dueEvents s ↔ l = order ∧
      (s.generators[g]).state = .running ∧ (s.generators[g]).source = .reference ∧ 0 < (s.generators[g]).owed) ∧
    (∀ (n : LineId) (k : List (Fin 12)) (l : List StreamId), .trigEdge n k l ∈ dueEvents s ↔
      k = Config.receiverOrder s.choices ∧ l = order ∧ (s.lines[n]).owed = .edge) ∧
    (∀ (n : LineId) (a : Bool), .gateChange n a ∈ dueEvents s ↔ a = true ∧ (s.lines[n]).owed = .change) ∧
    (∀ (T : Long) (l : List StreamId), .timeReached T l ∈ dueEvents s ↔ T = s.timebase.count ∧ l = order ∧
      ((∃ i : StreamId, (s.streams[i]).timeMet s.timebase.count = true) ∨
        ∃ U, s.timebase.fire = .waiting U ∧ U ≤ s.timebase.count)) ∧
    (∀ l : List StreamId, .syncFallingEdge l ∈ dueEvents s ↔ l = order ∧ s.syncHigh = true ∧
      s.syncNext ≤ s.elapsed ∧ ∃ e, s.timebase.fire = .driving e ∧ e - 49 ≤ s.elapsed) ∧
    (.syncPulseEnd ∈ dueEvents s ↔ ∃ e, s.timebase.fire = .driving e ∧ e ≤ s.elapsed) ∧
    (.armTimeout ∈ dueEvents s ↔ ∃ a e, s.timebase.arm = some a ∧ a.expiry = some e ∧ e ≤ s.elapsed) ∧
    (∀ (c : ConverterId) (x : Vector Voltage 8), .stepCompletion c x ∈ dueEvents s ↔
      ∃ v, (s.converters[c]).conversion = some v ∧ v.endsAt ≤ s.elapsed ∧ x = conversionInputs v) ∧
    (∀ i : StreamId, .returnTaken i ∈ dueEvents s ↔ s.returns[i] ≠ []) ∧
    (∀ (k : Nat) (l : List WatchId), .watchOffer k l ∈ dueEvents s ↔ k < s.offers.length ∧
      l = Config.watchOrder s.choices) ∧
    (∀ m : WatchId,
      (.watchAnswer m ∈ dueEvents s ↔ ∃ w a, (s.watches[m]).wait = some w ∧ w.answer = some a) ∧
      (.watchStartRequest m ∈ dueEvents s ↔
        ∃ w i, (s.watches[m]).wait = some w ∧ w.answer = none ∧ w.request = .start i) ∧
      (.watchHaltRequest m ∈ dueEvents s ↔
        ∃ w i, (s.watches[m]).wait = some w ∧ w.answer = none ∧ w.request = .halt i)) ∧
    (.deliveryGrant ∈ dueEvents s ↔ s.writeInFlight = none ∧ ∃ i : StreamId, s.eligible i = true) ∧
    (∀ i : StreamId, .flushTimerExpiry i ∈ dueEvents s ↔
      ∃ d rest e, s.buffers[i] = d :: rest ∧ d.timer = some e ∧ e ≤ s.elapsed) ∧
    (∀ n : RingId, .holdoffExpiry n ∈ dueEvents s ↔
      ∃ r e, s.rings[n] = some r ∧ r.timer = .running e ∧ e ≤ s.elapsed) ∧
    (∀ issued : Nat, s.orders.work = .fetching issued →
      (.orderRead ∈ dueEvents s ↔ s.linkUp = true ∧ issued + 2500000 ≤ s.elapsed) ∧
      (.orderFetchEndAfterTeardown ∈ dueEvents s ↔ s.linkUp = false ∧ issued + 2500000 ≤ s.elapsed)) ∧
    (∀ ok : Bool, .statusWriteEnd ok ∈ dueEvents s ↔
      ok = false ∧ ∃ o issued, s.orders.work = .executing o issued ∧ issued + 2500000 ≤ s.elapsed) ∧
    (.blockWriteFailure ∈ dueEvents s ↔ ∃ w, s.writeInFlight = some w ∧ w.issued + 2500000 ≤ s.elapsed) ∧
    (.controlBlockRead ∈ dueEvents s ↔ ∃ issued, s.link.cbRead = some issued ∧ issued + 2500000 ≤ s.elapsed) ∧
    (.orderRecordReoffer ∈ dueEvents s ↔ s.orders.roomReported = true ∧ ∃ o l, s.orders.work = .placing o l) ∧
    (.timebaseRecordReoffer ∈ dueEvents s ↔ s.timebase.roomReported = true ∧ s.timebase.hold ≠ none) ∧
    (∀ p : PinLevels, .linkResetEffect p ∈ dueEvents s ↔
      p = s.pins ∧ s.link.resetPending = true ∧ s.readsOutstanding = 0) ∧
    (.linkDown ∈ dueEvents s ↔ s.link.resetPending = false ∧ s.link.state = .stopping ∧ s.readsOutstanding = 0) ∧
    (∀ e ∈ dueEvents s, e.kindCode = none ∧ e ≠ .blockWriteSuccess ∧ e ≠ .linkReset ∧
      (∀ b, e ≠ .linkControlEnable b) ∧ (∀ v, e ≠ .orderTailWrite v) ∧ (∀ n v, e ≠ .crHeadWrite n v) ∧
      (∀ o w v, e ≠ .registerWrite o w v) ∧ (∀ cb, e ≠ .controlBlockLoad cb) ∧ ∀ p, e ≠ .powerOnReset p)

/-- Power-on reset gives every block its power-on values, the lines and SYNC as the first sample finds them (R177,
R110); what a line owes and the moments of the next samples are the model's fields (notes/assumptions/8.md, 10.md), and
the queue, the model's clock and counters and the output are no state of the part (notes/assumptions/22.md). The state
after reset is safe, with the link DOWN, 64 free pages, every stream UNCONFIGURED, every scan list empty, every channel
at range 0 and settle 0, every converter without a conversion and with grant pointer ST7, every window and watch
disabled, no write in flight, the grant pointer ST7, the alert level 0, and the timebase at count 0 with role OFF and no
arm, and no stream noted as having become eligible (the model's field, notes/assumptions/24.md). The levels of the lines
in State.reset are the model's choice and not stated (notes/assumptions/9.md). -/
def Obligations.ResetValues : Prop :=
  (∀ (p : PinLevels) (s : State), ∃ t, exec (.powerOnReset p) s = .next t ∧
    (∀ n : LineId, t.lines[n] = ⟨.activeHigh, p.trig.getLsbD n.val, .nothing, s.elapsed + 1⟩) ∧ t.syncHigh = p.sync ∧
    t = { State.reset with
          pending := s.pending, elapsed := s.elapsed, choices := s.choices, bus := s.bus, nextPassId := s.nextPassId,
          lines := t.lines, syncHigh := t.syncHigh, syncNext := s.elapsed + 1 }) ∧
  (State.reset.Safe ∧ State.reset.link.state = .down ∧ State.reset.freePages = 64 ∧
    (∀ i : StreamId, (State.reset.streams[i]).state = .unconfigured) ∧ (∀ l : ListId, State.reset.scanLists[l] = []) ∧
    (∀ c : ChannelId, State.reset.channels[c] = ⟨0, 0⟩) ∧
    (∀ c : ConverterId, (State.reset.converters[c]).conversion = none ∧ (State.reset.converters[c]).grantPointer = 7) ∧
    (∀ w : WindowId, (State.reset.windows[w]).enabled = false) ∧ State.reset.writeInFlight = none ∧
    State.reset.grantPointer = 7 ∧ State.reset.becameEligible = [] ∧ (∀ m : WatchId, (State.reset.watches[m]).enabled = false) ∧
    State.reset.alertLevel = 0 ∧ State.reset.timebase.count = 0 ∧ State.reset.timebase.role = .off ∧
    State.reset.timebase.arm = none)

/-! ### Orders: taking and answering -/

/-- The ends of an order fetch (R144, R174, R173). An order command is the successful reply: with no fetch in flight
nothing changes (notes/assumptions/3.md), nor does a reply change anything that comes more than 50 ms after the read was
issued, and while the link is not UP the result is discarded. A failed fetch faults the link in UP with the head as
detail, with the head unmoved and the Order Unit back in IDLE; outside UP it is discarded. That the two failure commands
stand for the same event outside UP is an inference (notes/assumptions/19.md), and that they stand for the timeout at
every moment is the model's choice (notes/assumptions/38.md). -/
def Obligations.OrderFetchEnds : Prop :=
  (∀ (c : Instr) (k : Half) (s : State), c.kindCode = some k → c.wellFormed = true →
    (s.orders.work.isFetching = false → exec c s = .next s) ∧
    (∀ issued, s.orders.work = .fetching issued → issued + 2500000 < s.elapsed → exec c s = .next s) ∧
    (∀ issued, s.orders.work = .fetching issued → s.elapsed ≤ issued + 2500000 → s.linkUp = false →
      exec c s = .next { s with orders := { s.orders with work := .idle } })) ∧
  (∀ s : State, s.orders.work.isFetching = true →
    (s.linkUp = true → ∃ t, exec .orderRead s = .next t ∧ t.link.state = .fault ∧ t.link.cause = .orderRead ∧
      t.link.detail = BitVec.ofNat 16 s.orders.head ∧ t.orders.head = s.orders.head ∧ t.orders.work = .idle ∧
      t.bus = s.bus ∧ ∀ n : RingId, t.rings[n] = none) ∧
    (s.linkUp = false →
      exec .orderRead s = .next { s with orders := { s.orders with work := .idle } } ∧
      exec .orderFetchEndAfterTeardown s = .next { s with orders := { s.orders with work := .idle } }))

/-- Answering an order touches only the Order Unit, the rings and the output, which only grows; the geometry, head and
tail stay as the owner's state holds them. The records of every order (R146, R147; for RESET STREAM and RECLAIM BUFFERS
R25, R84): the RETURNED records in queue order, then the ORDER_DONE record, of which there is none for a SILENT order
that ended with DONE, else one with the index, kind, tag, status and detail, for CR0. Each record that is placed is
followed by the next one; with the first one that is not placed, and those behind it, the Order Unit waits; after the
last one it is IDLE and may fetch. The last conjunct spells this out for an order that returns no descriptors. -/
def Obligations.OrderIsAnswered : Prop :=
  (∀ (s : State) (kind : Half) (h : OrderHeader) (a : State → Answer) (u t : State),
    (a (s.taking kind h)).state = u → s.answered kind h a = t →
    t = { u with orders := t.orders, rings := t.rings, bus := t.bus } ∧
      t.orders.geometry = u.orders.geometry ∧ t.orders.head = u.orders.head ∧ t.orders.tail = u.orders.tail ∧
      ∃ issued, t.bus = u.bus ++ issued) ∧
  (∀ (s : State) (kind : Half) (h : OrderHeader) (a : State → Answer) (b : Answer) (done : List OutboxEntry),
    a (s.taking kind h) = b →
    (h.silent = true → b.status = .done → done = []) →
    (h.silent = false ∨ b.status ≠ .done →
      done = [⟨0, .orderDone s.orders.head kind b.status h.tag (BitVec.ofNat 32 b.detail)⟩]) →
    s.answered kind h a = placeLeft ⟨s.orders.head, kind, h.tag, h.silent⟩ (b.returned ++ done) b.state) ∧
  (∀ (order : OrderInHand) (s : State),
    placeLeft order [] s = beginFetch { s with orders := { s.orders with work := .idle, roomReported := false } } ∧
    ∀ (e : OutboxEntry) (rest : List OutboxEntry),
      (∀ t, place e.ring e.record s = some t → placeLeft order (e :: rest) s = placeLeft order rest t) ∧
      (place e.ring e.record s = none → placeLeft order (e :: rest) s
        = { s with orders := { s.orders with work := .placing order (e :: rest), roomReported := false } })) ∧
  (∀ (order : OrderInHand) (first last : List OutboxEntry) (e : OutboxEntry) (s t : State),
    first.foldl (fun u r => u.bind (place r.ring r.record)) (some s) = some t → place e.ring e.record t = none →
    placeLeft order (first ++ e :: last) s
      = { t with orders := { t.orders with work := .placing order (e :: last), roomReported := false } }) ∧
  (∀ (s : State) (kind : Half) (h : OrderHeader) (a : State → Answer) (b : Answer),
    a (s.taking kind h) = b → b.returned = [] →
    (h.silent = true → b.status = .done →
      s.answered kind h a
        = beginFetch { b.state with orders := { b.state.orders with work := .idle, roomReported := false } }) ∧
    (h.silent = false ∨ b.status ≠ .done →
      (∀ t, place 0 (.orderDone s.orders.head kind b.status h.tag (BitVec.ofNat 32 b.detail)) b.state = some t →
        s.answered kind h a = beginFetch { t with orders := { t.orders with work := .idle, roomReported := false } }) ∧
      (place 0 (.orderDone s.orders.head kind b.status h.tag (BitVec.ofNat 32 b.detail)) b.state = none →
        s.answered kind h a =
          { b.state with
            orders := { b.state.orders with
              work := .placing ⟨s.orders.head, kind, h.tag, h.silent⟩
                [⟨0, .orderDone s.orders.head kind b.status h.tag (BitVec.ofNat 32 b.detail)⟩]
              roomReported := false } })))

/-- A record offered to an enabled ring is written into the next slot, joins the pending list, or is not placed
(R158). A write issues the 32 bytes with the slot's phase, moves W and counts (R155, R163), and sends the message
when it is due: then the count is 0, the ring disarmed and the timer stopped, and the message is issued only while
the link is UP and message interrupts are enabled (R162, R175). The enable, and the message's address and data, are free
values (notes/assumptions/12.md). That the count rises by one at every write with no bound at the ring's size is the
model's choice, against Table 10-1 and R163 (notes/assumptions/33.md). -/
def Obligations.RecordPlacement : Prop :=
  ∀ (n : RingId) (record : Record) (s : State) (r w : Ring), s.rings[n] = some r →
    w = { r with
          written := (r.written + 1) % (2 * r.size), count := r.count + 1,
          timer := if r.count = 0 ∧ r.holdoffUs ≠ 0 then .running (s.elapsed + r.holdoffUs * 50) else r.timer } →
    (r.waiting = [] → 0 < r.free → ∃ t, place n record s = some t ∧
      ((w.armed = false ∨ (w.count < w.threshold ∧ w.timer ≠ .expired)) → t.rings[n] = some w ∧
        t.bus = s.bus ++ [.write (r.base + BitVec.ofNat 64 (32 * (r.written % r.size)))
          (record.bytes (decide (r.written < r.size)))]) ∧
      (w.armed = true → (w.threshold ≤ w.count ∨ w.timer = .expired) →
        t.rings[n] = some { w with count := 0, armed := false, timer := .stopped } ∧
        t.bus = s.bus ++ [.write (r.base + BitVec.ofNat 64 (32 * (r.written % r.size)))
          (record.bytes (decide (r.written < r.size)))] ++
          (if s.linkUp = true ∧ Config.messageEnabled s.elapsed = true
            then [.message n (Config.messageAddress s.elapsed n) (Config.messageData s.elapsed n)] else [])) ∧
      (∀ m : RingId, m ≠ n → t.rings[m] = s.rings[m]) ∧ t = { s with rings := t.rings, bus := t.bus }) ∧
    (r.waiting ≠ [] ∨ r.free = 0 → r.waiting.length < 16 →
      ∃ t, place n record s = some t ∧ t.rings[n] = some { r with waiting := r.waiting ++ [record] } ∧
        (∀ m : RingId, m ≠ n → t.rings[m] = s.rings[m]) ∧ t = { s with rings := t.rings }) ∧
    (r.waiting ≠ [] ∨ r.free = 0 → 16 ≤ r.waiting.length → place n record s = none)

/-! ### Orders of the Order Unit -/

/-- R148: NOP is answered DONE with detail 0; with SILENT set no record is written and nothing but the Order Unit and
its next read changes. A kind code that names no order is refused with UNKNOWN KIND, detail 0, and nothing else changes
(R145). -/
def Obligations.NopAndUnknownKind : Prop :=
  (∀ (h : OrderHeader) (s : State), s.takesOrder →
    exec (.nop h) s = .next (s.answered 0x0001 h (fun u => { state := u, status := .done, detail := 0 })) ∧
    (h.silent = true → ∃ t, exec (.nop h) s = .next t ∧ t = { s with orders := t.orders, bus := t.bus } ∧
      (t.bus = s.bus ∨ ∃ a, t.bus = s.bus ++ [.read a 64]))) ∧
  (∀ (h : OrderHeader) (kind : Half) (s : State), s.takesOrder → kind ∉ knownKinds →
    exec (.unknownKind h kind) s
      = .next (s.answered kind h (fun u => { state := u, status := .unknownKind, detail := 0 })))

/-- READ STATUS (R149, R150): the checks in their order, and an accepted order issues the 64 bytes of its section as it
stands and the flush read, and stays EXECUTING. The end of the flush read: DONE or WRITE ERROR, detail 0, while the link
is UP, discarded otherwise; a successful reply more than 50 ms after the read was issued changes nothing (R174); with no
status write in flight nothing changes (notes/assumptions/3.md). -/
def Obligations.ReadStatusAndItsEnd : Prop :=
  (∀ (h : OrderHeader) (target stream part : Byte) (a : Long) (s : State), s.takesOrder →
    (¬(target.toNat = 0 ∧ stream.toNat < 8 ∧ part.toNat < 2) → ¬(target.toNat = 1 ∧ part.toNat < 9) →
      exec (.readStatus h target stream part a) s
        = .next (s.answered 0x0002 h (fun u => refuse u .badField 1))) ∧
    ((target.toNat = 0 ∧ stream.toNat < 8 ∧ part.toNat < 2) ∨ (target.toNat = 1 ∧ part.toNat < 9) →
      (a.toNat % 8 ≠ 0 ∨ 2 ^ 64 ≤ a.toNat + 63 →
        exec (.readStatus h target stream part a) s
          = .next (s.answered 0x0002 h (fun u => refuse u .badField 2))) ∧
      (a.toNat % 8 = 0 → a.toNat + 63 < 2 ^ 64 →
        ((¬∃ w : WindowId, (s.windows[w]).covers a = true ∧ (s.windows[w]).covers (a + 63) = true ∧
            (s.windows[w]).use ≠ .buffers) →
          exec (.readStatus h target stream part a) s
            = .next (s.answered 0x0002 h (fun u => refuse u .outsideWindow 0))) ∧
        ((∃ w : WindowId, (s.windows[w]).covers a = true ∧ (s.windows[w]).covers (a + 63) = true ∧
            (s.windows[w]).use ≠ .buffers) →
          ∃ bytes, statusSection target stream part (s.taking 0x0002 h) = some bytes ∧ bytes.length = 64 ∧
            exec (.readStatus h target stream part a) s
              = .next { s.taking 0x0002 h with bus := s.bus ++ [.write a bytes, .read (a + 60) 0] })))) ∧
  (∀ (ok : Bool) (order : OrderInHand) (issued : Nat) (s : State),
    (s.orders.work = .executing order issued → issued + 2500000 < s.elapsed → exec (.statusWriteEnd true) s = .next s) ∧
    (s.orders.work = .executing order issued → s.linkUp = true → (ok = true → s.elapsed ≤ issued + 2500000) →
      exec (.statusWriteEnd ok) s
        = .next (finishOrder order { state := s, status := if ok then .done else .writeError, detail := 0 })) ∧
    (s.orders.work = .executing order issued → s.linkUp = false → (ok = true → s.elapsed ≤ issued + 2500000) →
      exec (.statusWriteEnd ok) s = .next { s with orders := { s.orders with work := .idle } }) ∧
    ((∀ o i, s.orders.work ≠ .executing o i) → exec (.statusWriteEnd ok) s = .next s))

/-- A record that a producer offers again after a report of room is placed as on the first offer; not placed, the
producer waits again (R147, R136, R157). That the second offer is a command of its own is the model's choice
(notes/assumptions/14.md). -/
def Obligations.RecordsAreReoffered : Prop :=
  ∀ s : State,
    (∀ order e rest, s.orders.work = .placing order (e :: rest) → s.orders.roomReported = true →
      (∀ t, place e.ring e.record s = some t → exec .orderRecordReoffer s = .next (placeLeft order rest t)) ∧
      (place e.ring e.record s = none →
        exec .orderRecordReoffer s = .next { s with orders := { s.orders with roomReported := false } })) ∧
    (∀ record, s.timebase.hold = some record → s.timebase.roomReported = true →
      (∀ t, place 0 record s = some t →
        exec .timebaseRecordReoffer s
          = .next { t with timebase := { t.timebase with hold := none, roomReported := false } }) ∧
      (place 0 record s = none →
        exec .timebaseRecordReoffer s = .next { s with timebase := { s.timebase with roomReported := false } }))

/-! ### Scan Table, Channel Table -/

/-- SET CHANNEL (R39, R40): out of range BAD FIELD, IN USE with the lowest-numbered active stream that converts the
channel, else the entry is written and a matching last channel of the serving converter (R37) becomes none. -/
def Obligations.SetChannelWrites : Prop :=
  ∀ (h : OrderHeader) (s : State), s.takesOrder →
    (∀ channel range settle : Byte, 32 ≤ channel.toNat ∨ 4 ≤ range.toNat ∨ 16 ≤ settle.toNat →
      exec (.setChannel h channel range settle) s = .next (s.answered 0x0010 h (fun u => refuse u .badField 0))) ∧
    (∀ (ch : ChannelId) (r : Fin 4) (n : Fin 16),
      (∀ i : StreamId, s.converts i ch = true → (∀ j : StreamId, j < i → s.converts j ch = false) →
        exec (.setChannel h (byteOf ch) (byteOf r) (byteOf n)) s
          = .next (s.answered 0x0010 h (fun u => refuse u .inUse i))) ∧
      ((∀ i : StreamId, s.converts i ch = false) →
        exec (.setChannel h (byteOf ch) (byteOf r) (byteOf n)) s
          = .next (s.answered 0x0010 h (fun u => accept { u with
              channels := upd u.channels ch (fun _ => ⟨r, n⟩)
              converters := upd u.converters ⟨ch.val / 8, by omega⟩ (fun c =>
                if c.lastChannel = some ch then { c with lastChannel := none } else c) }))))

/-- LOAD SCAN: the four checks of R30 in their order with their details, and the list as REPLACE (R31) and APPEND (R32)
leave it. CLEAR SCAN (R33) refuses a list number out of range with BAD FIELD
and a bound list with IN USE and the lowest-numbered bound stream, and else leaves the list empty. -/
def Obligations.ScanListOrders : Prop :=
  (∀ (h : OrderHeader) (mode count : Byte) (entries : Vector StepEntry 6) (s : State), s.takesOrder →
    (∀ list : Byte, 16 ≤ list.toNat ∨ 2 ≤ mode.toNat ∨ count.toNat = 0 ∨ 6 < count.toNat →
      exec (.loadScan h list mode count entries) s
        = .next (s.answered 0x0011 h (fun u => refuse u .badField 0))) ∧
    (∀ l : ListId, mode.toNat < 2 → 1 ≤ count.toNat → count.toNat ≤ 6 →
      (∀ i : StreamId, s.bindsList i l = true → (∀ j : StreamId, j < i → s.bindsList j l = false) →
        exec (.loadScan h (byteOf l) mode count entries) s
          = .next (s.answered 0x0011 h (fun u => refuse u .inUse i))) ∧
      ((∀ i : StreamId, s.bindsList i l = false) →
        (∀ k : Fin 6, k.val < count.toNat → step? entries[k] = none →
          (∀ j : Fin 6, j < k → step? entries[j] ≠ none) →
          exec (.loadScan h (byteOf l) mode count entries) s
            = .next (s.answered 0x0011 h (fun u => refuse u .badField (k.val + 1)))) ∧
        (∀ steps : List ScanStep, (entries.toList.take count.toNat).map step? = steps.map some →
          (mode.toNat = 1 → 32 < (s.scanLists[l]).length + count.toNat →
            exec (.loadScan h (byteOf l) mode count entries) s
              = .next (s.answered 0x0011 h (fun u => refuse u .badField 7))) ∧
          (mode.toNat = 0 →
            exec (.loadScan h (byteOf l) mode count entries) s
              = .next (s.answered 0x0011 h (fun u => accept { u with
                  scanLists := upd u.scanLists l (fun _ => steps) }))) ∧
          (mode.toNat = 1 → (s.scanLists[l]).length + count.toNat ≤ 32 →
            exec (.loadScan h (byteOf l) mode count entries) s
              = .next (s.answered 0x0011 h (fun u => accept { u with
                  scanLists := upd u.scanLists l (fun old => old ++ steps) }))))))) ∧
  (∀ (h : OrderHeader) (s : State), s.takesOrder →
    (∀ list : Byte, 16 ≤ list.toNat →
      exec (.clearScan h list) s = .next (s.answered 0x0012 h (fun u => refuse u .badField 0))) ∧
    (∀ l : ListId,
      (∀ i : StreamId, s.bindsList i l = true → (∀ j : StreamId, j < i → s.bindsList j l = false) →
        exec (.clearScan h (byteOf l)) s = .next (s.answered 0x0012 h (fun u => refuse u .inUse i))) ∧
      ((∀ i : StreamId, s.bindsList i l = false) →
        exec (.clearScan h (byteOf l)) s
          = .next (s.answered 0x0012 h (fun u => accept { u with
              scanLists := upd u.scanLists l (fun _ => []) })))))

/-! ### Pace Generators, Line Interface -/

/-- SET PACE (R105): the checks in their order, and an accepted order replaces the six configuration fields, clears the
counts and leaves the generator STOPPED. RUN PACE (R106): BAD FIELD out of range, WRONG STATE while RUNNING or GATED,
else the counts are cleared and the generator is GATED when its gate line is inactive and RUNNING otherwise. HALT PACE
(R107): BAD FIELD out of range, else the generator is STOPPED with its counts. That all three orders forget what the
generator owes, a field of the model, is the model's choice (notes/assumptions/6.md). -/
def Obligations.PaceOrders : Prop :=
  (∀ (h : OrderHeader) (f : PaceFields) (s : State), s.takesOrder →
    (4 ≤ f.generator.toNat →
      exec (.setPace h f) s = .next (s.answered 0x0020 h (fun u => refuse u .badField 0))) ∧
    (∀ g : GeneratorId, f.generator = byteOf g →
      ((s.generators[g]).state = .running ∨ (s.generators[g]).state = .gated →
        exec (.setPace h f) s = .next (s.answered 0x0020 h (fun u => refuse u .wrongState 0))) ∧
      ((s.generators[g]).state = .stopped ∨ (s.generators[g]).state = .done →
        (4 < f.source.toNat ∨ 4 < f.gate.toNat ∨ 1 < f.mode.toNat ∨
            f.prescale.toNat = 0 ∨ 65536 < f.prescale.toNat ∨ f.divide.toNat = 0 ∨ 65536 < f.divide.toNat ∨
            f.burst.toNat = 0 ∨ 65536 < f.burst.toNat →
          exec (.setPace h f) s = .next (s.answered 0x0020 h (fun u => refuse u .badField 1))) ∧
        (∀ (source : PaceSource) (gate : Option LineId) (mode : PaceMode),
          f.source.toNat = source.code → f.gate.toNat = gateCode gate → f.mode.toNat = mode.code →
          1 ≤ f.prescale.toNat → f.prescale.toNat ≤ 65536 → 1 ≤ f.divide.toNat → f.divide.toNat ≤ 65536 →
          1 ≤ f.burst.toNat → f.burst.toNat ≤ 65536 →
          (source = .reference → f.prescale.toNat * f.divide.toNat < 50 →
            exec (.setPace h f) s = .next (s.answered 0x0020 h (fun u => refuse u .badField 2))) ∧
          (∀ n : LineId, source = .trig n → gate = some n →
            exec (.setPace h f) s = .next (s.answered 0x0020 h (fun u => refuse u .badField 3))) ∧
          ((source = .reference → 50 ≤ f.prescale.toNat * f.divide.toNat) →
            (∀ n : LineId, source = .trig n → gate ≠ some n) →
            exec (.setPace h f) s
              = .next (s.answered 0x0020 h (fun u => accept { u with
                  generators := upd u.generators g (fun _ =>
                    { source := source, prescale := f.prescale.toNat, divide := f.divide.toNat, gate := gate,
                      mode := mode, burst := f.burst.toNat, state := .stopped, prescaleCount := 0,
                      divideCount := 0, ticks := 0, owed := 0 }) }))))))) ∧
  (∀ (h : OrderHeader) (s : State), s.takesOrder →
    (∀ b : Byte, 4 ≤ b.toNat →
      exec (.runPace h b) s = .next (s.answered 0x0021 h (fun u => refuse u .badField 0)) ∧
      exec (.haltPace h b) s = .next (s.answered 0x0022 h (fun u => refuse u .badField 0))) ∧
    (∀ g : GeneratorId,
      ((s.generators[g]).state = .running ∨ (s.generators[g]).state = .gated →
        exec (.runPace h (byteOf g)) s = .next (s.answered 0x0021 h (fun u => refuse u .wrongState 0))) ∧
      ((s.generators[g]).state = .stopped ∨ (s.generators[g]).state = .done →
        ((∃ n : LineId, (s.generators[g]).gate = some n ∧ (s.lines[n]).active = false) →
          exec (.runPace h (byteOf g)) s
            = .next (s.answered 0x0021 h (fun u => accept { u with
                generators := upd u.generators g (fun x =>
                  { x with prescaleCount := 0, divideCount := 0, ticks := 0, owed := 0, state := .gated }) }))) ∧
        ((∀ n : LineId, (s.generators[g]).gate = some n → (s.lines[n]).active = true) →
          exec (.runPace h (byteOf g)) s
            = .next (s.answered 0x0021 h (fun u => accept { u with
                generators := upd u.generators g (fun x =>
                  { x with prescaleCount := 0, divideCount := 0, ticks := 0, owed := 0, state := .running }) })))) ∧
      exec (.haltPace h (byteOf g)) s
        = .next (s.answered 0x0022 h (fun u => accept { u with
            generators := upd u.generators g (fun x => { x with state := .stopped, owed := 0 }) }))))

/-- SET LINE (R112): out of range BAD FIELD, IN USE with the lowest-numbered stream that uses the line or 8 plus the
lowest-numbered generator, else the polarity is written. What the line owes is the model's field, and an unused line
forgets it (notes/assumptions/8.md); that the level of the last sample is kept, and that this sample counts under the new
polarity, is an inference (notes/assumptions/39.md). -/
def Obligations.SetLineWritesPolarity : Prop :=
  ∀ (h : OrderHeader) (s : State), s.takesOrder →
    (∀ line polarity : Byte, 4 ≤ line.toNat ∨ 2 ≤ polarity.toNat →
      exec (.setLine h line polarity) s = .next (s.answered 0x0023 h (fun u => refuse u .badField 0))) ∧
    (∀ (n : LineId) (low : Bool) (byStream : StreamId → Prop) (byGenerator : GeneratorId → Prop),
      (∀ i : StreamId, byStream i ↔ (s.streams[i]).state.active = true ∧
        ∃ c, (s.streams[i]).config = some c ∧ (c.start = .line n ∨ c.stop = .line n)) →
      (∀ g : GeneratorId, byGenerator g ↔
        ((s.generators[g]).state = .running ∨ (s.generators[g]).state = .gated) ∧
          ((s.generators[g]).source = .trig n ∨ (s.generators[g]).gate = some n)) →
      (∀ i : StreamId, byStream i → (∀ j : StreamId, j < i → ¬byStream j) →
        exec (.setLine h (byteOf n) (if low then 1 else 0)) s
          = .next (s.answered 0x0023 h (fun u => refuse u .inUse i))) ∧
      ((∀ i : StreamId, ¬byStream i) →
        (∀ g : GeneratorId, byGenerator g → (∀ k : GeneratorId, k < g → ¬byGenerator k) →
          exec (.setLine h (byteOf n) (if low then 1 else 0)) s
            = .next (s.answered 0x0023 h (fun u => refuse u .inUse (8 + g)))) ∧
        ((∀ g : GeneratorId, ¬byGenerator g) →
          exec (.setLine h (byteOf n) (if low then 1 else 0)) s
            = .next (s.answered 0x0023 h (fun u => accept { u with
                lines := upd u.lines n (fun l =>
                  { l with polarity := if low then .activeLow else .activeHigh, owed := .nothing }) })))))

/-! ### Streams -/

/-- CONFIGURE STREAM (R3, R4, R62): state, fields and pages in that order, and an accepted order adjusts the holding,
replaces the configuration, clears the run state and enters IDLE. -/
def Obligations.ConfigureStreamTakesEffect : Prop :=
  ∀ (h : OrderHeader) (f : ConfigureFields) (s : State), s.takesOrder →
    (8 ≤ f.stream.toNat →
      exec (.configureStream h f) s = .next (s.answered 0x0030 h (fun u => refuse u .badField 0))) ∧
    (∀ i : StreamId, f.stream = byteOf i →
      (¬((s.streams[i]).state = .unconfigured ∨ ((s.streams[i]).state = .idle ∧ s.buffers[i] = [])) →
        exec (.configureStream h f) s = .next (s.answered 0x0030 h (fun u => refuse u .wrongState 0))) ∧
      (((s.streams[i]).state = .unconfigured ∨ ((s.streams[i]).state = .idle ∧ s.buffers[i] = [])) →
        (streamConfig? f = none →
          exec (.configureStream h f) s = .next (s.answered 0x0030 h (fun u => refuse u .badField 0))) ∧
        (∀ (c : StreamConfig) (pages S : Nat), streamConfig? f = some (c, pages) →
          (s.scanLists[c.scanList]).length = S →
          (¬(1 ≤ S ∧ s.rings[c.ring] ≠ none ∧ c.passesPerBlock * S ≤ 2048 ∧
              max (c.passesPerBlock * S) (c.depth * S) + S ≤ pages * 128) →
            exec (.configureStream h f) s = .next (s.answered 0x0030 h (fun u => refuse u .badField 0))) ∧
          (1 ≤ S → s.rings[c.ring] ≠ none → c.passesPerBlock * S ≤ 2048 →
            max (c.passesPerBlock * S) (c.depth * S) + S ≤ pages * 128 →
            (s.freePages + (s.streams[i]).pagesHeld < pages →
              exec (.configureStream h f) s = .next (s.answered 0x0030 h (fun u => refuse u .noPages 0))) ∧
            (pages ≤ s.freePages + (s.streams[i]).pagesHeld →
              exec (.configureStream h f) s
                = .next (s.answered 0x0030 h (fun u => accept { u with
                    freePages := u.freePages + (u.streams[i]).pagesHeld - pages
                    streams := upd u.streams i (fun x =>
                      { x with
                        state := .idle, config := some c, pagesHeld := pages, nextPass := none, begun := 0,
                        slippedSince := 0, droppedSince := 0, totalCompleted := 0, totalSlipped := 0,
                        totalDropped := 0, totalBlocks := 0, nextSequence := 0, trigger := none,
                        endReason := none }) })))))))

/-- The payload of CONFIGURE STREAM names the configuration its fields code (Tables 1-1, 12-5 and 12-8), and names none
when a field lies outside its range; a start or stop line, count and time are examined only where their kind uses
them (R178). -/
def Obligations.ConfigureFieldsName : Prop :=
  ∀ (f : ConfigureFields) (c : StreamConfig) (pages : Nat),
    (f.scanList = byteOf c.scanList → f.generator = byteOf c.generator → f.ring = byteOf c.ring →
      f.passesPerBlock.toNat = c.passesPerBlock → 1 ≤ c.passesPerBlock → c.passesPerBlock ≤ 256 →
      f.pages.toNat = pages → 1 ≤ pages → pages ≤ 64 → f.depth.toNat = c.depth → c.depth ≤ 1024 →
      f.flushMs.toNat = c.flushMs →
      f.policies.getLsbD 0 = c.slipPolicy.halts → f.policies.getLsbD 1 = c.overrunPolicy.halts →
      f.startKind = byteOf c.start.code → (∀ n, c.start = .line n → f.startLine = byteOf n) →
      (∀ t, c.start = .time t → f.startTime = t) →
      f.stopKind = byteOf c.stop.code → (∀ n, c.stop = .line n → f.stopLine = byteOf n) →
      (∀ n, c.stop = .count n → f.count.toNat = n ∧ 1 ≤ n) → (∀ t, c.stop = .time t → f.stopTime = t) →
      streamConfig? f = some (c, pages)) ∧
    (16 ≤ f.scanList.toNat ∨ 4 ≤ f.generator.toNat ∨ 4 ≤ f.ring.toNat ∨ f.passesPerBlock.toNat = 0 ∨
        256 < f.passesPerBlock.toNat ∨ f.pages.toNat = 0 ∨ 64 < f.pages.toNat ∨ 1024 < f.depth.toNat ∨
        3 < f.startKind.toNat ∨ (f.startKind.toNat = 2 ∧ 4 ≤ f.startLine.toNat) ∨ 3 < f.stopKind.toNat ∨
        (f.stopKind.toNat = 1 ∧ f.count.toNat = 0) ∨ (f.stopKind.toNat = 2 ∧ 4 ≤ f.stopLine.toNat) →
      streamConfig? f = none)

/-- ARM STREAM (R5, R6): the checks in their order, and an accepted order clears the run state and either waits ARMED or
takes the trigger at once, with source NOW or LATE TIME. -/
def Obligations.ArmStreamBegins : Prop :=
  ∀ (h : OrderHeader) (s : State), s.takesOrder →
    (∀ b : Byte, 8 ≤ b.toNat →
      exec (.armStream h b) s = .next (s.answered 0x0031 h (fun u => refuse u .badField 0))) ∧
    (∀ i : StreamId,
      ((s.streams[i]).state ≠ .idle →
        exec (.armStream h (byteOf i)) s = .next (s.answered 0x0031 h (fun u => refuse u .wrongState 0))) ∧
      (∀ c : StreamConfig, (s.streams[i]).state = .idle → (s.streams[i]).config = some c →
        (s.outboxes[i] ≠ [] →
          exec (.armStream h (byteOf i)) s = .next (s.answered 0x0031 h (fun u => refuse u .backlog 0))) ∧
        (s.outboxes[i] = [] → s.rings[c.ring] = none →
          exec (.armStream h (byteOf i)) s = .next (s.answered 0x0031 h (fun u => refuse u .badField 0))) ∧
        (∀ clear : State → State, s.outboxes[i] = [] → s.rings[c.ring] ≠ none →
          clear = (fun u => { u with
            streams := upd u.streams i (fun x =>
              { x with
                nextPass := none, begun := 0, slippedSince := 0, droppedSince := 0, totalCompleted := 0,
                totalSlipped := 0, totalDropped := 0, totalBlocks := 0, nextSequence := 0, trigger := none,
                endReason := none }) }) →
          (c.start = .now →
            exec (.armStream h (byteOf i)) s
              = .next (s.answered 0x0031 h (fun u => accept (takeTrigger i .now (clear u))))) ∧
          (∀ t : Long, c.start = .time t → t ≤ s.timebase.count →
            exec (.armStream h (byteOf i)) s
              = .next (s.answered 0x0031 h (fun u => accept (takeTrigger i .lateTime (clear u))))) ∧
          ((c.start = .external ∨ (∃ n, c.start = .line n) ∨ (∃ t, c.start = .time t ∧ s.timebase.count < t)) →
            exec (.armStream h (byteOf i)) s
              = .next (s.answered 0x0031 h (fun u => accept { clear u with
                  streams := upd (clear u).streams i (fun x => { x with state := .armed }) }))))))

/-- START STREAM (R8) and STOP STREAM (R16): the trigger with source ORDER, the end UNTRIGGERED, the drain STOP ORDER,
and WRONG STATE in every other state. ABORT STREAM (R22, R23): by the stream's state, with what an abort without a write
in flight and a fast drain leave of the stream; a further abort in fast drain changes nothing. Both aborts withdraw the
pass at every converter (R54, R55): the stream's slot is emptied, a conversion of the stream becomes an orphan and runs
on, and the other slots, the grant pointer and the last channel stay. -/
def Obligations.StartStopAndAbort : Prop :=
  (∀ (h : OrderHeader) (s : State), s.takesOrder →
    (∀ b : Byte, 8 ≤ b.toNat →
      exec (.startStream h b) s = .next (s.answered 0x0032 h (fun u => refuse u .badField 0)) ∧
      exec (.stopStream h b) s = .next (s.answered 0x0033 h (fun u => refuse u .badField 0))) ∧
    (∀ i : StreamId,
      ((s.streams[i]).state = .armed →
        exec (.startStream h (byteOf i)) s
          = .next (s.answered 0x0032 h (fun u => accept (takeTrigger i .order u)))) ∧
      ((s.streams[i]).state ≠ .armed →
        exec (.startStream h (byteOf i)) s = .next (s.answered 0x0032 h (fun u => refuse u .wrongState 0))) ∧
      ((s.streams[i]).state = .armed →
        exec (.stopStream h (byteOf i)) s
          = .next (s.answered 0x0033 h (fun u => accept (endArmed i .untriggered u)))) ∧
      ((s.streams[i]).state = .running →
        exec (.stopStream h (byteOf i)) s
          = .next (s.answered 0x0033 h (fun u => accept (enterDraining i .stopOrder u)))) ∧
      ((s.streams[i]).state ≠ .armed → (s.streams[i]).state ≠ .running →
        exec (.stopStream h (byteOf i)) s = .next (s.answered 0x0033 h (fun u => refuse u .wrongState 0))))) ∧
  (∀ (h : OrderHeader) (s : State), s.takesOrder →
    (∀ b : Byte, 8 ≤ b.toNat →
      exec (.abortStream h b) s = .next (s.answered 0x0034 h (fun u => refuse u .badField 0))) ∧
    (∀ i : StreamId,
      ((s.streams[i]).state.active = false →
        exec (.abortStream h (byteOf i)) s = .next (s.answered 0x0034 h (fun u => refuse u .wrongState 0))) ∧
      ((s.streams[i]).state = .armed →
        exec (.abortStream h (byteOf i)) s
          = .next (s.answered 0x0034 h (fun u => accept (endArmed i .aborted u)))) ∧
      ((s.streams[i]).state = .draining → (s.streams[i]).endReason = some .aborted →
        exec (.abortStream h (byteOf i)) s = .next (s.answered 0x0034 h accept)) ∧
      ((s.streams[i]).state = .running ∨
          ((s.streams[i]).state = .draining ∧ (s.streams[i]).endReason ≠ some .aborted) →
        exec (.abortStream h (byteOf i)) s
          = .next (s.answered 0x0034 h (fun u =>
              accept (if s.writing i = true then abortFast i u else abortNow i u)))))) ∧
  (∀ (i : StreamId) (s t : State), abortNow i s = t →
    t.streams[i] = { s.streams[i] with state := .idle, endReason := some .aborted, pass := none } ∧
    t.staging[i] = Staging.empty ∧
    (∀ d rest, s.buffers[i] = d :: rest → t.buffers[i] = if d.blocks = 0 then d :: rest else rest) ∧
    (∀ b : ConverterId,
      t.converters[b] = { s.converters[b] with
        slots := upd (s.converters[b]).slots i (fun _ => none)
        conversion := (s.converters[b]).conversion.map (fun v =>
          if v.owner = some i then { v with owner := none } else v) })) ∧
  (∀ (i : StreamId) (s t : State), abortFast i s = t →
    t.streams[i] = { s.streams[i] with state := .draining, endReason := some .aborted, pass := none } ∧
    (t.staging[i]).records = (((s.staging[i]).closed.take 1).filter (·.writing)).flatMap (·.records) ∧
    (∀ d rest, s.buffers[i] = d :: rest → t.buffers[i] = { d with timer := none, flushDue := false } :: rest) ∧
    (∀ b : ConverterId,
      t.converters[b] = { s.converters[b] with
        slots := upd (s.converters[b]).slots i (fun _ => none)
        conversion := (s.converters[b]).conversion.map (fun v =>
          if v.owner = some i then { v with owner := none } else v) }))

/-- RESET STREAM (R25): DONE without change when UNCONFIGURED, WRONG STATE when active, BACKLOG while the outbox holds a
record, else the pages return, the descriptors leave with a RETURNED record each, and the context is as after reset. -/
def Obligations.ResetStreamReturnsAll : Prop :=
  ∀ (h : OrderHeader) (s : State), s.takesOrder →
    (∀ b : Byte, 8 ≤ b.toNat →
      exec (.resetStream h b) s = .next (s.answered 0x0035 h (fun u => refuse u .badField 0))) ∧
    (∀ i : StreamId,
      ((s.streams[i]).state = .unconfigured →
        exec (.resetStream h (byteOf i)) s = .next (s.answered 0x0035 h accept)) ∧
      ((s.streams[i]).state.active = true →
        exec (.resetStream h (byteOf i)) s = .next (s.answered 0x0035 h (fun u => refuse u .wrongState 0))) ∧
      ((s.streams[i]).state = .idle ∨ (s.streams[i]).state = .faulted →
        (s.outboxes[i] ≠ [] →
          exec (.resetStream h (byteOf i)) s = .next (s.answered 0x0035 h (fun u => refuse u .backlog 0))) ∧
        (∀ c : StreamConfig, s.outboxes[i] = [] → (s.streams[i]).config = some c →
          exec (.resetStream h (byteOf i)) s
            = .next (s.answered 0x0035 h (fun u =>
                { state := { u with
                    freePages := u.freePages + (u.streams[i]).pagesHeld
                    buffers := upd u.buffers i (fun _ => [])
                    streams := upd u.streams i (fun _ => StreamContext.reset) }
                  status := .done
                  returned := (s.buffers[i]).map (fun d =>
                    ⟨if s.rings[c.ring] = none then 0 else c.ring,
                      .bufferDone i { returned := true } d.tag 0 0 0 0⟩) })))))

/-- What the Stream Controller's shared endings leave: an ARMED stream that ends (R16, R19, R22, R54) has its pass
withdrawn from every converter and its staging discarded; a RUNNING stream that drains (R20, R71, R21) keeps a pass in
progress and its staging; with none in progress the drain-end mark closes the staged records as a block that is SHORT
and FINAL, or marks the newest closed block FINAL when it is not being written (R71); and with nothing in progress,
staged or in flight the stream ends at once. -/
def Obligations.EndingsOfAnArming : Prop :=
  (∀ (i : StreamId) (reason : EndReason) (s t : State), endArmed i reason s = t →
    t.streams[i] = { s.streams[i] with state := .idle, endReason := some reason, pass := none } ∧
    t.staging[i] = Staging.empty ∧
    (∀ c : ConverterId,
      (t.converters[c]).slots[i] = none ∧ (∀ j : StreamId, j ≠ i → (t.converters[c]).slots[j] = (s.converters[c]).slots[j]) ∧
      (t.converters[c]).grantPointer = (s.converters[c]).grantPointer ∧
      (t.converters[c]).lastChannel = (s.converters[c]).lastChannel ∧
      (t.converters[c]).conversion =
        (s.converters[c]).conversion.map (fun v => if v.owner = some i then { v with owner := none } else v)) ∧
    (∀ j : StreamId, j ≠ i → t.streams[j] = s.streams[j] ∧ t.staging[j] = s.staging[j])) ∧
  (∀ (i : StreamId) (reason : EndReason) (s t : State), enterDraining i reason s = t →
    (s.streams[i]).pass ≠ none →
    t.streams[i] = { s.streams[i] with state := .draining, endReason := some reason } ∧ t.staging = s.staging ∧
      t.converters = s.converters) ∧
  (∀ (i : StreamId) (reason : EndReason) (s t : State), enterDraining i reason s = t →
    (s.streams[i]).pass = none → s.staging[i] = Staging.empty → s.writing i = false → reason ≠ .aborted →
    t.streams[i] = { s.streams[i] with state := .idle, endReason := some reason } ∧
      ∀ d rest, s.buffers[i] = d :: rest → t.buffers[i] = if d.blocks = 0 then d :: rest else rest) ∧
  (∀ (i : StreamId) (reason : EndReason) (s t : State), enterDraining i reason s = t →
    (s.streams[i]).pass = none →
    (∀ (e : PassRecord) (l : List PassRecord), (s.staging[i]).forming = e :: l →
      t.streams[i] = { s.streams[i] with state := .draining, endReason := some reason, slippedSince := 0 } ∧
      t.staging[i] =
        ⟨(s.staging[i]).closed ++ [⟨e :: l, (s.streams[i]).slippedSince, true, true, false⟩], []⟩ ∧
      t.buffers = s.buffers) ∧
    (∀ (l : List Block) (b : Block), (s.staging[i]).forming = [] → (s.staging[i]).closed = l ++ [b] →
      t.streams[i] = { s.streams[i] with state := .draining, endReason := some reason } ∧
      t.staging[i] = ⟨l ++ [if b.writing = true then b else { b with final := true }], []⟩ ∧
      t.buffers = s.buffers))

/-- Taking the trigger (R9, R68): the stream is RUNNING with the time and source of its trigger, the history is trimmed
and numbered -k to -1 oldest first, every run of P complete records from the head is a block, and with depth 0 a pass in
progress keeps no number. A stop TIME that the count has reached is met at once (R15, R137): the stream, as the trigger
would leave it without a stop condition and with its TRIGGERED record joined, drains with STOP TIME, and begins no pass;
the list of streams that became eligible is the model's (notes/assumptions/24.md). -/
def Obligations.TriggerNumbersHistory : Prop :=
  (∀ (i : StreamId) (source : TriggerSource) (s t : State) (c : StreamConfig) (history : List PassRecord),
    (s.streams[i]).config = some c → (s.staging[i]).closed = [] →
    (∀ T, c.stop = .time T → s.timebase.count < T) → takeTrigger i source s = t →
    history = (if (s.streams[i]).pass = none then (s.staging[i]).forming
      else (s.staging[i]).forming.drop
        (((s.staging[i]).forming.filter (·.complete)).length - (c.depth - 1))) →
    (t.streams[i]).state = .running ∧ (t.streams[i]).trigger = some ⟨s.timebase.count, source⟩ ∧
    (t.streams[i]).nextPass = some 0 ∧ (t.streams[i]).begun = 0 ∧ (t.streams[i]).pass = (s.streams[i]).pass ∧
    ((s.streams[i]).pass = none ∨ 1 ≤ c.depth →
      ∀ (j : Nat) (r : PassRecord), history[j]? = some r →
        (t.staging[i]).records[j]? = some { r with number := some (BitVec.ofInt 32 ((j : Int) - history.length)) }) ∧
    ((s.streams[i]).pass = none ∨ 1 ≤ c.depth → (t.staging[i]).records.length = history.length) ∧
    ((s.streams[i]).pass ≠ none → c.depth = 0 → (t.staging[i]).records = (s.staging[i]).forming) ∧
    (∀ b ∈ (t.staging[i]).closed, b.records.length = c.passesPerBlock ∧ (∀ r ∈ b.records, r.complete = true) ∧
      b.short = false ∧ b.final = false ∧ b.writing = false) ∧
    (1 ≤ c.passesPerBlock → c.passesPerBlock ≤ (t.staging[i]).forming.length →
      ∃ r ∈ (t.staging[i]).forming.take c.passesPerBlock, r.complete = false) ∧
    (∀ j : StreamId, j ≠ i → t.streams[j] = s.streams[j] ∧ t.staging[j] = s.staging[j])) ∧
  (∀ (i : StreamId) (source : TriggerSource) (s t u : State) (c : StreamConfig) (T : Long),
    (s.streams[i]).config = some c → c.stop = .time T → T ≤ s.timebase.count → takeTrigger i source s = t →
    u = takeTrigger i source
      { s with streams := upd s.streams i (fun x => { x with config := some { c with stop := .none } }) } →
    t = { enterDraining i .stopTime { u with streams := upd u.streams i (fun x => { x with config := some c }) } with
          becameEligible := t.becameEligible } ∧
    (t.streams[i]).trigger = some ⟨s.timebase.count, source⟩ ∧ (t.streams[i]).endReason = some .stopTime ∧
    (t.streams[i]).nextPass = some 0 ∧ (t.streams[i]).begun = 0 ∧ (t.streams[i]).pass = (s.streams[i]).pass ∧
    ((t.streams[i]).state = .draining ∨ (t.streams[i]).state = .idle) ∧
    ((s.streams[i]).pass ≠ none ∨ (s.staging[i]).forming ≠ [] ∨ (s.staging[i]).closed ≠ [] →
      (t.streams[i]).state = .draining) ∧
    ((s.streams[i]).pass = none → s.staging[i] = Staging.empty → s.writing i = false → (t.streams[i]).state = .idle) ∧
    (∀ j : StreamId, j ≠ i → t.streams[j] = s.streams[j] ∧ t.staging[j] = s.staging[j]))

/-! ### Delivery Unit -/

/-- POST BUFFERS (R82, R83): the four checks in their order with their details, and an accepted order appends its
descriptors, each fresh (R81); a stream that becomes eligible by it is noted behind the others (R85, R86, the model's
list, notes/assumptions/24.md). RECLAIM BUFFERS (R84) refuses a stream number out of range with BAD FIELD, a state other
than IDLE and FAULTED with WRONG STATE and an outbox that holds a record with BACKLOG, and else empties the queue, with
a RETURNED record for each descriptor and their number as detail. -/
def Obligations.BufferOrders : Prop :=
  (∀ (h : OrderHeader) (count : Byte) (entries : Vector DescriptorEntry 3) (s : State), s.takesOrder →
    (∀ b : Byte, 8 ≤ b.toNat ∨ count.toNat = 0 ∨ 3 < count.toNat →
      exec (.postBuffers h b count entries) s = .next (s.answered 0x0040 h (fun u => refuse u .badField 0))) ∧
    (∀ (i : StreamId) (fields area : Fin 3 → Prop), 1 ≤ count.toNat → count.toNat ≤ 3 →
      (∀ k : Fin 3, fields k ↔ (entries[k]).address.toNat % 8 = 0 ∧ (entries[k]).length.toNat % 8 = 0 ∧
        s.maxBlockBytes i ≤ (entries[k]).length.toNat ∧ (entries[k]).length.toNat ≤ 4194304 ∧
        (entries[k]).address.toNat + (entries[k]).length.toNat ≤ 2 ^ 64) →
      (∀ k : Fin 3, area k ↔ ∃ w : WindowId, (s.windows[w]).covers (entries[k]).address = true ∧
        (s.windows[w]).covers ((entries[k]).address + ((entries[k]).length.setWidth 64 - 1)) = true ∧
        (s.windows[w]).use ≠ .status) →
      ((s.streams[i]).state = .unconfigured ∨ (s.streams[i]).state = .faulted →
        exec (.postBuffers h (byteOf i) count entries) s
          = .next (s.answered 0x0040 h (fun u => refuse u .wrongState 0))) ∧
      ((s.streams[i]).state ≠ .unconfigured → (s.streams[i]).state ≠ .faulted →
        (∀ k : Fin 3, k.val < count.toNat → (∀ j : Fin 3, j < k → fields j ∧ area j) →
          (¬fields k → exec (.postBuffers h (byteOf i) count entries) s
            = .next (s.answered 0x0040 h (fun u => refuse u .badField (k.val + 1)))) ∧
          (fields k → ¬area k → exec (.postBuffers h (byteOf i) count entries) s
            = .next (s.answered 0x0040 h (fun u => refuse u .outsideWindow (k.val + 1))))) ∧
        ((∀ k : Fin 3, k.val < count.toNat → fields k ∧ area k) →
          (32 < (s.buffers[i]).length + count.toNat →
            exec (.postBuffers h (byteOf i) count entries) s
              = .next (s.answered 0x0040 h (fun u => refuse u .queueFull (32 - (s.buffers[i]).length)))) ∧
          (∀ free : List StreamId, (s.buffers[i]).length + count.toNat ≤ 32 →
            (s.eligible i = true ∨ s.buffers[i] ≠ [] ∨ (s.staging[i]).readyBlock = none ∨ s.outboxes[i] ≠ [] →
              free = s.becameEligible) →
            (s.buffers[i] = [] → (s.staging[i]).readyBlock ≠ none → s.outboxes[i] = [] →
              free = s.becameEligible.erase i ++ [i]) →
            exec (.postBuffers h (byteOf i) count entries) s
              = .next (s.answered 0x0040 h (fun u => accept { u with
                  becameEligible := free
                  buffers := upd u.buffers i (fun q => q ++ (entries.toList.take count.toNat).map (fun e =>
                    { address := e.address, length := e.length.toNat, tag := e.tag, fill := 0, blocks := 0,
                      firstSequence := 0, lastSequence := 0, timer := none, flushDue := false })) }))))))) ∧
  (∀ (h : OrderHeader) (s : State), s.takesOrder →
    (∀ b : Byte, 8 ≤ b.toNat →
      exec (.reclaimBuffers h b) s = .next (s.answered 0x0041 h (fun u => refuse u .badField 0))) ∧
    (∀ i : StreamId,
      ((s.streams[i]).state ≠ .idle → (s.streams[i]).state ≠ .faulted →
        exec (.reclaimBuffers h (byteOf i)) s = .next (s.answered 0x0041 h (fun u => refuse u .wrongState 0))) ∧
      ((s.streams[i]).state = .idle ∨ (s.streams[i]).state = .faulted →
        (s.outboxes[i] ≠ [] →
          exec (.reclaimBuffers h (byteOf i)) s = .next (s.answered 0x0041 h (fun u => refuse u .backlog 0))) ∧
        (∀ c : StreamConfig, s.outboxes[i] = [] → (s.streams[i]).config = some c →
          exec (.reclaimBuffers h (byteOf i)) s
            = .next (s.answered 0x0041 h (fun u =>
                { state := { u with buffers := upd u.buffers i (fun _ => []) }
                  status := .done
                  detail := (s.buffers[i]).length
                  returned := (s.buffers[i]).map (fun d =>
                    ⟨if s.rings[c.ring] = none then 0 else c.ring,
                      .bufferDone i { returned := true } d.tag 0 0 0 0⟩) }))))))

/-- SET WINDOW (R80): all four fields are replaced, even when enabled is no, and nothing else is touched. -/
def Obligations.SetWindowReplaces : Prop :=
  ∀ (h : OrderHeader) (base mask : Long) (s : State), s.takesOrder →
    (∀ window enabled use : Byte, 4 ≤ window.toNat ∨ 2 ≤ enabled.toNat ∨ 3 ≤ use.toNat →
      exec (.setWindow h window enabled use base mask) s
        = .next (s.answered 0x0042 h (fun u => refuse u .badField 0))) ∧
    (∀ (w : WindowId) (enabled : Bool) (use : WindowUse),
      exec (.setWindow h (byteOf w) (if enabled then 1 else 0) (byteOf use.code) base mask) s
        = .next (s.answered 0x0042 h (fun u => accept { u with
            windows := upd u.windows w (fun _ => ⟨enabled, base, mask, use⟩) })))

/-! ### Watch Unit -/

/-- SET WATCH (R117, R118): the three checks with their details, and an accepted order replaces the setting, resets
the judgement, keeps an answer wait with its held record, and recomputes the alert level. CLEAR WATCH (R119) refuses
a number out of range with BAD FIELD, and else disables the watch, resets its judgement, keeps its other setting, and
recomputes the alert level. The alert level (R125) is the highest level of the enabled watches out of band, or 0 when
there is none. -/
def Obligations.WatchOrders : Prop :=
  (∀ (h : OrderHeader) (f : WatchFields) (s : State), s.takesOrder →
    (16 ≤ f.watch.toNat ∨ 32 ≤ f.channel.toNat ∨ 8 < f.filter.toNat ∨ 16 < f.action.toNat ∨ 4095 < f.hysteresis.toNat ∨
        f.persistence.toNat = 0 ∨ 16 < f.persistence.toNat ∨ 4 ≤ f.alert.toNat ∨ 2 ≤ f.note.toNat ∨ 4 ≤ f.ring.toNat →
      exec (.setWatch h f) s = .next (s.answered 0x0050 h (fun u => refuse u .badField 1))) ∧
    (∀ (m : WatchId) (channel : ChannelId) (filter : Option StreamId) (action : WatchAction) (alert : Fin 4) (note : Bool)
        (ring : RingId),
      f.watch = byteOf m → f.channel = byteOf channel → f.filter = byteOf (filterCode filter) →
      f.action = byteOf action.code → f.hysteresis.toNat ≤ 4095 → 1 ≤ f.persistence.toNat → f.persistence.toNat ≤ 16 →
      f.alert = byteOf alert → f.note = (if note then 1 else 0) → f.ring = byteOf ring →
      (f.high.toInt ≤ f.low.toInt →
        exec (.setWatch h f) s = .next (s.answered 0x0050 h (fun u => refuse u .badField 2))) ∧
      (f.low.toInt < f.high.toInt → note = true → s.rings[ring] = none →
        exec (.setWatch h f) s = .next (s.answered 0x0050 h (fun u => refuse u .badField 3))) ∧
      (f.low.toInt < f.high.toInt → (note = true → s.rings[ring] ≠ none) →
        exec (.setWatch h f) s
          = .next (s.answered 0x0050 h (fun u => accept (recomputeAlert { u with
              watches := upd u.watches m (fun old =>
                { enabled := true, channel := channel, filter := filter, low := f.low, high := f.high,
                  hysteresis := f.hysteresis.toNat, persistence := f.persistence.toNat, alert := alert,
                  action := action, note := note, ring := ring, state := .inside, runCount := 0, runSide := .none,
                  lost := 0, wait := old.wait.map (fun w => { w with replaced := true }),
                  waiting := old.waiting }) })))))) ∧
  ((∀ (h : OrderHeader) (s : State), s.takesOrder →
    (∀ b : Byte, 16 ≤ b.toNat →
      exec (.clearWatch h b) s = .next (s.answered 0x0051 h (fun u => refuse u .badField 0))) ∧
    (∀ m : WatchId,
      exec (.clearWatch h (byteOf m)) s
        = .next (s.answered 0x0051 h (fun u => accept (recomputeAlert { u with
            watches := upd u.watches m (fun w =>
              { w with
                enabled := false, state := .inside, runCount := 0, runSide := .none, lost := 0,
                wait := w.wait.map (fun x => { x with replaced := true }) }) }))))) ∧
  (∀ (s t : State), recomputeAlert s = t → t = { s with alertLevel := t.alertLevel } ∧
    (∀ m : WatchId, (s.watches[m]).enabled = true → (s.watches[m]).state ≠ .inside →
      (s.watches[m]).alert ≤ t.alertLevel) ∧
    (t.alertLevel ≠ 0 → ∃ m : WatchId, (s.watches[m]).enabled = true ∧ (s.watches[m]).state ≠ .inside ∧
      (s.watches[m]).alert = t.alertLevel)))

/-! ### Timebase -/

/-- SET TIMEBASE (R131): the three checks with their details, and an accepted order writes the role and cancels a
waiting fire unless the new role is LEADER. FIRE SYNC (R133): the three checks with their details; the pulse begins at
once and lasts 50 reference periods, or the fire waits for a time the count has not reached. ARM SYNC (R132): the four
checks with their details, and the arm an accepted order makes present, with its expiry moment. -/
def Obligations.TimebaseOrders : Prop :=
  (∀ (h : OrderHeader) (s : State), s.takesOrder →
    (∀ b : Byte, 3 ≤ b.toNat →
      exec (.setTimebase h b) s = .next (s.answered 0x0060 h (fun u => refuse u .badField 0))) ∧
    (∀ r : Role,
      (s.timebase.arm ≠ none →
        exec (.setTimebase h (byteOf r.code)) s = .next (s.answered 0x0060 h (fun u => refuse u .wrongState 1))) ∧
      (s.timebase.arm = none → (∃ e, s.timebase.fire = .driving e) →
        exec (.setTimebase h (byteOf r.code)) s = .next (s.answered 0x0060 h (fun u => refuse u .wrongState 2))) ∧
      (s.timebase.arm = none → (∀ e, s.timebase.fire ≠ .driving e) →
        exec (.setTimebase h (byteOf r.code)) s
          = .next (s.answered 0x0060 h (fun u => accept { u with
              timebase := { u.timebase with
                role := r, fire := if r = .leader then u.timebase.fire else .absent } }))))) ∧
  (∀ (h : OrderHeader) (time : Long) (s : State), s.takesOrder →
    (∀ mode : Byte, 2 ≤ mode.toNat →
      exec (.fireSync h mode time) s = .next (s.answered 0x0062 h (fun u => refuse u .badField 0))) ∧
    (∀ atTime : Bool,
      (s.timebase.role ≠ .leader →
        exec (.fireSync h (if atTime then 1 else 0) time) s
          = .next (s.answered 0x0062 h (fun u => refuse u .wrongState 1))) ∧
      (s.timebase.role = .leader → s.timebase.fire ≠ .absent →
        exec (.fireSync h (if atTime then 1 else 0) time) s
          = .next (s.answered 0x0062 h (fun u => refuse u .wrongState 2))) ∧
      (s.timebase.role = .leader → s.timebase.fire = .absent → (atTime = false ∨ time ≤ s.timebase.count) →
        exec (.fireSync h (if atTime then 1 else 0) time) s
          = .next (s.answered 0x0062 h (fun u => accept { u with
              timebase := { u.timebase with fire := .driving (s.elapsed + 50) } }))) ∧
      (s.timebase.role = .leader → s.timebase.fire = .absent → atTime = true → s.timebase.count < time →
        exec (.fireSync h (if atTime then 1 else 0) time) s
          = .next (s.answered 0x0062 h (fun u => accept { u with
              timebase := { u.timebase with fire := .waiting time } }))))) ∧
  (∀ (h : OrderHeader) (preset : Long) (timeout : Word) (s : State), s.takesOrder →
    (60000 < timeout.toNat →
      exec (.armSync h preset timeout) s = .next (s.answered 0x0061 h (fun u => refuse u .badField 0))) ∧
    (timeout.toNat ≤ 60000 →
      (s.timebase.role = .off →
        exec (.armSync h preset timeout) s = .next (s.answered 0x0061 h (fun u => refuse u .wrongState 1))) ∧
      (s.timebase.role ≠ .off → s.timebase.arm ≠ none →
        exec (.armSync h preset timeout) s = .next (s.answered 0x0061 h (fun u => refuse u .wrongState 2))) ∧
      (s.timebase.role ≠ .off → s.timebase.arm = none → s.timebase.hold ≠ none →
        exec (.armSync h preset timeout) s = .next (s.answered 0x0061 h (fun u => refuse u .backlog 0))) ∧
      (s.timebase.role ≠ .off → s.timebase.arm = none → s.timebase.hold = none →
        exec (.armSync h preset timeout) s
          = .next (s.answered 0x0061 h (fun u => accept { u with
              timebase := { u.timebase with
                arm := some ⟨preset, timeout.toNat,
                  if timeout.toNat = 0 then none else some (s.elapsed + timeout.toNat * 50000)⟩ } })))))

/-! ### Host Link, register writes, Completion Unit -/

/-- The beginning of teardown, handed to every block (R172, Table 11-4: R26, R42, R59, R76, R98, R109, R126, R139,
R153, R166): what each block clears and what it keeps. That offers on their way are dropped is an inference
(notes/assumptions/16.md), that the Order Ring's geometry is forgotten at this moment is an inference from R170
(notes/assumptions/36.md), and what a generator owes and which streams became eligible are the model's fields
(notes/assumptions/6.md and 24.md). -/
def Obligations.TeardownOfEveryBlock : Prop :=
  ∀ s t : State, teardown s = t →
    (∀ i : StreamId,
      ((s.streams[i]).state.active = true →
        t.streams[i] = { s.streams[i] with state := .idle, endReason := some .teardown, pass := none } ∧
        t.staging[i] = match (s.staging[i]).closed with
          | b :: _ => if b.writing then ⟨[b], []⟩ else Staging.empty
          | [] => Staging.empty) ∧
      ((s.streams[i]).state.active = false → t.streams[i] = s.streams[i] ∧ t.staging[i] = s.staging[i]) ∧
      t.buffers[i] = [] ∧ t.outboxes[i] = []) ∧
    (∀ c : ConverterId, t.converters[c] = { s.converters[c] with
      slots := Vector.replicate 8 none, conversion := (s.converters[c]).conversion.map (fun v => { v with owner := none }),
      lastChannel := none }) ∧
    (∀ n : RingId, t.rings[n] = none) ∧
    (∀ g : GeneratorId, t.generators[g] = { s.generators[g] with state := .stopped, owed := 0 }) ∧
    (∀ m : WatchId, t.watches[m] = { s.watches[m] with
      state := .inside, runCount := 0, runSide := .none, lost := 0, wait := none, waiting := [] }) ∧
    t.alertLevel = 0 ∧ t.offers = [] ∧
    t.timebase = { s.timebase with
      arm := none, hold := none, roomReported := false,
      fire := match s.timebase.fire with
        | .driving e => .driving e
        | _ => .absent } ∧
    (s.orders.work = .idle ∨ s.orders.work.isFetching = true ∨ (∃ o m, s.orders.work = .executing o m) →
      t.orders.work = s.orders.work) ∧
    ((∃ o l, s.orders.work = .placing o l) → t.orders.work = .idle) ∧
    t.orders.head = s.orders.head ∧ t.orders.tail = s.orders.tail ∧ t.orders.geometry = none ∧
    t.orders.roomReported = false ∧ t.becameEligible = [] ∧
    t = { s with
      streams := t.streams, staging := t.staging, converters := t.converters, buffers := t.buffers,
      outboxes := t.outboxes, rings := t.rings, generators := t.generators, watches := t.watches,
      alertLevel := t.alertLevel, offers := t.offers, timebase := t.timebase, orders := t.orders,
      becameEligible := t.becameEligible }

/-- LINK CONTROL writes (R169, R170, R176 step 1): ENABLE by the link's state, RESET from any state, and neither while a
link reset is pending. -/
def Obligations.LinkControlWrites : Prop :=
  ∀ s : State,
    (s.link.resetPending = true → (∀ e, exec (.linkControlEnable e) s = .next s) ∧ exec .linkReset s = .next s) ∧
    (s.link.resetPending = false →
      (s.link.state = .down → s.link.cbAddress.toNat + 127 < 2 ^ 64 →
        exec (.linkControlEnable true) s = .next { s with
          link := { s.link with enable := true, state := .loading, cbRead := some s.elapsed }
          bus := s.bus ++ [.read s.link.cbAddress 128] }) ∧
      (s.link.state = .down → 2 ^ 64 ≤ s.link.cbAddress.toNat + 127 →
        exec (.linkControlEnable true) s = .next { s with
          link := { s.link with enable := true, state := .fault, cause := .controlBlockInvalid, detail := 9 } }) ∧
      (s.link.state = .loading →
        exec (.linkControlEnable false) s
          = .next { s with link := { s.link with enable := false, state := .stopping } }) ∧
      (s.link.state = .up →
        exec (.linkControlEnable false) s
          = .next (teardown { s with link := { s.link with enable := false, state := .stopping } }) ∧
        exec .linkReset s
          = .next (teardown { s with link := { s.link with resetPending := true, state := .stopping } })) ∧
      (∀ e : Bool, (s.link.state = .stopping ∨ s.link.state = .fault ∨ (s.link.state = .down ∧ e = false) ∨
          (s.link.state = .loading ∧ e = true) ∨ (s.link.state = .up ∧ e = true)) →
        exec (.linkControlEnable e) s = .next { s with link := { s.link with enable := e } }) ∧
      (s.link.state ≠ .up → exec .linkReset s = .next { s with link := { s.link with resetPending := true } }))

/-- A link reset takes effect once no host read is outstanding (R176 steps 2 and 3): every block at its link-reset
values, the count and the role kept, a pulse being driven and a conversion in progress run on, the conversion as an
orphan; lines and SYNC are as the first sample finds them (R110), with the model's fields of a line as after a sample
(notes/assumptions/8.md, 10.md). A STOPPING link with no host read outstanding enters DOWN, and LOADING at once when
ENABLE is 1 and the Control Block lies inside the address space (R174, R169); with a read outstanding it waits. A
Control Block past the end of the address space faults the link at once (detail 9, R170). The model's choices in this:
that the effect and the entry to DOWN are commands of their own and that a pending link reset takes the place of the
entry (notes/assumptions/14.md), that either changes nothing where it cannot occur (notes/assumptions/3.md), that a
pulse being driven goes on although R114 says SYNC is undriven (notes/assumptions/34.md), that returns on their way stay
(notes/assumptions/15.md), and that the model's own fields stay (notes/assumptions/22.md). -/
def Obligations.QuietLinkMovesOn : Prop :=
  (∀ (p : PinLevels) (s : State),
    (s.link.resetPending = false ∨ s.readsOutstanding ≠ 0 → exec (.linkResetEffect p) s = .next s) ∧
    (s.link.resetPending = true → s.readsOutstanding = 0 →
      ∃ t, exec (.linkResetEffect p) s = .next t ∧
        (∀ n : LineId, t.lines[n] = ⟨.activeHigh, p.trig.getLsbD n.val, .nothing, s.elapsed + 1⟩) ∧
        (∀ c : ConverterId, t.converters[c] = { State.reset.converters[c] with
          conversion := (s.converters[c]).conversion.map (fun v => { v with owner := none }) }) ∧
        t.timebase = { State.reset.timebase with
          count := s.timebase.count, role := s.timebase.role,
          fire := match s.timebase.fire with
            | .driving e => .driving e
            | _ => .absent } ∧
        t = { State.reset with
          pending := s.pending, elapsed := s.elapsed, choices := s.choices, bus := s.bus, nextPassId := s.nextPassId,
          returns := s.returns, lines := t.lines, syncHigh := p.sync, syncNext := s.elapsed + 1, converters := t.converters,
          timebase := t.timebase })) ∧
  (∀ s : State,
    (s.link.state ≠ .stopping ∨ s.readsOutstanding ≠ 0 ∨ s.link.resetPending = true → exec .linkDown s = .next s) ∧
    (s.link.state = .stopping → s.readsOutstanding = 0 → s.link.resetPending = false →
      (s.link.enable = false → exec .linkDown s = .next { s with link := { s.link with state := .down } }) ∧
      (s.link.enable = true → s.link.cbAddress.toNat + 127 < 2 ^ 64 →
        exec .linkDown s = .next { s with
          link := { s.link with state := .loading, cbRead := some s.elapsed }
          bus := s.bus ++ [.read s.link.cbAddress 128] }) ∧
      (s.link.enable = true → 2 ^ 64 ≤ s.link.cbAddress.toNat + 127 →
        exec .linkDown s = .next { s with
          link := { s.link with state := .fault, cause := .controlBlockInvalid, detail := 9 } })))

/-- ORDER TAIL writes (R142, R143): taken in UP only; a value below the size becomes the tail, and an idle Order Unit
with orders available issues one read of the slot at the head; any other value faults the link with BAD TAIL. -/
def Obligations.OrderTailWrites : Prop :=
  ∀ (value : Word) (s : State),
    (s.linkUp = false → exec (.orderTailWrite value) s = .next s) ∧
    (∀ g : OrderRing, s.linkUp = true → s.orders.geometry = some g →
      (g.size ≤ value.toNat →
        exec (.orderTailWrite value) s = .next (teardown { s with
          link := { s.link with state := .fault, cause := .badTail, detail := value.extractLsb' 0 16 } })) ∧
      (value.toNat < g.size → s.orders.head < g.size →
        (s.orders.work ≠ .idle ∨ s.orders.head = value.toNat →
          exec (.orderTailWrite value) s = .next { s with orders := { s.orders with tail := value.toNat } }) ∧
        (s.orders.work = .idle → s.orders.head ≠ value.toNat →
          exec (.orderTailWrite value) s = .next { s with
            orders := { s.orders with tail := value.toNat, work := .fetching s.elapsed }
            bus := s.bus ++ [.read (g.base + BitVec.ofNat 64 (64 * s.orders.head)) 64] })))

/-- CR HEAD writes (R156, R165): taken in UP for an enabled ring only; a value that returns slots not outstanding or
lies at or above twice the size faults the link with BAD HEAD; any other value returns its slots and re-arms the ring,
which is disarmed again when its message is due; where nothing waits for room and no message is due, nothing else
changes. What else an accepted value does (R157): the pending records move, then the outboxes are served in
stream-number order, then room is reported to the Order Unit and, on CR0, to the Timebase that wait for it, then the
ring is re-armed; a served outbox hands its oldest record to placement as long as it is placed, and a stream that
becomes eligible is noted behind the others (the model's list, notes/assumptions/24.md). -/
def Obligations.CrHeadWrites : Prop :=
  ∀ (n : RingId) (value : Word) (s : State),
    (s.linkUp = false ∨ s.rings[n] = none → exec (.crHeadWrite n value) s = .next s) ∧
    (∀ r : Ring, s.linkUp = true → s.rings[n] = some r →
      (2 * r.size ≤ value.toNat ∨ r.outstanding < (value.toNat + 2 * r.size - r.returned) % (2 * r.size) →
        exec (.crHeadWrite n value) s = .next (teardown { s with
          link := { s.link with
            state := .fault, cause := .badHead, detail := BitVec.ofNat 16 (256 * n.val + value.toNat % 256) } })) ∧
      (value.toNat < 2 * r.size → (value.toNat + 2 * r.size - r.returned) % (2 * r.size) ≤ r.outstanding →
        ∃ t, exec (.crHeadWrite n value) s = .next t ∧ t.link = s.link ∧ t.streams = s.streams ∧
          (∃ r', t.rings[n] = some r' ∧ r'.returned = value.toNat ∧ r'.size = r.size ∧
            ((r'.armed = true ∧ (r'.count = 0 ∨ (r'.count < r'.threshold ∧ r'.timer ≠ .expired))) ∨
              (r'.armed = false ∧ r'.count = 0 ∧ r'.timer = .stopped))) ∧
          (r.waiting = [] → (∀ i : StreamId, s.outboxes[i] = []) → s.orders.waitingOn ≠ some n →
            (n ≠ 0 ∨ s.timebase.hold = none) → (r.count = 0 ∨ (r.count < r.threshold ∧ r.timer ≠ .expired)) →
            t = { s with rings := upd s.rings n (fun _ => some { r with returned := value.toNat, armed := true }) }) ∧
          t = rearm n (reportRoom n (serveOutboxes
            (movePending n r.waiting.length (s.setRing n { r with returned := value.toNat })))))) ∧
    serveOutboxes s = ([0, 1, 2, 3, 4, 5, 6, 7] : List StreamId).foldl
      (fun u i => noteEligible i u (serveOutbox i (u.outboxes[i]).length u)) s ∧
    (∀ (i : StreamId) (k : Nat),
      (s.outboxes[i] = [] → serveOutbox i (k + 1) s = s) ∧
      (∀ (e : OutboxEntry) (rest : List OutboxEntry), s.outboxes[i] = e :: rest →
        (∀ t, place e.ring e.record s = some t →
          serveOutbox i (k + 1) s = serveOutbox i k { t with outboxes := upd t.outboxes i (fun _ => rest) }) ∧
        (place e.ring e.record s = none → serveOutbox i (k + 1) s = s))) ∧
    (∀ (r : Ring) (room : Prop), s.rings[n] = some r →
      (room ↔ (r.waiting = [] ∧ 0 < r.free) ∨ r.waiting.length < 16) →
      (¬room → reportRoom n s = s) ∧
      (room → ∃ t, reportRoom n s = t ∧
        t.orders.roomReported = (s.orders.roomReported || decide (s.orders.waitingOn = some n)) ∧
        t.timebase.roomReported = (s.timebase.roomReported || (decide (n = 0) && s.timebase.hold.isSome)) ∧
        t = { s with
          orders := { s.orders with roomReported := t.orders.roomReported }
          timebase := { s.timebase with roomReported := t.timebase.roomReported } }) ∧
      (1 ≤ r.count → (r.threshold ≤ r.count ∨ r.timer = .expired) → rearm n s = { s with
        rings := upd s.rings n (fun _ => some { r with count := 0, armed := false, timer := .stopped })
        bus := s.bus ++ (if s.linkUp = true ∧ Config.messageEnabled s.elapsed = true
          then [.message n (Config.messageAddress s.elapsed n) (Config.messageData s.elapsed n)] else []) }) ∧
      (r.count = 0 ∨ (r.count < r.threshold ∧ r.timer ≠ .expired) →
        rearm n s = { s with rings := upd s.rings n (fun _ => some { r with armed := true }) }))

/-- The moves of R157 step 1. One move on any enabled ring with a pending record and a free slot: the oldest pending
record is written into the next slot with the slot's phase, W advances, the count rises and the holdoff timer may start
(R155, R163), and a message that is due then is sent (R162); with no record pending or no slot free nothing moves. All
moves together on a ring that is not armed and has no holdoff time, a case stated whole: the oldest records go into the
free slots in order, each with the phase of its slot, as far as slots are free. That the count rises by one at every
write with no bound at the ring's size is the model's choice, against Table 10-1 and R163 (notes/assumptions/33.md). -/
def Obligations.PendingRecordsMove : Prop :=
  (∀ (n : RingId) (k : Nat) (s : State) (r w : Ring) (record : Record) (rest : List Record),
    s.rings[n] = some r → r.waiting = record :: rest →
    (r.free = 0 → movePending n (k + 1) s = s) ∧
    (0 < r.free →
      w = { r with
            waiting := rest, written := (r.written + 1) % (2 * r.size), count := r.count + 1,
            timer := if r.count = 0 ∧ r.holdoffUs ≠ 0 then .running (s.elapsed + r.holdoffUs * 50) else r.timer } →
      ((w.armed = false ∨ (w.count < w.threshold ∧ w.timer ≠ .expired)) →
        movePending n (k + 1) s = movePending n k { s with
          rings := upd s.rings n (fun _ => some w)
          bus := s.bus ++ [.write (r.base + BitVec.ofNat 64 (32 * (r.written % r.size)))
            (record.bytes (decide (r.written < r.size)))] }) ∧
      (w.armed = true → (w.threshold ≤ w.count ∨ w.timer = .expired) →
        movePending n (k + 1) s = movePending n k { s with
          rings := upd s.rings n (fun _ => some { w with count := 0, armed := false, timer := .stopped })
          bus := s.bus ++ [.write (r.base + BitVec.ofNat 64 (32 * (r.written % r.size)))
            (record.bytes (decide (r.written < r.size)))] ++
            (if s.linkUp = true ∧ Config.messageEnabled s.elapsed = true
              then [.message n (Config.messageAddress s.elapsed n) (Config.messageData s.elapsed n)] else []) }))) ∧
  (∀ (n : RingId) (k : Nat) (s : State),
    (k = 0 ∨ s.rings[n] = none ∨ (∃ r, s.rings[n] = some r ∧ r.waiting = [])) → movePending n k s = s) ∧
  (∀ (n : RingId) (s : State) (r : Ring) (k : Nat), s.rings[n] = some r → r.Ordered → r.armed = false → r.holdoffUs = 0 →
    k = min r.waiting.length r.free →
    ∃ t, movePending n r.waiting.length s = t ∧
      t.rings[n] = some { r with
        written := (r.written + k) % (2 * r.size), count := r.count + k, waiting := r.waiting.drop k } ∧
      t.bus = s.bus ++ (r.waiting.take k).zipIdx.map (fun x =>
        .write (r.base + BitVec.ofNat 64 (32 * (((r.written + x.2) % (2 * r.size)) % r.size)))
          (x.1.bytes (decide ((r.written + x.2) % (2 * r.size) < r.size)))) ∧
      (∀ m : RingId, m ≠ n → t.rings[m] = s.rings[m]) ∧ t = { s with rings := t.rings, bus := t.bus })

/-- Writes of the register window (R167): each register's own command at its offset, an 8-byte write as two 4-byte
writes, the lower offset first, the Control Block address in DOWN only, and every other write ignored. R167 lists no
4-byte or 8-byte write that is not aligned to its size: that it is ignored, although it can cover registers or parts of
them (an 8-byte write at 0x00C covers CB ADDRESS HIGH and ORDER TAIL), is the model's inference, as is that an aligned
8-byte write with no register at one of its two offsets is two 4-byte writes, and that there is no access of 5, 6 or 7
bytes is its choice (notes/assumptions/20.md). -/
def Obligations.RegisterWrites : Prop :=
  ∀ (v : Long) (s : State),
    (∀ o : BitVec 12, exec (.registerWrite o .one v) s = .next s ∧ exec (.registerWrite o .two v) s = .next s ∧
      exec (.registerWrite o .three v) s = .next s) ∧
    (∀ o : BitVec 12, o ∉ ([0x000, 0x008, 0x00C, 0x010, 0x020, 0x024, 0x028, 0x02C] : List (BitVec 12)) →
      exec (.registerWrite o .four v) s = .next s) ∧
    (v.getLsbD 1 = true → exec (.registerWrite 0x000 .four v) s = exec .linkReset s) ∧
    (v.getLsbD 1 = false → exec (.registerWrite 0x000 .four v) s = exec (.linkControlEnable (v.getLsbD 0)) s) ∧
    exec (.registerWrite 0x010 .four v) s = exec (.orderTailWrite (v.extractLsb' 0 32)) s ∧
    (∀ n : RingId, exec (.registerWrite (BitVec.ofNat 12 (32 + 4 * n.val)) .four v) s
      = exec (.crHeadWrite n (v.extractLsb' 0 32)) s) ∧
    (s.link.state ≠ .down → exec (.registerWrite 0x008 .four v) s = .next s ∧
      exec (.registerWrite 0x00C .four v) s = .next s ∧ exec (.registerWrite 0x008 .eight v) s = .next s) ∧
    (s.link.state = .down →
      exec (.registerWrite 0x008 .eight v) s = .next { s with link := { s.link with cbAddress := v } } ∧
      (∃ t, exec (.registerWrite 0x008 .four v) s = .next t ∧
        t.link.cbAddress.toNat = s.link.cbAddress.toNat / 2 ^ 32 * 2 ^ 32 + v.toNat % 2 ^ 32 ∧
        t = { s with link := { s.link with cbAddress := t.link.cbAddress } }) ∧
      (∃ t, exec (.registerWrite 0x00C .four v) s = .next t ∧
        t.link.cbAddress.toNat = v.toNat % 2 ^ 32 * 2 ^ 32 + s.link.cbAddress.toNat % 2 ^ 32 ∧
        t = { s with link := { s.link with cbAddress := t.link.cbAddress } })) ∧
    (∀ o : BitVec 12, o.toNat % 8 ≠ 0 → exec (.registerWrite o .eight v) s = .next s) ∧
    (∀ (o : BitVec 12) (t : State), o.toNat % 8 = 0 → exec (.registerWrite o .four v) s = .next t →
      exec (.registerWrite o .eight v) s = exec (.registerWrite (o + 4) .four (v >>> 32)) t)

/-- Reads of the register window (R167, R168, Table 12-1): the value of each register at its offset, the bytes asked for
by a read within one register, two registers for an aligned 8-byte read, and 0 at an offset that holds none; with the
codes of link state and fault cause (Table 12-8). What any
other read that touches a register gives is stated nowhere, a free value, and not stated here
(notes/assumptions/37.md). -/
def Obligations.RegisterReads : Prop :=
  (([.down, .loading, .up, .stopping, .fault] : List LinkState).map LinkState.code = [0, 1, 2, 3, 4] ∧
    ([.none, .controlBlockRead, .controlBlockInvalid, .orderRead, .badTail, .badHead] : List FaultCause).map
      FaultCause.code = [0, 1, 2, 3, 4, 5]) ∧
  ∀ s : State,
    (readRegister s 0x000).toNat
      = (if s.link.enable = true then 1 else 0) + (if s.link.resetPending = true then 2 else 0) ∧
    (∃ reads,
      reads = (match s.orders.work with
          | .fetching _ => 1
          | .executing _ _ => 1
          | _ => 0)
        + (if s.writeInFlight = none then 0 else 1) + (if s.link.cbRead = none then 0 else 1) ∧
      ((readRegister s 0x004).extractLsb' 0 3).toNat = s.link.state.code ∧
      ((readRegister s 0x004).extractLsb' 4 3).toNat = s.link.cause.code ∧
      ((readRegister s 0x004).extractLsb' 8 2).toNat = reads ∧
      (readRegister s 0x004).extractLsb' 16 16 = s.link.detail ∧
      (readRegister s 0x004).getLsbD 3 = false ∧ (readRegister s 0x004).getLsbD 7 = false ∧
      (readRegister s 0x004).extractLsb' 10 6 = 0) ∧
    (readRegister s 0x008).toNat = s.link.cbAddress.toNat % 2 ^ 32 ∧
    (readRegister s 0x00C).toNat = s.link.cbAddress.toNat / 2 ^ 32 ∧
    readRegister s 0x010 = BitVec.ofNat 32 s.orders.tail ∧
    (∀ n : RingId,
      (∀ r, s.rings[n] = some r → readRegister s (BitVec.ofNat 12 (32 + 4 * n.val)) = BitVec.ofNat 32 r.returned) ∧
      (s.rings[n] = none → readRegister s (BitVec.ofNat 12 (32 + 4 * n.val)) = 0)) ∧
    (∀ o : BitVec 12, o.toNat ∉ [0x000, 0x004, 0x008, 0x00C, 0x010, 0x020, 0x024, 0x028, 0x02C] →
      readRegister s o = 0) ∧
    (∀ o : BitVec 12, o.toNat % 4 = 0 → readWindow s o .four = (readRegister s o).setWidth 64) ∧
    (∀ (o a : BitVec 12) (width : AccessWidth) (k : Nat), width = .one ∨ width = .two ∨ width = .three →
      a.toNat % 4 = 0 → o.toNat = a.toNat + k → k + width.bytes ≤ 4 →
      (readWindow s o width).toNat = (readRegister s a).toNat / 2 ^ (8 * k) % 2 ^ (8 * width.bytes)) ∧
    (∀ o : BitVec 12, o.toNat % 8 = 0 →
      (readWindow s o .eight).toNat = (readRegister s o).toNat + 2 ^ 32 * (readRegister s (o + 4)).toNat) ∧
    (∀ (o : BitVec 12) (width : AccessWidth),
      (∀ a ∈ [0x000, 0x004, 0x008, 0x00C, 0x010, 0x020, 0x024, 0x028, 0x02C],
        a + 4 ≤ o.toNat ∨ o.toNat + width.bytes ≤ a) →
      readWindow s o width = 0)

/-- The end of the Control Block read (R170, R171): a block that passes every check of Table 11-3 brings the link UP
with its rings and the Order Ring set; a failing check faults the link with the check's number in the low byte of the
detail and, for a check of a ring, the ring in the second byte; a failed read faults it with CONTROL BLOCK READ; outside
LOADING, or with a link reset pending, the result is discarded. Contents that come more than 50 ms after the read was
issued change nothing (R174). That nothing changes with no read in flight is the model's choice
(notes/assumptions/3.md). -/
def Obligations.ControlBlockReadEnds : Prop :=
  (∀ (cb : ControlBlock) (s : State) (issued : Nat), s.link.cbRead = some issued →
    (s.link.state ≠ .loading ∨ s.link.resetPending = true →
      (s.elapsed ≤ issued + 2500000 →
        exec (.controlBlockLoad cb) s = .next { s with link := { s.link with cbRead := none } }) ∧
      exec .controlBlockRead s = .next { s with link := { s.link with cbRead := none } }) ∧
    (issued + 2500000 < s.elapsed → exec (.controlBlockLoad cb) s = .next s) ∧
    (s.link.state = .loading → s.link.resetPending = false →
      exec .controlBlockRead s = .next { s with
        link := { s.link with cbRead := none, state := .fault, cause := .controlBlockRead, detail := 0 } } ∧
      (∀ d, checkControlBlock cb = some d → s.elapsed ≤ issued + 2500000 →
        exec (.controlBlockLoad cb) s = .next { s with
          link := { s.link with cbRead := none, state := .fault, cause := .controlBlockInvalid, detail := d } }) ∧
      (checkControlBlock cb = none → s.elapsed ≤ issued + 2500000 →
        ∃ t, exec (.controlBlockLoad cb) s = .next t ∧
          t = { s with
            link := { s.link with cbRead := none, state := .up, cause := .none, detail := 0 }
            rings := t.rings
            orders := { s.orders with geometry := some ⟨cb.orderBase, cb.orderSize.toNat⟩, head := 0, tail := 0 } } ∧
          ∀ n : RingId, t.rings[n] = if (cb.rings[n]).enable then
            some { base := (cb.rings[n]).base, size := (cb.rings[n]).size.toNat,
                   threshold := (cb.rings[n]).threshold.toNat, holdoffUs := (cb.rings[n]).holdoff.toNat, written := 0,
                   returned := 0, waiting := [], armed := true, count := 0, timer := .stopped }
            else none))) ∧
  (∀ s : State, s.link.cbRead = none → (∀ cb, exec (.controlBlockLoad cb) s = .next s) ∧ exec .controlBlockRead s = .next s) ∧
  (∀ (cb : ControlBlock) (size : Nat → Prop), (∀ n, size n ↔ ∃ k, 4 ≤ k ∧ k ≤ 12 ∧ n = 2 ^ k) →
    (checkControlBlock cb = none ↔
      cb.format = 1 ∧ size cb.orderSize.toNat ∧ cb.orderBase.toNat % 64 = 0 ∧
      cb.orderBase.toNat + 64 * cb.orderSize.toNat ≤ 2 ^ 64 ∧ (cb.rings[0]).enable = true ∧
      ∀ n : RingId, (cb.rings[n]).enable = true →
        size (cb.rings[n]).size.toNat ∧ (cb.rings[n]).base.toNat % 32 = 0 ∧
        (cb.rings[n]).base.toNat + 32 * (cb.rings[n]).size.toNat ≤ 2 ^ 64 ∧
        1 ≤ (cb.rings[n]).threshold.toNat ∧ (cb.rings[n]).threshold.toNat ≤ 64 ∧ (cb.rings[n]).holdoff.toNat ≤ 65535)) ∧
  (∀ (cb : ControlBlock) (ok : Nat → Prop) (ring : Nat → RingId → Prop),
    (ok 1 ↔ cb.format = 1) → (ok 2 ↔ ∃ k, 4 ≤ k ∧ k ≤ 12 ∧ cb.orderSize.toNat = 2 ^ k) →
    (ok 3 ↔ cb.orderBase.toNat % 64 = 0 ∧ cb.orderBase.toNat + 64 * cb.orderSize.toNat ≤ 2 ^ 64) →
    (ok 4 ↔ (cb.rings[0]).enable = true) →
    (∀ n, ring 5 n ↔ ((cb.rings[n]).enable = true → ∃ k, 4 ≤ k ∧ k ≤ 12 ∧ (cb.rings[n]).size.toNat = 2 ^ k)) →
    (∀ n, ring 6 n ↔ ((cb.rings[n]).enable = true → (cb.rings[n]).base.toNat % 32 = 0 ∧
      (cb.rings[n]).base.toNat + 32 * (cb.rings[n]).size.toNat ≤ 2 ^ 64)) →
    (∀ n, ring 7 n ↔ ((cb.rings[n]).enable = true →
      1 ≤ (cb.rings[n]).threshold.toNat ∧ (cb.rings[n]).threshold.toNat ≤ 64)) →
    (∀ n, ring 8 n ↔ ((cb.rings[n]).enable = true → (cb.rings[n]).holdoff.toNat ≤ 65535)) →
    (∀ k, 5 ≤ k → k ≤ 8 → (ok k ↔ ∀ n, ring k n)) →
    (∀ k, 1 ≤ k → k ≤ 4 → ¬ok k → (∀ j, 1 ≤ j → j < k → ok j) → checkControlBlock cb = some (BitVec.ofNat 16 k)) ∧
    (∀ k n, 5 ≤ k → k ≤ 8 → ¬ring k n → (∀ j, 1 ≤ j → j < k → ok j) → (∀ m, m < n → ring k m) →
      checkControlBlock cb = some (BitVec.ofNat 16 (k + 256 * n.val))))

/-! ### Lines, ticks and the Timebase's moments -/

/-- An edge of a trigger line (R110, R111). A line found ACTIVE gives no edge when it was ACTIVE already, unless the
edge is the one it owes its receivers since its change was handed to the gates. Else every ARMED stream that starts on
the line is triggered (R8), and drains at once when its stop time is reached (R15, `TriggerNumbersHistory`), every
RUNNING stream that stops on it drains (R15), and every RUNNING generator that counts it counts one source event (R102);
one whose interval that completes issues a tick, with both counts 0, and may end its burst (R104); a stream bound to
such a generator takes the tick (R108), and every other stream is left alone. A tick reaches a stream in a state that it
cannot tell from the one before the edge (`SeesAlike`). The receivers take the edge one after another, each in the state
that the one before it leaves (`takeEdgeAt`); a stream that the edge reaches twice, as its start or stop line and
through its generator, takes the edge and the tick in either order (R10, R111). The edge is taken at its sample
(`atSample`): the line's next one where it has changed in this period already, so that two edges of a line are two
reference periods apart or more (R110). Before time passes up to a moment the lines hand over what they owe (`readyAt`),
so that every edge carries the count of the sample that found its line ACTIVE (R110). That the command is one sample,
what the line owes, and that the command lets the period pass in which the line has changed already, are the model's
choice (notes/assumptions/8.md), as are the order of the receivers (notes/assumptions/5.md) and what a generator owes
(notes/assumptions/6.md). -/
def Obligations.TriggerEdgeReachesItsReceivers : Prop :=
  (∀ (n : LineId) (order : List (Fin 12)) (streams : List StreamId) (s₀ s : State), s = s₀.atSample n true →
    ((s.lines[n]).active = true → (s.lines[n]).owed ≠ .edge → exec (.trigEdge n order streams) s₀ = .next s₀) ∧
    ((s.lines[n]).active = false ∨ (s.lines[n]).owed = .edge →
      ∃ t, exec (.trigEdge n order streams) s₀ = .next t ∧ (t.lines[n]).active = true ∧
        (t.lines[n]).polarity = (s.lines[n]).polarity ∧
        (t.lines[n]).nextSample = (if (s.lines[n]).active = true then (s.lines[n]).nextSample else s.elapsed + 1) ∧
        (t.lines[n]).owed = (if (s.lines[n]).active = true then .nothing else .change) ∧
        (∀ m : LineId, m ≠ n → t.lines[m] = s.lines[m]) ∧
        (∀ (i : StreamId) (c : StreamConfig), (s.streams[i]).config = some c →
          ((s.generators[c.generator]).state = .running → (s.generators[c.generator]).source = .trig n →
            (s.generators[c.generator]).sourceEvent.2 = false) →
          ((s.streams[i]).state = .armed → c.start = .line n → (∀ T, c.stop = .time T → s.timebase.count < T) →
            (t.streams[i]).state = .running ∧ (t.streams[i]).trigger = some ⟨s.timebase.count, .line n⟩ ∧
            (t.streams[i]).nextPass = some 0) ∧
          (∀ T, (s.streams[i]).state = .armed → c.start = .line n → c.stop = .time T → T ≤ s.timebase.count →
            t.streams[i] = (takeTrigger i (.line n) s).streams[i] ∧
            (t.streams[i]).trigger = some ⟨s.timebase.count, .line n⟩ ∧ (t.streams[i]).endReason = some .stopTime) ∧
          ((s.streams[i]).state = .running → c.stop = .line n →
            ((t.streams[i]).state = .draining ∨ (t.streams[i]).state = .idle) ∧
            (t.streams[i]).endReason = some .stopLine) ∧
          (¬((s.streams[i]).state = .armed ∧ c.start = .line n) →
            ¬((s.streams[i]).state = .running ∧ c.stop = .line n) →
            t.streams[i] = s.streams[i] ∧ t.staging[i] = s.staging[i])) ∧
        (∀ (i : StreamId) (c : StreamConfig), (s.streams[i]).config = some c →
          ¬((s.streams[i]).state = .armed ∧ c.start = .line n) →
          ¬((s.streams[i]).state = .running ∧ c.stop = .line n) → (s.streams[i]).state ≠ .unconfigured →
          (s.generators[c.generator]).state = .running → (s.generators[c.generator]).source = .trig n →
          (s.generators[c.generator]).sourceEvent.2 = true →
          ∃ u, u.SeesAlike i s ∧ t.streams[i] = (takeTick i u).streams[i] ∧
            t.staging[i] = (takeTick i u).staging[i] ∧ t.buffers[i] = (takeTick i u).buffers[i]) ∧
        (∀ g : GeneratorId,
          (¬((s.generators[g]).state = .running ∧ (s.generators[g]).source = .trig n) →
            t.generators[g] = s.generators[g]) ∧
          ((s.generators[g]).state = .running → (s.generators[g]).source = .trig n →
            ((s.generators[g]).prescaleCount + 1 < (s.generators[g]).prescale →
              t.generators[g] = { s.generators[g] with prescaleCount := (s.generators[g]).prescaleCount + 1 }) ∧
            ((s.generators[g]).prescale ≤ (s.generators[g]).prescaleCount + 1 →
              ((s.generators[g]).divideCount + 1 < (s.generators[g]).divide →
                t.generators[g] = { s.generators[g] with
                  prescaleCount := 0, divideCount := (s.generators[g]).divideCount + 1 }) ∧
              (∀ ticks, (s.generators[g]).divide ≤ (s.generators[g]).divideCount + 1 →
                ticks = min ((s.generators[g]).ticks + 1) 4294967295 →
                ((s.generators[g]).mode = .continuous ∨ ticks < (s.generators[g]).burst →
                  t.generators[g] = { s.generators[g] with prescaleCount := 0, divideCount := 0, ticks := ticks }) ∧
                ((s.generators[g]).mode = .burst → (s.generators[g]).burst ≤ ticks →
                  t.generators[g] = { s.generators[g] with
                    prescaleCount := 0, divideCount := 0, ticks := ticks, state := .done, owed := 0 }))))) ∧
        (∃ receivers : List (Fin 12), receivers.Nodup ∧
          (∀ r : Fin 12, r ∈ receivers ↔
            (∃ (i : StreamId) (c : StreamConfig), r.val = i.val ∧ (s.streams[i]).config = some c ∧
              (((s.streams[i]).state = .armed ∧ c.start = .line n) ∨
                ((s.streams[i]).state = .running ∧ c.stop = .line n))) ∨
            ∃ g : GeneratorId, r.val = 8 + g.val ∧ (s.generators[g]).state = .running ∧
              (s.generators[g]).source = .trig n) ∧
          t = receivers.foldl (fun u r => takeEdgeAt n streams r u) { s with lines := t.lines }) ∧
        (∀ (i : StreamId) (c : StreamConfig), (s.streams[i]).config = some c →
          ((s.streams[i]).state = .armed ∧ c.start = .line n) ∨ ((s.streams[i]).state = .running ∧ c.stop = .line n) →
          (s.generators[c.generator]).state = .running → (s.generators[c.generator]).source = .trig n →
          (s.generators[c.generator]).sourceEvent.2 = true →
          ∃ u v, u.SeesAlike i s ∧ (v = takeTick i (takeEdge n i u) ∨ v = takeEdge n i (takeTick i u)) ∧
            t.streams[i] = v.streams[i] ∧ t.staging[i] = v.staging[i] ∧ t.buffers[i] = v.buffers[i]) ∧
        t.timebase = s.timebase ∧ t.watches = s.watches ∧ t.link = s.link)) ∧
  (∀ (n : LineId) (streams : List StreamId) (r : Fin 12) (s t : State), takeEdgeAt n streams r s = t →
    (∀ i : StreamId, r.val = i.val → t = takeEdge n i s ∧ ((s.streams[i]).config = none → t = s) ∧
      ∀ c : StreamConfig, (s.streams[i]).config = some c →
        ((s.streams[i]).state = .armed → c.start = .line n → t = takeTrigger i (.line n) s) ∧
        ((s.streams[i]).state = .running → c.stop = .line n → t = enterDraining i .stopLine s) ∧
        (¬((s.streams[i]).state = .armed ∧ c.start = .line n) →
          ¬((s.streams[i]).state = .running ∧ c.stop = .line n) → t = s)) ∧
    (∀ g : GeneratorId, r.val = 8 + g.val →
      (¬((s.generators[g]).state = .running ∧ (s.generators[g]).source = .trig n) → t = s) ∧
      ((s.generators[g]).state = .running → (s.generators[g]).source = .trig n →
        ((s.generators[g]).sourceEvent.2 = false → t = { s with generators := t.generators }) ∧
        ((s.generators[g]).sourceEvent.2 = true → ∃ (bound : List StreamId) (v : State), bound.Nodup ∧
          (∀ i : StreamId, i ∈ bound ↔ (s.streams[i]).state ≠ .unconfigured ∧
            ∃ c, (s.streams[i]).config = some c ∧ c.generator = g) ∧
          v = { s with generators := v.generators } ∧
          t = { bound.foldl (fun u i => takeTick i u) v with generators := t.generators })))) ∧
  (∀ g : Generator, g.sourceEvent.2 = true ↔ g.prescale ≤ g.prescaleCount + 1 ∧ g.divide ≤ g.divideCount + 1) ∧
  (∀ (n : LineId) (active : Bool) (s : State),
    ((s.lines[n]).active = active → s.atSample n active = s) ∧
    ((s.lines[n]).active ≠ active →
      s.atSample n active = passTime ((s.lines[n]).nextSample - s.elapsed) (s.readyAt (s.lines[n]).nextSample))) ∧
  (∀ (s : State) (m : Nat),
    (m ≤ s.elapsed ∨ (∀ k : LineId, (s.lines[k]).owed = .nothing) → s.readyAt m = s) ∧
    (s.elapsed < m →
      (∀ k : LineId, (s.readyAt m).lines[k] = { s.lines[k] with owed := .nothing }) ∧
      (s.readyAt m).elapsed = s.elapsed ∧ (s.readyAt m).timebase = s.timebase ∧
      (∀ n : LineId, (s.lines[n]).active = true → (s.lines[n]).owed = .edge →
        (∀ k : LineId, k ≠ n → (s.lines[k]).owed = .nothing) →
        exec (.trigEdge n (Config.receiverOrder s.choices) (Config.streamOrder s.choices)) s = .next (s.readyAt m)) ∧
      (∀ n : LineId, (s.lines[n]).active = true → (s.lines[n]).owed = .change →
        (∀ k : LineId, k ≠ n → (s.lines[k]).owed = .nothing) →
        exec (.gateChange n true) s = .next (s.readyAt m)))) ∧
  (∀ (n : LineId) (k l : List (Fin 12)) (p q : List StreamId) (s t u v : State), (s.lines[n]).active = false →
    exec (.trigEdge n k p) s = .next t → exec (.gateChange n false) t = .next u → exec (.trigEdge n l q) u = .next v →
    t.elapsed + 2 ≤ v.elapsed)

/-- A change of a gate line's active state (R103, R110): a RUNNING generator gated by the line enters GATED, a GATED one
enters RUNNING with the counts it held, and no other generator and no other line changes; a sample that finds the line
as it was is no change, unless the change is the one the line owes its gates since its edge was taken. A change is taken
at its sample (`atSample`), one reference period or more after the line's last (R110), and what the line owes from that
one is handed over first. That the command is one sample, what the line owes, and that the command lets the period pass
in which the line has changed already, are the model's choice (notes/assumptions/8.md), as is what a generator owes
(notes/assumptions/6.md). -/
def Obligations.GateFollowsItsLine : Prop :=
  ∀ (n : LineId) (active : Bool) (s₀ s : State), s = s₀.atSample n active →
    ((s.lines[n]).active = active → active = false ∨ (s.lines[n]).owed ≠ .change →
      exec (.gateChange n active) s₀ = .next s₀) ∧
    ((s.lines[n]).active ≠ active ∨ (active = true ∧ (s.lines[n]).owed = .change) →
      ∃ t, exec (.gateChange n active) s₀ = .next t ∧ (t.lines[n]).active = active ∧
        (t.lines[n]).polarity = (s.lines[n]).polarity ∧
        (t.lines[n]).nextSample = (if (s.lines[n]).active = active then (s.lines[n]).nextSample else s.elapsed + 1) ∧
        (t.lines[n]).owed = (if (s.lines[n]).active = false ∧ active = true then .edge else .nothing) ∧
        (∀ m : LineId, m ≠ n → t.lines[m] = s.lines[m]) ∧
        (∀ g : GeneratorId,
          ((s.generators[g]).gate = some n → (s.generators[g]).state = .running → active = false →
            t.generators[g] = { s.generators[g] with state := .gated, owed := 0 }) ∧
          ((s.generators[g]).gate = some n → (s.generators[g]).state = .gated → active = true →
            t.generators[g] = { s.generators[g] with state := .running }) ∧
          ((s.generators[g]).gate = some n → (s.generators[g]).state = .running → active = true →
            t.generators[g] = s.generators[g]) ∧
          ((s.generators[g]).gate = some n → (s.generators[g]).state = .gated → active = false →
            t.generators[g] = s.generators[g]) ∧
          ((s.generators[g]).gate ≠ some n ∨ ((s.generators[g]).state ≠ .running ∧ (s.generators[g]).state ≠ .gated) →
            t.generators[g] = s.generators[g])) ∧
        t = { s with lines := t.lines, generators := t.generators }) ∧
    ((s₀.lines[n]).active = true → (s₀.lines[n]).owed ≠ .nothing → s₀.elapsed < (s₀.lines[n]).nextSample →
      (∀ k : LineId, k ≠ n → (s₀.lines[k]).owed = .nothing) →
      ∃ u t, exec (if (s₀.lines[n]).owed = .edge
          then .trigEdge n (Config.receiverOrder s₀.choices) (Config.streamOrder s₀.choices)
          else .gateChange n true) s₀ = .next u ∧
        (u.lines[n]).active = true ∧ (u.lines[n]).owed = .nothing ∧ u.timebase.count = s₀.timebase.count ∧
        exec (.gateChange n false) u = .next t ∧ exec (.gateChange n false) s₀ = .next t ∧
        t.elapsed = (s₀.lines[n]).nextSample)

/-- A falling edge of SYNC (R114, R134, R136, R137): none on a line that is low already; while the part drives its own
pulse, the sample is the one after the pulse began (R133, notes/assumptions/11.md); the edge is ignored in OFF and while
not armed. An armed part first examines the timed conditions against the count of the sample, then loads its preset,
ends its arm and forms SYNC_TAKEN with the count before the load, and then examines the conditions against the new
count; what examining does is stated with the times (`TimeIsReached`). The edge of an armed part always completes: SYNC
is low, the count is the preset, the arm is gone, the role stays, and a waiting fire whose time either count has reached
drives its pulse. The edge is taken at its sample (`atSyncSample`): SYNC is sampled once in every reference period, so
two edges are two periods apart or more (R114), and that the command lets the period pass in which the line has changed
already is the model's choice (notes/assumptions/10.md). What trigger lines owe is handed over first, so that a load
does not change the count that an edge of that moment carries (R110, notes/assumptions/8.md). The order of the streams
is the model's choice (notes/assumptions/5.md), as is that an edge of a low line changes nothing
(notes/assumptions/10.md). -/
def Obligations.SyncEdgeLoadsPreset : Prop :=
  (∀ (streams : List StreamId) (s₀ s : State), s = s₀.atSyncSample →
    (s.syncHigh = false → exec (.syncFallingEdge streams) s₀ = .next s₀) ∧
    (∀ v : State, s.syncHigh = true → v = { s with syncHigh := false, syncNext := s.elapsed + 1 } →
      (s.timebase.role = .off ∨ s.timebase.arm = none → exec (.syncFallingEdge streams) s₀ = .next v) ∧
      (∀ (a : SyncArm) (w u : State) (record : Record), s.timebase.role ≠ .off → s.timebase.arm = some a →
        exec (.timeReached v.timebase.count streams) v = .next w →
        u = { w with timebase := { w.timebase with count := a.preset, arm := none } } →
        record = .timebaseEvent .syncTaken s.timebase.role a.timeoutMs a.preset v.timebase.count →
        (∀ t, s.linkUp = true → place 0 record u = some t →
          exec (.syncFallingEdge streams) s₀ = exec (.timeReached a.preset streams) t) ∧
        (s.linkUp = true → place 0 record u = none →
          exec (.syncFallingEdge streams) s₀
            = exec (.timeReached a.preset streams) { u with timebase := { u.timebase with hold := some record } }) ∧
        (s.linkUp = false → exec (.syncFallingEdge streams) s₀ = exec (.timeReached a.preset streams) u))) ∧
    (∀ a : SyncArm, s.syncHigh = true → s.timebase.role ≠ .off → s.timebase.arm = some a →
      ∃ t, exec (.syncFallingEdge streams) s₀ = .next t ∧ t.syncHigh = false ∧ t.timebase.count = a.preset ∧
        t.timebase.arm = none ∧ t.timebase.role = s.timebase.role ∧
        t.elapsed = s.elapsed ∧ t.syncNext = s.elapsed + 1 ∧
        (∀ T, s.timebase.fire = .waiting T → t.timebase.fire =
          if T ≤ s.timebase.count ∨ T ≤ a.preset then .driving (s.elapsed + 50) else .waiting T) ∧
        (∀ e, s.timebase.fire = .driving e → t.timebase.fire = .driving e) ∧
        (s.timebase.fire = .absent → t.timebase.fire = .absent))) ∧
  (∀ s u : State, u = s.readyAt (s.elapsed + 1) →
    (s.syncHigh = false → s.atSyncSample = s) ∧
    (∀ e, s.syncHigh = true → s.timebase.fire = .driving e →
      s.atSyncSample = passTime (max (e - 49) s.syncNext - s.elapsed) u) ∧
    (s.syncHigh = true → (∀ e, s.timebase.fire ≠ .driving e) →
      s.atSyncSample = passTime (s.syncNext - s.elapsed) u)) ∧
  (∀ (n : LineId) (streams : List StreamId) (s u : State), s.syncHigh = true → (s.lines[n]).active = true →
    (s.lines[n]).owed = .edge → (∀ k : LineId, k ≠ n → (s.lines[k]).owed = .nothing) →
    exec (.trigEdge n (Config.receiverOrder s.choices) (Config.streamOrder s.choices)) s = .next u →
    u.timebase.count = s.timebase.count ∧
      exec (.syncFallingEdge streams) s = exec (.syncFallingEdge streams) u) ∧
  (∀ (k l : List StreamId) (d : Nat) (s t : State), s.syncHigh = true → exec (.syncFallingEdge k) s = .next t →
    t.syncHigh = false ∧ ((passTime d t).syncHigh = false ∨
      ∃ v, exec (.syncFallingEdge l) (passTime d t) = .next v ∧ t.elapsed + 2 ≤ v.elapsed))

/-- A generator's tick (R102, R104, R108): a RUNNING generator on the reference clock lets time pass up to the source
event that completes its interval, counts the tick and, in BURST mode at its burst count, is DONE with both counts 0; in
CONTINUOUS mode it stays RUNNING and both counts return to 0; a bound ARMED or RUNNING stream takes the tick in a state
that it cannot tell from the one at the tick (`SeesAlike`), and every other stream is left alone; the configured streams
bound to the generator take it one after another, each in the state that the one before it leaves (R44, R108), in an
order that is the model's choice (notes/assumptions/5.md). Any other generator completes no interval by this command:
one on a trigger line issues its ticks as it takes edges (notes/assumptions/7.md). Before time passes, what trigger
lines owe is handed over (`readyAt`, R110, notes/assumptions/8.md). That the command lets time pass
(notes/assumptions/2.md) and that source events are owed (notes/assumptions/6.md) is the model's choice. -/
def Obligations.TickIsIssued : Prop :=
  ∀ (g : GeneratorId) (streams : List StreamId) (s₀ s : State), s = s₀.readyAt (s₀.tickMoment g) →
    ((s.generators[g]).state ≠ .running ∨ (s.generators[g]).source ≠ .reference →
      exec (.tick g streams) s₀ = .next s) ∧
    ((s.generators[g]).state = .running → (s.generators[g]).source = .reference →
      ∃ t, exec (.tick g streams) s₀ = .next t ∧
        t.elapsed = s.elapsed + (if (s.generators[g]).owed = 0 then (s.generators[g]).prescale * (s.generators[g]).divide
          - ((s.generators[g]).divideCount * (s.generators[g]).prescale + (s.generators[g]).prescaleCount) else 0) ∧
        (t.generators[g]).ticks = min ((s.generators[g]).ticks + 1) 4294967295 ∧
        ((s.generators[g]).mode = .continuous → (t.generators[g]).state = .running) ∧
        (1 ≤ (s.generators[g]).prescale → 1 ≤ (s.generators[g]).divide → (s.generators[g]).owed ≤ 1 →
          (s.generators[g]).divideCount * (s.generators[g]).prescale + (s.generators[g]).prescaleCount
            < (s.generators[g]).prescale * (s.generators[g]).divide →
          (t.generators[g]).prescaleCount = 0 ∧ (t.generators[g]).divideCount = 0 ∧ (t.generators[g]).owed = 0) ∧
        ((s.generators[g]).mode = .burst → (s.generators[g]).burst ≤ min ((s.generators[g]).ticks + 1) 4294967295 →
          (t.generators[g]).state = .done ∧ (t.generators[g]).prescaleCount = 0 ∧ (t.generators[g]).divideCount = 0) ∧
        ((s.generators[g]).mode = .burst → min ((s.generators[g]).ticks + 1) 4294967295 < (s.generators[g]).burst →
          (t.generators[g]).state = .running) ∧
        (∀ i : StreamId, ((s.streams[i]).state = .unconfigured ∨ (s.streams[i]).state = .idle ∨
            (s.streams[i]).state = .draining ∨ (s.streams[i]).state = .faulted ∨
            (∀ c, (s.streams[i]).config = some c → c.generator ≠ g)) →
          t.streams[i] = s.streams[i] ∧ t.staging[i] = s.staging[i] ∧ t.buffers[i] = s.buffers[i]) ∧
        (∀ (i : StreamId) (c : StreamConfig), (s.streams[i]).config = some c → c.generator = g →
          (s.streams[i]).state = .armed ∨ (s.streams[i]).state = .running →
          ∃ u, u.SeesAlike i (passTime (t.elapsed - s.elapsed) s) ∧ t.streams[i] = (takeTick i u).streams[i] ∧
            t.staging[i] = (takeTick i u).staging[i] ∧ t.buffers[i] = (takeTick i u).buffers[i]) ∧
        (∃ (receivers : List StreamId) (v : State), receivers.Nodup ∧
          (∀ i : StreamId, i ∈ receivers ↔ (s.streams[i]).state ≠ .unconfigured ∧
            ∃ c, (s.streams[i]).config = some c ∧ c.generator = g) ∧
          v = { passTime (t.elapsed - s.elapsed) s with generators := v.generators } ∧
          t = { receivers.foldl (fun u i => takeTick i u) v with generators := t.generators }) ∧
        t.watches = s.watches ∧ t.link = s.link ∧ t.orders = s.orders)

/-- How a stream takes a tick (R108): ARMED begins an unnumbered history pass (R7) unless one walks; RUNNING begins the
attempt with the next pass number (R11), counts an overrun when no slots are free (R13, R65), or counts a slip when a
pass walks, in the stream's counters and in the record of that pass (R12, R66); other states ignore it (R20). An overrun
closes the block in formation SHORT, drains with OVERRUN HALT under policy HALT (R13), and under MARK with COUNT REACHED
when the dropped attempt is the last of COUNT N (R14). The request for step 0 of a pass that begins reaches the
converter of the step's channel (R44, R46, R49): an idle one grants it at once, a busy one keeps it in the stream's
slot, and no other tick touches a converter. The numbers of passes (notes/assumptions/26.md) and the list of streams
that became eligible (notes/assumptions/24.md) are the model's. -/
def Obligations.TickAtAStream : Prop :=
  ∀ (i : StreamId) (s t : State) (c : StreamConfig) (p : PassInProgress) (S : Nat), takeTick i s = t →
    (s.streams[i]).config = some c → (s.stepsOf i).length = S →
    ((s.streams[i]).state ≠ .armed → (s.streams[i]).state ≠ .running → t = s) ∧
    ((s.streams[i]).state = .armed → (s.streams[i]).pass = some p → t = s) ∧
    ((s.streams[i]).state = .armed → (s.streams[i]).pass = none → 1 ≤ S →
      (s.staging[i]).closed = [] → (s.staging[i]).slotsInUse S + S ≤ (s.streams[i]).capacity →
      t.streams[i] = { s.streams[i] with pass := some ⟨s.nextPassId, 0⟩ } ∧ t.nextPassId = s.nextPassId + 1 ∧
      t.staging[i] = ⟨[], (s.staging[i]).forming ++
        [⟨s.nextPassId, none, s.timebase.count, false, List.replicate S none, 0, 0⟩]⟩) ∧
    ((s.streams[i]).state = .running → (s.streams[i]).pass = none →
      (s.staging[i]).slotsInUse S + S ≤ (s.streams[i]).capacity →
      t.streams[i] = { s.streams[i] with
        pass := some ⟨s.nextPassId, 0⟩, nextPass := some ((s.streams[i]).nextPass.getD 0 + 1),
        begun := min ((s.streams[i]).begun + 1) 4294967295, droppedSince := 0 } ∧
      t.nextPassId = s.nextPassId + 1 ∧
      t.staging[i] = ⟨(s.staging[i]).closed, (s.staging[i]).forming ++
        [⟨s.nextPassId, some ((s.streams[i]).nextPass.getD 0), s.timebase.count, false, List.replicate S none, 0,
          (s.streams[i]).droppedSince⟩]⟩) ∧
    ((s.streams[i]).state = .running → (s.streams[i]).pass = none →
      (s.streams[i]).capacity < (s.staging[i]).slotsInUse S + S →
      ∀ (begun : Nat) (u : State), begun = min ((s.streams[i]).begun + 1) 4294967295 →
        u = { s with
          streams := upd s.streams i (fun x => { x with
            nextPass := some (x.nextPass.getD 0 + 1), begun := begun, droppedSince := min (x.droppedSince + 1) 65535,
            totalDropped := min (x.totalDropped + 1) 4294967295,
            slippedSince := if (s.staging[i]).forming = [] then x.slippedSince else 0 })
          staging := upd s.staging i (fun q => if q.forming = [] then q
            else ⟨q.closed ++ [⟨q.forming, (s.streams[i]).slippedSince, true, false, false⟩], []⟩)
          becameEligible := t.becameEligible } →
        (c.overrunPolicy = .mark → c.stop ≠ .count begun → t = u) ∧
        (∀ reason, (c.overrunPolicy = .halt ∧ reason = .overrunHalt) ∨
            (c.overrunPolicy = .mark ∧ c.stop = .count begun ∧ reason = .countReached) →
          t = { enterDraining i reason u with becameEligible := t.becameEligible } ∧
          (t.streams[i]).endReason = some reason ∧ (t.streams[i]).begun = begun ∧
          ((t.streams[i]).state = .draining ∨ (t.streams[i]).state = .idle) ∧
          ((s.staging[i]).forming ≠ [] ∨ (s.staging[i]).closed ≠ [] → (t.streams[i]).state = .draining))) ∧
    ((s.streams[i]).state = .running → (s.streams[i]).pass = some p → c.slipPolicy = .mark →
      t.streams[i] = { s.streams[i] with
        slippedSince := min ((s.streams[i]).slippedSince + 1) 65535,
        totalSlipped := min ((s.streams[i]).totalSlipped + 1) 4294967295 } ∧
      t.staging[i] = { s.staging[i] with forming := (s.staging[i]).forming.map (fun e =>
        if e.pass = p.pass then { e with slips := min (e.slips + 1) 65535 } else e) }) ∧
    ((s.streams[i]).state = .running → (s.streams[i]).pass = some p → ∀ u : State,
      u = { s with
        streams := upd s.streams i (fun x => { x with
          slippedSince := min (x.slippedSince + 1) 65535, totalSlipped := min (x.totalSlipped + 1) 4294967295 })
        staging := upd s.staging i (fun q => { q with forming := q.forming.map (fun e =>
          if e.pass = p.pass then { e with slips := min (e.slips + 1) 65535 } else e) }) } →
      (c.slipPolicy = .mark → t = u) ∧
      (c.slipPolicy = .halt → t = enterDraining i .slipHalt u ∧ t.staging = u.staging ∧
        t.streams[i] = { u.streams[i] with state := .draining, endReason := some .slipHalt } ∧
        (t.streams[i]).pass = some p)) ∧
    (∀ step : ScanStep, (s.stepsOf i)[0]? = some step → (s.streams[i]).pass = none →
      (s.streams[i]).state = .armed ∨
        ((s.streams[i]).state = .running ∧ (s.staging[i]).slotsInUse S + S ≤ (s.streams[i]).capacity) →
      (∀ b : ConverterId, b.val = step.channel.val / 8 →
        ((s.converters[b]).conversion = none → t.converters[b] = { s.converters[b] with
          conversion := some
            { owner := some i, pass := s.nextPassId, step := 0, channel := step.channel, averaging := step.averaging,
              range := (s.channels[step.channel]).range, settle := (s.channels[step.channel]).settle,
              endsAt := s.elapsed + ((if (s.converters[b]).lastChannel = some step.channel then 0
                else 1 + (s.channels[step.channel]).settle.val) + 2 * step.averaging) * 50 }
          lastChannel := some step.channel
          grantPointer := i }) ∧
        ((s.converters[b]).conversion ≠ none → t.converters[b] = { s.converters[b] with
          slots := upd (s.converters[b]).slots i (fun _ => some ⟨i, s.nextPassId, 0, step.channel, step.averaging⟩) })) ∧
      (∀ b : ConverterId, b.val ≠ step.channel.val / 8 → t.converters[b] = s.converters[b])) ∧
    (¬((s.streams[i]).pass = none ∧ ((s.streams[i]).state = .armed ∨
        ((s.streams[i]).state = .running ∧ (s.staging[i]).slotsInUse S + S ≤ (s.streams[i]).capacity))) →
      t.converters = s.converters)

/-- The count reaches a time (R137, R133): elapsed time and the count advance to it, an ARMED stream whose start time is
reached is triggered with source TIME and drains at once when its stop time is reached too (R15,
`TriggerNumbersHistory`), a RUNNING one whose stop time is reached drains, and a waiting fire whose time is reached
begins its pulse; where nothing is met, nothing but time changes. For a time that the count is at or past already no
time passes and the conditions are examined as they stand. Before time passes, what trigger lines owe is handed over
(`readyAt`, R110, notes/assumptions/8.md). That the command lets time pass up to the time is the model's choice
(notes/assumptions/2.md). -/
def Obligations.TimeIsReached : Prop :=
  ∀ (time : Long) (streams : List StreamId) (s₀ s : State), s = s₀.readyAt (s₀.timeMoment time) →
    s.timebase.count ≤ time →
    ∃ t, exec (.timeReached time streams) s₀ = .next t ∧ t.timebase.count = time ∧
      t.elapsed = s.elapsed + (time.toNat - s.timebase.count.toNat) ∧
      (∀ (i : StreamId) (c : StreamConfig) (T : Long), (s.streams[i]).config = some c →
        ((s.streams[i]).state = .armed → c.start = .time T → T ≤ time → (∀ U, c.stop = .time U → time < U) →
          (t.streams[i]).state = .running ∧ (t.streams[i]).trigger = some ⟨time, .time⟩) ∧
        (∀ U, (s.streams[i]).state = .armed → c.start = .time T → T ≤ time → c.stop = .time U → U ≤ time →
          t.streams[i] = (takeTrigger i .time (passTime (time.toNat - s.timebase.count.toNat) s)).streams[i] ∧
          (t.streams[i]).trigger = some ⟨time, .time⟩ ∧ (t.streams[i]).endReason = some .stopTime) ∧
        ((s.streams[i]).state = .running → c.stop = .time T → T ≤ time →
          ((t.streams[i]).state = .draining ∨ (t.streams[i]).state = .idle) ∧
          (t.streams[i]).endReason = some .stopTime) ∧
        ((s.streams[i]).timeMet time = false → t.streams[i] = s.streams[i])) ∧
      (∀ T, s.timebase.fire = .waiting T →
        t.timebase.fire = if T ≤ time then .driving (t.elapsed + 50) else .waiting T) ∧
      ((∀ T, s.timebase.fire ≠ .waiting T) → t.timebase.fire = s.timebase.fire) ∧
      t.timebase = { s.timebase with count := time, fire := t.timebase.fire } ∧
      ((∀ i : StreamId, (s.streams[i]).timeMet time = false) → (∀ T, s.timebase.fire = .waiting T → time < T) →
        t = passTime (time.toNat - s.timebase.count.toNat) s) ∧
      (∀ earlier : Long, earlier ≤ s.timebase.count →
        exec (.timeReached earlier streams) s = exec (.timeReached s.timebase.count streams) s)

/-- The end of a SYNC pulse (R133) and the expiry of the sync arm (R135): each at its moment of elapsed time, the pulse
after its own edge where the line was still high (notes/assumptions/11.md), the arm with a SYNC_EXPIRED record that
carries the count at expiry. Before time passes, what trigger lines owe is handed over (`readyAt`, R110,
notes/assumptions/8.md). That the command lets time pass up to the moment is the model's choice
(notes/assumptions/2.md), as is that nothing changes where there is no such moment (notes/assumptions/3.md). -/
def Obligations.PulseEndsAndArmExpires : Prop :=
  (∀ s₀ s : State, s = s₀.readyAt s₀.pulseMoment →
    (∀ e, s.timebase.fire = .driving e →
      (s.syncHigh = false →
        exec .syncPulseEnd s₀ = .next { passTime (e - s.elapsed) s with
          timebase := { (passTime (e - s.elapsed) s).timebase with fire := .absent } }) ∧
      (∀ u, s.syncHigh = true → exec (.syncFallingEdge (Config.streamOrder s.choices)) s = .next u →
        u.timebase.fire = .driving e ∧ u.syncHigh = false ∧ exec .syncPulseEnd s₀ = exec .syncPulseEnd u)) ∧
    ((∀ e, s.timebase.fire ≠ .driving e) → exec .syncPulseEnd s₀ = .next s)) ∧
  (∀ s₀ s : State, s = s₀.readyAt s₀.armMoment →
    (∀ (a : SyncArm) (e : Nat) (u : State) (record : Record), s.timebase.arm = some a → a.expiry = some e →
      u = { passTime (e - s.elapsed) s with
            timebase := { (passTime (e - s.elapsed) s).timebase with arm := none } } →
      record = .timebaseEvent .syncExpired s.timebase.role a.timeoutMs a.preset u.timebase.count →
      u.elapsed = max s.elapsed e ∧
      (∀ t, s.linkUp = true → place 0 record u = some t → exec .armTimeout s₀ = .next t) ∧
      (s.linkUp = true → place 0 record u = none →
        exec .armTimeout s₀ = .next { u with timebase := { u.timebase with hold := some record } }) ∧
      (s.linkUp = false → exec .armTimeout s₀ = .next u)) ∧
    ((∀ a, s.timebase.arm = some a → a.expiry = none) → exec .armTimeout s₀ = .next s))

/-! ### Converters, returns, offers, requests and answers -/

/-- R38: the code of one conversion. The exact value V × 32768 / FS is `num * 32768 / ((denPred + 1) * FS)`; the code
before limiting is nearest to it, and nearer to zero when two are equally near; codes outside 16 bits are limited and
saturated. R47: the sample of a step with averaging a is the sum of a codes divided by a with the fraction dropped
toward zero, and CLIP is set when any of its conversions was saturated. -/
def Obligations.ConversionGivesNearestCode : Prop :=
  (∀ (v : Voltage) (range : Fin 4) (k fs d : Int),
    fs = (if range = 0 then 10 else if range = 1 then 5 else if range = 2 then 2 else 1) → d = (v.denPred + 1 : Int) * fs →
    exactCode v range = k →
    (∀ j : Int, |v.num * 32768 - k * d| ≤ |v.num * 32768 - j * d|) ∧
    (∀ j : Int, |v.num * 32768 - k * d| = |v.num * 32768 - j * d| → |k| ≤ |j|) ∧
    convert v range = (if 32767 < k then (32767, true) else if k < -32768 then (-32768, true) else (k, false))) ∧
  (∀ (a : Nat) (range : Fin 4) (inputs : Vector Voltage 8) (sum m : Int), a = 1 ∨ a = 2 ∨ a = 4 ∨ a = 8 →
    sum = ((inputs.toList.take a).map (fun v => (convert v range).1)).sum →
    m = (formSample a range inputs).code.toInt →
    |sum - m * a| < a ∧ |m * a| ≤ |sum| ∧ 0 ≤ m * sum ∧
    ((formSample a range inputs).clip = true ↔ ∃ v ∈ inputs.toList.take a, (convert v range).2 = true))

/-- A step completion (R45 to R48): with an owner its return is sent with the step's sample and the count at the end
time, an orphan's sample is discarded, and the converter grants the first filled slot after its grant pointer, or is
idle when every slot is empty. Before time passes, what trigger lines owe is handed over (`readyAt`, R110,
notes/assumptions/8.md). That the command lets time pass up to the end time (notes/assumptions/2.md) and that an end at
an idle converter changes nothing (notes/assumptions/3.md) is the model's choice. -/
def Obligations.StepCompletes : Prop :=
  ∀ (c : ConverterId) (inputs : Vector Voltage 8) (s₀ s : State), s = s₀.readyAt (s₀.stepMoment c) →
    ((s.converters[c]).conversion = none → exec (.stepCompletion c inputs) s₀ = .next s) ∧
    (∀ v : Conversion, (s.converters[c]).conversion = some v →
      ∃ t, exec (.stepCompletion c inputs) s₀ = .next t ∧ t.elapsed = max s.elapsed v.endsAt ∧
        (∀ i : StreamId, v.owner = some i →
          t.returns[i] = s.returns[i] ++ [⟨v.pass, v.step, formSample v.averaging v.range inputs, t.timebase.count⟩] ∧
          ∀ j : StreamId, j ≠ i → t.returns[j] = s.returns[j]) ∧
        (v.owner = none → t.returns = s.returns) ∧
        ((∀ i : StreamId, (s.converters[c]).slots[i] = none) →
          t.converters[c] = { s.converters[c] with conversion := none }) ∧
        (∀ (i : StreamId) (q : Request), (s.converters[c]).slots[i] = some q → q.stream = i →
          (∀ j : StreamId, ((s.converters[c]).grantPointer + 1 ≤ i → (s.converters[c]).grantPointer + 1 ≤ j → j < i →
              (s.converters[c]).slots[j] = none) ∧
            (i < (s.converters[c]).grantPointer + 1 → ((s.converters[c]).grantPointer + 1 ≤ j ∨ j < i) →
              (s.converters[c]).slots[j] = none)) →
          t.converters[c] = { s.converters[c] with
            slots := upd (s.converters[c]).slots i (fun _ => none)
            conversion := some
              { owner := some i, pass := q.pass, step := q.step, channel := q.channel, averaging := q.averaging,
                range := (s.channels[q.channel]).range, settle := (s.channels[q.channel]).settle,
                endsAt := t.elapsed + ((if (s.converters[c]).lastChannel = some q.channel then 0
                  else 1 + (s.channels[q.channel]).settle.val) + 2 * q.averaging) * 50 }
            lastChannel := some q.channel
            grantPointer := i }) ∧
        (∀ b : ConverterId, b ≠ c → t.converters[b] = s.converters[b]) ∧ t.streams = s.streams)

/-- A stream takes a return (R50 to R52): one that names another pass is discarded; the return of a step that is not the
last fills its slot, is offered with the pass's number, and moves the walk on by one step, whose request reaches the
converter of its channel (R44, R46, R49): an idle one grants it at once, a busy one keeps it in the stream's slot; the
last one fills the last slot and completes the pass, and touches no converter. An ARMED stream whose other records are
complete then holds no more of them than its depth (R66). In RUNNING and DRAINING a numbered pass counts in the total of
passes completed (R11) and closes the block at P complete records, which takes the slip counter (R69), and an unnumbered
one is discarded (R68); RUNNING then drains when COUNT is met (R14), and DRAINING places the drain-end mark (R71) and
ends when nothing is left, its open buffer FINAL (R21). Returns on their way, the numbers of passes and the list of
streams that became eligible are the model's fields (notes/assumptions/15.md, 26.md and 24.md). -/
def Obligations.ReturnIsTaken : Prop :=
  ∀ (i : StreamId) (r : Return) (rest : List Return) (s : State), s.returns[i] = r :: rest →
    ((∀ p, (s.streams[i]).pass = some p → r.pass ≠ p.pass ∨ r.step ≠ p.step) →
      exec (.returnTaken i) s = .next { s with returns := upd s.returns i (fun _ => rest) }) ∧
    (∀ (c : StreamConfig) (p : PassInProgress) (step : ScanStep), (s.streams[i]).config = some c →
      (s.streams[i]).pass = some p → r.pass = p.pass → r.step = p.step → (s.stepsOf i)[p.step]? = some step →
      ∃ t, exec (.returnTaken i) s = .next t ∧ t.returns = upd s.returns i (fun _ => rest) ∧
        ((s.streams[i]).state.active = true → t.offers = s.offers ++
          [⟨i, step.channel, r.sample, r.time, ((s.staging[i]).findRecord p.pass).bind (·.number)⟩]) ∧
        ((s.streams[i]).state.active = false → t.offers = s.offers) ∧
        (p.step + 1 < (s.stepsOf i).length →
          t.streams[i] = { s.streams[i] with pass := some ⟨p.pass, p.step + 1⟩ } ∧
          t.staging[i] = { s.staging[i] with forming := (s.staging[i]).forming.map (fun e =>
            if e.pass = p.pass then { e with slots := e.slots.set p.step (some r.sample) } else e) }) ∧
        (∀ step : ScanStep, (s.stepsOf i)[p.step + 1]? = some step →
          (∀ b : ConverterId, b.val = step.channel.val / 8 →
            ((s.converters[b]).conversion = none → t.converters[b] = { s.converters[b] with
              conversion := some
                { owner := some i, pass := p.pass, step := p.step + 1, channel := step.channel,
                  averaging := step.averaging,
                  range := (s.channels[step.channel]).range, settle := (s.channels[step.channel]).settle,
                  endsAt := s.elapsed + ((if (s.converters[b]).lastChannel = some step.channel then 0
                    else 1 + (s.channels[step.channel]).settle.val) + 2 * step.averaging) * 50 }
              lastChannel := some step.channel
              grantPointer := i }) ∧
            ((s.converters[b]).conversion ≠ none → t.converters[b] = { s.converters[b] with
              slots := upd (s.converters[b]).slots i (fun _ =>
                some ⟨i, p.pass, p.step + 1, step.channel, step.averaging⟩) })) ∧
          (∀ b : ConverterId, b.val ≠ step.channel.val / 8 → t.converters[b] = s.converters[b])) ∧
        ((s.stepsOf i).length ≤ p.step + 1 → t.converters = s.converters) ∧
        ((s.stepsOf i).length ≤ p.step + 1 → (t.streams[i]).pass = none ∧
          ((s.streams[i]).state = .armed → t.streams[i] = { s.streams[i] with pass := none } ∧
            ((∀ e ∈ (s.staging[i]).forming, e.pass = p.pass ∨ e.complete = true) →
              (t.staging[i]).forming.length = min (s.staging[i]).forming.length c.depth) ∧
            (∀ filled : List PassRecord,
              filled = (s.staging[i]).forming.map (fun e =>
                if e.pass = p.pass then { e with slots := e.slots.set p.step (some r.sample), complete := true } else e) →
              t.staging[i] =
                ⟨(s.staging[i]).closed, filled.drop ((filled.filter (·.complete)).length - c.depth)⟩ ∧
              ((∀ e ∈ (s.staging[i]).forming, e.pass = p.pass ∨ e.complete = true) →
                t.staging[i] = ⟨(s.staging[i]).closed, filled.drop (filled.length - c.depth)⟩)))) ∧
        ((s.stepsOf i).length ≤ p.step + 1 → 1 ≤ c.passesPerBlock →
          ∀ (number : Option Word) (filled : List PassRecord) (closes : Bool) (x : StreamContext) (q : Staging) (u : State),
            number = ((s.staging[i]).findRecord p.pass).bind (·.number) →
            filled = (s.staging[i]).forming.map (fun e =>
              if e.pass = p.pass then { e with slots := e.slots.set p.step (some r.sample), complete := true } else e) →
            closes = (number.isSome && decide (c.passesPerBlock ≤ (filled.filter (·.complete)).length)) →
            x = { s.streams[i] with
                  pass := none,
                  totalCompleted := if number.isSome = true then min ((s.streams[i]).totalCompleted + 1) 4294967295
                    else (s.streams[i]).totalCompleted,
                  slippedSince := if closes = true then 0 else (s.streams[i]).slippedSince } →
            q = (if number.isSome = false then ⟨(s.staging[i]).closed, filled.filter (fun e => e.pass != p.pass)⟩
              else if closes = true then
                ⟨(s.staging[i]).closed ++ [⟨filled, (s.streams[i]).slippedSince, false, false, false⟩], []⟩
              else ⟨(s.staging[i]).closed, filled⟩) →
            u = { s with
                  returns := t.returns, offers := t.offers, becameEligible := t.becameEligible
                  streams := upd s.streams i (fun _ => x), staging := upd s.staging i (fun _ => q) } →
            ((s.streams[i]).state = .running →
              ((number = none ∨ c.stop ≠ .count (s.streams[i]).begun) → t = u) ∧
              (number ≠ none → c.stop = .count (s.streams[i]).begun →
                t = { enterDraining i .countReached u with becameEligible := t.becameEligible })) ∧
            ((s.streams[i]).state = .draining →
              (∀ e l, q.forming = e :: l → t = { u with
                streams := upd u.streams i (fun y => { y with slippedSince := 0 })
                staging := upd u.staging i (fun _ => ⟨q.closed ++ [⟨e :: l, x.slippedSince, true, true, false⟩], []⟩) }) ∧
              (∀ l b, q.forming = [] → q.closed = l ++ [b] → t = { u with
                staging := upd u.staging i (fun _ =>
                  ⟨l ++ [if b.writing = true then b else { b with final := true }], []⟩) }) ∧
              (∀ reason, q = Staging.empty → s.writing i = false → (s.streams[i]).endReason = some reason →
                reason ≠ .aborted →
                t = { endStream i reason (completeCurrent i { final := true } u) with
                      becameEligible := t.becameEligible }))) ∧
        (∀ j : StreamId, j ≠ i → t.streams[j] = s.streams[j] ∧ t.staging[j] = s.staging[j]) ∧
        t.watches = s.watches ∧ t.timebase = s.timebase)

/-- An offer is judged by every watch that matches it and by no other (R120 to R122, R123): in INSIDE a run out of band
counts and enters ABOVE or BELOW at the persistence, and a sample in band ends it; ABOVE and BELOW return to INSIDE at
the hysteresis thresholds, taken as integers; a watch that waits for an answer keeps the offer, up to 16. The watches
that match take the offer one after another (`offerTo`), in an order that is the model's choice
(notes/assumptions/5.md), and the alert level is recomputed when one changes its state (R125). What the change of one
watch does besides: an entry with action START or HALT leaves the request in an answer wait, with the record held when
note is yes (R123); an entry with action NONE and a return hand their WATCH_EVENT record to placement on the watch's
ring at once when note is yes, with outcome NONE and the lost count, which is 0 after a placement and one more, up to
65535, after a loss (R124). Offers on their way are the model's field (notes/assumptions/15.md). -/
def Obligations.OfferIsJudged : Prop :=
  (∀ (which : Nat) (order : List WatchId) (o : Offer) (s : State), s.offers[which]? = some o →
    ∃ t, exec (.watchOffer which order) s = .next t ∧ t.offers = s.offers.eraseIdx which ∧
      ∀ (m : WatchId) (x : Int), o.sample.code.toInt = x →
        (¬((s.watches[m]).enabled = true ∧ (s.watches[m]).channel = o.channel ∧
            ((s.watches[m]).filter = none ∨ (s.watches[m]).filter = some o.stream)) → t.watches[m] = s.watches[m]) ∧
        ((s.watches[m]).enabled = true → (s.watches[m]).channel = o.channel →
          ((s.watches[m]).filter = none ∨ (s.watches[m]).filter = some o.stream) →
          ((s.watches[m]).wait ≠ none →
            t.watches[m] = { s.watches[m] with waiting :=
              if (s.watches[m]).waiting.length < 16 then (s.watches[m]).waiting ++ [o] else (s.watches[m]).waiting }) ∧
          ((s.watches[m]).wait = none →
            ((s.watches[m]).state = .inside → (s.watches[m]).low.toInt ≤ x → x ≤ (s.watches[m]).high.toInt →
              t.watches[m] = { s.watches[m] with runCount := 0, runSide := .none }) ∧
            (∀ run, (s.watches[m]).state = .inside → (s.watches[m]).high.toInt < x →
              run = (if (s.watches[m]).runSide = .high then (s.watches[m]).runCount + 1 else 1) →
              (run ≠ (s.watches[m]).persistence →
                t.watches[m] = { s.watches[m] with runCount := run, runSide := .high }) ∧
              (run = (s.watches[m]).persistence → (t.watches[m]).state = .above ∧ (t.watches[m]).runCount = 0 ∧
                (t.watches[m]).runSide = .none)) ∧
            (∀ run, (s.watches[m]).state = .inside → x ≤ (s.watches[m]).high.toInt → x < (s.watches[m]).low.toInt →
              run = (if (s.watches[m]).runSide = .low then (s.watches[m]).runCount + 1 else 1) →
              (run ≠ (s.watches[m]).persistence →
                t.watches[m] = { s.watches[m] with runCount := run, runSide := .low }) ∧
              (run = (s.watches[m]).persistence → (t.watches[m]).state = .below ∧ (t.watches[m]).runCount = 0 ∧
                (t.watches[m]).runSide = .none)) ∧
            ((s.watches[m]).state = .above →
              (x ≤ (s.watches[m]).high.toInt - ((s.watches[m]).hysteresis : Int) →
                (t.watches[m]).state = .inside ∧ (t.watches[m]).wait = none) ∧
              ((s.watches[m]).high.toInt - ((s.watches[m]).hysteresis : Int) < x → t.watches[m] = s.watches[m])) ∧
            ((s.watches[m]).state = .below →
              ((s.watches[m]).low.toInt + ((s.watches[m]).hysteresis : Int) ≤ x →
                (t.watches[m]).state = .inside ∧ (t.watches[m]).wait = none) ∧
              (x < (s.watches[m]).low.toInt + ((s.watches[m]).hysteresis : Int) → t.watches[m] = s.watches[m]))))) ∧
  (∀ (which : Nat) (order : List WatchId) (o : Offer) (s t : State), s.offers[which]? = some o →
    exec (.watchOffer which order) s = .next t →
    (∃ receivers : List WatchId, receivers.Nodup ∧
      (∀ m : WatchId, m ∈ receivers ↔ (s.watches[m]).enabled = true ∧ (s.watches[m]).channel = o.channel ∧
        ((s.watches[m]).filter = none ∨ (s.watches[m]).filter = some o.stream)) ∧
      t = receivers.foldl (fun u m => offerTo m o u) { s with offers := s.offers.eraseIdx which }) ∧
    ((∀ m : WatchId, (t.watches[m]).state = (s.watches[m]).state) → t.alertLevel = s.alertLevel) ∧
    ((∃ m : WatchId, (t.watches[m]).state ≠ (s.watches[m]).state) →
      (∀ m : WatchId, (t.watches[m]).enabled = true → (t.watches[m]).state ≠ .inside →
        (t.watches[m]).alert ≤ t.alertLevel) ∧
      (t.alertLevel ≠ 0 → ∃ m : WatchId, (t.watches[m]).enabled = true ∧ (t.watches[m]).state ≠ .inside ∧
        (t.watches[m]).alert = t.alertLevel))) ∧
  (∀ (m : WatchId) (o : Offer) (s : State) (w : Watch) (x : Int), s.watches[m] = w → o.sample.code.toInt = x →
    (¬(w.enabled = true ∧ w.channel = o.channel ∧ (w.filter = none ∨ w.filter = some o.stream)) → offerTo m o s = s) ∧
    (w.enabled = true → w.channel = o.channel → (w.filter = none ∨ w.filter = some o.stream) →
      (w.wait ≠ none → offerTo m o s = { s with watches := upd s.watches m (fun w => { w with
        waiting := if w.waiting.length < 16 then w.waiting ++ [o] else w.waiting }) }) ∧
      (∀ (run : RunSide → Nat) (enters : WatchState → Prop), w.wait = none →
        (∀ side, run side = if w.runSide = side then w.runCount + 1 else 1) →
        (enters .above ↔ w.state = .inside ∧ w.high.toInt < x ∧ run .high = w.persistence) →
        (enters .below ↔ w.state = .inside ∧ x ≤ w.high.toInt ∧ x < w.low.toInt ∧ run .low = w.persistence) →
        (enters .inside ↔ (w.state = .above ∧ x ≤ w.high.toInt - (w.hysteresis : Int)) ∨
          (w.state = .below ∧ w.low.toInt + (w.hysteresis : Int) ≤ x)) →
        (∀ side : RunSide, (∀ state, ¬enters state) →
          side = (if w.high.toInt < x then .high else if x < w.low.toInt then .low else .none) →
          (w.state = .inside → offerTo m o s = { s with watches := upd s.watches m (fun w => { w with
            runCount := if side = .none then 0 else run side, runSide := side }) }) ∧
          (w.state ≠ .inside → offerTo m o s = s)) ∧
        (∀ (state : WatchState) (v : State), enters state →
          v = recomputeAlert { s with
            watches := upd s.watches m (fun w => { w with state := state, runCount := 0, runSide := .none }) } →
          (state ≠ .inside → w.action ≠ .none →
            offerTo m o s = { v with watches := upd v.watches m (fun y => { y with
              wait := some ⟨w.action, none, if w.note = true then some ⟨m, state, o, w.action⟩ else none, false⟩ }) }) ∧
          (state = .inside ∨ w.action = .none →
            (w.note = false → offerTo m o s = v) ∧
            (∀ t, w.note = true → place w.ring (.watchEvent ⟨m, state, o, .none⟩ .none w.lost) v = some t →
              offerTo m o s = { t with watches := upd t.watches m (fun y => { y with lost := 0 }) }) ∧
            (w.note = true → place w.ring (.watchEvent ⟨m, state, o, .none⟩ .none w.lost) v = none →
              offerTo m o s = { v with watches := upd v.watches m (fun y => { y with
                lost := min (w.lost + 1) 65535 }) }))))))

/-- The Stream Controller takes a watch's request in the state of its target and answers it: R18 for START, R19 for
HALT; the watch keeps everything but the answer. A watch takes its answer (R123, R124): a held record is completed with
the outcome and handed to placement on the watch's ring (notes/assumptions/17.md), with the lost count 0 after a
placement and one more after a loss, but for a replaced setting; the answer wait ends; then the offers waiting are
judged in order by the setting as it stands then (`offerTo`, in `OfferIsJudged`), or dropped when the watch is disabled
(R123). That an offer waiting which that setting does not match is not judged is an inference (notes/assumptions/18.md).
That a request of the other kind changes nothing is the model's choice (notes/assumptions/3.md). -/
def Obligations.WatchRequestAndAnswer : Prop :=
  (∀ (m : WatchId) (i : StreamId) (w : AnswerWait) (s : State), (s.watches[m]).wait = some w → w.answer = none →
    (∀ (a : ActionOutcome) (u : State), w.request = .start i →
      ((s.streams[i]).state = .armed → a = .taken ∧ u = takeTrigger i (.watch m) s) →
      ((s.streams[i]).state ≠ .armed → a = .ignored ∧ u = s) →
      exec (.watchStartRequest m) s = .next { u with
        watches := upd s.watches m (fun x => { x with wait := some { w with answer := some a } }) } ∧
      exec (.watchHaltRequest m) s = .next s) ∧
    (∀ (a : ActionOutcome) (u : State), w.request = .halt i →
      ((s.streams[i]).state = .running → a = .taken ∧ u = enterDraining i .watchHalt s) →
      ((s.streams[i]).state = .armed → a = .taken ∧ u = endArmed i .watchHalt s) →
      ((s.streams[i]).state ≠ .running → (s.streams[i]).state ≠ .armed → a = .ignored ∧ u = s) →
      exec (.watchHaltRequest m) s = .next { u with
        watches := upd s.watches m (fun x => { x with wait := some { w with answer := some a } }) } ∧
      exec (.watchStartRequest m) s = .next s)) ∧
  (∀ (m : WatchId) (w : AnswerWait) (a : ActionOutcome) (s u : State),
    (s.watches[m]).wait = some w → w.answer = some a →
    (w.held = none → u = { s with watches := upd s.watches m (fun x => { x with wait := none, waiting := [] }) }) →
    (∀ e : WatchEvent, w.held = some e →
      (∀ t, place (s.watches[m]).ring (.watchEvent e a (s.watches[m]).lost) s = some t →
        u = { t with watches := upd s.watches m (fun x => { x with lost := 0, wait := none, waiting := [] }) }) ∧
      (place (s.watches[m]).ring (.watchEvent e a (s.watches[m]).lost) s = none →
        u = { s with watches := upd s.watches m (fun x => { x with
          lost := if w.replaced then x.lost else min (x.lost + 1) 65535, wait := none, waiting := [] }) })) →
    exec (.watchAnswer m) s = .next ((s.watches[m]).waiting.foldl (fun v o => offerTo m o v) u) ∧
    ((s.watches[m]).waiting = [] ∨ (s.watches[m]).enabled = false → exec (.watchAnswer m) s = .next u))

/-! ### Delivery -/

/-- A grant (R85 to R88): the head block is WRITING, its bytes are issued at the target's address + fill with the next
block sequence, then the flush read of its last word. The free arbiter grants the first taken of the streams that became
eligible; when a write ends it chooses the first eligible stream after its grant pointer, as it does where no eligible
stream was noted; nothing is granted while a write is in flight or no stream is eligible. A stream that a transition
made eligible is noted behind the others. That the grant is a command of its own (notes/assumptions/14.md) and that the
order is kept as a list (notes/assumptions/24.md) is the model's choice. -/
def Obligations.GrantIssuesBlock : Prop :=
  (∀ s : State,
    (s.writeInFlight ≠ none ∨ (∀ i : StreamId, s.eligible i = false) →
      exec .deliveryGrant s = .next s ∧ chooseGrant s = s) ∧
    (∀ (i : StreamId) (b : Block) (blocks : List Block) (d : Descriptor) (rest : List Descriptor) (S size : Nat) (t : State),
      s.writeInFlight = none → s.linkUp = true → (s.staging[i]).closed = b :: blocks → b.writing = false →
      s.buffers[i] = d :: rest → s.outboxes[i] = [] →
      S = (s.stepsOf i).length → size = 32 + 4 * b.records.length * S →
      t = { s with
        staging := upd s.staging i (fun q => { q with closed := { b with writing := true } :: blocks })
        bus := s.bus ++ [.write (d.address + BitVec.ofNat 64 d.fill) (b.bytes i S (s.streams[i]).nextSequence),
          .read (d.address + BitVec.ofNat 64 d.fill + BitVec.ofNat 64 (size - 4)) 0]
        writeInFlight := some ⟨i, d.address, d.tag, size, (s.streams[i]).nextSequence, s.elapsed⟩
        grantPointer := i
        becameEligible := [] } →
      (∀ earlier later, s.becameEligible = earlier ++ i :: later → (∀ j ∈ earlier, s.eligible j = false) →
        exec .deliveryGrant s = .next t) ∧
      ((∀ j : StreamId, (s.grantPointer + 1 ≤ i → s.grantPointer + 1 ≤ j → j < i → s.eligible j = false) ∧
          (i < s.grantPointer + 1 → (s.grantPointer + 1 ≤ j ∨ j < i) → s.eligible j = false)) →
        chooseGrant s = t ∧ ((∀ j ∈ s.becameEligible, s.eligible j = false) → exec .deliveryGrant s = .next t)))) ∧
  (∀ (i : StreamId) (s t : State),
    (s.eligible i = true ↔ s.linkUp = true ∧ (∃ b l, (s.staging[i]).closed = b :: l ∧ b.writing = false) ∧
      s.buffers[i] ≠ [] ∧ s.outboxes[i] = []) ∧
    (s.eligible i = false → t.eligible i = true →
      noteEligible i s t = { t with becameEligible := t.becameEligible.erase i ++ [i] }) ∧
    (s.eligible i = true ∨ t.eligible i = false → noteEligible i s t = t))

/-- A block write ends with success while the link is UP (R90, R92): the head block is freed, the sequence and the total
rise by one, the target's fill record takes the block; a target with less room than a block needs leaves the queue FULL,
one with its flush due FLUSHED, with its BUFFER_DONE record (R93), and one that stays open after its first block starts
its flush timer; in fast drain an open target leaves ABORTED and the stream ends (R23), in DRAINING the drain may
complete, with an open target FINAL (R21), and the arbiter chooses (R86). It fails (R91, R24): the stream is FAULTED
with reason WRITE ERROR, its staging is gone, its pass is withdrawn from every converter with its slot emptied and its
conversion orphaned (R54, R55), the target leaves the queue, the sequence and total stay, and the arbiter chooses. An
end outside UP is discarded (R98, R76), and a successful reply more than 50 ms after the flush read was issued changes
nothing (R174). That the write is not in flight while its end is handled is an inference (notes/assumptions/25.md); that
both ends change nothing where no block write is in flight is the model's choice (notes/assumptions/3.md). -/
def Obligations.BlockWriteEnds : Prop :=
  (∀ (w : BlockWrite) (s : State), s.writeInFlight = some w →
    (w.issued + 2500000 < s.elapsed → exec .blockWriteSuccess s = .next s) ∧
    (s.elapsed ≤ w.issued + 2500000 → s.linkUp = false → exec .blockWriteSuccess s = .next { s with
      writeInFlight := none, staging := upd s.staging w.stream (fun q => { q with closed := q.closed.tail }) }) ∧
    (∀ (i : StreamId) (d e : Descriptor) (rest : List Descriptor) (c : StreamConfig) (v u : State),
      s.elapsed ≤ w.issued + 2500000 → s.linkUp = true → w.stream = i → s.buffers[i] = d :: rest →
      (s.streams[i]).config = some c →
      e = { d with
        fill := d.fill + w.size, blocks := d.blocks + 1, lastSequence := w.sequence,
        firstSequence := if d.blocks = 0 then w.sequence else d.firstSequence } →
      v = { s with
        writeInFlight := none
        staging := upd s.staging i (fun q => { q with closed := q.closed.tail })
        streams := upd s.streams i (fun x => { x with nextSequence := x.nextSequence + 1, totalBlocks := x.totalBlocks + 1 })
        buffers := upd s.buffers i (fun _ => rest) } →
      (d.length - e.fill < s.maxBlockBytes i →
        u = joinOutbox i (.bufferDone i { full := true, flushed := d.flushDue } d.tag e.fill e.blocks e.firstSequence
          e.lastSequence) v) →
      (s.maxBlockBytes i ≤ d.length - e.fill → d.flushDue = true →
        u = joinOutbox i (.bufferDone i { flushed := true } d.tag e.fill e.blocks e.firstSequence e.lastSequence) v) →
      (s.maxBlockBytes i ≤ d.length - e.fill → d.flushDue = false →
        u = { v with buffers := upd s.buffers i (fun _ => { e with
          timer := if d.blocks = 0 ∧ c.flushMs ≠ 0 then some (s.elapsed + c.flushMs * 50000) else d.timer } :: rest) }) →
      ((s.streams[i]).state ≠ .draining → exec .blockWriteSuccess s = .next (chooseGrant u)) ∧
      ((s.streams[i]).state = .draining → (s.streams[i]).endReason = some .aborted →
        exec .blockWriteSuccess s
          = .next (chooseGrant (endStream i .aborted (completeCurrent i { aborted := true } u)))) ∧
      (∀ reason, (s.streams[i]).state = .draining → (s.streams[i]).endReason = some reason → reason ≠ .aborted →
        ((s.streams[i]).pass ≠ none ∨ (s.staging[i]).closed.tail ≠ [] ∨ (s.staging[i]).forming ≠ [] →
          exec .blockWriteSuccess s = .next (chooseGrant u)) ∧
        ((s.streams[i]).pass = none → (s.staging[i]).closed.tail = [] → (s.staging[i]).forming = [] →
          exec .blockWriteSuccess s
            = .next (chooseGrant (endStream i reason (completeCurrent i { final := true } u))))))) ∧
  (∀ (w : BlockWrite) (s : State), s.writeInFlight = some w →
    (s.linkUp = false → exec .blockWriteFailure s = .next { s with
      writeInFlight := none, staging := upd s.staging w.stream (fun q => { q with closed := q.closed.tail }) }) ∧
    (s.linkUp = true → exec .blockWriteFailure s = .next (chooseGrant (failStream w.stream { s with writeInFlight := none })) ∧
      ∃ t, exec .blockWriteFailure s = .next t ∧
      t.streams[w.stream] = { s.streams[w.stream] with state := .faulted, endReason := some .writeError, pass := none } ∧
      t.staging[w.stream] = Staging.empty ∧ t.buffers[w.stream] = (s.buffers[w.stream]).tail ∧
      (∀ b : ConverterId,
        t.converters[b] = { s.converters[b] with
          slots := upd (s.converters[b]).slots w.stream (fun _ => none)
          conversion := (s.converters[b]).conversion.map (fun v =>
            if v.owner = some w.stream then { v with owner := none } else v) }) ∧
      (∀ j : StreamId, j ≠ w.stream → t.streams[j] = s.streams[j] ∧ t.buffers[j] = s.buffers[j]) ∧
      t.link = s.link)) ∧
  (∀ s : State, s.writeInFlight = none →
    exec .blockWriteSuccess s = .next s ∧ exec .blockWriteFailure s = .next s)

/-- The records of a stream (R2, R93, R160). A record joins the outbox bound for the ring the stream is bound to; one
that joins an empty outbox is offered to its ring at once and stays only when it is not placed; outside UP none is kept.
Which record joins when: TRIGGERED with k at a trigger (R9), followed by DRAINING at once when the stop time is reached
(R15), DRAINING at a drain, ENDED at an end with the passes begun and the next block sequence, FAULTED at a failed
write; the BUFFER_DONE record of a buffer that the same change completes joins first, with its flags, tag, fill, block
count and sequences. The list of streams that became eligible is the model's (notes/assumptions/24.md). -/
def Obligations.RecordsJoinOutbox : Prop :=
  ∀ (i : StreamId) (s : State),
    (∀ (record : Record) (c : StreamConfig), (s.streams[i]).config = some c → s.linkUp = true →
      (∀ t, s.outboxes[i] = [] → place c.ring record s = some t → joinOutbox i record s = t) ∧
      (s.outboxes[i] = [] → place c.ring record s = none →
        joinOutbox i record s = { s with outboxes := upd s.outboxes i (fun _ => [⟨c.ring, record⟩]) }) ∧
      (s.outboxes[i] ≠ [] →
        joinOutbox i record s = { s with outboxes := upd s.outboxes i (fun o => o ++ [⟨c.ring, record⟩]) })) ∧
    (∀ record : Record, s.linkUp = false → joinOutbox i record s = s) ∧
    (∀ (send : StreamEvent → State → State) (done : BufferFlags → State → State) (t : State),
      (∀ e u, send e u = joinOutbox i (.streamState i e s.timebase.count) u) →
      (∀ f u, (∀ d rest, s.buffers[i] = d :: rest → 0 < d.blocks →
          done f u = joinOutbox i (.bufferDone i f d.tag d.fill d.blocks d.firstSequence d.lastSequence) u) ∧
        ((∀ d rest, s.buffers[i] = d :: rest → d.blocks = 0) → done f u = u)) →
      (∀ source c k, (s.streams[i]).config = some c → (∀ T, c.stop = .time T → s.timebase.count < T) →
        takeTrigger i source s = t →
        k = (if (s.streams[i]).pass = none then (s.staging[i]).forming.length
          else if c.depth = 0 then 0
          else (s.staging[i]).forming.length - (((s.staging[i]).forming.filter (·.complete)).length - (c.depth - 1))) →
        t = { send (.triggered source k) s with
              streams := t.streams, staging := t.staging, becameEligible := t.becameEligible }) ∧
      (∀ source c T k, (s.streams[i]).config = some c → c.stop = .time T → T ≤ s.timebase.count →
        takeTrigger i source s = t →
        k = (if (s.streams[i]).pass = none then (s.staging[i]).forming.length
          else if c.depth = 0 then 0
          else (s.staging[i]).forming.length - (((s.staging[i]).forming.filter (·.complete)).length - (c.depth - 1))) →
        ((s.streams[i]).pass ≠ none ∨ s.staging[i] ≠ Staging.empty →
          t = { send (.draining .stopTime 0) (send (.triggered source k) s) with
                streams := t.streams, staging := t.staging, becameEligible := t.becameEligible }) ∧
        ((s.streams[i]).pass = none → s.staging[i] = Staging.empty → s.writing i = false →
          t = { send (.ended .stopTime 0 (s.streams[i]).nextSequence)
                  (done { final := true } (send (.draining .stopTime 0) (send (.triggered source k) s))) with
                streams := t.streams, staging := t.staging, buffers := t.buffers, becameEligible := t.becameEligible })) ∧
      (∀ reason, enterDraining i reason s = t →
        ((s.streams[i]).pass ≠ none ∨ s.staging[i] ≠ Staging.empty →
          t = { send (.draining reason (s.streams[i]).begun) s with
                streams := t.streams, staging := t.staging, becameEligible := t.becameEligible }) ∧
        ((s.streams[i]).pass = none → s.staging[i] = Staging.empty → s.writing i = false → reason ≠ .aborted →
          t = { send (.ended reason (s.streams[i]).begun (s.streams[i]).nextSequence)
                  (done { final := true } (send (.draining reason (s.streams[i]).begun) s)) with
                streams := t.streams, staging := t.staging, buffers := t.buffers, becameEligible := t.becameEligible })) ∧
      (∀ reason, endArmed i reason s = t →
        t = { send (.ended reason (s.streams[i]).begun (s.streams[i]).nextSequence) s with
              streams := t.streams, staging := t.staging, converters := t.converters }) ∧
      (∀ reason, endStream i reason s = t →
        t = { send (.ended reason (s.streams[i]).begun (s.streams[i]).nextSequence) s with streams := t.streams }) ∧
      (∀ flags, completeCurrent i flags s = t → t = { done flags s with buffers := t.buffers }) ∧
      (abortNow i s = t →
        t = { send (.ended .aborted (s.streams[i]).begun (s.streams[i]).nextSequence) (done { aborted := true } s) with
              streams := t.streams, staging := t.staging, converters := t.converters, buffers := t.buffers }) ∧
      (abortFast i s = t →
        t = { (if (s.streams[i]).state = .running then send (.draining .aborted (s.streams[i]).begun) s else s) with
              streams := t.streams, staging := t.staging, converters := t.converters, buffers := t.buffers }) ∧
      (∀ d rest, s.buffers[i] = d :: rest → failStream i s = t →
        t = { send (.faulted .writeError (s.streams[i]).begun (s.streams[i]).nextSequence)
                (joinOutbox i (.bufferDone i { fault := true } d.tag d.fill d.blocks
                  (if d.blocks = 0 then 0 else d.firstSequence) (if d.blocks = 0 then 0 else d.lastSequence)) s) with
              streams := t.streams, staging := t.staging, converters := t.converters, buffers := t.buffers }))

/-- A flush timer (R96) and a holdoff timer (R164) expire: the buffer leaves the queue with a BUFFER_DONE record that
has the FLUSHED flag (R93), or is marked flush-due while a write of the stream is in flight; the ring's message is sent
when it is armed (R162), issued only while the link is UP and message interrupts are enabled (R175), else the timer
stays EXPIRED. Before time passes, what trigger lines owe is handed over (`readyAt`, R110, notes/assumptions/8.md). That
the command lets time pass up to the moment (notes/assumptions/2.md), and that nothing changes where the timer does not
run (notes/assumptions/3.md), is the model's choice. -/
def Obligations.TimersExpire : Prop :=
  (∀ (i : StreamId) (s₀ s : State) (d : Descriptor) (rest : List Descriptor) (e : Nat),
    s = s₀.readyAt (s₀.flushMoment i) → s.buffers[i] = d :: rest → d.timer = some e →
    ∃ t, exec (.flushTimerExpiry i) s₀ = .next t ∧ t.elapsed = max s.elapsed e ∧ t.streams = s.streams ∧
      t.staging = s.staging ∧
      (s.writing i = true → t.buffers[i] = { d with timer := none, flushDue := true } :: rest ∧ t.bus = s.bus ∧
        t.outboxes = s.outboxes) ∧
      (s.writing i = false → t.buffers[i] = rest ∧
        t = joinOutbox i (.bufferDone i { flushed := true } d.tag d.fill d.blocks
          (if d.blocks = 0 then 0 else d.firstSequence) (if d.blocks = 0 then 0 else d.lastSequence))
          { passTime (e - s.elapsed) s with buffers := upd s.buffers i (fun _ => rest) })) ∧
  (∀ (i : StreamId) (s₀ s : State), s = s₀.readyAt (s₀.flushMoment i) → (∀ d rest, s.buffers[i] = d :: rest → d.timer = none) →
    exec (.flushTimerExpiry i) s₀ = .next s) ∧
  (∀ (n : RingId) (s₀ s : State) (r : Ring) (e : Nat), s = s₀.readyAt (s₀.holdoffMoment n) → s.rings[n] = some r → r.timer = .running e →
    ∃ t, exec (.holdoffExpiry n) s₀ = .next t ∧ t.elapsed = max s.elapsed e ∧ t.streams = s.streams ∧
      (r.armed = true → 1 ≤ r.count →
        t.rings[n] = some { r with count := 0, armed := false, timer := .stopped } ∧
        t.bus = s.bus ++ (if s.linkUp = true ∧ Config.messageEnabled t.elapsed = true
          then [.message n (Config.messageAddress t.elapsed n) (Config.messageData t.elapsed n)] else [])) ∧
      (r.armed = false ∨ r.count = 0 → t.rings[n] = some { r with timer := .expired } ∧ t.bus = s.bus)) ∧
  (∀ (n : RingId) (s₀ s : State), s = s₀.readyAt (s₀.holdoffMoment n) → (∀ r, s.rings[n] = some r → r.timer = .stopped ∨ r.timer = .expired) →
    exec (.holdoffExpiry n) s₀ = .next s)

/-! ### Byte layouts -/

/-- The 32 bytes of a completion record (Table 12-6, R161, R179): byte 0 the kind, byte 1 the phase, the fields of its
kind at their offsets, and 0 in every other byte and in every field that does not apply; with the codes of Table 12-8
that they carry. -/
def Obligations.RecordLayout : Prop :=
  (∀ (phase : Bool) (one : Bool → Nat), (∀ b : Bool, one b = if b = true then 1 else 0) →
    (∀ (index : Nat) (kind : Half) (status : Status) (tag detail : Word),
      HasLayout 32 [(0, 1, 1), (1, 1, one phase), (2, 2, index), (4, 2, kind.toNat), (6, 1, status.code), (8, 4, tag.toNat),
        (12, 4, detail.toNat)] ((Record.orderDone index kind status tag detail).bytes phase)) ∧
    (∀ (i : StreamId) (f : BufferFlags) (tag : Word) (bytes blocks : Nat) (first last : Word),
      HasLayout 32 [(0, 1, 2), (1, 1, one phase), (2, 1, i.val),
        (3, 1, one f.full + 2 * one f.final + 4 * one f.flushed + 8 * one f.aborted + 16 * one f.fault + 32 * one f.returned),
        (4, 4, tag.toNat), (8, 4, bytes), (12, 4, blocks), (16, 4, first.toNat), (20, 4, last.toNat)]
        ((Record.bufferDone i f tag bytes blocks first last).bytes phase)) ∧
    (∀ (i : StreamId) (source : TriggerSource) (k : Nat) (time : Long),
      HasLayout 32 [(0, 1, 3), (1, 1, one phase), (2, 1, i.val), (3, 1, 0), (4, 1, source.code), (5, 1, source.number),
        (8, 8, time.toNat), (16, 4, k)] ((Record.streamState i (.triggered source k) time).bytes phase)) ∧
    (∀ (i : StreamId) (reason : EndReason) (begun : Nat) (next : Word) (time : Long),
      HasLayout 32 [(0, 1, 3), (1, 1, one phase), (2, 1, i.val), (3, 1, 1), (4, 1, reason.code), (8, 8, time.toNat),
        (20, 4, begun)] ((Record.streamState i (.draining reason begun) time).bytes phase) ∧
      HasLayout 32 [(0, 1, 3), (1, 1, one phase), (2, 1, i.val), (3, 1, 2), (4, 1, reason.code), (8, 8, time.toNat),
        (20, 4, begun), (24, 4, next.toNat)] ((Record.streamState i (.ended reason begun next) time).bytes phase) ∧
      HasLayout 32 [(0, 1, 3), (1, 1, one phase), (2, 1, i.val), (3, 1, 3), (4, 1, reason.code), (8, 8, time.toNat),
        (20, 4, begun), (24, 4, next.toNat)] ((Record.streamState i (.faulted reason begun next) time).bytes phase)) ∧
    (∀ (e : WatchEvent) (outcome : ActionOutcome) (lost number : Nat),
      (e.offer.number = none → number = 0) → (∀ n : Word, e.offer.number = some n → number = n.toNat) →
      HasLayout 32 [(0, 1, 4), (1, 1, one phase), (2, 1, e.watch.val), (3, 1, e.state.code), (4, 1, e.offer.stream.val),
        (5, 1, one e.offer.sample.clip + 2 * one e.offer.number.isNone), (6, 2, e.offer.sample.code.toNat),
        (8, 8, e.offer.time.toNat), (16, 4, number), (20, 1, e.action.code), (21, 1, outcome.code), (22, 2, lost)]
        ((Record.watchEvent e outcome lost).bytes phase)) ∧
    (∀ (event : TimebaseEvent) (role : Role) (timeout : Nat) (preset count : Long),
      HasLayout 32 [(0, 1, 5), (1, 1, one phase), (2, 1, event.code), (3, 1, role.code), (4, 4, timeout),
        (8, 8, preset.toNat), (16, 8, count.toNat)] ((Record.timebaseEvent event role timeout preset count).bytes phase))) ∧
  ([.done, .unknownKind, .badField, .wrongState, .inUse, .noPages, .queueFull, .outsideWindow, .writeError,
    .backlog] : List Status).map Status.code = [0, 1, 2, 3, 4, 5, 6, 7, 8, 9] ∧
  ([.untriggered, .stopOrder, .countReached, .stopLine, .stopTime, .watchHalt, .slipHalt, .overrunHalt, .aborted,
    .writeError, .teardown] : List EndReason).map EndReason.code = [1, 2, 3, 4, 5, 6, 7, 8, 9, 10, 11] ∧
  (∀ (n : LineId) (m : WatchId), ([.now, .lateTime, .time, .line n, .order, .watch m] : List TriggerSource).map
    (fun x => (x.code, x.number)) = [(1, 0), (2, 0), (3, 0), (4, n.val), (5, 0), (6, m.val)]) ∧
  ([.inside, .above, .below] : List WatchState).map WatchState.code = [0, 1, 2] ∧
  (∀ i : StreamId, ([.none, .start i, .halt i] : List WatchAction).map WatchAction.code = [0, 1 + i.val, 9 + i.val]) ∧
  ([.none, .taken, .ignored] : List ActionOutcome).map ActionOutcome.code = [0, 1, 2] ∧
  ([.syncTaken, .syncExpired] : List TimebaseEvent).map TimebaseEvent.code = [1, 2] ∧
  ([.off, .leader, .follower] : List Role).map Role.code = [0, 1, 2]

/-- The bytes of a block (Table 12-7, R72, R89, R179): 32 + 4 × passes × S of them, the header with its fields and its
flags GAP, SHORT and FINAL, and then the sample words, pass by pass in queue order and within a pass in slot order, each
with its code, CLIP, and SLIPPED in the word of step 0 of a pass that slipped. -/
def Obligations.BlockLayout : Prop :=
  ∀ (b : Block) (i : StreamId) (S : Nat) (sequence number : Word) (first : PassRecord) (bytes : List Byte)
      (one : Bool → Nat),
    (∀ x : Bool, one x = if x = true then 1 else 0) → b.records.head? = some first → first.number = some number →
    (∀ r ∈ b.records, r.slots.length = S) → bytes = b.bytes i S sequence →
    bytes.length = 32 + 4 * b.records.length * S ∧
    HasLayout 32 [(0, 1, i.val), (1, 1, one (first.droppedBefore != 0) + 2 * one b.short + 4 * one b.final),
      (2, 2, b.records.length), (4, 1, S), (6, 2, 32 + 4 * b.records.length * S), (8, 4, sequence.toNat),
      (12, 4, number.toNat), (16, 8, first.start.toNat), (24, 2, b.slips), (26, 2, first.droppedBefore)]
      (bytes.take 32) ∧
    ∀ (k j : Nat) (r : PassRecord) (x : Sample), b.records[k]? = some r → r.slots[j]? = some (some x) →
      HasLayout 4 [(0, 2, x.code.toNat), (2, 1, one x.clip + 2 * one (decide (j = 0 ∧ 0 < r.slips)))]
        ((bytes.drop (32 + 4 * (k * S + j))).take 4)

/-- The 64 bytes of every status section (section 12.7, Tables 12-9 to 12-12, R151, R152, R179): target, stream, section
and count, the section's own fields at their offsets, 0 in every other byte and where a value is absent; with the codes
of Table 12-8 that they carry. A stream section carries the count in the bytes that begin every section, as R151 says;
that R140, which says that the stream status record does not carry it, speaks of the section's own fields is an
inference (notes/assumptions/35.md). -/
def Obligations.StatusSectionLayout : Prop :=
  (([.unconfigured, .idle, .armed, .running, .draining, .faulted] : List StreamState).map StreamState.code
      = [0, 1, 2, 3, 4, 5] ∧
    ([.untriggered, .stopOrder, .countReached, .stopLine, .stopTime, .watchHalt, .slipHalt, .overrunHalt, .aborted,
      .writeError, .teardown] : List EndReason).map EndReason.code = [1, 2, 3, 4, 5, 6, 7, 8, 9, 10, 11] ∧
    ([.mark, .halt] : List Policy).map Policy.halts = [false, true] ∧
    (∀ (n : LineId) (t : Long), ([.now, .external, .line n, .time t] : List StartCondition).map
      (fun x => (x.code, x.lineField, x.timeField)) = [(0, 0, 0), (1, 0, 0), (2, n.val, 0), (3, 0, t.toNat)]) ∧
    (∀ (n : LineId) (k : Nat) (t : Long), ([.none, .count k, .line n, .time t] : List StopCondition).map
      (fun x => (x.code, x.countField, x.lineField, x.timeField))
        = [(0, 0, 0, 0), (1, k, 0, 0), (2, 0, n.val, 0), (3, 0, 0, t.toNat)]) ∧
    (∀ (n : LineId) (m : WatchId), ([.now, .lateTime, .time, .line n, .order, .watch m] : List TriggerSource).map
      (fun x => (x.code, x.number)) = [(1, 0), (2, 0), (3, 0), (4, n.val), (5, 0), (6, m.val)]) ∧
    (∀ (issued : Nat) (o : OrderInHand) (l : List OutboxEntry),
      ([.idle, .fetching issued, .executing o issued, .placing o l] : List OrderWork).map OrderWork.code
        = [0, 1, 2, 3]) ∧
    ([.off, .leader, .follower] : List Role).map Role.code = [0, 1, 2] ∧
    (∀ (t : Long) (e : Nat), ([.absent, .waiting t, .driving e] : List Fire).map (fun x => (x.code, x.drives))
      = [(0, false), (1, false), (2, true)]) ∧
    ([.syncTaken, .syncExpired] : List TimebaseEvent).map TimebaseEvent.code = [1, 2] ∧
    (∀ l : Line, l.active = true ↔ (l.polarity = .activeHigh ∧ l.high = true) ∨
      (l.polarity = .activeLow ∧ l.high = false)) ∧
    ([.stopped, .running, .gated, .done] : List PaceState).map PaceState.code = [0, 1, 2, 3] ∧
    (∀ n : LineId, ([.reference, .trig n] : List PaceSource).map PaceSource.code = [0, n.val + 1] ∧
      ([none, some n] : List (Option LineId)).map gateCode = [0, n.val + 1]) ∧
    ([.continuous, .burst] : List PaceMode).map PaceMode.code = [0, 1] ∧
    ([.buffers, .status, .both] : List WindowUse).map WindowUse.code = [0, 1, 2] ∧
    ([.inside, .above, .below] : List WatchState).map WatchState.code = [0, 1, 2] ∧
    ([.none, .high, .low] : List RunSide).map RunSide.code = [0, 1, 2] ∧
    (∀ i : StreamId, ([none, some i] : List (Option StreamId)).map filterCode = [0, i.val + 1] ∧
      ([.none, .start i, .halt i] : List WatchAction).map WatchAction.code = [0, 1 + i.val, 9 + i.val])) ∧
  ∀ (s : State) (one : Bool → Nat) (head : Nat → Nat → Nat → List (Nat × Nat × Nat)),
    (∀ b : Bool, one b = if b = true then 1 else 0) →
    (∀ target stream part : Nat, head target stream part =
      [(0, 1, target), (1, 1, stream), (2, 1, part), (8, 8, s.timebase.count.toNat)]) →
    (∀ (i : StreamId) (x : StreamContext) (reason : Nat), s.streams[i] = x →
      reason = (match x.endReason with
        | none => 0
        | some r => r.code) →
      (x.config = none → ∃ b, statusSection 0 (byteOf i) 0 s = some b ∧ HasLayout 64
        (head 0 i.val 0 ++ [(3, 1, x.state.code), (4, 1, reason), (17, 1, x.pagesHeld), (24, 2, 128 * x.pagesHeld)]) b) ∧
      (∀ c : StreamConfig, x.config = some c → ∃ b, statusSection 0 (byteOf i) 0 s = some b ∧ HasLayout 64
        (head 0 i.val 0 ++
          [(3, 1, x.state.code), (4, 1, reason), (5, 1, c.scanList.val), (6, 1, (s.scanLists[c.scanList]).length),
           (7, 1, c.generator.val), (16, 1, c.ring.val), (17, 1, x.pagesHeld),
           (18, 1, one c.slipPolicy.halts + 2 * one c.overrunPolicy.halts), (20, 2, c.passesPerBlock), (22, 2, c.depth),
           (24, 2, 128 * x.pagesHeld), (26, 2, 32 + 4 * c.passesPerBlock * (s.scanLists[c.scanList]).length),
           (28, 2, c.flushMs), (30, 1, c.start.code), (31, 1, c.start.lineField), (32, 1, c.stop.code),
           (33, 1, c.stop.lineField), (36, 4, c.stop.countField), (40, 8, c.start.timeField),
           (48, 8, c.stop.timeField)]) b) ∧
      (∀ (source fill tag blocks step : Nat) (time : Long) (next : Word) (timer : Bool),
        (x.trigger = none → source = 0 ∧ time = 0) →
        (∀ g : Trigger, x.trigger = some g → source = g.source.code + 16 * g.source.number ∧ time = g.time) →
        (x.nextPass = none → next = 0) → (∀ n : Word, x.nextPass = some n → next = n) →
        (x.pass = none → step = 0) → (∀ p : PassInProgress, x.pass = some p → step = p.step) →
        ((∀ d rest, s.buffers[i] = d :: rest → d.blocks = 0) → fill = 0 ∧ tag = 0 ∧ blocks = 0) →
        (∀ d rest, s.buffers[i] = d :: rest → 0 < d.blocks →
          fill = d.fill ∧ tag = d.tag.toNat ∧ blocks = min d.blocks 65535) →
        (timer = true ↔ ∃ d rest, s.buffers[i] = d :: rest ∧ d.timer ≠ none) →
        ∃ b, statusSection 0 (byteOf i) 1 s = some b ∧ HasLayout 64
          (head 0 i.val 1 ++
            [(3, 1, one x.pass.isSome + 2 * one (s.writing i) + 4 * one timer + 8 * one x.nextPass.isSome
               + 32 * (s.outboxes[i]).length),
             (4, 1, source), (5, 3, fill), (16, 8, time.toNat), (24, 4, next.toNat), (28, 4, x.begun),
             (32, 4, x.totalCompleted), (36, 4, x.totalSlipped), (40, 4, x.totalDropped), (44, 4, x.nextSequence.toNat),
             (48, 2, x.slippedSince), (50, 2, x.droppedSince),
             (52, 2, (s.stepsOf i).length * (s.staging[i]).records.length), (54, 2, (s.staging[i]).closed.length),
             (56, 4, tag), (60, 2, blocks), (62, 1, step), (63, 1, (s.buffers[i]).length)]) b)) ∧
    (∀ (any : Byte) (writing timeout left hold : Nat) (preset fireAt : Long) (lines : (LineId → Bool) → Nat),
      (s.writeInFlight = none → writing = 8) → (∀ w, s.writeInFlight = some w → writing = w.stream.val) →
      (s.timebase.arm = none → timeout = 0 ∧ left = 0 ∧ preset = 0) →
      (∀ a : SyncArm, s.timebase.arm = some a → timeout = a.timeoutMs ∧ preset = a.preset ∧
        (a.expiry = none → left = 0) ∧ ∀ e, a.expiry = some e → left = (e - s.elapsed) / 50000) →
      ((∀ T, s.timebase.fire ≠ .waiting T) → fireAt = 0) → (∀ T, s.timebase.fire = .waiting T → fireAt = T) →
      (s.timebase.hold = none → hold = 0) →
      (∀ e role ms p count, s.timebase.hold = some (.timebaseEvent e role ms p count) → hold = e.code) →
      (∀ f, lines f = one (f 0) + 2 * one (f 1) + 4 * one (f 2) + 8 * one (f 3)) →
      (s.timebase.hold = none ∨ ∃ e role ms p count, s.timebase.hold = some (.timebaseEvent e role ms p count)) →
      ∃ b, statusSection 1 any 0 s = some b ∧ HasLayout 64
        (head 1 0 0 ++
          [(3, 1, s.orders.work.code), (4, 1, s.freePages), (5, 1, writing), (6, 1, s.grantPointer.val),
           (7, 1, s.timebase.role.code), (16, 2, s.orders.head), (18, 2, s.orders.tail), (20, 1, one s.timebase.arm.isSome),
           (21, 1, s.timebase.fire.code), (22, 1, hold), (23, 1, one s.syncHigh + 2 * one s.timebase.fire.drives),
           (24, 4, timeout), (28, 4, left), (32, 8, preset.toNat), (40, 8, fireAt.toNat),
           (48, 1, lines (fun n => (s.lines[n]).polarity == .activeLow)), (49, 1, lines (fun n => (s.lines[n]).high)),
           (50, 1, lines (fun n => (s.lines[n]).active)), (51, 1, s.alertLevel.val)]) b) ∧
    (∀ (any : Byte) (pace : GeneratorId → Nat → List (Nat × Nat × Nat)) (window : WindowId → Nat → List (Nat × Nat × Nat)),
      (∀ (n : GeneratorId) (o : Nat) (g : Generator), s.generators[n] = g → pace n o =
        [(o, 1, g.state.code), (o + 1, 1, g.source.code), (o + 2, 1, gateCode g.gate), (o + 3, 1, g.mode.code),
         (o + 4, 4, g.prescale), (o + 8, 4, g.divide), (o + 12, 4, g.burst), (o + 16, 2, g.prescaleCount),
         (o + 18, 2, g.divideCount), (o + 20, 4, g.ticks)]) →
      (∀ (n : WindowId) (o : Nat) (w : Window), s.windows[n] = w → window n o =
        [(o, 1, one w.enabled), (o + 1, 1, w.use.code), (o + 8, 8, w.base.toNat), (o + 16, 8, w.mask.toNat)]) →
      (∃ b, statusSection 1 any 1 s = some b ∧ HasLayout 64 (head 1 0 1 ++ pace 0 16 ++ pace 1 40) b) ∧
      (∃ b, statusSection 1 any 2 s = some b ∧ HasLayout 64 (head 1 0 2 ++ pace 2 16 ++ pace 3 40) b) ∧
      (∃ b, statusSection 1 any 3 s = some b ∧ HasLayout 64 (head 1 0 3 ++ window 0 16 ++ window 1 40) b) ∧
      (∃ b, statusSection 1 any 4 s = some b ∧ HasLayout 64 (head 1 0 4 ++ window 2 16 ++ window 3 40) b)) ∧
    (∀ (any : Byte) (watch : WatchId → Nat → List (Nat × Nat × Nat)),
      (∀ (n : WatchId) (o : Nat) (w : Watch), s.watches[n] = w → watch n o =
        [(o, 1, one w.enabled + 2 * one w.note + 4 * one w.wait.isSome + 8 * w.state.code + 32 * w.runSide.code),
         (o + 1, 1, w.channel.val + 32 * w.ring.val), (o + 2, 1, filterCode w.filter + 16 * (w.persistence - 1)),
         (o + 3, 1, w.action.code + 32 * w.alert.val), (o + 4, 2, w.low.toNat), (o + 6, 2, w.high.toNat),
         (o + 8, 2, w.hysteresis + 4096 * w.runCount), (o + 10, 2, w.lost)]) →
      (∃ b, statusSection 1 any 5 s = some b ∧
        HasLayout 64 (head 1 0 5 ++ watch 0 16 ++ watch 1 28 ++ watch 2 40 ++ watch 3 52) b) ∧
      (∃ b, statusSection 1 any 6 s = some b ∧
        HasLayout 64 (head 1 0 6 ++ watch 4 16 ++ watch 5 28 ++ watch 6 40 ++ watch 7 52) b) ∧
      (∃ b, statusSection 1 any 7 s = some b ∧
        HasLayout 64 (head 1 0 7 ++ watch 8 16 ++ watch 9 28 ++ watch 10 40 ++ watch 11 52) b) ∧
      (∃ b, statusSection 1 any 8 s = some b ∧
        HasLayout 64 (head 1 0 8 ++ watch 12 16 ++ watch 13 28 ++ watch 14 40 ++ watch 15 52) b))

/-! ### What holds over every command -/

/-- R61: the free page pool plus the pages held by all streams number exactly 64, whatever command is run. -/
def Obligations.PagesStayAccounted : Prop :=
  ∀ s t : State, s.PagesAccounted → step s = .next t → t.PagesAccounted

/-- R154, R155, R158: every step keeps every ring in order: no slot is written that the host has not returned, and at
most 16 records are pending. -/
def Obligations.RingsStayOrdered : Prop :=
  ∀ s t : State, s.RingsOrdered → step s = .next t → t.RingsOrdered

/-- R172, R166, R170: outside UP no completion ring is enabled and no geometry of the Order Ring is held, and a step taken
outside UP writes no record, block or status record and sends no message: all it can issue is the Control Block read of a
link that enters LOADING. That the geometry goes at the beginning of a teardown is an inference
(notes/assumptions/36.md). -/
def Obligations.OutsideUpThePartIsQuiet : Prop :=
  ∀ s t : State, s.QuietOutsideUp → step s = .next t →
    t.QuietOutsideUp ∧
    (s.linkUp = false → t.bus = s.bus ∨
      (t.link.state = .loading ∧ t.bus = s.bus ++ [.read t.link.cbAddress 128]))

/-- R81, R82: no step makes a buffer queue longer than 32 descriptors. -/
def Obligations.BufferQueuesStayBounded : Prop :=
  ∀ s t : State, s.BuffersBounded → step s = .next t → t.BuffersBounded

/-- R2, R97, R160: no step makes an outbox hold more than 6 records, with the records that the stream can still give
rise to before its outbox empties counted in, and with what keeps that so: which descriptors, blocks and writes a stream
can have in each state (`State.OutboxesOrdered`; R23, R73, R81, R172, R174). -/
def Obligations.OutboxesStayBounded : Prop :=
  ∀ s t : State, s.OutboxesOrdered → step s = .next t → t.OutboxesOrdered

/-- R130: the timebase count never decreases, except when a SYNC pulse loads a preset into an armed part, and at
power-on reset. The end of a pulse takes the pulse's own edge first where the line was still high
(notes/assumptions/11.md). -/
def Obligations.CountNeverDecreases : Prop :=
  ∀ (c : Instr) (s t : State), exec c s = .next t → (∀ p, c ≠ .powerOnReset p) →
    ((∀ l, c ≠ .syncFallingEdge l) ∧ c ≠ .syncPulseEnd ∨ s.timebase.role = .off ∨ s.timebase.arm = none ∨
      s.syncHigh = false) →
    s.timebase.count ≤ t.timebase.count

/-- The 64 bytes of a slot carry every operand of an order (Tables 12-4 and 12-5): reading back what is written for a
well-formed order gives that order, every operand at every value its field can hold. That the byte layouts stand beside
the decoded commands is the model's choice (notes/assumptions/29.md). -/
def Obligations.OrdersReadBack : Prop :=
  ∀ (c : Instr) (b : List Byte), c.wellFormed = true → encodeOrder c = some b → b.length = 64 ∧ decodeOrder b = some c
end

