-- ==== Sys2Proof/Laws/Banks.lean ====
section
/-!
SUPPORT. Laws/Banks.lean: reading a bank after a change of it. Entries are written with their number, which is how simp
writes them.
-/

namespace Sys2Proof.Machine

variable {α : Type} {n : Nat}

/-- What any entry reads after one entry is changed. -/
theorem upd_get (v : Vector α n) (i : Fin n) (f : α → α) (j : Nat) (h : j < n) :
    (upd v i f)[j] = if j = i.val then f v[j] else v[j] := by
  unfold upd
  by_cases e : j = i.val
  · subst e; simp
  · have : i.val ≠ j := fun x => e x.symm
    simp [e, this]

@[simp] theorem upd_self (v : Vector α n) (i : Fin n) (f : α → α) : (upd v i f)[i.val] = f v[i.val] := by
  simp [upd_get]

/-- An entry other than the changed one. -/
theorem upd_ne (v : Vector α n) {i j : Fin n} (f : α → α) (h : j ≠ i) : (upd v i f)[j.val] = v[j.val] := by
  have : j.val ≠ i.val := fun e => h (Fin.ext e)
  simp [upd_get, this]

@[simp] theorem mapAll_get (v : Vector α n) (f : α → α) (j : Nat) (h : j < n) : (mapAll v f)[j] = f v[j] := by
  simp [mapAll]

/-- Two banks with the same entries are equal. -/
theorem bank_ext (v w : Vector α n) (h : ∀ i : Fin n, v[i] = w[i]) : v = w := by
  apply Vector.ext
  intro i hi
  exact h ⟨i, hi⟩

@[simp] theorem mem_allStreams (i : StreamId) : i ∈ allStreams := by revert i; decide
@[simp] theorem mem_allWatches (m : WatchId) : m ∈ allWatches := by revert m; decide
@[simp] theorem mem_allFours (n : Fin 4) : n ∈ allFours := by revert n; decide

end Sys2Proof.Machine
end

