-- ==== Sys2Proof/Laws/State.lean ====
section
/-!
SUPPORT. Laws/State.lean: for each named update of the state, one lemma per field, true by rfl, so that no proof unfolds a
record update.
-/

namespace Sys2Proof.Machine

variable (s : State)

@[simp] theorem State.modStream_pending (i : StreamId) (f : StreamContext → StreamContext) : (s.modStream i f).pending = s.pending := rfl
@[simp] theorem State.modStream_elapsed (i : StreamId) (f : StreamContext → StreamContext) : (s.modStream i f).elapsed = s.elapsed := rfl
@[simp] theorem State.modStream_choices (i : StreamId) (f : StreamContext → StreamContext) : (s.modStream i f).choices = s.choices := rfl
@[simp] theorem State.modStream_bus (i : StreamId) (f : StreamContext → StreamContext) : (s.modStream i f).bus = s.bus := rfl
@[simp] theorem State.modStream_nextPassId (i : StreamId) (f : StreamContext → StreamContext) : (s.modStream i f).nextPassId = s.nextPassId := rfl
@[simp] theorem State.modStream_link (i : StreamId) (f : StreamContext → StreamContext) : (s.modStream i f).link = s.link := rfl
@[simp] theorem State.modStream_orders (i : StreamId) (f : StreamContext → StreamContext) : (s.modStream i f).orders = s.orders := rfl
@[simp] theorem State.modStream_rings (i : StreamId) (f : StreamContext → StreamContext) : (s.modStream i f).rings = s.rings := rfl
@[simp] theorem State.modStream_outboxes (i : StreamId) (f : StreamContext → StreamContext) : (s.modStream i f).outboxes = s.outboxes := rfl
@[simp] theorem State.modStream_streams (i : StreamId) (f : StreamContext → StreamContext) : (s.modStream i f).streams = upd s.streams i f := rfl
@[simp] theorem State.modStream_returns (i : StreamId) (f : StreamContext → StreamContext) : (s.modStream i f).returns = s.returns := rfl
@[simp] theorem State.modStream_scanLists (i : StreamId) (f : StreamContext → StreamContext) : (s.modStream i f).scanLists = s.scanLists := rfl
@[simp] theorem State.modStream_channels (i : StreamId) (f : StreamContext → StreamContext) : (s.modStream i f).channels = s.channels := rfl
@[simp] theorem State.modStream_converters (i : StreamId) (f : StreamContext → StreamContext) : (s.modStream i f).converters = s.converters := rfl
@[simp] theorem State.modStream_freePages (i : StreamId) (f : StreamContext → StreamContext) : (s.modStream i f).freePages = s.freePages := rfl
@[simp] theorem State.modStream_staging (i : StreamId) (f : StreamContext → StreamContext) : (s.modStream i f).staging = s.staging := rfl
@[simp] theorem State.modStream_windows (i : StreamId) (f : StreamContext → StreamContext) : (s.modStream i f).windows = s.windows := rfl
@[simp] theorem State.modStream_buffers (i : StreamId) (f : StreamContext → StreamContext) : (s.modStream i f).buffers = s.buffers := rfl
@[simp] theorem State.modStream_writeInFlight (i : StreamId) (f : StreamContext → StreamContext) : (s.modStream i f).writeInFlight = s.writeInFlight := rfl
@[simp] theorem State.modStream_grantPointer (i : StreamId) (f : StreamContext → StreamContext) : (s.modStream i f).grantPointer = s.grantPointer := rfl
@[simp] theorem State.modStream_becameEligible (i : StreamId) (f : StreamContext → StreamContext) : (s.modStream i f).becameEligible = s.becameEligible := rfl
@[simp] theorem State.modStream_generators (i : StreamId) (f : StreamContext → StreamContext) : (s.modStream i f).generators = s.generators := rfl
@[simp] theorem State.modStream_lines (i : StreamId) (f : StreamContext → StreamContext) : (s.modStream i f).lines = s.lines := rfl
@[simp] theorem State.modStream_syncHigh (i : StreamId) (f : StreamContext → StreamContext) : (s.modStream i f).syncHigh = s.syncHigh := rfl
@[simp] theorem State.modStream_syncNext (i : StreamId) (f : StreamContext → StreamContext) : (s.modStream i f).syncNext = s.syncNext := rfl
@[simp] theorem State.modStream_watches (i : StreamId) (f : StreamContext → StreamContext) : (s.modStream i f).watches = s.watches := rfl
@[simp] theorem State.modStream_alertLevel (i : StreamId) (f : StreamContext → StreamContext) : (s.modStream i f).alertLevel = s.alertLevel := rfl
@[simp] theorem State.modStream_offers (i : StreamId) (f : StreamContext → StreamContext) : (s.modStream i f).offers = s.offers := rfl
@[simp] theorem State.modStream_timebase (i : StreamId) (f : StreamContext → StreamContext) : (s.modStream i f).timebase = s.timebase := rfl

@[simp] theorem State.modStaging_pending (i : StreamId) (f : Staging → Staging) : (s.modStaging i f).pending = s.pending := rfl
@[simp] theorem State.modStaging_elapsed (i : StreamId) (f : Staging → Staging) : (s.modStaging i f).elapsed = s.elapsed := rfl
@[simp] theorem State.modStaging_choices (i : StreamId) (f : Staging → Staging) : (s.modStaging i f).choices = s.choices := rfl
@[simp] theorem State.modStaging_bus (i : StreamId) (f : Staging → Staging) : (s.modStaging i f).bus = s.bus := rfl
@[simp] theorem State.modStaging_nextPassId (i : StreamId) (f : Staging → Staging) : (s.modStaging i f).nextPassId = s.nextPassId := rfl
@[simp] theorem State.modStaging_link (i : StreamId) (f : Staging → Staging) : (s.modStaging i f).link = s.link := rfl
@[simp] theorem State.modStaging_orders (i : StreamId) (f : Staging → Staging) : (s.modStaging i f).orders = s.orders := rfl
@[simp] theorem State.modStaging_rings (i : StreamId) (f : Staging → Staging) : (s.modStaging i f).rings = s.rings := rfl
@[simp] theorem State.modStaging_outboxes (i : StreamId) (f : Staging → Staging) : (s.modStaging i f).outboxes = s.outboxes := rfl
@[simp] theorem State.modStaging_streams (i : StreamId) (f : Staging → Staging) : (s.modStaging i f).streams = s.streams := rfl
@[simp] theorem State.modStaging_returns (i : StreamId) (f : Staging → Staging) : (s.modStaging i f).returns = s.returns := rfl
@[simp] theorem State.modStaging_scanLists (i : StreamId) (f : Staging → Staging) : (s.modStaging i f).scanLists = s.scanLists := rfl
@[simp] theorem State.modStaging_channels (i : StreamId) (f : Staging → Staging) : (s.modStaging i f).channels = s.channels := rfl
@[simp] theorem State.modStaging_converters (i : StreamId) (f : Staging → Staging) : (s.modStaging i f).converters = s.converters := rfl
@[simp] theorem State.modStaging_freePages (i : StreamId) (f : Staging → Staging) : (s.modStaging i f).freePages = s.freePages := rfl
@[simp] theorem State.modStaging_staging (i : StreamId) (f : Staging → Staging) : (s.modStaging i f).staging = upd s.staging i f := rfl
@[simp] theorem State.modStaging_windows (i : StreamId) (f : Staging → Staging) : (s.modStaging i f).windows = s.windows := rfl
@[simp] theorem State.modStaging_buffers (i : StreamId) (f : Staging → Staging) : (s.modStaging i f).buffers = s.buffers := rfl
@[simp] theorem State.modStaging_writeInFlight (i : StreamId) (f : Staging → Staging) : (s.modStaging i f).writeInFlight = s.writeInFlight := rfl
@[simp] theorem State.modStaging_grantPointer (i : StreamId) (f : Staging → Staging) : (s.modStaging i f).grantPointer = s.grantPointer := rfl
@[simp] theorem State.modStaging_becameEligible (i : StreamId) (f : Staging → Staging) : (s.modStaging i f).becameEligible = s.becameEligible := rfl
@[simp] theorem State.modStaging_generators (i : StreamId) (f : Staging → Staging) : (s.modStaging i f).generators = s.generators := rfl
@[simp] theorem State.modStaging_lines (i : StreamId) (f : Staging → Staging) : (s.modStaging i f).lines = s.lines := rfl
@[simp] theorem State.modStaging_syncHigh (i : StreamId) (f : Staging → Staging) : (s.modStaging i f).syncHigh = s.syncHigh := rfl
@[simp] theorem State.modStaging_syncNext (i : StreamId) (f : Staging → Staging) : (s.modStaging i f).syncNext = s.syncNext := rfl
@[simp] theorem State.modStaging_watches (i : StreamId) (f : Staging → Staging) : (s.modStaging i f).watches = s.watches := rfl
@[simp] theorem State.modStaging_alertLevel (i : StreamId) (f : Staging → Staging) : (s.modStaging i f).alertLevel = s.alertLevel := rfl
@[simp] theorem State.modStaging_offers (i : StreamId) (f : Staging → Staging) : (s.modStaging i f).offers = s.offers := rfl
@[simp] theorem State.modStaging_timebase (i : StreamId) (f : Staging → Staging) : (s.modStaging i f).timebase = s.timebase := rfl

@[simp] theorem State.modBuffers_pending (i : StreamId) (f : List Descriptor → List Descriptor) : (s.modBuffers i f).pending = s.pending := rfl
@[simp] theorem State.modBuffers_elapsed (i : StreamId) (f : List Descriptor → List Descriptor) : (s.modBuffers i f).elapsed = s.elapsed := rfl
@[simp] theorem State.modBuffers_choices (i : StreamId) (f : List Descriptor → List Descriptor) : (s.modBuffers i f).choices = s.choices := rfl
@[simp] theorem State.modBuffers_bus (i : StreamId) (f : List Descriptor → List Descriptor) : (s.modBuffers i f).bus = s.bus := rfl
@[simp] theorem State.modBuffers_nextPassId (i : StreamId) (f : List Descriptor → List Descriptor) : (s.modBuffers i f).nextPassId = s.nextPassId := rfl
@[simp] theorem State.modBuffers_link (i : StreamId) (f : List Descriptor → List Descriptor) : (s.modBuffers i f).link = s.link := rfl
@[simp] theorem State.modBuffers_orders (i : StreamId) (f : List Descriptor → List Descriptor) : (s.modBuffers i f).orders = s.orders := rfl
@[simp] theorem State.modBuffers_rings (i : StreamId) (f : List Descriptor → List Descriptor) : (s.modBuffers i f).rings = s.rings := rfl
@[simp] theorem State.modBuffers_outboxes (i : StreamId) (f : List Descriptor → List Descriptor) : (s.modBuffers i f).outboxes = s.outboxes := rfl
@[simp] theorem State.modBuffers_streams (i : StreamId) (f : List Descriptor → List Descriptor) : (s.modBuffers i f).streams = s.streams := rfl
@[simp] theorem State.modBuffers_returns (i : StreamId) (f : List Descriptor → List Descriptor) : (s.modBuffers i f).returns = s.returns := rfl
@[simp] theorem State.modBuffers_scanLists (i : StreamId) (f : List Descriptor → List Descriptor) : (s.modBuffers i f).scanLists = s.scanLists := rfl
@[simp] theorem State.modBuffers_channels (i : StreamId) (f : List Descriptor → List Descriptor) : (s.modBuffers i f).channels = s.channels := rfl
@[simp] theorem State.modBuffers_converters (i : StreamId) (f : List Descriptor → List Descriptor) : (s.modBuffers i f).converters = s.converters := rfl
@[simp] theorem State.modBuffers_freePages (i : StreamId) (f : List Descriptor → List Descriptor) : (s.modBuffers i f).freePages = s.freePages := rfl
@[simp] theorem State.modBuffers_staging (i : StreamId) (f : List Descriptor → List Descriptor) : (s.modBuffers i f).staging = s.staging := rfl
@[simp] theorem State.modBuffers_windows (i : StreamId) (f : List Descriptor → List Descriptor) : (s.modBuffers i f).windows = s.windows := rfl
@[simp] theorem State.modBuffers_buffers (i : StreamId) (f : List Descriptor → List Descriptor) : (s.modBuffers i f).buffers = upd s.buffers i f := rfl
@[simp] theorem State.modBuffers_writeInFlight (i : StreamId) (f : List Descriptor → List Descriptor) : (s.modBuffers i f).writeInFlight = s.writeInFlight := rfl
@[simp] theorem State.modBuffers_grantPointer (i : StreamId) (f : List Descriptor → List Descriptor) : (s.modBuffers i f).grantPointer = s.grantPointer := rfl
@[simp] theorem State.modBuffers_becameEligible (i : StreamId) (f : List Descriptor → List Descriptor) : (s.modBuffers i f).becameEligible = s.becameEligible := rfl
@[simp] theorem State.modBuffers_generators (i : StreamId) (f : List Descriptor → List Descriptor) : (s.modBuffers i f).generators = s.generators := rfl
@[simp] theorem State.modBuffers_lines (i : StreamId) (f : List Descriptor → List Descriptor) : (s.modBuffers i f).lines = s.lines := rfl
@[simp] theorem State.modBuffers_syncHigh (i : StreamId) (f : List Descriptor → List Descriptor) : (s.modBuffers i f).syncHigh = s.syncHigh := rfl
@[simp] theorem State.modBuffers_syncNext (i : StreamId) (f : List Descriptor → List Descriptor) : (s.modBuffers i f).syncNext = s.syncNext := rfl
@[simp] theorem State.modBuffers_watches (i : StreamId) (f : List Descriptor → List Descriptor) : (s.modBuffers i f).watches = s.watches := rfl
@[simp] theorem State.modBuffers_alertLevel (i : StreamId) (f : List Descriptor → List Descriptor) : (s.modBuffers i f).alertLevel = s.alertLevel := rfl
@[simp] theorem State.modBuffers_offers (i : StreamId) (f : List Descriptor → List Descriptor) : (s.modBuffers i f).offers = s.offers := rfl
@[simp] theorem State.modBuffers_timebase (i : StreamId) (f : List Descriptor → List Descriptor) : (s.modBuffers i f).timebase = s.timebase := rfl

@[simp] theorem State.modOutbox_pending (i : StreamId) (f : List OutboxEntry → List OutboxEntry) : (s.modOutbox i f).pending = s.pending := rfl
@[simp] theorem State.modOutbox_elapsed (i : StreamId) (f : List OutboxEntry → List OutboxEntry) : (s.modOutbox i f).elapsed = s.elapsed := rfl
@[simp] theorem State.modOutbox_choices (i : StreamId) (f : List OutboxEntry → List OutboxEntry) : (s.modOutbox i f).choices = s.choices := rfl
@[simp] theorem State.modOutbox_bus (i : StreamId) (f : List OutboxEntry → List OutboxEntry) : (s.modOutbox i f).bus = s.bus := rfl
@[simp] theorem State.modOutbox_nextPassId (i : StreamId) (f : List OutboxEntry → List OutboxEntry) : (s.modOutbox i f).nextPassId = s.nextPassId := rfl
@[simp] theorem State.modOutbox_link (i : StreamId) (f : List OutboxEntry → List OutboxEntry) : (s.modOutbox i f).link = s.link := rfl
@[simp] theorem State.modOutbox_orders (i : StreamId) (f : List OutboxEntry → List OutboxEntry) : (s.modOutbox i f).orders = s.orders := rfl
@[simp] theorem State.modOutbox_rings (i : StreamId) (f : List OutboxEntry → List OutboxEntry) : (s.modOutbox i f).rings = s.rings := rfl
@[simp] theorem State.modOutbox_outboxes (i : StreamId) (f : List OutboxEntry → List OutboxEntry) : (s.modOutbox i f).outboxes = upd s.outboxes i f := rfl
@[simp] theorem State.modOutbox_streams (i : StreamId) (f : List OutboxEntry → List OutboxEntry) : (s.modOutbox i f).streams = s.streams := rfl
@[simp] theorem State.modOutbox_returns (i : StreamId) (f : List OutboxEntry → List OutboxEntry) : (s.modOutbox i f).returns = s.returns := rfl
@[simp] theorem State.modOutbox_scanLists (i : StreamId) (f : List OutboxEntry → List OutboxEntry) : (s.modOutbox i f).scanLists = s.scanLists := rfl
@[simp] theorem State.modOutbox_channels (i : StreamId) (f : List OutboxEntry → List OutboxEntry) : (s.modOutbox i f).channels = s.channels := rfl
@[simp] theorem State.modOutbox_converters (i : StreamId) (f : List OutboxEntry → List OutboxEntry) : (s.modOutbox i f).converters = s.converters := rfl
@[simp] theorem State.modOutbox_freePages (i : StreamId) (f : List OutboxEntry → List OutboxEntry) : (s.modOutbox i f).freePages = s.freePages := rfl
@[simp] theorem State.modOutbox_staging (i : StreamId) (f : List OutboxEntry → List OutboxEntry) : (s.modOutbox i f).staging = s.staging := rfl
@[simp] theorem State.modOutbox_windows (i : StreamId) (f : List OutboxEntry → List OutboxEntry) : (s.modOutbox i f).windows = s.windows := rfl
@[simp] theorem State.modOutbox_buffers (i : StreamId) (f : List OutboxEntry → List OutboxEntry) : (s.modOutbox i f).buffers = s.buffers := rfl
@[simp] theorem State.modOutbox_writeInFlight (i : StreamId) (f : List OutboxEntry → List OutboxEntry) : (s.modOutbox i f).writeInFlight = s.writeInFlight := rfl
@[simp] theorem State.modOutbox_grantPointer (i : StreamId) (f : List OutboxEntry → List OutboxEntry) : (s.modOutbox i f).grantPointer = s.grantPointer := rfl
@[simp] theorem State.modOutbox_becameEligible (i : StreamId) (f : List OutboxEntry → List OutboxEntry) : (s.modOutbox i f).becameEligible = s.becameEligible := rfl
@[simp] theorem State.modOutbox_generators (i : StreamId) (f : List OutboxEntry → List OutboxEntry) : (s.modOutbox i f).generators = s.generators := rfl
@[simp] theorem State.modOutbox_lines (i : StreamId) (f : List OutboxEntry → List OutboxEntry) : (s.modOutbox i f).lines = s.lines := rfl
@[simp] theorem State.modOutbox_syncHigh (i : StreamId) (f : List OutboxEntry → List OutboxEntry) : (s.modOutbox i f).syncHigh = s.syncHigh := rfl
@[simp] theorem State.modOutbox_syncNext (i : StreamId) (f : List OutboxEntry → List OutboxEntry) : (s.modOutbox i f).syncNext = s.syncNext := rfl
@[simp] theorem State.modOutbox_watches (i : StreamId) (f : List OutboxEntry → List OutboxEntry) : (s.modOutbox i f).watches = s.watches := rfl
@[simp] theorem State.modOutbox_alertLevel (i : StreamId) (f : List OutboxEntry → List OutboxEntry) : (s.modOutbox i f).alertLevel = s.alertLevel := rfl
@[simp] theorem State.modOutbox_offers (i : StreamId) (f : List OutboxEntry → List OutboxEntry) : (s.modOutbox i f).offers = s.offers := rfl
@[simp] theorem State.modOutbox_timebase (i : StreamId) (f : List OutboxEntry → List OutboxEntry) : (s.modOutbox i f).timebase = s.timebase := rfl

@[simp] theorem State.modReturns_pending (i : StreamId) (f : List Return → List Return) : (s.modReturns i f).pending = s.pending := rfl
@[simp] theorem State.modReturns_elapsed (i : StreamId) (f : List Return → List Return) : (s.modReturns i f).elapsed = s.elapsed := rfl
@[simp] theorem State.modReturns_choices (i : StreamId) (f : List Return → List Return) : (s.modReturns i f).choices = s.choices := rfl
@[simp] theorem State.modReturns_bus (i : StreamId) (f : List Return → List Return) : (s.modReturns i f).bus = s.bus := rfl
@[simp] theorem State.modReturns_nextPassId (i : StreamId) (f : List Return → List Return) : (s.modReturns i f).nextPassId = s.nextPassId := rfl
@[simp] theorem State.modReturns_link (i : StreamId) (f : List Return → List Return) : (s.modReturns i f).link = s.link := rfl
@[simp] theorem State.modReturns_orders (i : StreamId) (f : List Return → List Return) : (s.modReturns i f).orders = s.orders := rfl
@[simp] theorem State.modReturns_rings (i : StreamId) (f : List Return → List Return) : (s.modReturns i f).rings = s.rings := rfl
@[simp] theorem State.modReturns_outboxes (i : StreamId) (f : List Return → List Return) : (s.modReturns i f).outboxes = s.outboxes := rfl
@[simp] theorem State.modReturns_streams (i : StreamId) (f : List Return → List Return) : (s.modReturns i f).streams = s.streams := rfl
@[simp] theorem State.modReturns_returns (i : StreamId) (f : List Return → List Return) : (s.modReturns i f).returns = upd s.returns i f := rfl
@[simp] theorem State.modReturns_scanLists (i : StreamId) (f : List Return → List Return) : (s.modReturns i f).scanLists = s.scanLists := rfl
@[simp] theorem State.modReturns_channels (i : StreamId) (f : List Return → List Return) : (s.modReturns i f).channels = s.channels := rfl
@[simp] theorem State.modReturns_converters (i : StreamId) (f : List Return → List Return) : (s.modReturns i f).converters = s.converters := rfl
@[simp] theorem State.modReturns_freePages (i : StreamId) (f : List Return → List Return) : (s.modReturns i f).freePages = s.freePages := rfl
@[simp] theorem State.modReturns_staging (i : StreamId) (f : List Return → List Return) : (s.modReturns i f).staging = s.staging := rfl
@[simp] theorem State.modReturns_windows (i : StreamId) (f : List Return → List Return) : (s.modReturns i f).windows = s.windows := rfl
@[simp] theorem State.modReturns_buffers (i : StreamId) (f : List Return → List Return) : (s.modReturns i f).buffers = s.buffers := rfl
@[simp] theorem State.modReturns_writeInFlight (i : StreamId) (f : List Return → List Return) : (s.modReturns i f).writeInFlight = s.writeInFlight := rfl
@[simp] theorem State.modReturns_grantPointer (i : StreamId) (f : List Return → List Return) : (s.modReturns i f).grantPointer = s.grantPointer := rfl
@[simp] theorem State.modReturns_becameEligible (i : StreamId) (f : List Return → List Return) : (s.modReturns i f).becameEligible = s.becameEligible := rfl
@[simp] theorem State.modReturns_generators (i : StreamId) (f : List Return → List Return) : (s.modReturns i f).generators = s.generators := rfl
@[simp] theorem State.modReturns_lines (i : StreamId) (f : List Return → List Return) : (s.modReturns i f).lines = s.lines := rfl
@[simp] theorem State.modReturns_syncHigh (i : StreamId) (f : List Return → List Return) : (s.modReturns i f).syncHigh = s.syncHigh := rfl
@[simp] theorem State.modReturns_syncNext (i : StreamId) (f : List Return → List Return) : (s.modReturns i f).syncNext = s.syncNext := rfl
@[simp] theorem State.modReturns_watches (i : StreamId) (f : List Return → List Return) : (s.modReturns i f).watches = s.watches := rfl
@[simp] theorem State.modReturns_alertLevel (i : StreamId) (f : List Return → List Return) : (s.modReturns i f).alertLevel = s.alertLevel := rfl
@[simp] theorem State.modReturns_offers (i : StreamId) (f : List Return → List Return) : (s.modReturns i f).offers = s.offers := rfl
@[simp] theorem State.modReturns_timebase (i : StreamId) (f : List Return → List Return) : (s.modReturns i f).timebase = s.timebase := rfl

@[simp] theorem State.modConverter_pending (c : ConverterId) (f : Converter → Converter) : (s.modConverter c f).pending = s.pending := rfl
@[simp] theorem State.modConverter_elapsed (c : ConverterId) (f : Converter → Converter) : (s.modConverter c f).elapsed = s.elapsed := rfl
@[simp] theorem State.modConverter_choices (c : ConverterId) (f : Converter → Converter) : (s.modConverter c f).choices = s.choices := rfl
@[simp] theorem State.modConverter_bus (c : ConverterId) (f : Converter → Converter) : (s.modConverter c f).bus = s.bus := rfl
@[simp] theorem State.modConverter_nextPassId (c : ConverterId) (f : Converter → Converter) : (s.modConverter c f).nextPassId = s.nextPassId := rfl
@[simp] theorem State.modConverter_link (c : ConverterId) (f : Converter → Converter) : (s.modConverter c f).link = s.link := rfl
@[simp] theorem State.modConverter_orders (c : ConverterId) (f : Converter → Converter) : (s.modConverter c f).orders = s.orders := rfl
@[simp] theorem State.modConverter_rings (c : ConverterId) (f : Converter → Converter) : (s.modConverter c f).rings = s.rings := rfl
@[simp] theorem State.modConverter_outboxes (c : ConverterId) (f : Converter → Converter) : (s.modConverter c f).outboxes = s.outboxes := rfl
@[simp] theorem State.modConverter_streams (c : ConverterId) (f : Converter → Converter) : (s.modConverter c f).streams = s.streams := rfl
@[simp] theorem State.modConverter_returns (c : ConverterId) (f : Converter → Converter) : (s.modConverter c f).returns = s.returns := rfl
@[simp] theorem State.modConverter_scanLists (c : ConverterId) (f : Converter → Converter) : (s.modConverter c f).scanLists = s.scanLists := rfl
@[simp] theorem State.modConverter_channels (c : ConverterId) (f : Converter → Converter) : (s.modConverter c f).channels = s.channels := rfl
@[simp] theorem State.modConverter_converters (c : ConverterId) (f : Converter → Converter) : (s.modConverter c f).converters = upd s.converters c f := rfl
@[simp] theorem State.modConverter_freePages (c : ConverterId) (f : Converter → Converter) : (s.modConverter c f).freePages = s.freePages := rfl
@[simp] theorem State.modConverter_staging (c : ConverterId) (f : Converter → Converter) : (s.modConverter c f).staging = s.staging := rfl
@[simp] theorem State.modConverter_windows (c : ConverterId) (f : Converter → Converter) : (s.modConverter c f).windows = s.windows := rfl
@[simp] theorem State.modConverter_buffers (c : ConverterId) (f : Converter → Converter) : (s.modConverter c f).buffers = s.buffers := rfl
@[simp] theorem State.modConverter_writeInFlight (c : ConverterId) (f : Converter → Converter) : (s.modConverter c f).writeInFlight = s.writeInFlight := rfl
@[simp] theorem State.modConverter_grantPointer (c : ConverterId) (f : Converter → Converter) : (s.modConverter c f).grantPointer = s.grantPointer := rfl
@[simp] theorem State.modConverter_becameEligible (c : ConverterId) (f : Converter → Converter) : (s.modConverter c f).becameEligible = s.becameEligible := rfl
@[simp] theorem State.modConverter_generators (c : ConverterId) (f : Converter → Converter) : (s.modConverter c f).generators = s.generators := rfl
@[simp] theorem State.modConverter_lines (c : ConverterId) (f : Converter → Converter) : (s.modConverter c f).lines = s.lines := rfl
@[simp] theorem State.modConverter_syncHigh (c : ConverterId) (f : Converter → Converter) : (s.modConverter c f).syncHigh = s.syncHigh := rfl
@[simp] theorem State.modConverter_syncNext (c : ConverterId) (f : Converter → Converter) : (s.modConverter c f).syncNext = s.syncNext := rfl
@[simp] theorem State.modConverter_watches (c : ConverterId) (f : Converter → Converter) : (s.modConverter c f).watches = s.watches := rfl
@[simp] theorem State.modConverter_alertLevel (c : ConverterId) (f : Converter → Converter) : (s.modConverter c f).alertLevel = s.alertLevel := rfl
@[simp] theorem State.modConverter_offers (c : ConverterId) (f : Converter → Converter) : (s.modConverter c f).offers = s.offers := rfl
@[simp] theorem State.modConverter_timebase (c : ConverterId) (f : Converter → Converter) : (s.modConverter c f).timebase = s.timebase := rfl

@[simp] theorem State.modGenerator_pending (g : GeneratorId) (f : Generator → Generator) : (s.modGenerator g f).pending = s.pending := rfl
@[simp] theorem State.modGenerator_elapsed (g : GeneratorId) (f : Generator → Generator) : (s.modGenerator g f).elapsed = s.elapsed := rfl
@[simp] theorem State.modGenerator_choices (g : GeneratorId) (f : Generator → Generator) : (s.modGenerator g f).choices = s.choices := rfl
@[simp] theorem State.modGenerator_bus (g : GeneratorId) (f : Generator → Generator) : (s.modGenerator g f).bus = s.bus := rfl
@[simp] theorem State.modGenerator_nextPassId (g : GeneratorId) (f : Generator → Generator) : (s.modGenerator g f).nextPassId = s.nextPassId := rfl
@[simp] theorem State.modGenerator_link (g : GeneratorId) (f : Generator → Generator) : (s.modGenerator g f).link = s.link := rfl
@[simp] theorem State.modGenerator_orders (g : GeneratorId) (f : Generator → Generator) : (s.modGenerator g f).orders = s.orders := rfl
@[simp] theorem State.modGenerator_rings (g : GeneratorId) (f : Generator → Generator) : (s.modGenerator g f).rings = s.rings := rfl
@[simp] theorem State.modGenerator_outboxes (g : GeneratorId) (f : Generator → Generator) : (s.modGenerator g f).outboxes = s.outboxes := rfl
@[simp] theorem State.modGenerator_streams (g : GeneratorId) (f : Generator → Generator) : (s.modGenerator g f).streams = s.streams := rfl
@[simp] theorem State.modGenerator_returns (g : GeneratorId) (f : Generator → Generator) : (s.modGenerator g f).returns = s.returns := rfl
@[simp] theorem State.modGenerator_scanLists (g : GeneratorId) (f : Generator → Generator) : (s.modGenerator g f).scanLists = s.scanLists := rfl
@[simp] theorem State.modGenerator_channels (g : GeneratorId) (f : Generator → Generator) : (s.modGenerator g f).channels = s.channels := rfl
@[simp] theorem State.modGenerator_converters (g : GeneratorId) (f : Generator → Generator) : (s.modGenerator g f).converters = s.converters := rfl
@[simp] theorem State.modGenerator_freePages (g : GeneratorId) (f : Generator → Generator) : (s.modGenerator g f).freePages = s.freePages := rfl
@[simp] theorem State.modGenerator_staging (g : GeneratorId) (f : Generator → Generator) : (s.modGenerator g f).staging = s.staging := rfl
@[simp] theorem State.modGenerator_windows (g : GeneratorId) (f : Generator → Generator) : (s.modGenerator g f).windows = s.windows := rfl
@[simp] theorem State.modGenerator_buffers (g : GeneratorId) (f : Generator → Generator) : (s.modGenerator g f).buffers = s.buffers := rfl
@[simp] theorem State.modGenerator_writeInFlight (g : GeneratorId) (f : Generator → Generator) : (s.modGenerator g f).writeInFlight = s.writeInFlight := rfl
@[simp] theorem State.modGenerator_grantPointer (g : GeneratorId) (f : Generator → Generator) : (s.modGenerator g f).grantPointer = s.grantPointer := rfl
@[simp] theorem State.modGenerator_becameEligible (g : GeneratorId) (f : Generator → Generator) : (s.modGenerator g f).becameEligible = s.becameEligible := rfl
@[simp] theorem State.modGenerator_generators (g : GeneratorId) (f : Generator → Generator) : (s.modGenerator g f).generators = upd s.generators g f := rfl
@[simp] theorem State.modGenerator_lines (g : GeneratorId) (f : Generator → Generator) : (s.modGenerator g f).lines = s.lines := rfl
@[simp] theorem State.modGenerator_syncHigh (g : GeneratorId) (f : Generator → Generator) : (s.modGenerator g f).syncHigh = s.syncHigh := rfl
@[simp] theorem State.modGenerator_syncNext (g : GeneratorId) (f : Generator → Generator) : (s.modGenerator g f).syncNext = s.syncNext := rfl
@[simp] theorem State.modGenerator_watches (g : GeneratorId) (f : Generator → Generator) : (s.modGenerator g f).watches = s.watches := rfl
@[simp] theorem State.modGenerator_alertLevel (g : GeneratorId) (f : Generator → Generator) : (s.modGenerator g f).alertLevel = s.alertLevel := rfl
@[simp] theorem State.modGenerator_offers (g : GeneratorId) (f : Generator → Generator) : (s.modGenerator g f).offers = s.offers := rfl
@[simp] theorem State.modGenerator_timebase (g : GeneratorId) (f : Generator → Generator) : (s.modGenerator g f).timebase = s.timebase := rfl

@[simp] theorem State.modWatch_pending (m : WatchId) (f : Watch → Watch) : (s.modWatch m f).pending = s.pending := rfl
@[simp] theorem State.modWatch_elapsed (m : WatchId) (f : Watch → Watch) : (s.modWatch m f).elapsed = s.elapsed := rfl
@[simp] theorem State.modWatch_choices (m : WatchId) (f : Watch → Watch) : (s.modWatch m f).choices = s.choices := rfl
@[simp] theorem State.modWatch_bus (m : WatchId) (f : Watch → Watch) : (s.modWatch m f).bus = s.bus := rfl
@[simp] theorem State.modWatch_nextPassId (m : WatchId) (f : Watch → Watch) : (s.modWatch m f).nextPassId = s.nextPassId := rfl
@[simp] theorem State.modWatch_link (m : WatchId) (f : Watch → Watch) : (s.modWatch m f).link = s.link := rfl
@[simp] theorem State.modWatch_orders (m : WatchId) (f : Watch → Watch) : (s.modWatch m f).orders = s.orders := rfl
@[simp] theorem State.modWatch_rings (m : WatchId) (f : Watch → Watch) : (s.modWatch m f).rings = s.rings := rfl
@[simp] theorem State.modWatch_outboxes (m : WatchId) (f : Watch → Watch) : (s.modWatch m f).outboxes = s.outboxes := rfl
@[simp] theorem State.modWatch_streams (m : WatchId) (f : Watch → Watch) : (s.modWatch m f).streams = s.streams := rfl
@[simp] theorem State.modWatch_returns (m : WatchId) (f : Watch → Watch) : (s.modWatch m f).returns = s.returns := rfl
@[simp] theorem State.modWatch_scanLists (m : WatchId) (f : Watch → Watch) : (s.modWatch m f).scanLists = s.scanLists := rfl
@[simp] theorem State.modWatch_channels (m : WatchId) (f : Watch → Watch) : (s.modWatch m f).channels = s.channels := rfl
@[simp] theorem State.modWatch_converters (m : WatchId) (f : Watch → Watch) : (s.modWatch m f).converters = s.converters := rfl
@[simp] theorem State.modWatch_freePages (m : WatchId) (f : Watch → Watch) : (s.modWatch m f).freePages = s.freePages := rfl
@[simp] theorem State.modWatch_staging (m : WatchId) (f : Watch → Watch) : (s.modWatch m f).staging = s.staging := rfl
@[simp] theorem State.modWatch_windows (m : WatchId) (f : Watch → Watch) : (s.modWatch m f).windows = s.windows := rfl
@[simp] theorem State.modWatch_buffers (m : WatchId) (f : Watch → Watch) : (s.modWatch m f).buffers = s.buffers := rfl
@[simp] theorem State.modWatch_writeInFlight (m : WatchId) (f : Watch → Watch) : (s.modWatch m f).writeInFlight = s.writeInFlight := rfl
@[simp] theorem State.modWatch_grantPointer (m : WatchId) (f : Watch → Watch) : (s.modWatch m f).grantPointer = s.grantPointer := rfl
@[simp] theorem State.modWatch_becameEligible (m : WatchId) (f : Watch → Watch) : (s.modWatch m f).becameEligible = s.becameEligible := rfl
@[simp] theorem State.modWatch_generators (m : WatchId) (f : Watch → Watch) : (s.modWatch m f).generators = s.generators := rfl
@[simp] theorem State.modWatch_lines (m : WatchId) (f : Watch → Watch) : (s.modWatch m f).lines = s.lines := rfl
@[simp] theorem State.modWatch_syncHigh (m : WatchId) (f : Watch → Watch) : (s.modWatch m f).syncHigh = s.syncHigh := rfl
@[simp] theorem State.modWatch_syncNext (m : WatchId) (f : Watch → Watch) : (s.modWatch m f).syncNext = s.syncNext := rfl
@[simp] theorem State.modWatch_watches (m : WatchId) (f : Watch → Watch) : (s.modWatch m f).watches = upd s.watches m f := rfl
@[simp] theorem State.modWatch_alertLevel (m : WatchId) (f : Watch → Watch) : (s.modWatch m f).alertLevel = s.alertLevel := rfl
@[simp] theorem State.modWatch_offers (m : WatchId) (f : Watch → Watch) : (s.modWatch m f).offers = s.offers := rfl
@[simp] theorem State.modWatch_timebase (m : WatchId) (f : Watch → Watch) : (s.modWatch m f).timebase = s.timebase := rfl

@[simp] theorem State.setRing_pending (n : RingId) (r : Ring) : (s.setRing n r).pending = s.pending := rfl
@[simp] theorem State.setRing_elapsed (n : RingId) (r : Ring) : (s.setRing n r).elapsed = s.elapsed := rfl
@[simp] theorem State.setRing_choices (n : RingId) (r : Ring) : (s.setRing n r).choices = s.choices := rfl
@[simp] theorem State.setRing_bus (n : RingId) (r : Ring) : (s.setRing n r).bus = s.bus := rfl
@[simp] theorem State.setRing_nextPassId (n : RingId) (r : Ring) : (s.setRing n r).nextPassId = s.nextPassId := rfl
@[simp] theorem State.setRing_link (n : RingId) (r : Ring) : (s.setRing n r).link = s.link := rfl
@[simp] theorem State.setRing_orders (n : RingId) (r : Ring) : (s.setRing n r).orders = s.orders := rfl
@[simp] theorem State.setRing_rings (n : RingId) (r : Ring) : (s.setRing n r).rings = upd s.rings n (fun _ => some r) := rfl
@[simp] theorem State.setRing_outboxes (n : RingId) (r : Ring) : (s.setRing n r).outboxes = s.outboxes := rfl
@[simp] theorem State.setRing_streams (n : RingId) (r : Ring) : (s.setRing n r).streams = s.streams := rfl
@[simp] theorem State.setRing_returns (n : RingId) (r : Ring) : (s.setRing n r).returns = s.returns := rfl
@[simp] theorem State.setRing_scanLists (n : RingId) (r : Ring) : (s.setRing n r).scanLists = s.scanLists := rfl
@[simp] theorem State.setRing_channels (n : RingId) (r : Ring) : (s.setRing n r).channels = s.channels := rfl
@[simp] theorem State.setRing_converters (n : RingId) (r : Ring) : (s.setRing n r).converters = s.converters := rfl
@[simp] theorem State.setRing_freePages (n : RingId) (r : Ring) : (s.setRing n r).freePages = s.freePages := rfl
@[simp] theorem State.setRing_staging (n : RingId) (r : Ring) : (s.setRing n r).staging = s.staging := rfl
@[simp] theorem State.setRing_windows (n : RingId) (r : Ring) : (s.setRing n r).windows = s.windows := rfl
@[simp] theorem State.setRing_buffers (n : RingId) (r : Ring) : (s.setRing n r).buffers = s.buffers := rfl
@[simp] theorem State.setRing_writeInFlight (n : RingId) (r : Ring) : (s.setRing n r).writeInFlight = s.writeInFlight := rfl
@[simp] theorem State.setRing_grantPointer (n : RingId) (r : Ring) : (s.setRing n r).grantPointer = s.grantPointer := rfl
@[simp] theorem State.setRing_becameEligible (n : RingId) (r : Ring) : (s.setRing n r).becameEligible = s.becameEligible := rfl
@[simp] theorem State.setRing_generators (n : RingId) (r : Ring) : (s.setRing n r).generators = s.generators := rfl
@[simp] theorem State.setRing_lines (n : RingId) (r : Ring) : (s.setRing n r).lines = s.lines := rfl
@[simp] theorem State.setRing_syncHigh (n : RingId) (r : Ring) : (s.setRing n r).syncHigh = s.syncHigh := rfl
@[simp] theorem State.setRing_syncNext (n : RingId) (r : Ring) : (s.setRing n r).syncNext = s.syncNext := rfl
@[simp] theorem State.setRing_watches (n : RingId) (r : Ring) : (s.setRing n r).watches = s.watches := rfl
@[simp] theorem State.setRing_alertLevel (n : RingId) (r : Ring) : (s.setRing n r).alertLevel = s.alertLevel := rfl
@[simp] theorem State.setRing_offers (n : RingId) (r : Ring) : (s.setRing n r).offers = s.offers := rfl
@[simp] theorem State.setRing_timebase (n : RingId) (r : Ring) : (s.setRing n r).timebase = s.timebase := rfl

@[simp] theorem State.emit_pending (item : BusItem) : (s.emit item).pending = s.pending := rfl
@[simp] theorem State.emit_elapsed (item : BusItem) : (s.emit item).elapsed = s.elapsed := rfl
@[simp] theorem State.emit_choices (item : BusItem) : (s.emit item).choices = s.choices := rfl
@[simp] theorem State.emit_bus (item : BusItem) : (s.emit item).bus = s.bus ++ [item] := rfl
@[simp] theorem State.emit_nextPassId (item : BusItem) : (s.emit item).nextPassId = s.nextPassId := rfl
@[simp] theorem State.emit_link (item : BusItem) : (s.emit item).link = s.link := rfl
@[simp] theorem State.emit_orders (item : BusItem) : (s.emit item).orders = s.orders := rfl
@[simp] theorem State.emit_rings (item : BusItem) : (s.emit item).rings = s.rings := rfl
@[simp] theorem State.emit_outboxes (item : BusItem) : (s.emit item).outboxes = s.outboxes := rfl
@[simp] theorem State.emit_streams (item : BusItem) : (s.emit item).streams = s.streams := rfl
@[simp] theorem State.emit_returns (item : BusItem) : (s.emit item).returns = s.returns := rfl
@[simp] theorem State.emit_scanLists (item : BusItem) : (s.emit item).scanLists = s.scanLists := rfl
@[simp] theorem State.emit_channels (item : BusItem) : (s.emit item).channels = s.channels := rfl
@[simp] theorem State.emit_converters (item : BusItem) : (s.emit item).converters = s.converters := rfl
@[simp] theorem State.emit_freePages (item : BusItem) : (s.emit item).freePages = s.freePages := rfl
@[simp] theorem State.emit_staging (item : BusItem) : (s.emit item).staging = s.staging := rfl
@[simp] theorem State.emit_windows (item : BusItem) : (s.emit item).windows = s.windows := rfl
@[simp] theorem State.emit_buffers (item : BusItem) : (s.emit item).buffers = s.buffers := rfl
@[simp] theorem State.emit_writeInFlight (item : BusItem) : (s.emit item).writeInFlight = s.writeInFlight := rfl
@[simp] theorem State.emit_grantPointer (item : BusItem) : (s.emit item).grantPointer = s.grantPointer := rfl
@[simp] theorem State.emit_becameEligible (item : BusItem) : (s.emit item).becameEligible = s.becameEligible := rfl
@[simp] theorem State.emit_generators (item : BusItem) : (s.emit item).generators = s.generators := rfl
@[simp] theorem State.emit_lines (item : BusItem) : (s.emit item).lines = s.lines := rfl
@[simp] theorem State.emit_syncHigh (item : BusItem) : (s.emit item).syncHigh = s.syncHigh := rfl
@[simp] theorem State.emit_syncNext (item : BusItem) : (s.emit item).syncNext = s.syncNext := rfl
@[simp] theorem State.emit_watches (item : BusItem) : (s.emit item).watches = s.watches := rfl
@[simp] theorem State.emit_alertLevel (item : BusItem) : (s.emit item).alertLevel = s.alertLevel := rfl
@[simp] theorem State.emit_offers (item : BusItem) : (s.emit item).offers = s.offers := rfl
@[simp] theorem State.emit_timebase (item : BusItem) : (s.emit item).timebase = s.timebase := rfl

@[simp] theorem State.setList_pending (l : ListId) (steps : List ScanStep) : (s.setList l steps).pending = s.pending := rfl
@[simp] theorem State.setList_elapsed (l : ListId) (steps : List ScanStep) : (s.setList l steps).elapsed = s.elapsed := rfl
@[simp] theorem State.setList_choices (l : ListId) (steps : List ScanStep) : (s.setList l steps).choices = s.choices := rfl
@[simp] theorem State.setList_bus (l : ListId) (steps : List ScanStep) : (s.setList l steps).bus = s.bus := rfl
@[simp] theorem State.setList_nextPassId (l : ListId) (steps : List ScanStep) : (s.setList l steps).nextPassId = s.nextPassId := rfl
@[simp] theorem State.setList_link (l : ListId) (steps : List ScanStep) : (s.setList l steps).link = s.link := rfl
@[simp] theorem State.setList_orders (l : ListId) (steps : List ScanStep) : (s.setList l steps).orders = s.orders := rfl
@[simp] theorem State.setList_rings (l : ListId) (steps : List ScanStep) : (s.setList l steps).rings = s.rings := rfl
@[simp] theorem State.setList_outboxes (l : ListId) (steps : List ScanStep) : (s.setList l steps).outboxes = s.outboxes := rfl
@[simp] theorem State.setList_streams (l : ListId) (steps : List ScanStep) : (s.setList l steps).streams = s.streams := rfl
@[simp] theorem State.setList_returns (l : ListId) (steps : List ScanStep) : (s.setList l steps).returns = s.returns := rfl
@[simp] theorem State.setList_scanLists (l : ListId) (steps : List ScanStep) : (s.setList l steps).scanLists = upd s.scanLists l (fun _ => steps) := rfl
@[simp] theorem State.setList_channels (l : ListId) (steps : List ScanStep) : (s.setList l steps).channels = s.channels := rfl
@[simp] theorem State.setList_converters (l : ListId) (steps : List ScanStep) : (s.setList l steps).converters = s.converters := rfl
@[simp] theorem State.setList_freePages (l : ListId) (steps : List ScanStep) : (s.setList l steps).freePages = s.freePages := rfl
@[simp] theorem State.setList_staging (l : ListId) (steps : List ScanStep) : (s.setList l steps).staging = s.staging := rfl
@[simp] theorem State.setList_windows (l : ListId) (steps : List ScanStep) : (s.setList l steps).windows = s.windows := rfl
@[simp] theorem State.setList_buffers (l : ListId) (steps : List ScanStep) : (s.setList l steps).buffers = s.buffers := rfl
@[simp] theorem State.setList_writeInFlight (l : ListId) (steps : List ScanStep) : (s.setList l steps).writeInFlight = s.writeInFlight := rfl
@[simp] theorem State.setList_grantPointer (l : ListId) (steps : List ScanStep) : (s.setList l steps).grantPointer = s.grantPointer := rfl
@[simp] theorem State.setList_becameEligible (l : ListId) (steps : List ScanStep) : (s.setList l steps).becameEligible = s.becameEligible := rfl
@[simp] theorem State.setList_generators (l : ListId) (steps : List ScanStep) : (s.setList l steps).generators = s.generators := rfl
@[simp] theorem State.setList_lines (l : ListId) (steps : List ScanStep) : (s.setList l steps).lines = s.lines := rfl
@[simp] theorem State.setList_syncHigh (l : ListId) (steps : List ScanStep) : (s.setList l steps).syncHigh = s.syncHigh := rfl
@[simp] theorem State.setList_syncNext (l : ListId) (steps : List ScanStep) : (s.setList l steps).syncNext = s.syncNext := rfl
@[simp] theorem State.setList_watches (l : ListId) (steps : List ScanStep) : (s.setList l steps).watches = s.watches := rfl
@[simp] theorem State.setList_alertLevel (l : ListId) (steps : List ScanStep) : (s.setList l steps).alertLevel = s.alertLevel := rfl
@[simp] theorem State.setList_offers (l : ListId) (steps : List ScanStep) : (s.setList l steps).offers = s.offers := rfl
@[simp] theorem State.setList_timebase (l : ListId) (steps : List ScanStep) : (s.setList l steps).timebase = s.timebase := rfl

@[simp] theorem State.modTimebase_pending (f : Timebase → Timebase) : (s.modTimebase f).pending = s.pending := rfl
@[simp] theorem State.modTimebase_elapsed (f : Timebase → Timebase) : (s.modTimebase f).elapsed = s.elapsed := rfl
@[simp] theorem State.modTimebase_choices (f : Timebase → Timebase) : (s.modTimebase f).choices = s.choices := rfl
@[simp] theorem State.modTimebase_bus (f : Timebase → Timebase) : (s.modTimebase f).bus = s.bus := rfl
@[simp] theorem State.modTimebase_nextPassId (f : Timebase → Timebase) : (s.modTimebase f).nextPassId = s.nextPassId := rfl
@[simp] theorem State.modTimebase_link (f : Timebase → Timebase) : (s.modTimebase f).link = s.link := rfl
@[simp] theorem State.modTimebase_orders (f : Timebase → Timebase) : (s.modTimebase f).orders = s.orders := rfl
@[simp] theorem State.modTimebase_rings (f : Timebase → Timebase) : (s.modTimebase f).rings = s.rings := rfl
@[simp] theorem State.modTimebase_outboxes (f : Timebase → Timebase) : (s.modTimebase f).outboxes = s.outboxes := rfl
@[simp] theorem State.modTimebase_streams (f : Timebase → Timebase) : (s.modTimebase f).streams = s.streams := rfl
@[simp] theorem State.modTimebase_returns (f : Timebase → Timebase) : (s.modTimebase f).returns = s.returns := rfl
@[simp] theorem State.modTimebase_scanLists (f : Timebase → Timebase) : (s.modTimebase f).scanLists = s.scanLists := rfl
@[simp] theorem State.modTimebase_channels (f : Timebase → Timebase) : (s.modTimebase f).channels = s.channels := rfl
@[simp] theorem State.modTimebase_converters (f : Timebase → Timebase) : (s.modTimebase f).converters = s.converters := rfl
@[simp] theorem State.modTimebase_freePages (f : Timebase → Timebase) : (s.modTimebase f).freePages = s.freePages := rfl
@[simp] theorem State.modTimebase_staging (f : Timebase → Timebase) : (s.modTimebase f).staging = s.staging := rfl
@[simp] theorem State.modTimebase_windows (f : Timebase → Timebase) : (s.modTimebase f).windows = s.windows := rfl
@[simp] theorem State.modTimebase_buffers (f : Timebase → Timebase) : (s.modTimebase f).buffers = s.buffers := rfl
@[simp] theorem State.modTimebase_writeInFlight (f : Timebase → Timebase) : (s.modTimebase f).writeInFlight = s.writeInFlight := rfl
@[simp] theorem State.modTimebase_grantPointer (f : Timebase → Timebase) : (s.modTimebase f).grantPointer = s.grantPointer := rfl
@[simp] theorem State.modTimebase_becameEligible (f : Timebase → Timebase) : (s.modTimebase f).becameEligible = s.becameEligible := rfl
@[simp] theorem State.modTimebase_generators (f : Timebase → Timebase) : (s.modTimebase f).generators = s.generators := rfl
@[simp] theorem State.modTimebase_lines (f : Timebase → Timebase) : (s.modTimebase f).lines = s.lines := rfl
@[simp] theorem State.modTimebase_syncHigh (f : Timebase → Timebase) : (s.modTimebase f).syncHigh = s.syncHigh := rfl
@[simp] theorem State.modTimebase_syncNext (f : Timebase → Timebase) : (s.modTimebase f).syncNext = s.syncNext := rfl
@[simp] theorem State.modTimebase_watches (f : Timebase → Timebase) : (s.modTimebase f).watches = s.watches := rfl
@[simp] theorem State.modTimebase_alertLevel (f : Timebase → Timebase) : (s.modTimebase f).alertLevel = s.alertLevel := rfl
@[simp] theorem State.modTimebase_offers (f : Timebase → Timebase) : (s.modTimebase f).offers = s.offers := rfl
@[simp] theorem State.modTimebase_timebase (f : Timebase → Timebase) : (s.modTimebase f).timebase = f s.timebase := rfl

@[simp] theorem State.setLink_pending (x : LinkState) : (s.setLink x).pending = s.pending := rfl
@[simp] theorem State.setLink_elapsed (x : LinkState) : (s.setLink x).elapsed = s.elapsed := rfl
@[simp] theorem State.setLink_choices (x : LinkState) : (s.setLink x).choices = s.choices := rfl
@[simp] theorem State.setLink_bus (x : LinkState) : (s.setLink x).bus = s.bus := rfl
@[simp] theorem State.setLink_nextPassId (x : LinkState) : (s.setLink x).nextPassId = s.nextPassId := rfl
@[simp] theorem State.setLink_link (x : LinkState) : (s.setLink x).link = { s.link with state := x } := rfl
@[simp] theorem State.setLink_orders (x : LinkState) : (s.setLink x).orders = s.orders := rfl
@[simp] theorem State.setLink_rings (x : LinkState) : (s.setLink x).rings = s.rings := rfl
@[simp] theorem State.setLink_outboxes (x : LinkState) : (s.setLink x).outboxes = s.outboxes := rfl
@[simp] theorem State.setLink_streams (x : LinkState) : (s.setLink x).streams = s.streams := rfl
@[simp] theorem State.setLink_returns (x : LinkState) : (s.setLink x).returns = s.returns := rfl
@[simp] theorem State.setLink_scanLists (x : LinkState) : (s.setLink x).scanLists = s.scanLists := rfl
@[simp] theorem State.setLink_channels (x : LinkState) : (s.setLink x).channels = s.channels := rfl
@[simp] theorem State.setLink_converters (x : LinkState) : (s.setLink x).converters = s.converters := rfl
@[simp] theorem State.setLink_freePages (x : LinkState) : (s.setLink x).freePages = s.freePages := rfl
@[simp] theorem State.setLink_staging (x : LinkState) : (s.setLink x).staging = s.staging := rfl
@[simp] theorem State.setLink_windows (x : LinkState) : (s.setLink x).windows = s.windows := rfl
@[simp] theorem State.setLink_buffers (x : LinkState) : (s.setLink x).buffers = s.buffers := rfl
@[simp] theorem State.setLink_writeInFlight (x : LinkState) : (s.setLink x).writeInFlight = s.writeInFlight := rfl
@[simp] theorem State.setLink_grantPointer (x : LinkState) : (s.setLink x).grantPointer = s.grantPointer := rfl
@[simp] theorem State.setLink_becameEligible (x : LinkState) : (s.setLink x).becameEligible = s.becameEligible := rfl
@[simp] theorem State.setLink_generators (x : LinkState) : (s.setLink x).generators = s.generators := rfl
@[simp] theorem State.setLink_lines (x : LinkState) : (s.setLink x).lines = s.lines := rfl
@[simp] theorem State.setLink_syncHigh (x : LinkState) : (s.setLink x).syncHigh = s.syncHigh := rfl
@[simp] theorem State.setLink_syncNext (x : LinkState) : (s.setLink x).syncNext = s.syncNext := rfl
@[simp] theorem State.setLink_watches (x : LinkState) : (s.setLink x).watches = s.watches := rfl
@[simp] theorem State.setLink_alertLevel (x : LinkState) : (s.setLink x).alertLevel = s.alertLevel := rfl
@[simp] theorem State.setLink_offers (x : LinkState) : (s.setLink x).offers = s.offers := rfl
@[simp] theorem State.setLink_timebase (x : LinkState) : (s.setLink x).timebase = s.timebase := rfl

@[simp] theorem State.endCbRead_pending : (s.endCbRead).pending = s.pending := rfl
@[simp] theorem State.endCbRead_elapsed : (s.endCbRead).elapsed = s.elapsed := rfl
@[simp] theorem State.endCbRead_choices : (s.endCbRead).choices = s.choices := rfl
@[simp] theorem State.endCbRead_bus : (s.endCbRead).bus = s.bus := rfl
@[simp] theorem State.endCbRead_nextPassId : (s.endCbRead).nextPassId = s.nextPassId := rfl
@[simp] theorem State.endCbRead_link : (s.endCbRead).link = { s.link with cbRead := none } := rfl
@[simp] theorem State.endCbRead_orders : (s.endCbRead).orders = s.orders := rfl
@[simp] theorem State.endCbRead_rings : (s.endCbRead).rings = s.rings := rfl
@[simp] theorem State.endCbRead_outboxes : (s.endCbRead).outboxes = s.outboxes := rfl
@[simp] theorem State.endCbRead_streams : (s.endCbRead).streams = s.streams := rfl
@[simp] theorem State.endCbRead_returns : (s.endCbRead).returns = s.returns := rfl
@[simp] theorem State.endCbRead_scanLists : (s.endCbRead).scanLists = s.scanLists := rfl
@[simp] theorem State.endCbRead_channels : (s.endCbRead).channels = s.channels := rfl
@[simp] theorem State.endCbRead_converters : (s.endCbRead).converters = s.converters := rfl
@[simp] theorem State.endCbRead_freePages : (s.endCbRead).freePages = s.freePages := rfl
@[simp] theorem State.endCbRead_staging : (s.endCbRead).staging = s.staging := rfl
@[simp] theorem State.endCbRead_windows : (s.endCbRead).windows = s.windows := rfl
@[simp] theorem State.endCbRead_buffers : (s.endCbRead).buffers = s.buffers := rfl
@[simp] theorem State.endCbRead_writeInFlight : (s.endCbRead).writeInFlight = s.writeInFlight := rfl
@[simp] theorem State.endCbRead_grantPointer : (s.endCbRead).grantPointer = s.grantPointer := rfl
@[simp] theorem State.endCbRead_becameEligible : (s.endCbRead).becameEligible = s.becameEligible := rfl
@[simp] theorem State.endCbRead_generators : (s.endCbRead).generators = s.generators := rfl
@[simp] theorem State.endCbRead_lines : (s.endCbRead).lines = s.lines := rfl
@[simp] theorem State.endCbRead_syncHigh : (s.endCbRead).syncHigh = s.syncHigh := rfl
@[simp] theorem State.endCbRead_syncNext : (s.endCbRead).syncNext = s.syncNext := rfl
@[simp] theorem State.endCbRead_watches : (s.endCbRead).watches = s.watches := rfl
@[simp] theorem State.endCbRead_alertLevel : (s.endCbRead).alertLevel = s.alertLevel := rfl
@[simp] theorem State.endCbRead_offers : (s.endCbRead).offers = s.offers := rfl
@[simp] theorem State.endCbRead_timebase : (s.endCbRead).timebase = s.timebase := rfl

@[simp] theorem State.modLine_pending (n : LineId) (f : Line → Line) : (s.modLine n f).pending = s.pending := rfl
@[simp] theorem State.modLine_elapsed (n : LineId) (f : Line → Line) : (s.modLine n f).elapsed = s.elapsed := rfl
@[simp] theorem State.modLine_choices (n : LineId) (f : Line → Line) : (s.modLine n f).choices = s.choices := rfl
@[simp] theorem State.modLine_bus (n : LineId) (f : Line → Line) : (s.modLine n f).bus = s.bus := rfl
@[simp] theorem State.modLine_nextPassId (n : LineId) (f : Line → Line) : (s.modLine n f).nextPassId = s.nextPassId := rfl
@[simp] theorem State.modLine_link (n : LineId) (f : Line → Line) : (s.modLine n f).link = s.link := rfl
@[simp] theorem State.modLine_orders (n : LineId) (f : Line → Line) : (s.modLine n f).orders = s.orders := rfl
@[simp] theorem State.modLine_rings (n : LineId) (f : Line → Line) : (s.modLine n f).rings = s.rings := rfl
@[simp] theorem State.modLine_outboxes (n : LineId) (f : Line → Line) : (s.modLine n f).outboxes = s.outboxes := rfl
@[simp] theorem State.modLine_streams (n : LineId) (f : Line → Line) : (s.modLine n f).streams = s.streams := rfl
@[simp] theorem State.modLine_returns (n : LineId) (f : Line → Line) : (s.modLine n f).returns = s.returns := rfl
@[simp] theorem State.modLine_scanLists (n : LineId) (f : Line → Line) : (s.modLine n f).scanLists = s.scanLists := rfl
@[simp] theorem State.modLine_channels (n : LineId) (f : Line → Line) : (s.modLine n f).channels = s.channels := rfl
@[simp] theorem State.modLine_converters (n : LineId) (f : Line → Line) : (s.modLine n f).converters = s.converters := rfl
@[simp] theorem State.modLine_freePages (n : LineId) (f : Line → Line) : (s.modLine n f).freePages = s.freePages := rfl
@[simp] theorem State.modLine_staging (n : LineId) (f : Line → Line) : (s.modLine n f).staging = s.staging := rfl
@[simp] theorem State.modLine_windows (n : LineId) (f : Line → Line) : (s.modLine n f).windows = s.windows := rfl
@[simp] theorem State.modLine_buffers (n : LineId) (f : Line → Line) : (s.modLine n f).buffers = s.buffers := rfl
@[simp] theorem State.modLine_writeInFlight (n : LineId) (f : Line → Line) : (s.modLine n f).writeInFlight = s.writeInFlight := rfl
@[simp] theorem State.modLine_grantPointer (n : LineId) (f : Line → Line) : (s.modLine n f).grantPointer = s.grantPointer := rfl
@[simp] theorem State.modLine_becameEligible (n : LineId) (f : Line → Line) : (s.modLine n f).becameEligible = s.becameEligible := rfl
@[simp] theorem State.modLine_generators (n : LineId) (f : Line → Line) : (s.modLine n f).generators = s.generators := rfl
@[simp] theorem State.modLine_lines (n : LineId) (f : Line → Line) : (s.modLine n f).lines = upd s.lines n f := rfl
@[simp] theorem State.modLine_syncHigh (n : LineId) (f : Line → Line) : (s.modLine n f).syncHigh = s.syncHigh := rfl
@[simp] theorem State.modLine_syncNext (n : LineId) (f : Line → Line) : (s.modLine n f).syncNext = s.syncNext := rfl
@[simp] theorem State.modLine_watches (n : LineId) (f : Line → Line) : (s.modLine n f).watches = s.watches := rfl
@[simp] theorem State.modLine_alertLevel (n : LineId) (f : Line → Line) : (s.modLine n f).alertLevel = s.alertLevel := rfl
@[simp] theorem State.modLine_offers (n : LineId) (f : Line → Line) : (s.modLine n f).offers = s.offers := rfl
@[simp] theorem State.modLine_timebase (n : LineId) (f : Line → Line) : (s.modLine n f).timebase = s.timebase := rfl

end Sys2Proof.Machine
end

