-- ==== Sys2Proof/Laws/RingSteps.lean ====
section
/-!
SUPPORT. Laws/RingSteps.lean: what the operations of the Completion Unit can do. `RingStep s t` says it once: nothing but
the rings and the output changes, the output grows, no ring becomes enabled or disabled, rings in order stay in order, and
with no ring enabled nothing happens at all.
-/

namespace Sys2Proof.Machine

/-- Records may have been written or queued, and messages sent. -/
structure RingStep (s t : State) : Prop where
  frame : ∃ R B, t = { s with rings := R, bus := B }
  grows : ∃ l, t.bus = s.bus ++ l
  enabled : ∀ n : RingId, (t.rings[n]).isSome = (s.rings[n]).isSome
  ordered : s.RingsOrdered → t.RingsOrdered
  quiet : (∀ n : RingId, s.rings[n] = none) → t.bus = s.bus

theorem RingStep.refl (s : State) : RingStep s s :=
  ⟨⟨s.rings, s.bus, rfl⟩, ⟨[], by simp⟩, fun _ => rfl, id, fun _ => rfl⟩

/-- With no ring enabled before, none is enabled after. -/
theorem RingStep.none {s t : State} (h : RingStep s t) (hn : ∀ n : RingId, s.rings[n] = none) (n : RingId) :
    t.rings[n] = none := by
  have := h.enabled n
  rw [hn n] at this
  exact Option.isSome_eq_false_iff.mp this |> Option.isNone_iff_eq_none.mp

theorem RingStep.trans {s t u : State} (h : RingStep s t) (k : RingStep t u) : RingStep s u := by
  refine ⟨?_, ?_, fun n => (k.enabled n).trans (h.enabled n), fun o => k.ordered (h.ordered o), fun q => ?_⟩
  · obtain ⟨R, B, rfl⟩ := h.frame
    obtain ⟨R', B', rfl⟩ := k.frame
    exact ⟨R', B', rfl⟩
  · obtain ⟨l, hl⟩ := h.grows
    obtain ⟨l', hl'⟩ := k.grows
    exact ⟨l ++ l', by rw [hl', hl, List.append_assoc]⟩
  · rw [k.quiet (h.none q), h.quiet q]

/-! ### Rings in order -/

theorem Ring.outstanding_lt (r : Ring) (h : 0 < r.size) : r.outstanding < 2 * r.size := Nat.mod_lt _ (by omega)

/-- A write into a free slot counts one more slot outstanding. -/
theorem Ring.outstanding_afterWrite (r : Ring) (now : Nat) (o : r.Ordered) (f : 0 < r.free) :
    (r.afterWrite now).outstanding = r.outstanding + 1 := by
  have h1 := o.size_pos
  have h2 := o.written_lt
  have h3 := o.returned_lt
  simp only [Ring.free] at f
  have f' : r.outstanding < r.size := by omega
  simp only [Ring.outstanding, Ring.afterWrite] at *
  rcases Nat.lt_or_ge (r.written + 1) (2 * r.size) with hw | hw
  · rw [Nat.mod_eq_of_lt hw]
    rcases Nat.lt_or_ge r.written r.returned with hc | hc
    · have e1 : (r.written + 2 * r.size - r.returned) % (2 * r.size) = r.written + 2 * r.size - r.returned :=
        Nat.mod_eq_of_lt (by omega)
      rw [e1] at f' ⊢
      rw [Nat.mod_eq_of_lt (by omega)]
      omega
    · have e1 : (r.written + 2 * r.size - r.returned) % (2 * r.size) = r.written - r.returned := by
        rw [show r.written + 2 * r.size - r.returned = (r.written - r.returned) + 2 * r.size by omega,
          Nat.add_mod_right, Nat.mod_eq_of_lt (by omega)]
      have e2 : (r.written + 1 + 2 * r.size - r.returned) % (2 * r.size) = r.written + 1 - r.returned := by
        rw [show r.written + 1 + 2 * r.size - r.returned = (r.written + 1 - r.returned) + 2 * r.size by omega,
          Nat.add_mod_right, Nat.mod_eq_of_lt (by omega)]
      omega
  · have hw' : r.written + 1 = 2 * r.size := by omega
    rw [hw', Nat.mod_self]
    have e1 : (r.written + 2 * r.size - r.returned) % (2 * r.size) = r.written - r.returned := by
      rw [show r.written + 2 * r.size - r.returned = (r.written - r.returned) + 2 * r.size by omega,
        Nat.add_mod_right, Nat.mod_eq_of_lt (by omega)]
    rw [e1] at f' ⊢
    rw [Nat.mod_eq_of_lt (by omega)]
    omega

theorem Ring.Ordered.afterWrite {r : Ring} (o : r.Ordered) (now : Nat) (f : 0 < r.free) :
    (r.afterWrite now).Ordered := by
  have h := r.outstanding_afterWrite now o f
  have hs := o.size_pos
  refine ⟨hs, Nat.mod_lt _ (by omega), o.returned_lt, ?_, o.waiting_le⟩
  rw [h]
  simp only [Ring.free] at f
  show r.outstanding + 1 ≤ r.size
  omega

/-- Changes of the notification fields keep a ring in order. -/
theorem Ring.Ordered.notify {r : Ring} (o : r.Ordered) (armed : Bool) (count : Nat) (timer : HoldoffTimer) :
    ({ r with armed := armed, count := count, timer := timer } : Ring).Ordered :=
  ⟨o.size_pos, o.written_lt, o.returned_lt, o.outstanding_le, o.waiting_le⟩

theorem Ring.Ordered.withWaiting {r : Ring} (o : r.Ordered) {l : List Record} (h : l.length ≤ pendingLimit) :
    ({ r with waiting := l } : Ring).Ordered :=
  ⟨o.size_pos, o.written_lt, o.returned_lt, o.outstanding_le, h⟩

/-! ### Steps -/

/-- One ring is replaced by another and something is issued. -/
theorem ringStep_set {s : State} {n : RingId} {r : Ring} (h : s.rings[n] = some r) (r' : Ring) (l : List BusItem)
    (o : r.Ordered → r'.Ordered) : RingStep s ({ s with bus := s.bus ++ l }.setRing n r') := by
  refine ⟨⟨_, _, rfl⟩, ⟨l, rfl⟩, ?_, ?_, ?_⟩
  · intro m
    by_cases e : m = n
    · subst e; simp [State.setRing, upd_get]; rw [show s.rings[m.val] = some r from h]; rfl
    · have : m.val ≠ n.val := fun x => e (Fin.ext x)
      simp [State.setRing, upd_get, this]
  · intro ho m q hq
    by_cases e : m = n
    · subst e
      simp [State.setRing, upd_get] at hq
      subst hq
      exact o (ho m r h)
    · have : m.val ≠ n.val := fun x => e (Fin.ext x)
      simp [State.setRing, upd_get, this] at hq
      exact ho m q hq
  · intro hn
    rw [hn n] at h
    cases h

theorem ringStep_setRing {s : State} {n : RingId} {r : Ring} (h : s.rings[n] = some r) (r' : Ring)
    (o : r.Ordered → r'.Ordered) : RingStep s (s.setRing n r') := by
  have := ringStep_set h r' [] o
  simpa [State.setRing] using this

theorem examineMessage_step (n : RingId) (s : State) : RingStep s (examineMessage n s) := by
  unfold examineMessage
  split
  · exact RingStep.refl s
  · rename_i r h
    split
    · unfold issueMessage
      split
      · exact ringStep_set h _ [_] (fun o => o.notify _ _ _)
      · exact ringStep_setRing h _ (fun o => o.notify _ _ _)
    · exact RingStep.refl s

theorem writeRecord_step (n : RingId) (r : Ring) (record : Record) (s : State) (h : s.rings[n] = some r)
    (f : 0 < r.free) : RingStep s (writeRecord n r record s) := by
  unfold writeRecord
  exact (ringStep_set h (r.afterWrite s.elapsed) [_] (fun o => o.afterWrite _ f)).trans (examineMessage_step _ _)

/-- Placement (R158) is a ring step. -/
theorem place_step {n : RingId} {record : Record} {s t : State} (h : place n record s = some t) : RingStep s t := by
  unfold place at h
  split at h
  · cases h
  · rename_i r hr
    split at h
    · rename_i c
      cases h
      exact writeRecord_step n r record s hr c.2
    · split at h
      · rename_i c
        cases h
        exact ringStep_setRing hr _ (fun o => o.withWaiting (by simp; omega))
      · cases h

theorem movePending_step (n : RingId) (fuel : Nat) : ∀ s : State, RingStep s (movePending n fuel s) := by
  induction fuel with
  | zero => exact fun s => RingStep.refl s
  | succ fuel ih =>
    intro s
    unfold movePending
    split
    · exact RingStep.refl s
    · rename_i r hr
      split
      · exact RingStep.refl s
      · rename_i record rest hw
        split
        · rename_i f
          have h1 : RingStep s (s.setRing n { r with waiting := rest }) :=
            ringStep_setRing hr _ (fun o => o.withWaiting (by have := o.waiting_le; rw [hw] at this; simp at this; omega))
          have h2 : (s.setRing n { r with waiting := rest }).rings[n] = some { r with waiting := rest } := by
            simp [State.setRing]
          exact (h1.trans (writeRecord_step n _ record _ h2 f)).trans (ih _)
        · exact RingStep.refl s

end Sys2Proof.Machine
end

