-- ==== Sys2Proof/Laws/StreamSteps.lean ====
section
/-!
SUPPORT. Laws/StreamSteps.lean: what the Stream Controller's transitions can do. `StreamStep i s t` says it once: only
stream i changes (its context, staging, buffers and outbox), with what it hands on (requests, offers, records); it keeps
its configuration and its pages, its buffer queue does not grow, and the rings change by ring steps only.
-/

namespace Sys2Proof.Machine

/-- A transition of stream `i`. -/
structure StreamStep (i : StreamId) (s t : State) : Prop where
  frame : ∃ st sg bf ob cv np oo R B be, t = { s with
    streams := st, staging := sg, buffers := bf, outboxes := ob, converters := cv, nextPassId := np, offers := oo,
    rings := R, bus := B, becameEligible := be }
  others : ∀ j : StreamId, j ≠ i → t.streams[j] = s.streams[j] ∧ t.staging[j] = s.staging[j] ∧
    t.buffers[j] = s.buffers[j] ∧ t.outboxes[j] = s.outboxes[j]
  config : (t.streams[i]).config = (s.streams[i]).config
  pages : (t.streams[i]).pagesHeld = (s.streams[i]).pagesHeld
  buffers : (t.buffers[i]).length ≤ (s.buffers[i]).length
  grows : ∃ l, t.bus = s.bus ++ l
  enabled : ∀ n : RingId, (t.rings[n]).isSome = (s.rings[n]).isSome
  ordered : s.RingsOrdered → t.RingsOrdered
  quiet : (∀ n : RingId, s.rings[n] = none) → t.bus = s.bus

variable {i : StreamId} {s t u : State}

theorem StreamStep.refl (i : StreamId) (s : State) : StreamStep i s s :=
  ⟨⟨_, _, _, _, _, _, _, _, _, _, rfl⟩, fun _ _ => ⟨rfl, rfl, rfl, rfl⟩, rfl, rfl, Nat.le_refl _, ⟨[], by simp⟩,
    fun _ => rfl, id, fun _ => rfl⟩

theorem StreamStep.none (h : StreamStep i s t) (hn : ∀ n : RingId, s.rings[n] = none) (n : RingId) :
    t.rings[n] = none := by
  have := h.enabled n
  rw [hn n] at this
  exact Option.isSome_eq_false_iff.mp this |> Option.isNone_iff_eq_none.mp

theorem StreamStep.trans (h : StreamStep i s t) (k : StreamStep i t u) : StreamStep i s u := by
  refine ⟨?_, ?_, k.config.trans h.config, k.pages.trans h.pages, Nat.le_trans k.buffers h.buffers, ?_,
    fun n => (k.enabled n).trans (h.enabled n), fun o => k.ordered (h.ordered o), fun q => ?_⟩
  · obtain ⟨_, _, _, _, _, _, _, _, _, _, rfl⟩ := h.frame
    obtain ⟨_, _, _, _, _, _, _, _, _, _, rfl⟩ := k.frame
    exact ⟨_, _, _, _, _, _, _, _, _, _, rfl⟩
  · intro j hj
    obtain ⟨a, b, c, d⟩ := h.others j hj
    obtain ⟨a', b', c', d'⟩ := k.others j hj
    exact ⟨a'.trans a, b'.trans b, c'.trans c, d'.trans d⟩
  · obtain ⟨l, hl⟩ := h.grows
    obtain ⟨l', hl'⟩ := k.grows
    exact ⟨l ++ l', by rw [hl', hl, List.append_assoc]⟩
  · rw [k.quiet (h.none q), h.quiet q]

/-- A ring step changes no stream at all. -/
theorem RingStep.stream (h : RingStep s t) (i : StreamId) : StreamStep i s t := by
  have hg := h.grows
  have he := h.enabled
  have ho := h.ordered
  have hq := h.quiet
  obtain ⟨R, B, rfl⟩ := h.frame
  exact ⟨⟨_, _, _, _, _, _, _, _, _, _, rfl⟩, fun _ _ => ⟨rfl, rfl, rfl, rfl⟩, rfl, rfl, Nat.le_refl _, hg, he, ho, hq⟩

/-! ### The named updates -/

theorem upd_other {α : Type} {n : Nat} (v : Vector α n) {i j : Fin n} (f : α → α) (h : j ≠ i) :
    (upd v i f)[j] = v[j] := upd_ne v f h

theorem upd_same {α : Type} {n : Nat} (v : Vector α n) (i : Fin n) (f : α → α) : (upd v i f)[i] = f v[i] := upd_self v i f

theorem modStream_step (i : StreamId) (f : StreamContext → StreamContext) (s : State)
    (hc : (f s.streams[i]).config = (s.streams[i]).config)
    (hp : (f s.streams[i]).pagesHeld = (s.streams[i]).pagesHeld) : StreamStep i s (s.modStream i f) := by
  refine ⟨⟨_, _, _, _, _, _, _, _, _, _, rfl⟩, fun j hj => ⟨upd_other _ f hj, rfl, rfl, rfl⟩, ?_, ?_, Nat.le_refl _,
    ⟨[], by simp⟩, fun _ => rfl, id, fun _ => rfl⟩
  · rw [← hc]; exact congrArg StreamContext.config (upd_same _ i f)
  · rw [← hp]; exact congrArg StreamContext.pagesHeld (upd_same _ i f)

theorem modStaging_step (i : StreamId) (f : Staging → Staging) (s : State) : StreamStep i s (s.modStaging i f) :=
  ⟨⟨_, _, _, _, _, _, _, _, _, _, rfl⟩, fun j hj => ⟨rfl, upd_other _ f hj, rfl, rfl⟩, rfl, rfl, Nat.le_refl _,
    ⟨[], by simp⟩, fun _ => rfl, id, fun _ => rfl⟩

theorem modBuffers_step (i : StreamId) (f : List Descriptor → List Descriptor) (s : State)
    (hl : (f s.buffers[i]).length ≤ (s.buffers[i]).length) : StreamStep i s (s.modBuffers i f) := by
  refine ⟨⟨_, _, _, _, _, _, _, _, _, _, rfl⟩, fun j hj => ⟨rfl, rfl, upd_other _ f hj, rfl⟩, rfl, rfl, ?_,
    ⟨[], by simp⟩, fun _ => rfl, id, fun _ => rfl⟩
  have : (s.modBuffers i f).buffers[i] = f s.buffers[i] := upd_same _ i f
  rw [this]
  exact hl

theorem modOutbox_step (i : StreamId) (f : List OutboxEntry → List OutboxEntry) (s : State) :
    StreamStep i s (s.modOutbox i f) :=
  ⟨⟨_, _, _, _, _, _, _, _, _, _, rfl⟩, fun j hj => ⟨rfl, rfl, rfl, upd_other _ f hj⟩, rfl, rfl, Nat.le_refl _,
    ⟨[], by simp⟩, fun _ => rfl, id, fun _ => rfl⟩

/-- A change of the converters, the pass identity or the offers only. -/
theorem handOn_step (i : StreamId) (s : State) (cv : Vector Converter 4) (np : Nat) (oo : List Offer) :
    StreamStep i s { s with converters := cv, nextPassId := np, offers := oo } :=
  ⟨⟨_, _, _, _, _, _, _, _, _, _, rfl⟩, fun _ _ => ⟨rfl, rfl, rfl, rfl⟩, rfl, rfl, Nat.le_refl _,
    ⟨[], by simp⟩, fun _ => rfl, id, fun _ => rfl⟩

/-- Noting that the stream became eligible changes the model's list only. -/
theorem noteEligible_eq (i : StreamId) (s t : State) :
    noteEligible i s t = { t with becameEligible := (noteEligible i s t).becameEligible } := by
  unfold noteEligible
  split <;> rfl

theorem StreamStep.note (h : StreamStep i s t) : StreamStep i s (noteEligible i s t) := by
  rw [noteEligible_eq]
  obtain ⟨⟨_, _, _, _, _, _, _, _, _, _, rfl⟩, b, c, d, e, f, g, k, l⟩ := h
  exact ⟨⟨_, _, _, _, _, _, _, _, _, _, rfl⟩, b, c, d, e, f, g, k, l⟩

/-! ### The transitions -/

theorem joinOutbox_step (i : StreamId) (record : Record) (s : State) : StreamStep i s (joinOutbox i record s) := by
  unfold joinOutbox
  split
  · exact StreamStep.refl i s
  · split
    · exact StreamStep.refl i s
    · split
      · split
        · rename_i h
          exact (place_step h).stream i
        · exact modOutbox_step i _ s
      · exact modOutbox_step i _ s

theorem streamRecord_step (i : StreamId) (event : StreamEvent) (s : State) :
    StreamStep i s (streamRecord i event s) := joinOutbox_step i _ s

theorem modHead_step (i : StreamId) (f : Descriptor → Descriptor) (s : State) : StreamStep i s (modHead i f s) := by
  refine modBuffers_step i _ s ?_
  cases s.buffers[i] <;> simp

theorem completeBuffer_step (i : StreamId) (flags : BufferFlags) (s : State) :
    StreamStep i s (completeBuffer i flags s) := by
  unfold completeBuffer
  split
  · exact StreamStep.refl i s
  · rename_i d rest h
    exact (modBuffers_step i (fun _ => rest) s (by rw [h]; simp)).trans (joinOutbox_step i _ _)

theorem completeCurrent_step (i : StreamId) (flags : BufferFlags) (s : State) :
    StreamStep i s (completeCurrent i flags s) := by
  unfold completeCurrent
  split
  · exact StreamStep.refl i s
  · exact completeBuffer_step i flags s

theorem endStream_step (i : StreamId) (reason : EndReason) (s : State) : StreamStep i s (endStream i reason s) :=
  (modStream_step i _ s rfl rfl).trans (streamRecord_step i _ _)

theorem drainComplete_step (i : StreamId) (s : State) : StreamStep i s (drainComplete i s) := by
  unfold drainComplete
  dsimp only
  split
  · split
    · exact (completeCurrent_step i _ s).trans (endStream_step i _ _)
    · exact StreamStep.refl i s
  · exact StreamStep.refl i s

theorem clearSlips_step (i : StreamId) (closes : Bool) (s : State) : StreamStep i s (clearSlips i closes s) := by
  unfold clearSlips
  split
  · exact modStream_step i _ s rfl rfl
  · exact StreamStep.refl i s

theorem drainEndMark_step (i : StreamId) (s : State) : StreamStep i s (drainEndMark i s) :=
  (modStaging_step i _ s).trans (clearSlips_step i _ _)

theorem enterDraining_step (i : StreamId) (reason : EndReason) (s : State) :
    StreamStep i s (enterDraining i reason s) := by
  have h := (modStream_step i (fun x => { x with state := .draining, endReason := some reason }) s rfl rfl).trans
    (streamRecord_step i (.draining reason (s.streams[i]).begun) _)
  unfold enterDraining
  dsimp only
  refine StreamStep.note ?_
  split
  · exact (h.trans (drainEndMark_step i _)).trans (drainComplete_step i _)
  · exact h

theorem withdrawPass_step (i : StreamId) (s : State) : StreamStep i s (withdrawPass i s) :=
  (handOn_step i s _ s.nextPassId s.offers).trans (modStream_step i _ _ rfl rfl)

theorem endArmed_step (i : StreamId) (reason : EndReason) (s : State) : StreamStep i s (endArmed i reason s) :=
  ((modStaging_step i _ s).trans (withdrawPass_step i _)).trans (endStream_step i _ _)

theorem examineStopTime_step (i : StreamId) (s : State) : StreamStep i s (examineStopTime i s) := by
  unfold examineStopTime
  split
  · exact StreamStep.refl i s
  · split
    · split
      · exact enterDraining_step i _ s
      · exact StreamStep.refl i s
    all_goals exact StreamStep.refl i s

theorem takeTrigger_step (i : StreamId) (source : TriggerSource) (s : State) :
    StreamStep i s (takeTrigger i source s) := by
  unfold takeTrigger
  split
  · exact StreamStep.refl i s
  · dsimp only
    refine StreamStep.note (StreamStep.trans ?_ (examineStopTime_step i _))
    refine StreamStep.trans ?_ (streamRecord_step i _ _)
    refine StreamStep.trans ?_ (clearSlips_step i _ _)
    refine StreamStep.trans (modStaging_step i _ s) (modStream_step i _ _ ?_ ?_) <;> rfl

theorem placeRequest_step (i : StreamId) (s : State) : StreamStep i s (placeRequest i s) := by
  unfold placeRequest
  split
  · exact StreamStep.refl i s
  · split
    · exact StreamStep.refl i s
    · exact handOn_step i s _ s.nextPassId s.offers

theorem beginPass_step (i : StreamId) (number : Option Word) (dropped : Nat) (s : State) :
    StreamStep i s (beginPass i number dropped s) := by
  unfold beginPass
  dsimp only
  have h : StreamStep i s ((s.modStaging i (fun q =>
      q.append (newRecord s.nextPassId number s.timebase.count (s.stepsOf i).length dropped))).modStream i
      (fun x => { x with pass := some ⟨s.nextPassId, 0⟩ })) :=
    (modStaging_step i _ s).trans (modStream_step i _ _ rfl rfl)
  exact (h.trans (handOn_step i _ _ (s.nextPassId + 1) s.offers)).trans (placeRequest_step i _)

theorem beginHistory_step (i : StreamId) (s : State) : StreamStep i s (beginHistory i s) :=
  (modStaging_step i _ s).trans (beginPass_step i _ _ _)

theorem takeSlip_step (i : StreamId) (c : StreamConfig) (p : PassInProgress) (s : State) :
    StreamStep i s (takeSlip i c p s) := by
  have h := (modStream_step i (fun x =>
    { x with slippedSince := satSucc limit16 x.slippedSince, totalSlipped := satSucc limit32 x.totalSlipped }) s rfl
    rfl).trans (modStaging_step i (fun q => q.modRecord p.pass (fun r => { r with slips := satSucc limit16 r.slips })) _)
  unfold takeSlip
  dsimp only
  split
  · exact h
  · exact h.trans (enterDraining_step i _ _)

theorem takeOverrun_step (i : StreamId) (c : StreamConfig) (s : State) : StreamStep i s (takeOverrun i c s) := by
  unfold takeOverrun
  dsimp only
  have h := ((modStream_step i (fun x =>
    { x with droppedSince := satSucc limit16 x.droppedSince, totalDropped := satSucc limit32 x.totalDropped }) s rfl
    rfl).trans (modStaging_step i (fun q => q.close (s.streams[i]).slippedSince true false) _)).trans
    (clearSlips_step i (!(s.staging[i]).forming.isEmpty) _)
  refine StreamStep.note ?_
  split
  · exact h.trans (enterDraining_step i _ _)
  · split
    · exact h.trans (enterDraining_step i _ _)
    · exact h

theorem takeAttempt_step (i : StreamId) (c : StreamConfig) (s : State) : StreamStep i s (takeAttempt i c s) := by
  unfold takeAttempt
  dsimp only
  have h := modStream_step i (fun x =>
    { x with nextPass := some ((s.streams[i]).nextPass.getD 0 + 1), begun := satSucc limit32 x.begun }) s rfl rfl
  split
  · exact (h.trans (modStream_step i _ _ rfl rfl)).trans (beginPass_step i _ _ _)
  · exact h.trans (takeOverrun_step i c _)

theorem takeTick_step (i : StreamId) (s : State) : StreamStep i s (takeTick i s) := by
  unfold takeTick
  dsimp only
  split
  · exact StreamStep.refl i s
  · split
    · split
      · exact StreamStep.refl i s
      · exact beginHistory_step i s
    · split
      · exact takeSlip_step i _ _ s
      · exact takeAttempt_step i _ s
    all_goals exact StreamStep.refl i s

theorem takeEdge_step (n : LineId) (i : StreamId) (s : State) : StreamStep i s (takeEdge n i s) := by
  unfold takeEdge
  dsimp only
  split
  · exact StreamStep.refl i s
  · split
    · split
      · exact takeTrigger_step i _ s
      · exact StreamStep.refl i s
    · split
      · exact enterDraining_step i _ s
      · exact StreamStep.refl i s
    all_goals exact StreamStep.refl i s

theorem takeTime_step (i : StreamId) (s : State) : StreamStep i s (takeTime i s) := by
  unfold takeTime
  dsimp only
  split
  · exact StreamStep.refl i s
  · split
    · split
      · split
        · exact takeTrigger_step i _ s
        · exact StreamStep.refl i s
      all_goals exact StreamStep.refl i s
    · exact examineStopTime_step i s
    all_goals exact StreamStep.refl i s

theorem takeStartRequest_step (m : WatchId) (i : StreamId) (s : State) :
    StreamStep i s (takeStartRequest m i s).1 := by
  unfold takeStartRequest
  split
  · exact takeTrigger_step i _ s
  · exact StreamStep.refl i s

theorem takeHaltRequest_step (i : StreamId) (s : State) : StreamStep i s (takeHaltRequest i s).1 := by
  unfold takeHaltRequest
  split
  · exact enterDraining_step i _ s
  · exact endArmed_step i _ s
  all_goals exact StreamStep.refl i s

theorem countPass_step (i : StreamId) (c : StreamConfig) (s : State) : StreamStep i s (countPass i c s) := by
  unfold countPass
  dsimp only
  exact ((modStream_step i _ s rfl rfl).trans (modStaging_step i _ _)).trans (clearSlips_step i _ _)

theorem serveOutbox_step (i : StreamId) (fuel : Nat) : ∀ s : State, StreamStep i s (serveOutbox i fuel s) := by
  induction fuel with
  | zero => exact StreamStep.refl i
  | succ fuel ih =>
    intro s
    unfold serveOutbox
    split
    · exact StreamStep.refl i s
    · split
      · rename_i h
        exact (((place_step h).stream i).trans (modOutbox_step i _ _)).trans (ih _)
      · exact StreamStep.refl i s

theorem completePass_step (i : StreamId) (c : StreamConfig) (p : PassInProgress) (s : State) :
    StreamStep i s (completePass i c p s) := by
  have h := (modStaging_step i (fun q => q.modRecord p.pass (fun r => { r with complete := true })) s).trans
    (modStream_step i (fun x => { x with pass := none }) _ rfl rfl)
  unfold completePass
  dsimp only
  refine StreamStep.note ?_
  split
  · exact h.trans (modStaging_step i _ _)
  · split
    · split
      · exact (h.trans (countPass_step i c _)).trans (enterDraining_step i _ _)
      · exact h.trans (countPass_step i c _)
    · exact h.trans (modStaging_step i _ _)
  · split
    · exact ((h.trans (countPass_step i c _)).trans (drainEndMark_step i _)).trans (drainComplete_step i _)
    · exact ((h.trans (modStaging_step i _ _)).trans (drainEndMark_step i _)).trans (drainComplete_step i _)
  all_goals exact h

theorem takeReturn_step (i : StreamId) (r : Return) (s : State) : StreamStep i s (takeReturn i r s) := by
  unfold takeReturn
  dsimp only
  split
  · rename_i c p _ _
    split
    · exact StreamStep.refl i s
    · have h := modStaging_step i (fun q => q.modRecord p.pass (fun e => e.writeSlot p.step r.sample)) s
      have offer : ∀ v : State, StreamStep i s v → ∀ o : List Offer, StreamStep i s { v with offers := o } :=
        fun v hv o => hv.trans (handOn_step i v v.converters v.nextPassId o)
      split <;> split <;>
        first
          | exact ((h.trans (modStream_step i _ _ rfl rfl)).trans (placeRequest_step i _))
          | exact h.trans (completePass_step i c p _)
          | (split <;>
              first
                | exact ((offer _ h _).trans (modStream_step i _ _ rfl rfl)).trans (placeRequest_step i _)
                | exact (h.trans (modStream_step i _ _ rfl rfl)).trans (placeRequest_step i _)
                | exact (offer _ h _).trans (completePass_step i c p _))
  · exact StreamStep.refl i s

theorem abortNow_step (i : StreamId) (s : State) : StreamStep i s (abortNow i s) :=
  (((modStaging_step i _ s).trans (withdrawPass_step i _)).trans (completeCurrent_step i _ _)).trans
    (endStream_step i _ _)

theorem abortFast_step (i : StreamId) (s : State) : StreamStep i s (abortFast i s) := by
  unfold abortFast
  dsimp only
  have h := (((modStaging_step i Staging.keepWriting s).trans (withdrawPass_step i _)).trans
    (modHead_step i (fun d => { d with timer := none, flushDue := false }) _)).trans
    (modStream_step i (fun x => { x with state := .draining, endReason := some .aborted }) _ rfl rfl)
  split
  · exact h.trans (streamRecord_step i _ _)
  · exact h

theorem abortRun_step (i : StreamId) (s : State) : StreamStep i s (abortRun i s) := by
  unfold abortRun
  split
  · exact StreamStep.refl i s
  · split
    · exact abortFast_step i s
    · exact abortNow_step i s

theorem afterWriteSuccess_step (i : StreamId) (s : State) : StreamStep i s (afterWriteSuccess i s) := by
  unfold afterWriteSuccess
  split
  · exact (completeCurrent_step i _ s).trans (endStream_step i _ _)
  · exact drainComplete_step i s

theorem failStream_step (i : StreamId) (s : State) : StreamStep i s (failStream i s) := by
  unfold failStream
  dsimp only
  exact ((((modStaging_step i _ s).trans (withdrawPass_step i _)).trans (completeBuffer_step i _ _)).trans
    (modStream_step i _ _ rfl rfl)).trans (streamRecord_step i _ _)

theorem roomTest_step (i : StreamId) (s : State) : StreamStep i s (roomTest i s) := by
  unfold roomTest
  split
  · exact StreamStep.refl i s
  · split
    · exact completeBuffer_step i _ s
    · split
      · exact completeBuffer_step i _ s
      · exact StreamStep.refl i s

theorem startFlushTimer_step (i : StreamId) (first : Bool) (depth : Nat) (s : State) :
    StreamStep i s (startFlushTimer i first depth s) := by
  unfold startFlushTimer
  split
  · exact StreamStep.refl i s
  · split
    · exact modHead_step i _ s
    · exact StreamStep.refl i s

theorem clearRun_arm_step (i : StreamId) (c : StreamConfig) (s : State) : StreamStep i s (arm i c s) := by
  unfold arm
  dsimp only
  have h := modStream_step i StreamContext.clearRun s rfl rfl
  have h2 := h.trans (modStream_step i (fun x => { x with state := .armed }) _ rfl rfl)
  split
  · exact h.trans (takeTrigger_step i _ _)
  · split
    · exact h.trans (takeTrigger_step i _ _)
    · exact h2
  all_goals exact h2

/-! ### What a record at an outbox leaves alone -/

/-- A record that joins an outbox changes the outboxes, the rings and the output only. -/
theorem joinOutbox_frame (i : StreamId) (record : Record) (s : State) :
    ∃ R B O, joinOutbox i record s = { s with rings := R, bus := B, outboxes := O } := by
  unfold joinOutbox
  split
  · exact ⟨_, _, _, rfl⟩
  · split
    · exact ⟨_, _, _, rfl⟩
    · split
      · split
        · rename_i h
          obtain ⟨R, B, h⟩ := (place_step h).frame
          exact ⟨R, B, s.outboxes, h⟩
        · exact ⟨_, _, _, rfl⟩
      · exact ⟨_, _, _, rfl⟩

theorem streamRecord_frame (i : StreamId) (event : StreamEvent) (s : State) :
    ∃ R B O, streamRecord i event s = { s with rings := R, bus := B, outboxes := O } := joinOutbox_frame i _ s

/-- A stream that enters IDLE keeps all but its state and end reason. -/
theorem endStream_frame (i : StreamId) (reason : EndReason) (s : State) :
    ∃ R B O, endStream i reason s =
      { s with
        streams := upd s.streams i (fun x => { x with state := .idle, endReason := some reason })
        rings := R, bus := B, outboxes := O } := joinOutbox_frame i _ _

/-- A completed buffer leaves the queue, and its record joins. -/
theorem completeBuffer_frame {i : StreamId} {d : Descriptor} {rest : List Descriptor} {s : State}
    (h : s.buffers[i] = d :: rest) (flags : BufferFlags) :
    ∃ R B O, completeBuffer i flags s =
      { s with buffers := upd s.buffers i (fun _ => rest), rings := R, bus := B, outboxes := O } := by
  unfold completeBuffer
  rw [h]
  exact joinOutbox_frame i _ _

end Sys2Proof.Machine
end

