-- ==== Sys2Proof/Laws/ConverterSteps.lean ====
section
/-!
SUPPORT. Laws/ConverterSteps.lean: what the Stream Controller's transitions do at the converters. A request is placed with
one converter (R44), a withdrawal reaches all of them (R54), and every other transition leaves them alone.
-/

namespace Sys2Proof.Machine

variable {i : StreamId}

/-! ### Transitions that leave the converters alone -/

@[simp] theorem joinOutbox_converters (r : Record) (s : State) : (joinOutbox i r s).converters = s.converters := by
  obtain ⟨R, B, O, f⟩ := joinOutbox_frame i r s
  rw [f]

@[simp] theorem streamRecord_converters (e : StreamEvent) (s : State) : (streamRecord i e s).converters = s.converters :=
  joinOutbox_converters _ s

@[simp] theorem completeBuffer_converters (f : BufferFlags) (s : State) :
    (completeBuffer i f s).converters = s.converters := by
  unfold completeBuffer
  split
  · rfl
  · exact joinOutbox_converters _ _

@[simp] theorem completeCurrent_converters (f : BufferFlags) (s : State) :
    (completeCurrent i f s).converters = s.converters := by
  unfold completeCurrent
  split
  · rfl
  · exact completeBuffer_converters f s

@[simp] theorem endStream_converters (r : EndReason) (s : State) : (endStream i r s).converters = s.converters :=
  streamRecord_converters _ _

@[simp] theorem clearSlips_converters (b : Bool) (s : State) : (clearSlips i b s).converters = s.converters := by
  unfold clearSlips
  split <;> rfl

@[simp] theorem drainEndMark_converters (s : State) : (drainEndMark i s).converters = s.converters :=
  clearSlips_converters _ _

@[simp] theorem drainComplete_converters (s : State) : (drainComplete i s).converters = s.converters := by
  unfold drainComplete
  dsimp only
  split
  · split
    · rw [endStream_converters, completeCurrent_converters]
    · rfl
  · rfl

@[simp] theorem noteEligible_converters (s t : State) : (noteEligible i s t).converters = t.converters := by
  rw [noteEligible_eq]

@[simp] theorem enterDraining_converters (r : EndReason) (s : State) : (enterDraining i r s).converters = s.converters := by
  unfold enterDraining
  dsimp only
  rw [noteEligible_converters]
  split
  · rw [drainComplete_converters, drainEndMark_converters, streamRecord_converters]
    rfl
  · exact streamRecord_converters _ _

@[simp] theorem takeOverrun_converters (c : StreamConfig) (s : State) : (takeOverrun i c s).converters = s.converters := by
  unfold takeOverrun
  dsimp only
  rw [noteEligible_converters]
  split
  · rw [enterDraining_converters, clearSlips_converters]
    rfl
  · split
    · rw [enterDraining_converters, clearSlips_converters]
      rfl
    · exact clearSlips_converters _ _

@[simp] theorem takeSlip_converters (c : StreamConfig) (p : PassInProgress) (s : State) :
    (takeSlip i c p s).converters = s.converters := by
  unfold takeSlip
  dsimp only
  split
  · rfl
  · exact enterDraining_converters _ _

/-! ### Requests and withdrawals -/

/-- A request reaches the converter of its step's channel and no other (R37, R44). -/
theorem placeRequest_converters {s : State} {p : PassInProgress} {step : ScanStep} (hp : (s.streams[i]).pass = some p)
    (hs : (s.stepsOf i)[p.step]? = some step) :
    (placeRequest i s).converters = upd s.converters (converterOf step.channel) (fun c =>
      c.takeRequest ⟨i, p.pass, p.step, step.channel, step.averaging⟩ s.channels[step.channel] s.elapsed) := by
  simp only [placeRequest, hp, hs]
  rfl

/-- A converter that takes a request, in both its states (R44, R46). -/
theorem takeRequest_cases (x : Converter) (q : Request) (setting : ChannelSetting) (now : Nat) :
    (x.conversion = none → x.takeRequest q setting now = x.grant q setting now) ∧
    (x.conversion ≠ none → x.takeRequest q setting now = { x with slots := upd x.slots q.stream (fun _ => some q) }) := by
  unfold Converter.takeRequest
  cases x.conversion <;> simp

/-- A pass that begins requests step 0 (R49). -/
theorem beginPass_converters {s : State} (number : Option Word) (dropped : Nat) {step : ScanStep}
    (hs : (s.stepsOf i)[0]? = some step) :
    (beginPass i number dropped s).converters = upd s.converters (converterOf step.channel) (fun c =>
      c.takeRequest ⟨i, s.nextPassId, 0, step.channel, step.averaging⟩ s.channels[step.channel] s.elapsed) := by
  have hx := upd_same s.streams i (fun x => { x with pass := some ⟨s.nextPassId, 0⟩ })
  refine placeRequest_converters (p := ⟨s.nextPassId, 0⟩) (congrArg StreamContext.pass hx) ?_
  rw [← hs]
  unfold State.stepsOf
  exact congrArg (fun x : StreamContext => (match x.config with | some c => s.scanLists[c.scanList] | none => [])[0]?) hx

/-- A withdrawal reaches every converter (R54). -/
theorem withdrawPass_converters (s : State) :
    (withdrawPass i s).converters = mapAll s.converters (fun c => c.withdraw i) := rfl

theorem abortNow_converters (s : State) :
    (abortNow i s).converters = mapAll s.converters (fun c => c.withdraw i) := by
  unfold abortNow
  dsimp only
  rw [endStream_converters, completeCurrent_converters]
  rfl

theorem abortFast_converters (s : State) :
    (abortFast i s).converters = mapAll s.converters (fun c => c.withdraw i) := by
  unfold abortFast
  dsimp only
  split
  · exact streamRecord_converters _ _
  · rfl

theorem failStream_converters (s : State) :
    (failStream i s).converters = mapAll s.converters (fun c => c.withdraw i) := by
  unfold failStream
  dsimp only
  rw [streamRecord_converters]
  exact completeBuffer_converters _ _

end Sys2Proof.Machine
end

