-- ==== Sys2Proof/Laws/Layouts.lean ====
section
/-!
SUPPORT. Laws/Layouts.lean: what `layout` gives: the bytes of fields that do not overlap read back as `HasLayout` says.
-/

namespace Sys2Proof.Machine

@[simp] theorem le_length (n x : Nat) : (le n x).length = n := by
  induction n generalizing x with
  | zero => rfl
  | succ n ih => simp [le, ih]

/-- Reading back a little-endian number gives what its size can hold of it. -/
theorem ofLe_le (n x : Nat) : ofLe (le n x) = x % 256 ^ n := by
  induction n generalizing x with
  | zero => simp [le, ofLe, Nat.mod_one]
  | succ n ih =>
    have h : x % 256 ^ (n + 1) = x % 256 + 256 * (x / 256 % 256 ^ n) := by
      rw [Nat.pow_succ, Nat.mul_comm, Nat.mod_mul]
    rw [le, ofLe, ih, h]
    simp [BitVec.toNat_ofNat]

theorem overwrite_length {record bytes : List Byte} {offset : Nat} (h : offset + bytes.length ≤ record.length) :
    (overwrite record offset bytes).length = record.length := by
  simp [overwrite]
  omega

/-- What is written over a record stands at its place. -/
theorem overwrite_field {record bytes : List Byte} {offset : Nat} (h : offset + bytes.length ≤ record.length) :
    ((overwrite record offset bytes).drop offset).take bytes.length = bytes := by
  have hl : (record.take offset).length = offset := by simp; omega
  rw [overwrite, List.append_assoc, List.drop_append_of_le_length (by omega), List.drop_eq_nil_of_le (by omega)]
  simp

/-- Every other byte of the record is what it was. -/
theorem overwrite_getElem? {record bytes : List Byte} {offset k : Nat} (h : offset + bytes.length ≤ record.length)
    (hk : k < offset ∨ offset + bytes.length ≤ k) : (overwrite record offset bytes)[k]? = record[k]? := by
  have hl : (record.take offset).length = offset := by simp; omega
  rw [overwrite, List.append_assoc]
  rcases hk with hk | hk
  · rw [List.getElem?_append_left (by omega), List.getElem?_take_of_lt hk]
  · rw [List.getElem?_append_right (by omega), List.getElem?_append_right (by omega), List.getElem?_drop]
    congr 1
    omega

/-- Every field that does not overlap what is written reads as it did. -/
theorem overwrite_other {record bytes : List Byte} {offset o n : Nat} (h : offset + bytes.length ≤ record.length)
    (hk : o + n ≤ offset ∨ offset + bytes.length ≤ o) :
    ((overwrite record offset bytes).drop o).take n = (record.drop o).take n := by
  apply List.ext_getElem?
  intro k
  by_cases hn : k < n
  · simp only [List.getElem?_take_of_lt hn, List.getElem?_drop]
    exact overwrite_getElem? h (by omega)
  · rw [List.getElem?_eq_none (by simp; omega), List.getElem?_eq_none (by simp; omega)]

/-- A layout has its length, whatever its fields hold. -/
theorem layout_length (n : Nat) (fields : List (Nat × List Byte)) (hin : ∀ f ∈ fields, f.1 + f.2.length ≤ n) :
    (layout n fields).length = n := by
  suffices H : ∀ b : List Byte, b.length = n →
      (fields.foldl (fun record f => overwrite record f.1 f.2) b).length = n from H _ (by simp)
  induction fields with
  | nil => intro b h; exact h
  | cons f fields ih =>
    intro b h
    exact ih (fun g hg => hin g (by simp [hg])) _ (by rw [overwrite_length (by rw [h]; exact hin f (by simp)), h])

/-- The fields of a layout, written as offset, size and value, read back as they are, and every other byte is 0, when they
lie inside it and no two overlap. -/
theorem layout_hasLayout (n : Nat) (fields : List (Nat × Nat × Nat)) (hin : ∀ f ∈ fields, f.1 + f.2.1 ≤ n)
    (hap : fields.Pairwise (fun f g => f.1 + f.2.1 ≤ g.1 ∨ g.1 + g.2.1 ≤ f.1)) :
    HasLayout n fields (layout n (fields.map (fun f => (f.1, le f.2.1 f.2.2)))) := by
  suffices H : ∀ (done left : List (Nat × Nat × Nat)) (b : List Byte), (∀ f ∈ left, f.1 + f.2.1 ≤ n) →
      (done ++ left).Pairwise (fun f g => f.1 + f.2.1 ≤ g.1 ∨ g.1 + g.2.1 ≤ f.1) → HasLayout n done b →
      HasLayout n (done ++ left)
        ((left.map (fun f => (f.1, le f.2.1 f.2.2))).foldl (fun record f => overwrite record f.1 f.2) b) by
    refine H [] fields _ hin (by simpa using hap) ⟨by simp, by simp, fun k _ => ?_⟩
    simp only [byteAt, List.getD_eq_getElem?_getD, List.getElem?_replicate]
    split <;> rfl
  intro done left
  induction left generalizing done with
  | nil => intro b _ _ h; simpa using h
  | cons f left ih =>
    intro b hin hap h
    have hf : f.1 + (le f.2.1 f.2.2).length ≤ b.length := by
      rw [le_length, h.length]
      exact hin f (by simp)
    have hap' : ((done ++ [f]) ++ left).Pairwise (fun f g => f.1 + f.2.1 ≤ g.1 ∨ g.1 + g.2.1 ≤ f.1) := by
      simpa using hap
    have := ih (done ++ [f]) (overwrite b f.1 (le f.2.1 f.2.2)) (fun g hg => hin g (by simp [hg])) hap' ?_
    · simpa using this
    · refine ⟨by rw [overwrite_length hf, h.length], fun g hg => ?_, fun k hk => ?_⟩
      · rcases List.mem_append.mp hg with hg | hg
        · have hd := (List.pairwise_append.mp hap).2.2 g hg f (by simp)
          rw [fieldAt, overwrite_other hf (by rw [le_length]; exact hd)]
          exact h.field g hg
        · obtain rfl := List.mem_singleton.mp hg
          have := overwrite_field hf
          rw [le_length] at this
          rw [fieldAt, this, ofLe_le]
      · have hk' := hk f (by simp)
        have := overwrite_getElem? hf (k := k) (by rw [le_length]; exact hk')
        rw [byteAt, List.getD_eq_getElem?_getD, this, ← List.getD_eq_getElem?_getD]
        exact h.rest k (fun g hg => hk g (by simp [hg]))

/-- The order in which fields are listed does not matter. -/
theorem HasLayout.congr {n : Nat} {f g : List (Nat × Nat × Nat)} {b : List Byte} (h : HasLayout n f b)
    (same : ∀ x, x ∈ g ↔ x ∈ f) : HasLayout n g b :=
  ⟨h.length, fun x hx => h.field x ((same x).mp hx), fun k hk => h.rest k (fun x hx => hk x ((same x).mpr hx))⟩

/-- A field with the value 0 need not be listed. -/
theorem HasLayout.zero {n o k : Nat} {f : List (Nat × Nat × Nat)} {b : List Byte} (h : HasLayout n f b)
    (hin : ∀ x ∈ f, o + k ≤ x.1 ∨ x.1 + x.2.1 ≤ o) : HasLayout n ((o, k, 0) :: f) b := by
  refine ⟨h.length, fun x hx => ?_, fun j hj => h.rest j (fun x hx => hj x (by simp [hx]))⟩
  rcases List.mem_cons.mp hx with rfl | hx
  · have hz : ∀ m (l : List Byte), (∀ j, j < m → l.getD j 0 = 0) → ofLe (l.take m) = 0 := by
      intro m
      induction m with
      | zero => intro l _; simp [ofLe]
      | succ m ih =>
        intro l hl
        cases l with
        | nil => simp [ofLe]
        | cons c l =>
          have h0 := hl 0 (by omega)
          have := ih l (fun j hj => by simpa using hl (j + 1) (by omega))
          simp only [List.getD_cons_zero] at h0
          simp [ofLe, h0, this]
    rw [fieldAt, hz]
    · simp
    · intro j (hj : j < k)
      have := h.rest (o + j) (fun x hx => by have := hin x hx; omega)
      simpa [byteAt, List.getD_eq_getElem?_getD, List.getElem?_drop] using this
  · exact h.field x hx

end Sys2Proof.Machine
end

