-- ==== Sys2Proof/Laws/Orders.lean ====
section
/-!
SUPPORT. Laws/Orders.lean: what taking an order does, and what the fields of an order name.
-/

namespace Sys2Proof.Machine

/-! ### Taking -/

/-- An order that can be taken is answered by its owner. -/
theorem takeDecided_eq {s : State} (hs : s.takesOrder) (kind : Half) (h : OrderHeader) (owner : State → Answer) :
    takeDecided kind h owner s = s.answered kind h owner := by
  obtain ⟨h1, issued, hw, h2⟩ := hs
  simp only [takeDecided, takeOrder, hw, h1, h2]
  rfl

theorem takeOrder_eq {s : State} (hs : s.takesOrder) (kind : Half) (h : OrderHeader)
    (body : OrderInHand → State → State) :
    takeOrder kind h body s = body (s.inHand kind h) (s.taking kind h) := by
  obtain ⟨h1, issued, hw, h2⟩ := hs
  simp only [takeOrder, hw, h1, h2]
  rfl

/-- With no fetch in flight nothing happens. -/
theorem takeOrder_idle {s : State} (h : s.orders.work.isFetching = false) (kind : Half) (hd : OrderHeader)
    (body : OrderInHand → State → State) : takeOrder kind hd body s = s := by
  unfold takeOrder
  cases hw : s.orders.work <;> simp_all [OrderWork.isFetching]

/-- A reply that comes after the 50 ms changes nothing. -/
theorem takeOrder_overdue {s : State} {issued : Nat} (h : s.orders.work = .fetching issued) (ht : s.inTime issued = false)
    (kind : Half) (hd : OrderHeader) (body : OrderInHand → State → State) : takeOrder kind hd body s = s := by
  simp [takeOrder, h, ht]

/-- A fetch that ends outside UP is discarded. -/
theorem takeOrder_late {s : State} {issued : Nat} (h : s.orders.work = .fetching issued) (ht : s.inTime issued = true)
    (hl : s.linkUp = false) (kind : Half) (hd : OrderHeader) (body : OrderInHand → State → State) :
    takeOrder kind hd body s = dropFetch s := by
  simp [takeOrder, h, ht, hl]

/-- Two owners that decide alike in the state in which the order is taken leave the same state. -/
theorem answered_congr {s : State} {kind : Half} {h : OrderHeader} {a b : State → Answer}
    (e : a (s.taking kind h) = b (s.taking kind h)) : s.answered kind h a = s.answered kind h b := by
  unfold State.answered
  rw [e]

variable (s : State) (kind : Half) (h : OrderHeader)

@[simp] theorem taking_elapsed : (s.taking kind h).elapsed = s.elapsed := rfl
@[simp] theorem taking_bus : (s.taking kind h).bus = s.bus := rfl
@[simp] theorem taking_link : (s.taking kind h).link = s.link := rfl
@[simp] theorem taking_linkUp : (s.taking kind h).linkUp = s.linkUp := rfl
@[simp] theorem taking_rings : (s.taking kind h).rings = s.rings := rfl
@[simp] theorem taking_outboxes : (s.taking kind h).outboxes = s.outboxes := rfl
@[simp] theorem taking_streams : (s.taking kind h).streams = s.streams := rfl
@[simp] theorem taking_staging : (s.taking kind h).staging = s.staging := rfl
@[simp] theorem taking_scanLists : (s.taking kind h).scanLists = s.scanLists := rfl
@[simp] theorem taking_freePages : (s.taking kind h).freePages = s.freePages := rfl
@[simp] theorem taking_windows : (s.taking kind h).windows = s.windows := rfl
@[simp] theorem taking_buffers : (s.taking kind h).buffers = s.buffers := rfl
@[simp] theorem taking_writeInFlight : (s.taking kind h).writeInFlight = s.writeInFlight := rfl
@[simp] theorem taking_generators : (s.taking kind h).generators = s.generators := rfl
@[simp] theorem taking_lines : (s.taking kind h).lines = s.lines := rfl
@[simp] theorem taking_watches : (s.taking kind h).watches = s.watches := rfl
@[simp] theorem taking_timebase : (s.taking kind h).timebase = s.timebase := rfl
@[simp] theorem taking_converts (i : StreamId) (ch : ChannelId) : (s.taking kind h).converts i ch = s.converts i ch := rfl
@[simp] theorem taking_bindsList (i : StreamId) (l : ListId) : (s.taking kind h).bindsList i l = s.bindsList i l := rfl
@[simp] theorem taking_stepsOf (i : StreamId) : (s.taking kind h).stepsOf i = s.stepsOf i := rfl
@[simp] theorem taking_maxBlockBytes (i : StreamId) : (s.taking kind h).maxBlockBytes i = s.maxBlockBytes i := rfl
@[simp] theorem taking_writing (i : StreamId) : (s.taking kind h).writing i = s.writing i := rfl

/-! ### Answering -/

/-- What the Order Unit can do with the records of an answer: ring steps, its own walk, and the next fetch. -/
structure AnswerStep (s t : State) : Prop where
  frame : ∃ w r R B, t = { s with orders := { s.orders with work := w, roomReported := r }, rings := R, bus := B }
  grows : ∃ l, t.bus = s.bus ++ l
  enabled : ∀ n : RingId, (t.rings[n]).isSome = (s.rings[n]).isSome
  ordered : s.RingsOrdered → t.RingsOrdered
  quiet : s.linkUp = false → (∀ n : RingId, s.rings[n] = none) → t.bus = s.bus

/-- A change of the walk only. -/
theorem answerStep_walk (s : State) (w : OrderWork) (r : Bool) :
    AnswerStep s { s with orders := { s.orders with work := w, roomReported := r } } :=
  ⟨⟨_, _, _, _, rfl⟩, ⟨[], by simp⟩, fun _ => rfl, id, fun _ _ => rfl⟩

theorem RingStep.answer {s t : State} (h : RingStep s t) : AnswerStep s t := by
  have h2 := h.grows
  have h3 := h.enabled
  have h4 := h.ordered
  have h5 := h.quiet
  obtain ⟨R, B, rfl⟩ := h.frame
  exact ⟨⟨_, _, _, _, rfl⟩, h2, h3, h4, fun _ => h5⟩

theorem AnswerStep.none {s t : State} (h : AnswerStep s t) (hn : ∀ n : RingId, s.rings[n] = none) (n : RingId) :
    t.rings[n] = none := by
  have := h.enabled n
  rw [hn n] at this
  exact Option.isSome_eq_false_iff.mp this |> Option.isNone_iff_eq_none.mp

theorem AnswerStep.link {s t : State} (h : AnswerStep s t) : t.link = s.link := by
  obtain ⟨_, _, _, _, rfl⟩ := h.frame
  rfl

theorem AnswerStep.trans {s t u : State} (h : AnswerStep s t) (k : AnswerStep t u) : AnswerStep s u := by
  have hu : t.linkUp = s.linkUp := by unfold State.linkUp; rw [h.link]
  refine ⟨?_, ?_, fun n => (k.enabled n).trans (h.enabled n), fun o => k.ordered (h.ordered o), fun q r => ?_⟩
  · obtain ⟨_, _, _, _, rfl⟩ := h.frame
    obtain ⟨_, _, _, _, rfl⟩ := k.frame
    exact ⟨_, _, _, _, rfl⟩
  · obtain ⟨l, hl⟩ := h.grows
    obtain ⟨l', hl'⟩ := k.grows
    exact ⟨l ++ l', by rw [hl', hl, List.append_assoc]⟩
  · rw [k.quiet (hu.trans q) (h.none r), h.quiet q r]

theorem beginFetch_step (s : State) : AnswerStep s (beginFetch s) := by
  unfold beginFetch
  split
  · split
    · rename_i hu
      exact ⟨⟨_, _, _, _, rfl⟩, ⟨[_], rfl⟩, fun _ => rfl, id, fun h => by rw [hu.1] at h; cases h⟩
    · exact answerStep_walk s s.orders.work s.orders.roomReported
  · exact answerStep_walk s s.orders.work s.orders.roomReported

theorem placeLeft_step (order : OrderInHand) (l : List OutboxEntry) : ∀ s : State, AnswerStep s (placeLeft order l s) := by
  induction l with
  | nil => exact fun s => (answerStep_walk s .idle false).trans (beginFetch_step _)
  | cons e rest ih =>
    intro s
    unfold placeLeft
    cases hp : place e.ring e.record s with
    | none => exact answerStep_walk s _ _
    | some s' => exact (place_step hp).answer.trans (ih s')

/-- What answering an order can do to the owner's state. -/
theorem answered_step (s : State) (kind : Half) (h : OrderHeader) (a : State → Answer) :
    AnswerStep (a (s.taking kind h)).state (s.answered kind h a) := placeLeft_step _ _ _

/-! ### Fields -/

theorem index?_byteOf {n : Nat} (hn : n ≤ 256) (i : Fin n) : index? n (byteOf i) = some i := by
  have := i.isLt
  unfold index? byteOf
  have h : (BitVec.ofNat 8 i.val).toNat = i.val := by simp; omega
  rw [dif_pos (by rw [h]; exact i.isLt)]
  simp [h]

theorem index?_none {n : Nat} {b : Byte} (h : n ≤ b.toNat) : index? n b = none := by
  unfold index?
  rw [dif_neg (by omega)]

/-- A number within 0 to 7 is the byte of a stream, and so for every bank. -/
theorem index?_eq_some {n : Nat} {b : Byte} {i : Fin n} (h : b.toNat = i.val) : index? n b = some i := by
  unfold index?
  rw [dif_pos (by rw [h]; exact i.isLt)]
  simp [h]

theorem flag?_zero : flag? 0 = some false := rfl
theorem flag?_one : flag? 1 = some true := rfl

theorem flag?_none {b : Byte} (h : 2 ≤ b.toNat) : flag? b = none := by
  unfold flag?
  rw [if_neg (by intro e; subst e; simp at h), if_neg (by intro e; subst e; simp at h)]

theorem inRange?_some {low high x : Nat} (h : low ≤ x ∧ x ≤ high) : inRange? low high x = some x := if_pos h

theorem inRange?_none {low high x : Nat} (h : x < low ∨ high < x) : inRange? low high x = none := if_neg (by omega)

/-! ### The first of a bank -/

theorem find_first {n : Nat} {p : Fin n → Bool} {l : List (Fin n)} (hl : l = List.ofFn id) {i : Fin n}
    (hi : p i = true) (hj : ∀ j, j < i → p j = false) : l.find? p = some i := by
  subst hl
  rw [List.find?_eq_some_iff_append]
  refine ⟨hi, (List.ofFn (id : Fin n → Fin n)).take i.val, (List.ofFn (id : Fin n → Fin n)).drop (i.val + 1), ?_, ?_⟩
  · have : i.val < (List.ofFn (id : Fin n → Fin n)).length := by simp
    conv => lhs; rw [← List.take_append_drop i.val (List.ofFn (id : Fin n → Fin n)), List.drop_eq_getElem_cons this]
    simp
  · intro a ha
    rw [List.mem_take_iff_getElem] at ha
    obtain ⟨k, hk, rfl⟩ := ha
    simp at hk ⊢
    exact hj _ (by exact hk)

/-- The lowest-numbered stream with a property. -/
theorem find_streams {p : StreamId → Bool} {i : StreamId} (hi : p i = true) (hj : ∀ j, j < i → p j = false) :
    allStreams.find? p = some i := find_first (by decide) hi hj

theorem find_streams_none {p : StreamId → Bool} (hj : ∀ j, p j = false) : allStreams.find? p = none := by
  rw [List.find?_eq_none]
  intro j _
  simp [hj j]

/-- The lowest-numbered of four with a property. -/
theorem find_fours {p : Fin 4 → Bool} {i : Fin 4} (hi : p i = true) (hj : ∀ j, j < i → p j = false) :
    allFours.find? p = some i := find_first (by decide) hi hj

theorem find_fours_none {p : Fin 4 → Bool} (hj : ∀ j, p j = false) : allFours.find? p = none := by
  rw [List.find?_eq_none]
  intro j _
  simp [hj j]

end Sys2Proof.Machine
end

