-- ==== Sys2Proof/Laws/PartSteps.lean ====
section
/-!
SUPPORT. Laws/PartSteps.lean: what the operations that reach over several blocks can do. `PartStep s t` says it once: the
link does not move, no page is lost, the output grows, no ring becomes enabled or disabled, rings in order and bounded
buffer queues stay so, the Order Ring's geometry stays, and outside UP with no ring enabled nothing is issued.
-/

namespace Sys2Proof.Machine

/-- A change of the part in which the link stays as it is. -/
structure PartStep (s t : State) : Prop where
  link : t.link = s.link
  geometry : t.orders.geometry = s.orders.geometry
  pages : s.PagesAccounted → t.PagesAccounted
  buffers : s.BuffersBounded → t.BuffersBounded
  grows : ∃ l, t.bus = s.bus ++ l
  enabled : ∀ n : RingId, (t.rings[n]).isSome = (s.rings[n]).isSome
  ordered : s.RingsOrdered → t.RingsOrdered
  quiet : s.linkUp = false → (∀ n : RingId, s.rings[n] = none) → t.bus = s.bus

variable {s t u : State}

theorem PartStep.refl (s : State) : PartStep s s := ⟨rfl, rfl, id, id, ⟨[], by simp⟩, fun _ => rfl, id, fun _ _ => rfl⟩

theorem PartStep.linkUp (h : PartStep s t) : t.linkUp = s.linkUp := by
  unfold State.linkUp
  rw [h.link]

theorem PartStep.none (h : PartStep s t) (hn : ∀ n : RingId, s.rings[n] = none) (n : RingId) : t.rings[n] = none := by
  have := h.enabled n
  rw [hn n] at this
  exact Option.isSome_eq_false_iff.mp this |> Option.isNone_iff_eq_none.mp

theorem PartStep.trans (h : PartStep s t) (k : PartStep t u) : PartStep s u := by
  refine ⟨k.link.trans h.link, k.geometry.trans h.geometry, fun p => k.pages (h.pages p), fun p => k.buffers (h.buffers p), ?_,
    fun n => (k.enabled n).trans (h.enabled n), fun o => k.ordered (h.ordered o), fun q r => ?_⟩
  · obtain ⟨l, hl⟩ := h.grows
    obtain ⟨l', hl'⟩ := k.grows
    exact ⟨l ++ l', by rw [hl', hl, List.append_assoc]⟩
  · rw [k.quiet (h.linkUp.trans q) (h.none r), h.quiet q r]

/-- A change that leaves the link, the geometry, the pages, the rings, the buffers and the output as they are. -/
theorem PartStep.of_same (h1 : t.link = s.link) (h2 : t.freePages = s.freePages) (h3 : t.streams = s.streams)
    (h4 : t.buffers = s.buffers) (h5 : t.rings = s.rings) (h6 : t.bus = s.bus)
    (h7 : t.orders.geometry = s.orders.geometry) : PartStep s t := by
  refine ⟨h1, h7, ?_, ?_, ⟨[], by simp [h6]⟩, fun n => by rw [h5], ?_, fun _ _ => h6⟩
  · unfold State.PagesAccounted; rw [h2, h3]; exact id
  · unfold State.BuffersBounded; rw [h4]; exact id
  · unfold State.RingsOrdered; rw [h5]; exact id

theorem pagesHeldByAll_congr {v w : Vector StreamContext 8} (h : ∀ i : StreamId, (v[i]).pagesHeld = (w[i]).pagesHeld) :
    pagesHeldByAll v = pagesHeldByAll w := by
  have := h 0; have := h 1; have := h 2; have := h 3; have := h 4; have := h 5; have := h 6; have := h 7
  simp only [Fin.getElem_fin] at *
  simp only [pagesHeldByAll]
  simp_all

theorem RingStep.part (h : RingStep s t) : PartStep s t := by
  have h2 := h.grows
  have h3 := h.enabled
  have h4 := h.ordered
  have h5 := h.quiet
  obtain ⟨R, B, rfl⟩ := h.frame
  exact ⟨rfl, rfl, id, id, h2, h3, h4, fun _ => h5⟩

theorem AnswerStep.part (h : AnswerStep s t) : PartStep s t := by
  have h2 := h.grows
  have h3 := h.enabled
  have h4 := h.ordered
  have h5 := h.quiet
  obtain ⟨w, r, R, B, rfl⟩ := h.frame
  exact ⟨rfl, rfl, id, id, h2, h3, h4, h5⟩

theorem StreamStep.part {i : StreamId} (h : StreamStep i s t) : PartStep s t := by
  have h1 := h.others
  have h2 := h.pages
  have h3 := h.buffers
  have h4 := h.grows
  have h5 := h.enabled
  have h6 := h.ordered
  have h7 := h.quiet
  obtain ⟨_, _, _, _, _, _, _, _, _, _, rfl⟩ := h.frame
  refine ⟨rfl, rfl, ?_, ?_, h4, h5, h6, fun _ => h7⟩
  · intro hp
    refine Eq.trans ?_ hp
    refine congrArg (s.freePages + ·) (pagesHeldByAll_congr fun j => ?_)
    by_cases e : j = i
    · subst e; exact h2
    · exact congrArg StreamContext.pagesHeld (h1 j e).1
  · intro hb j
    by_cases e : j = i
    · subst e; exact Nat.le_trans h3 (hb j)
    · rw [(h1 j e).2.2.1]; exact hb j

/-- A fold of steps is a step. -/
theorem PartStep.foldl {α : Type} (f : State → α → State) (h : ∀ s a, PartStep s (f s a)) :
    ∀ (l : List α) (s : State), PartStep s (l.foldl f s) := by
  intro l
  induction l with
  | nil => exact PartStep.refl
  | cons a l ih => exact fun s => (h s a).trans (ih _)

/-- In UP anything may be issued. -/
theorem PartStep.emit_up (item : BusItem) (hu : s.linkUp = true) : PartStep s (s.emit item) :=
  ⟨rfl, rfl, id, id, ⟨[item], rfl⟩, fun _ => rfl, id, fun h => by rw [hu] at h; cases h⟩

/-! ### Time -/

theorem passTime_part (d : Nat) (s : State) : PartStep s (passTime d s) := by
  unfold passTime
  split
  · exact PartStep.refl s
  · exact PartStep.of_same rfl rfl rfl rfl rfl rfl rfl

theorem passTo_part (m : Nat) (s : State) : PartStep s (passTo m s) := passTime_part _ s

/-! ### Rings -/

theorem serveOutboxes_part (s : State) : PartStep s (serveOutboxes s) :=
  PartStep.foldl _ (fun s i => (serveOutbox_step i _ s).note.part) _ s

theorem reportRoom_part (n : RingId) (s : State) : PartStep s (reportRoom n s) := by
  unfold reportRoom
  split
  · exact PartStep.refl s
  · split
    · exact PartStep.of_same rfl rfl rfl rfl rfl rfl (by dsimp only; split <;> rfl)
    · exact PartStep.refl s

theorem rearm_step (n : RingId) (s : State) : RingStep s (rearm n s) := by
  unfold rearm
  split
  · exact RingStep.refl s
  · rename_i r h
    exact (ringStep_setRing h _ (fun o => o.notify _ _ _)).trans (examineMessage_step n _)

/-- The distance of two positions of a ring (R154). -/
theorem ring_distance {w r n : Nat} (hw : w < n) (hr : r < n) :
    (w + n - r) % n = if r ≤ w then w - r else w + n - r := by
  split
  · rw [show w + n - r = (w - r) + n by omega, Nat.add_mod_right, Nat.mod_eq_of_lt (by omega)]
  · exact Nat.mod_eq_of_lt (by omega)

/-- An accepted head value returns slots that were outstanding, so the ring stays in order (R156). -/
theorem Ring.Ordered.acceptHead {r : Ring} (o : r.Ordered) {value : Nat} (h : r.badHead value = false) :
    ({ r with returned := value } : Ring).Ordered := by
  have h1 := o.size_pos
  have h2 := o.written_lt
  have h3 := o.returned_lt
  have h4 := o.outstanding_le
  simp only [Ring.badHead, Bool.or_eq_false_iff, decide_eq_false_iff_not, Nat.not_le, Nat.not_lt] at h
  obtain ⟨hv, hr⟩ := h
  refine ⟨h1, h2, hv, ?_, o.waiting_le⟩
  show (r.written + 2 * r.size - value) % (2 * r.size) ≤ r.size
  simp only [Ring.outstanding, Ring.returns] at hr h4
  rw [ring_distance h2 hv]
  rw [ring_distance h2 h3] at hr h4
  rw [ring_distance hv h3] at hr
  split at h4 <;> split at hr <;> split <;> omega

theorem acceptHead_part {n : RingId} {r : Ring} {value : Nat} (hr : s.rings[n] = some r)
    (hb : r.badHead value = false) : PartStep s (acceptHead n r value s) := by
  unfold acceptHead
  refine PartStep.trans ?_ (rearm_step n _).part
  refine PartStep.trans ?_ (reportRoom_part n _)
  refine PartStep.trans ?_ (serveOutboxes_part _)
  refine PartStep.trans ?_ (movePending_step n _ _).part
  exact (ringStep_setRing hr _ (fun o => o.acceptHead hb)).part

/-! ### Watches -/

theorem modWatch_part (m : WatchId) (f : Watch → Watch) (s : State) : PartStep s (s.modWatch m f) :=
  PartStep.of_same rfl rfl rfl rfl rfl rfl rfl

theorem recomputeAlert_part (s : State) : PartStep s (recomputeAlert s) :=
  PartStep.of_same rfl rfl rfl rfl rfl rfl rfl

theorem placeWatchEvent_part (m : WatchId) (e : WatchEvent) (outcome : ActionOutcome) (replaced : Bool) (s : State) :
    PartStep s (placeWatchEvent m e outcome replaced s) := by
  unfold placeWatchEvent
  dsimp only
  split
  · rename_i h
    exact (place_step h).part.trans (modWatch_part m _ _)
  · split
    · exact PartStep.refl s
    · exact modWatch_part m _ s

theorem enterWatch_part (m : WatchId) (state : WatchState) (o : Offer) (s : State) :
    PartStep s (enterWatch m state o s) := by
  have h := (modWatch_part m (fun w => { w with state := state, runCount := 0, runSide := .none }) s).trans
    (recomputeAlert_part _)
  unfold enterWatch
  dsimp only
  split
  · split
    · exact h.trans (placeWatchEvent_part m _ _ _ _)
    · exact h
  all_goals exact h.trans (modWatch_part m _ _)

theorem returnWatch_part (m : WatchId) (o : Offer) (s : State) : PartStep s (returnWatch m o s) := by
  have h := (modWatch_part m (fun w => { w with state := .inside, runCount := 0, runSide := .none }) s).trans
    (recomputeAlert_part _)
  unfold returnWatch
  dsimp only
  split
  · exact h.trans (placeWatchEvent_part m _ _ _ _)
  · exact h

theorem countRun_part (m : WatchId) (side : RunSide) (state : WatchState) (o : Offer) (s : State) :
    PartStep s (countRun m side state o s) := by
  unfold countRun
  dsimp only
  generalize (if (s.watches[m]).runSide = side then (s.watches[m]).runCount + 1 else 1) = run
  split
  · exact enterWatch_part m state o s
  · exact modWatch_part m _ s

theorem judge_part (m : WatchId) (o : Offer) (s : State) : PartStep s (judge m o s) := by
  unfold judge
  dsimp only
  split
  · split
    · exact countRun_part m _ _ o s
    · split
      · exact countRun_part m _ _ o s
      · exact modWatch_part m _ s
  all_goals
    split
    · exact returnWatch_part m o s
    · exact PartStep.refl s

theorem offerTo_part (m : WatchId) (o : Offer) (s : State) : PartStep s (offerTo m o s) := by
  unfold offerTo
  dsimp only
  split
  · split
    · split
      · exact modWatch_part m _ s
      · exact PartStep.refl s
    · exact judge_part m o s
  · exact PartStep.refl s

theorem endWait_part (m : WatchId) (a : AnswerWait) (x : ActionOutcome) (s : State) :
    PartStep s (endWait m a x s) := by
  unfold endWait
  dsimp only
  refine PartStep.trans ?_ (PartStep.foldl _ (fun s o => offerTo_part m o s) _ _)
  refine PartStep.trans ?_ (modWatch_part m _ _)
  split
  · exact placeWatchEvent_part m _ x _ s
  · exact PartStep.refl s

/-! ### Ticks, edges and times -/

theorem modGenerator_part (g : GeneratorId) (f : Generator → Generator) (s : State) :
    PartStep s (s.modGenerator g f) := PartStep.of_same rfl rfl rfl rfl rfl rfl rfl

theorem issueTick_part (g : GeneratorId) (order : List StreamId) (s : State) : PartStep s (issueTick g order s) :=
  ((modGenerator_part g _ s).trans (PartStep.foldl _ (fun s i => (takeTick_step i s).part) _ _)).trans
    (modGenerator_part g _ _)

theorem takeSourceEdge_part (n : LineId) (g : GeneratorId) (order : List StreamId) (s : State) :
    PartStep s (takeSourceEdge n g order s) := by
  unfold takeSourceEdge
  dsimp only
  split
  · split
    · exact (modGenerator_part g _ s).trans (issueTick_part g order _)
    · exact modGenerator_part g _ s
  · exact PartStep.refl s

theorem takeEdgeAt_part (n : LineId) (streams : List StreamId) (r : Fin 12) (s : State) :
    PartStep s (takeEdgeAt n streams r s) := by
  unfold takeEdgeAt
  split
  · exact (takeEdge_step n _ s).part
  · exact takeSourceEdge_part n _ streams s

theorem beginPulse_part (s : State) : PartStep s (beginPulse s) := PartStep.of_same rfl rfl rfl rfl rfl rfl rfl

theorem examineFire_part (s : State) : PartStep s (examineFire s) := by
  unfold examineFire
  split
  · split
    · exact beginPulse_part s
    · exact PartStep.refl s
  all_goals exact PartStep.refl s

theorem examineTimes_part (order : List StreamId) (s : State) : PartStep s (examineTimes order s) :=
  (PartStep.foldl _ (fun s i => (takeTime_step i s).part) _ s).trans (examineFire_part _)

theorem handTimebaseEvent_part (r : Record) (s : State) : PartStep s (handTimebaseEvent r s) := by
  unfold handTimebaseEvent
  split
  · exact PartStep.refl s
  · split
    · rename_i h
      exact (place_step h).part
    · exact PartStep.of_same rfl rfl rfl rfl rfl rfl rfl

/-! ### Delivery -/

theorem grantWrite_part (i : StreamId) (hu : s.linkUp = true) : PartStep s (grantWrite i s) := by
  unfold grantWrite
  split
  · dsimp only
    exact (((modStaging_step i Staging.startWrite s).part.trans (PartStep.emit_up _ hu)).trans
      (PartStep.emit_up _ hu)).trans (PartStep.of_same rfl rfl rfl rfl rfl rfl rfl)
  · exact PartStep.refl s

theorem chooseGrant_part (s : State) : PartStep s (chooseGrant s) := by
  unfold chooseGrant
  split
  · exact PartStep.refl s
  · split
    · rename_i i h
      have he := List.find?_some h
      simp only [State.eligible, Bool.and_eq_true] at he
      exact grantWrite_part i he.1.1.1
    · exact PartStep.refl s

theorem grantFirst_part (s : State) : PartStep s (grantFirst s) := by
  unfold grantFirst
  split
  · exact PartStep.refl s
  · split
    · rename_i i h
      have he := List.find?_some h
      simp only [State.eligible, Bool.and_eq_true] at he
      exact grantWrite_part i he.1.1.1
    · exact chooseGrant_part s

/-! ### Orders -/

/-- An order's owner answers, and the Order Unit places the records. -/
theorem takeDecided_part (kind : Half) (h : OrderHeader) (owner : State → Answer)
    (k : ∀ v : State, PartStep v (owner v).state) (s : State) : PartStep s (takeDecided kind h owner s) := by
  unfold takeDecided takeOrder
  split
  · split
    · exact PartStep.refl s
    · split
      · dsimp only
        have h0 : PartStep s (s.taking kind h) := PartStep.of_same rfl rfl rfl rfl rfl rfl rfl
        exact (h0.trans (k (s.taking kind h))).trans (answered_step s kind h owner).part
      · exact PartStep.of_same rfl rfl rfl rfl rfl rfl rfl
  all_goals exact PartStep.refl s

end Sys2Proof.Machine
end

