-- ==== Sys2Proof/Laws/Receivers.lean ====
section
/-!
SUPPORT. Laws/Receivers.lean: one event handed to several receivers in turn, and the round-robin orders. An event reaches
every receiver of a list exactly once, whatever order a command asks for.
-/

namespace Sys2Proof.Machine

/-! ### The receivers of an event -/

/-- Erasing duplicates leaves none. -/
theorem nodup_eraseDups {α : Type} [DecidableEq α] (l : List α) : l.eraseDups.Nodup := by
  induction h : l.length using Nat.strongRecOn generalizing l with
  | ind n ih =>
    cases l with
    | nil => simp
    | cons a l =>
      rw [List.eraseDups_cons, List.nodup_cons]
      refine ⟨by simp, ih _ ?_ _ rfl⟩
      have := List.length_filter_le (fun b => !b == a) l
      simp only [List.length_cons] at h
      omega

theorem mem_arrange {α : Type} [DecidableEq α] (pref l : List α) (x : α) : x ∈ arrange pref l ↔ x ∈ l := by
  unfold arrange
  split
  · rfl
  · rfl
  · simp only [List.mem_append, List.mem_filter, List.mem_eraseDups]
    by_cases h : x ∈ pref <;> simp [h]

theorem nodup_arrange {α : Type} [DecidableEq α] (pref : List α) {l : List α} (h : l.Nodup) :
    (arrange pref l).Nodup := by
  unfold arrange
  split
  · exact h
  · exact h
  · rw [List.nodup_append]
    refine ⟨(nodup_eraseDups _).filter _, h.filter _, ?_⟩
    intro a ha b hb e
    subst e
    simp only [List.mem_filter, List.mem_eraseDups] at ha hb
    simp [ha.1] at hb

/-- What every receiver keeps is kept. -/
theorem foldl_keeps {α : Type} (f : State → α → State) (P : State → Prop) :
    ∀ (l : List α) (s : State), (∀ v b, b ∈ l → P v → P (f v b)) → P s → P (l.foldl f s) := by
  intro l
  induction l with
  | nil => exact fun _ _ h => h
  | cons b l ih => exact fun s h hs => ih _ (fun v c hc => h v c (by simp [hc])) (h s b (by simp) hs)

/-- What one receiver does, when no other receiver touches what it reads and writes. -/
theorem foldl_reaches {α : Type} [DecidableEq α] (f : State → α → State) (a : α) (P Q : State → Prop)
    (before : ∀ v b, b ≠ a → P v → P (f v b)) (after : ∀ v b, b ≠ a → Q v → Q (f v b)) (acts : ∀ v, P v → Q (f v a)) :
    ∀ (l : List α) (s : State), l.Nodup → a ∈ l → P s → Q (l.foldl f s) := by
  intro l
  induction l with
  | nil => intro s _ h; cases h
  | cons b l ih =>
    intro s hn ha hs
    rw [List.nodup_cons] at hn
    by_cases e : b = a
    · subst e
      refine foldl_keeps f Q l _ (fun v c hc => after v c ?_) (acts s hs)
      rintro rfl
      exact hn.1 hc
    · exact ih _ hn.2 (by simpa [Ne.symm e] using ha) (before s b e hs)

/-! ### Round robin -/

/-- What stands before a stream in the round-robin order after a pointer (R45, R86). -/
theorem roundRobin_split (p i : StreamId) :
    ∃ a b, roundRobin p = a ++ i :: b ∧
      ∀ j ∈ a, (p + 1 ≤ i ∧ p + 1 ≤ j ∧ j < i) ∨ (i < p + 1 ∧ (p + 1 ≤ j ∨ j < i)) := by
  have h : ∀ p i : StreamId, ∃ k : Fin 8, (roundRobin p)[k.val]? = some i ∧ ∀ j ∈ (roundRobin p).take k.val,
      (p + 1 ≤ i ∧ p + 1 ≤ j ∧ j < i) ∨ (i < p + 1 ∧ (p + 1 ≤ j ∨ j < i)) := by decide
  obtain ⟨k, h1, h2⟩ := h p i
  obtain ⟨hk, h1⟩ := List.getElem?_eq_some_iff.mp h1
  refine ⟨_, (roundRobin p).drop (k.val + 1), ?_, h2⟩
  conv => lhs; rw [← List.take_append_drop k.val (roundRobin p), List.drop_eq_getElem_cons hk, h1]

theorem roundRobin_find {p i : StreamId} {f : StreamId → Bool} (hi : f i = true)
    (hj : ∀ j : StreamId, (p + 1 ≤ i → p + 1 ≤ j → j < i → f j = false) ∧
      (i < p + 1 → (p + 1 ≤ j ∨ j < i) → f j = false)) : (roundRobin p).find? f = some i := by
  obtain ⟨a, b, h, h2⟩ := roundRobin_split p i
  rw [h, List.find?_append]
  have : a.find? f = none := by
    rw [List.find?_eq_none]
    intro j hm
    rcases h2 j hm with h | h
    · simp [(hj j).1 h.1 h.2.1 h.2.2]
    · simp [(hj j).2 h.1 h.2]
  rw [this]
  simp [hi]

theorem roundRobin_findSome {α : Type} {p i : StreamId} {f : StreamId → Option α} {x : α} (hi : f i = some x)
    (hj : ∀ j : StreamId, (p + 1 ≤ i → p + 1 ≤ j → j < i → f j = none) ∧
      (i < p + 1 → (p + 1 ≤ j ∨ j < i) → f j = none)) : (roundRobin p).findSome? f = some x := by
  obtain ⟨a, b, h, h2⟩ := roundRobin_split p i
  rw [h, List.findSome?_append]
  have : a.findSome? f = none := by
    rw [List.findSome?_eq_none_iff]
    intro j hm
    rcases h2 j hm with h | h
    · exact (hj j).1 h.1 h.2.1 h.2.2
    · exact (hj j).2 h.1 h.2
  rw [this]
  simp [hi]

end Sys2Proof.Machine
end

