-- ==== Sys2Proof/Laws/LineSteps.lean ====
section
/-!
SUPPORT. Laws/LineSteps.lean: what samples of the pins can do to the part (`PartStep`): edges and changes of the trigger
lines, what the lines hand over before time passes, and the edge and end of a SYNC pulse. `EdgeStep s t` says once what
the receivers of an edge can change.
-/

namespace Sys2Proof.Machine

/-- Noting that a stream became eligible changes the model's list only. -/
theorem noteEligible_part (i : StreamId) (s t : State) : PartStep t (noteEligible i s t) := by
  rw [noteEligible_eq]
  exact PartStep.of_same rfl rfl rfl rfl rfl rfl rfl

theorem modLine_part (n : LineId) (f : Line → Line) (s : State) : PartStep s (s.modLine n f) :=
  PartStep.of_same rfl rfl rfl rfl rfl rfl rfl

theorem handEdge_part (n : LineId) (order : List (Fin 12)) (streams : List StreamId) (s : State) :
    PartStep s (handEdge n order streams s) := PartStep.foldl _ (fun s r => takeEdgeAt_part n streams r s) _ _

theorem handChange_part (n : LineId) (active : Bool) (s : State) : PartStep s (handChange n active s) :=
  PartStep.of_same rfl rfl rfl rfl rfl rfl rfl

theorem takeLineEdge_part (n : LineId) (order : List (Fin 12)) (streams : List StreamId) (s : State) :
    PartStep s (takeLineEdge n order streams s) := by
  unfold takeLineEdge
  dsimp only
  split
  · exact (modLine_part n _ s).trans (handEdge_part n order streams _)
  · split
    · exact (modLine_part n _ s).trans (handEdge_part n order streams _)
    · exact PartStep.refl s

theorem settleLine_part (n : LineId) (s : State) : PartStep s (settleLine n s) := by
  unfold settleLine
  split
  · exact PartStep.refl s
  · exact (modLine_part n _ s).trans (handEdge_part n _ _ _)
  · exact (modLine_part n _ s).trans (handChange_part n _ _)

theorem takeLineChange_part (n : LineId) (active : Bool) (s : State) : PartStep s (takeLineChange n active s) := by
  unfold takeLineChange
  dsimp only
  split
  · split
    · exact (modLine_part n _ s).trans (handChange_part n _ _)
    · exact PartStep.refl s
  · exact (modLine_part n _ _).trans (handChange_part n _ _)

theorem settleLines_part (s : State) : PartStep s (settleLines s) :=
  PartStep.foldl _ (fun s n => settleLine_part n s) _ s

theorem readyAt_part (moment : Nat) (s : State) : PartStep s (s.readyAt moment) := by
  unfold State.readyAt
  split
  · exact settleLines_part s
  · exact PartStep.refl s

theorem atSample_part (n : LineId) (active : Bool) (s : State) : PartStep s (s.atSample n active) :=
  (readyAt_part _ s).trans (passTo_part _ _)

/-! ### What the receivers of an edge leave alone -/

/-- A change that the receivers of an edge or of a change of active state can make: no line, no count, no moment, no
watch, no table, no page, no order and no link state is touched. -/
def EdgeStep (s t : State) : Prop :=
  ∃ st sg bf ob cv np oo R B be G, t = { s with
    streams := st, staging := sg, buffers := bf, outboxes := ob, converters := cv, nextPassId := np, offers := oo,
    rings := R, bus := B, becameEligible := be, generators := G }

variable {s t u : State}

theorem EdgeStep.refl (s : State) : EdgeStep s s := ⟨_, _, _, _, _, _, _, _, _, _, _, rfl⟩

theorem EdgeStep.trans (h : EdgeStep s t) (k : EdgeStep t u) : EdgeStep s u := by
  obtain ⟨_, _, _, _, _, _, _, _, _, _, _, rfl⟩ := h
  obtain ⟨_, _, _, _, _, _, _, _, _, _, _, rfl⟩ := k
  exact ⟨_, _, _, _, _, _, _, _, _, _, _, rfl⟩

theorem EdgeStep.foldl {α : Type} (f : State → α → State) (h : ∀ s a, EdgeStep s (f s a)) (l : List α) (s : State) :
    EdgeStep s (l.foldl f s) := foldl_keeps f (EdgeStep s) l s (fun v a _ k => k.trans (h v a)) (EdgeStep.refl s)

theorem EdgeStep.of_stream {i : StreamId} (h : StreamStep i s t) : EdgeStep s t := by
  obtain ⟨_, _, _, _, _, _, _, _, _, _, rfl⟩ := h.frame
  exact ⟨_, _, _, _, _, _, _, _, _, _, _, rfl⟩

theorem EdgeStep.lines (h : EdgeStep s t) : t.lines = s.lines := by
  obtain ⟨_, _, _, _, _, _, _, _, _, _, _, rfl⟩ := h
  rfl

theorem EdgeStep.elapsed (h : EdgeStep s t) : t.elapsed = s.elapsed := by
  obtain ⟨_, _, _, _, _, _, _, _, _, _, _, rfl⟩ := h
  rfl

theorem EdgeStep.timebase (h : EdgeStep s t) : t.timebase = s.timebase := by
  obtain ⟨_, _, _, _, _, _, _, _, _, _, _, rfl⟩ := h
  rfl

theorem modGenerator_edge (g : GeneratorId) (f : Generator → Generator) (s : State) : EdgeStep s (s.modGenerator g f) :=
  ⟨_, _, _, _, _, _, _, _, _, _, _, rfl⟩

theorem issueTick_edge (g : GeneratorId) (order : List StreamId) (s : State) : EdgeStep s (issueTick g order s) :=
  ((modGenerator_edge g _ s).trans (.foldl _ (fun s i => .of_stream (takeTick_step i s)) _ _)).trans
    (modGenerator_edge g _ _)

theorem takeEdgeAt_edge (n : LineId) (streams : List StreamId) (r : Fin 12) (s : State) :
    EdgeStep s (takeEdgeAt n streams r s) := by
  unfold takeEdgeAt
  split
  · exact .of_stream (takeEdge_step n _ s)
  · unfold takeSourceEdge
    dsimp only
    split
    · split
      · exact (modGenerator_edge _ _ s).trans (issueTick_edge _ streams _)
      · exact modGenerator_edge _ _ s
    · exact .refl s

theorem handEdge_edge (n : LineId) (order : List (Fin 12)) (streams : List StreamId) (s : State) :
    EdgeStep s (handEdge n order streams s) := .foldl _ (fun s r => takeEdgeAt_edge n streams r s) _ _

theorem handChange_edge (n : LineId) (active : Bool) (s : State) : EdgeStep s (handChange n active s) :=
  ⟨_, _, _, _, _, _, _, _, _, _, _, rfl⟩

/-- A line that hands over what it owes touches no other line, no moment and no count. -/
theorem settleLine_keeps (n : LineId) (s : State) :
    (settleLine n s).lines = upd s.lines n Line.settled ∧ (settleLine n s).elapsed = s.elapsed ∧
      (settleLine n s).timebase = s.timebase := by
  unfold settleLine
  split
  · next h =>
    refine ⟨bank_ext _ _ fun k => ?_, rfl, rfl⟩
    by_cases e : k = n
    · subst e
      simp only [Fin.getElem_fin, upd_self]
      unfold Line.settled
      rw [← h]; rfl
    · exact (upd_ne s.lines Line.settled e).symm
  · exact ⟨(handEdge_edge n _ _ _).lines, (handEdge_edge n _ _ _).elapsed, (handEdge_edge n _ _ _).timebase⟩
  · exact ⟨rfl, rfl, rfl⟩

theorem settleLine_of_settled {n : LineId} {s : State} (h : (s.lines[n]).owed = .nothing) : settleLine n s = s := by
  unfold settleLine
  rw [h]

/-- Lines of a list that owe nothing hand nothing over. -/
theorem settleList_of_settled : ∀ (l : List LineId) (s : State), (∀ k ∈ l, (s.lines[k]).owed = .nothing) →
    l.foldl (fun s n => settleLine n s) s = s := by
  intro l
  induction l with
  | nil => exact fun _ _ => rfl
  | cons k l ih =>
    intro s h
    rw [List.foldl_cons, settleLine_of_settled (h k (by simp))]
    exact ih s fun j hj => h j (by simp [hj])

theorem nodup_allFours : (allFours : List LineId).Nodup := by decide

/-- What all lines together hand over: they owe nothing any more, and no time passes. -/
theorem settleLines_keeps (s : State) :
    (settleLines s).lines = mapAll s.lines Line.settled ∧ (settleLines s).elapsed = s.elapsed ∧
      (settleLines s).timebase = s.timebase := by
  have hm : ∀ n : LineId, n ∈ arrange (Config.lineOrder s.choices) allFours := fun n => by simp [mem_arrange]
  have hk := foldl_keeps (fun s n => settleLine n s) (fun v => v.elapsed = s.elapsed ∧ v.timebase = s.timebase)
    (arrange (Config.lineOrder s.choices) allFours) s
    (fun v n _ h => ⟨(settleLine_keeps n v).2.1.trans h.1, (settleLine_keeps n v).2.2.trans h.2⟩) ⟨rfl, rfl⟩
  refine ⟨bank_ext _ _ fun n => ?_, hk.1, hk.2⟩
  have := foldl_reaches (fun s n => settleLine n s) n (fun v => v.lines[n] = s.lines[n])
    (fun v => v.lines[n] = (s.lines[n]).settled)
    (fun v b hb h => by rw [(settleLine_keeps b v).1]; exact (upd_ne v.lines Line.settled (Ne.symm hb)).trans h)
    (fun v b hb h => by rw [(settleLine_keeps b v).1]; exact (upd_ne v.lines Line.settled (Ne.symm hb)).trans h)
    (fun v h => by rw [(settleLine_keeps n v).1]; exact (upd_self v.lines n Line.settled).trans (congrArg Line.settled h))
    _ s (nodup_arrange _ nodup_allFours) (hm n) rfl
  exact this.trans (mapAll_get s.lines Line.settled n.val n.isLt).symm

/-- Where one line owes, handing over is what that line hands over. -/
theorem settleLines_one {n : LineId} {s : State} (h : ∀ k : LineId, k ≠ n → (s.lines[k]).owed = .nothing) :
    settleLines s = settleLine n s := by
  unfold settleLines
  have hn := nodup_arrange (Config.lineOrder s.choices) nodup_allFours
  obtain ⟨a, b, e⟩ := List.append_of_mem ((mem_arrange (Config.lineOrder s.choices) allFours n).mpr (by simp))
  rw [e] at hn ⊢
  rw [List.nodup_append, List.nodup_cons] at hn
  rw [List.foldl_append, List.foldl_cons, settleList_of_settled a s fun k hk => h k fun x =>
    hn.2.2 k hk n (by simp) x]
  refine settleList_of_settled b _ fun k hk => ?_
  have kn : k ≠ n := fun x => hn.2.1.1 (x ▸ hk)
  rw [(settleLine_keeps n s).1]
  exact (congrArg Line.owed (upd_ne s.lines Line.settled kn)).trans (h k kn)

theorem linesOwe_iff (s : State) : s.linesOwe = true ↔ ∃ n : LineId, (s.lines[n]).owed ≠ .nothing := by
  simp [State.linesOwe]

/-- Where nothing is owed, or the moment has come, a state is ready as it stands. -/
theorem readyAt_same {s : State} {m : Nat} (h : m ≤ s.elapsed ∨ ∀ k : LineId, (s.lines[k]).owed = .nothing) :
    s.readyAt m = s := by
  unfold State.readyAt
  split
  · next c =>
    simp only [Bool.and_eq_true, decide_eq_true_eq] at c
    obtain ⟨n, hn⟩ := (linesOwe_iff s).mp c.2
    rcases h with h | h
    · omega
    · exact absurd (h n) hn
  · rfl

/-- What a state that is ready for a moment to come keeps: the lines but for what they owe, the count and elapsed time. -/
theorem readyAt_keeps {s : State} {m : Nat} (h : s.elapsed < m) :
    (s.readyAt m).lines = mapAll s.lines Line.settled ∧ (s.readyAt m).elapsed = s.elapsed ∧
      (s.readyAt m).timebase = s.timebase := by
  unfold State.readyAt
  split
  · exact settleLines_keeps s
  · next c =>
    refine ⟨bank_ext _ _ fun n => ?_, rfl, rfl⟩
    have hn : (s.lines[n]).owed = .nothing := by
      by_contra x
      exact c (by simp [h, (linesOwe_iff s).mpr ⟨n, x⟩])
    refine Eq.trans ?_ (mapAll_get s.lines Line.settled n.val n.isLt).symm
    exact (congrArg (fun o => ({ s.lines[n] with owed := o } : Line)) hn)

/-- A state that is ready for a moment is ready for every moment up to it. -/
theorem readyAt_readyAt {s : State} {m k : Nat} (h : k ≤ m) : (s.readyAt m).readyAt k = s.readyAt m := by
  by_cases c : s.elapsed < m
  · refine readyAt_same (.inr fun n => ?_)
    rw [(readyAt_keeps c).1]
    exact congrArg Line.owed (mapAll_get s.lines Line.settled n.val n.isLt)
  · rw [readyAt_same (s := s) (.inl (by omega))]
    exact readyAt_same (.inl (by omega))

theorem atSyncSample_part (s : State) : PartStep s s.atSyncSample := by
  unfold State.atSyncSample
  split
  · exact (readyAt_part _ s).trans (passTo_part _ _)
  · exact PartStep.refl s

theorem takeLoad_part (a : SyncArm) (streams : List StreamId) (s : State) : PartStep s (takeLoad a streams s) := by
  have h : ∀ v : State, PartStep v (syncLoad a v) := fun v =>
    (PartStep.of_same rfl rfl rfl rfl rfl rfl rfl : PartStep v { v with
      timebase := { v.timebase with count := a.preset, arm := none } }).trans (handTimebaseEvent_part _ _)
  exact ((examineTimes_part streams s).trans (h _)).trans (examineTimes_part streams _)

theorem handSyncEdge_part (streams : List StreamId) (s : State) : PartStep s (handSyncEdge streams s) := by
  have h : PartStep s { s with syncHigh := false, syncNext := s.elapsed + 1 } :=
    PartStep.of_same rfl rfl rfl rfl rfl rfl rfl
  unfold handSyncEdge
  split
  · exact PartStep.refl s
  · dsimp only
    split
    · exact h.trans (takeLoad_part _ streams _)
    · exact h.trans (takeLoad_part _ streams _)
    · exact h

theorem endPulse_part (s : State) : PartStep s (endPulse s) := by
  have h : ∀ u v : State, PartStep u v → PartStep u { v with timebase := { v.timebase with fire := .absent } } :=
    fun u v k => k.trans (PartStep.of_same rfl rfl rfl rfl rfl rfl rfl)
  unfold endPulse
  split
  · exact h _ _ (((atSyncSample_part s).trans (handSyncEdge_part _ _)).trans (passTo_part _ _))
  all_goals exact PartStep.refl s

end Sys2Proof.Machine
end

