-- ==== Sys2Proof/Laws/OutboxSteps.lean ====
section
/-!
SUPPORT. Laws/OutboxSteps.lean: what the Stream Controller's transitions do to a stream's outbox and to what keeps it short.
`State.view` is what `State.OutboxesOrdered` reads of one stream, `StreamView.Ok k` says that it is in order with room for
`k` more records, and each transition has a lemma that it keeps a view in order.
-/

namespace Sys2Proof.Machine

/-- What `State.OutboxesOrdered` reads of a stream. -/
structure StreamView where
  state : StreamState
  aborted : Bool
  walking : Bool
  closed : List Block
  forming : List PassRecord
  buffers : List Descriptor
  records : Nat
  writing : Bool
  up : Bool

/-- The view of a stream. -/
def State.view (s : State) (i : StreamId) : StreamView where
  state := (s.streams[i]).state
  aborted := (s.streams[i]).endReason == some .aborted
  walking := (s.streams[i]).pass.isSome
  closed := (s.staging[i]).closed
  forming := (s.staging[i]).forming
  buffers := s.buffers[i]
  records := (s.outboxes[i]).length
  writing := s.writing i
  up := s.linkUp

/-- The BUFFER_DONE records still to come, of a view (`State.buffersAhead`). -/
def StreamView.ahead (v : StreamView) : Nat := if v.writing = true ∨ v.buffers.head?.any (·.inUse) = true then 1 else 0

theorem StreamView.ahead_le (v : StreamView) : v.ahead ≤ 1 := by
  unfold StreamView.ahead
  split <;> omega

/-- A view in order, with room for `k` more records. -/
structure StreamView.Ok (v : StreamView) (k : Nat) : Prop where
  outbox : v.records + v.state.recordsAhead + v.ahead + k ≤ 6
  fresh : ∀ d ∈ v.buffers.tail, d.inUse = false
  head : ∀ (b : Block) (rest : List Block), v.closed = b :: rest →
    (b.writing = true → v.writing = true) ∧ ∀ x ∈ rest, x.writing = false
  isUp : v.up = true → v.closed ≠ [] ∨ v.writing = true → v.state = .running ∨ v.state = .draining
  notUp : v.up = false → v.state.active = false ∧ v.records = 0 ∧
    (v.closed = [] ∨ (v.closed.length = 1 ∧ v.writing = true))
  fast : v.state = .draining → v.aborted = true → v.walking = false ∧ v.forming = [] ∧ v.closed.length ≤ 1

/-- The outboxes are in order when every view is, and no write is in flight in DOWN and LOADING. -/
theorem outboxesOrdered_iff (s : State) : s.OutboxesOrdered ↔
    (∀ i : StreamId, (s.view i).Ok 0) ∧ (s.link.state = .down ∨ s.link.state = .loading → s.writeInFlight = none) := by
  have fast : ∀ i : StreamId, (s.streams[i]).fastDrain = true ↔
      (s.streams[i]).state = .draining ∧ ((s.streams[i]).endReason == some .aborted) = true := by
    intro i; simp [StreamContext.fastDrain]
  constructor
  · intro h
    refine ⟨fun i => ⟨h.outbox i, h.fresh i, h.head i, fun u => h.up u i, fun u => ?_, fun a b => ?_⟩, h.quiet⟩
    · obtain ⟨x, y, z⟩ := h.notUp u i
      exact ⟨x, by simp [State.view, y], z⟩
    · obtain ⟨x, y, z⟩ := h.fast i ((fast i).mpr ⟨a, b⟩)
      exact ⟨by show (s.streams[i]).pass.isSome = false; rw [x]; rfl, y, z⟩
  · rintro ⟨h, q⟩
    refine ⟨fun i => (h i).outbox, fun i => (h i).fresh, fun i => (h i).head, fun u i => (h i).isUp u, fun u i => ?_,
      fun i f => ?_, q⟩
    · obtain ⟨x, y, z⟩ := (h i).notUp u
      exact ⟨x, List.eq_nil_of_length_eq_zero y, z⟩
    · obtain ⟨a, b⟩ := (fast i).mp f
      obtain ⟨x, y, z⟩ := (h i).fast a b
      refine ⟨?_, y, z⟩
      simpa [State.view] using x

variable {i : StreamId} {s : State} {k : Nat}

/-! ### What each update does to a view -/

theorem view_modStream (f : StreamContext → StreamContext) : (s.modStream i f).view i = { s.view i with
    state := (f s.streams[i]).state, aborted := (f s.streams[i]).endReason == some .aborted,
    walking := (f s.streams[i]).pass.isSome } := by
  simp [State.view, State.modStream, State.writing, State.linkUp]

theorem view_modStream_same (f : StreamContext → StreamContext) (h1 : (f s.streams[i]).state = (s.streams[i]).state)
    (h2 : (f s.streams[i]).endReason = (s.streams[i]).endReason) (h3 : (f s.streams[i]).pass = (s.streams[i]).pass) :
    (s.modStream i f).view i = s.view i := by
  rw [view_modStream, h1, h2, h3]
  rfl

theorem view_modStaging (f : Staging → Staging) : (s.modStaging i f).view i = { s.view i with
    closed := (f s.staging[i]).closed, forming := (f s.staging[i]).forming } := by
  simp [State.view, State.modStaging, State.writing, State.linkUp]

theorem view_modBuffers (f : List Descriptor → List Descriptor) : (s.modBuffers i f).view i = { s.view i with
    buffers := f s.buffers[i] } := by
  simp [State.view, State.modBuffers, State.writing, State.linkUp]

theorem view_modOutbox (f : List OutboxEntry → List OutboxEntry) : (s.modOutbox i f).view i = { s.view i with
    records := (f s.outboxes[i]).length } := by
  simp [State.view, State.modOutbox, State.writing, State.linkUp]

/-- A change of nothing that a view reads. -/
theorem view_congr {t : State} (j : StreamId) (h1 : t.streams[j] = s.streams[j]) (h2 : t.staging[j] = s.staging[j])
    (h3 : t.buffers[j] = s.buffers[j]) (h4 : t.outboxes[j] = s.outboxes[j]) (h5 : t.writeInFlight = s.writeInFlight)
    (h6 : t.link = s.link) : t.view j = s.view j := by
  unfold State.view State.writing State.linkUp
  rw [h1, h2, h3, h4, h5, h6]

/-- A ring step changes no view. -/
theorem RingStep.view {t : State} (h : RingStep s t) (j : StreamId) : t.view j = s.view j := by
  obtain ⟨_, _, rfl⟩ := h.frame
  rfl

/-- A transition of one stream changes no other view. -/
theorem StreamStep.view {t : State} {j : StreamId} (h : StreamStep i s t) (hj : j ≠ i) : t.view j = s.view j := by
  obtain ⟨a, b, c, d⟩ := h.others j hj
  obtain ⟨_, _, _, _, _, _, _, _, _, _, rfl⟩ := h.frame
  exact view_congr j a b c d rfl rfl

/-- A transition of one stream keeps the outboxes in order when it keeps its own view so. -/
theorem StreamStep.outboxes {t : State} (h : StreamStep i s t) (own : (s.view i).Ok 0 → (t.view i).Ok 0)
    (o : s.OutboxesOrdered) : t.OutboxesOrdered := by
  obtain ⟨v, q⟩ := (outboxesOrdered_iff s).mp o
  refine (outboxesOrdered_iff t).mpr ⟨fun j => ?_, ?_⟩
  · by_cases e : j = i
    · subst e; exact own (v j)
    · rw [h.view e]; exact v j
  · obtain ⟨_, _, _, _, _, _, _, _, _, _, rfl⟩ := h.frame
    exact q

theorem view_noteEligible (u : State) : (noteEligible i u s).view i = s.view i := by
  rw [noteEligible_eq]
  rfl

/-! ### Records -/

/-- Room for fewer records. -/
theorem StreamView.Ok.mono {v : StreamView} (h : v.Ok k) {l : Nat} (hl : l ≤ k) : v.Ok l :=
  ⟨by have := h.outbox; omega, h.fresh, h.head, h.isUp, h.notUp, h.fast⟩

/-- A record that joins takes one place at most, and none outside UP. -/
theorem view_joinOutbox (record : Record) : ∃ n, (joinOutbox i record s).view i = { s.view i with records := n } ∧
    n ≤ (s.view i).records + 1 ∧ ((s.view i).up = false → n = (s.view i).records) := by
  unfold joinOutbox
  split
  · exact ⟨_, rfl, Nat.le_succ _, fun _ => rfl⟩
  · split
    · exact ⟨_, rfl, Nat.le_succ _, fun _ => rfl⟩
    · rename_i hu
      have up : (s.view i).up = true := by
        simpa [State.view] using hu
      split
      · split
        · rename_i h
          rw [(place_step h).view i]
          exact ⟨_, rfl, Nat.le_succ _, fun _ => rfl⟩
        · rw [view_modOutbox]
          exact ⟨_, rfl, by simp, fun h => by rw [up] at h; cases h⟩
      · rw [view_modOutbox]
        exact ⟨_, rfl, by simp [State.view], fun h => by rw [up] at h; cases h⟩

theorem joinOutbox_ok (record : Record) (h : (s.view i).Ok (k + 1)) : ((joinOutbox i record s).view i).Ok k := by
  obtain ⟨n, e, hn, hu⟩ := view_joinOutbox (i := i) (s := s) record
  rw [e]
  refine ⟨?_, h.fresh, h.head, h.isUp, fun u => ?_, h.fast⟩
  · have := h.outbox
    simp only [StreamView.ahead] at this ⊢
    omega
  · obtain ⟨a, b, c⟩ := h.notUp u
    exact ⟨a, by rw [hu u]; exact b, c⟩

theorem streamRecord_ok (event : StreamEvent) (h : (s.view i).Ok (k + 1)) :
    ((streamRecord i event s).view i).Ok k := joinOutbox_ok _ h

/-- A stream that has nothing closed and no write in flight may enter IDLE: its record takes the place of those it can
no longer give rise to. -/
theorem endStream_ok (reason : EndReason) (h : (s.view i).Ok k) (active : 1 ≤ (s.view i).state.recordsAhead)
    (hc : (s.view i).closed = []) (hw : (s.view i).writing = false) : ((endStream i reason s).view i).Ok k := by
  unfold endStream
  dsimp only
  refine streamRecord_ok _ ?_
  rw [view_modStream]
  refine ⟨?_, h.fresh, h.head, fun _ x => ?_, fun u => ⟨rfl, (h.notUp u).2⟩, fun x => by cases x⟩
  · have out := h.outbox
    show (s.view i).records + 0 + (s.view i).ahead + (k + 1) ≤ 6
    omega
  · rcases x with x | x
    · exact absurd hc x
    · exact absurd hw (by simpa using x)

/-- The buffer in use is completed: its record takes the place that was kept for it. -/
theorem completeBuffer_ok (flags : BufferFlags) (h : (s.view i).Ok k) (hw : (s.view i).writing = false)
    (hd : (s.view i).buffers.head?.any (·.inUse) = true) : ((completeBuffer i flags s).view i).Ok k := by
  unfold completeBuffer
  have hb : (s.view i).buffers = s.buffers[i] := rfl
  cases e : s.buffers[i] with
  | nil => rw [hb, e] at hd; cases hd
  | cons d rest =>
    dsimp only
    refine joinOutbox_ok _ ?_
    rw [view_modBuffers]
    have fresh : ∀ x ∈ rest, x.inUse = false := by
      have := h.fresh
      rw [hb, e] at this
      exact this
    refine ⟨?_, fun x hx => fresh x (List.mem_of_mem_tail hx), h.head, h.isUp, h.notUp, h.fast⟩
    have := h.outbox
    simp only [StreamView.ahead, hb, e] at this ⊢
    rw [hb, e] at hd
    rw [if_pos (Or.inr hd)] at this
    rw [if_neg]
    · omega
    · rintro (x | x)
      · rw [hw] at x; cases x
      · cases rest with
        | nil => cases x
        | cons y ys =>
          have := fresh y (by simp)
          simp [this] at x

/-- What completing the current buffer leaves of a view. -/
theorem completeCurrent_ok (flags : BufferFlags) (h : (s.view i).Ok k) (hw : (s.view i).writing = false) :
    ((completeCurrent i flags s).view i).Ok k := by
  unfold completeCurrent State.currentBuffer
  split
  · exact h
  · rename_i d hd
    refine completeBuffer_ok flags h hw ?_
    show s.buffers[i].head?.any (·.inUse) = true
    cases e : s.buffers[i].head? with
    | none => rw [e] at hd; cases hd
    | some x =>
      rw [e] at hd
      simp only [Option.filter_eq_some_iff, Descriptor.isCurrent, decide_eq_true_eq] at hd
      simp [Descriptor.inUse, hd.1, hd.2]

/-- Completing a buffer changes buffers and records only. -/
theorem view_completeBuffer (flags : BufferFlags) :
    ∃ b n, (completeBuffer i flags s).view i = { s.view i with buffers := b, records := n } := by
  unfold completeBuffer
  split
  · exact ⟨_, _, rfl⟩
  · rename_i d rest _
    obtain ⟨n, e, _⟩ := view_joinOutbox (i := i) (s := s.modBuffers i (fun _ => rest)) (d.doneRecord i flags)
    rw [e, view_modBuffers]
    exact ⟨_, _, rfl⟩

theorem view_completeCurrent (flags : BufferFlags) :
    ∃ b n, (completeCurrent i flags s).view i = { s.view i with buffers := b, records := n } := by
  unfold completeCurrent
  split
  · exact ⟨_, _, rfl⟩
  · exact view_completeBuffer flags

/-! ### Drains and ends -/

theorem drainComplete_ok (h : (s.view i).Ok k) : ((drainComplete i s).view i).Ok k := by
  unfold drainComplete
  dsimp only
  split
  · rename_i c
    obtain ⟨hs, _, _, he, hw⟩ := c
    split
    · have hc := completeCurrent_ok { final := true } h hw
      obtain ⟨b, n, e⟩ := view_completeCurrent (i := i) (s := s) { final := true }
      refine endStream_ok _ hc ?_ ?_ ?_
      · rw [e]; show 1 ≤ (s.streams[i]).state.recordsAhead; rw [hs]; decide
      · rw [e]; simp only [Staging.isEmpty, Bool.and_eq_true, List.isEmpty_iff] at he; exact he.1
      · rw [e]; exact hw
    · exact h
  · exact h

theorem view_clearSlips (closes : Bool) : (clearSlips i closes s).view i = s.view i := by
  unfold clearSlips
  split
  · rw [view_modStream]; rfl
  · rfl

theorem markNewestFinal_map (l : List Block) : (markNewestFinal l).map (·.writing) = l.map (·.writing) := by
  induction l with
  | nil => rfl
  | cons b l ih =>
    cases l with
    | nil =>
      unfold markNewestFinal
      split <;> rfl
    | cons c l => simpa [markNewestFinal] using ih

/-- The head block is the only one that may be being written, said of the flags alone. -/
theorem head_iff (l : List Block) (w : Bool) :
    (∀ (b : Block) (rest : List Block), l = b :: rest → (b.writing = true → w = true) ∧ ∀ x ∈ rest, x.writing = false) ↔
      ∀ (b : Bool) (rest : List Bool), l.map (·.writing) = b :: rest → (b = true → w = true) ∧ ∀ x ∈ rest, x = false := by
  cases l with
  | nil => simp
  | cons b l => simp

/-- The blocks closed behind those that are there are not being written. -/
theorem head_append {l m : List Block} {w : Bool}
    (h : ∀ (b : Block) (rest : List Block), l = b :: rest → (b.writing = true → w = true) ∧ ∀ x ∈ rest, x.writing = false)
    (hm : ∀ b ∈ m, b.writing = false) :
    ∀ (b : Block) (rest : List Block), l ++ m = b :: rest → (b.writing = true → w = true) ∧ ∀ x ∈ rest, x.writing = false := by
  intro b rest e
  cases l with
  | nil =>
    rw [List.nil_append] at e
    subst e
    exact ⟨fun x => absurd x (by simp [hm b (by simp)]), fun x hx => hm x (by simp [hx])⟩
  | cons c l =>
    rw [List.cons_append] at e
    injection e with e1 e2
    subst e1 e2
    obtain ⟨x, y⟩ := h c l rfl
    refine ⟨x, fun z hz => ?_⟩
    rcases List.mem_append.mp hz with hz | hz
    · exact y z hz
    · exact hm z hz

/-- A view with other blocks, none of them new being written, in a state that has them. -/
theorem StreamView.Ok.blocks {v : StreamView} (h : v.Ok k) {closed : List Block} {forming : List PassRecord}
    (hh : ∀ (b : Block) (rest : List Block), closed = b :: rest →
      (b.writing = true → v.writing = true) ∧ ∀ x ∈ rest, x.writing = false)
    (hs : v.state = .running ∨ v.state = .draining) (hf : v.state = .draining → v.aborted = false) :
    ({ v with closed := closed, forming := forming } : StreamView).Ok k := by
  refine ⟨h.outbox, h.fresh, hh, fun _ _ => hs, fun u => ?_, fun a b => ?_⟩
  · obtain ⟨x, _⟩ := h.notUp u
    rcases hs with e | e <;> rw [e] at x <;> cases x
  · rw [hf a] at b; cases b

theorem drainEndMark_ok (h : (s.view i).Ok k) (hs : (s.view i).state = .draining) (ha : (s.view i).aborted = false) :
    ((drainEndMark i s).view i).Ok k := by
  unfold drainEndMark
  dsimp only
  rw [view_clearSlips, view_modStaging]
  refine h.blocks ?_ (Or.inr hs) (fun _ => ha)
  unfold Staging.drainEnd
  split
  · rw [head_iff, markNewestFinal_map, ← head_iff]
    exact h.head
  · rename_i r rest e
    unfold Staging.close
    rw [e]
    exact head_append h.head (by simp [closedBlock])

theorem view_streamRecord (event : StreamEvent) :
    ∃ n, (streamRecord i event s).view i = { s.view i with records := n } := by
  obtain ⟨n, e, _⟩ := view_joinOutbox (i := i) (s := s) (.streamState i event s.timebase.count)
  exact ⟨n, e⟩

theorem view_drainEndMark : ∃ c f, (drainEndMark i s).view i = { s.view i with closed := c, forming := f } := by
  unfold drainEndMark
  dsimp only
  rw [view_clearSlips, view_modStaging]
  exact ⟨_, _, rfl⟩

theorem enterDraining_ok (reason : EndReason) (hr : reason ≠ .aborted) (h : (s.view i).Ok k)
    (hs : (s.view i).state = .running) : ((enterDraining i reason s).view i).Ok k := by
  unfold enterDraining
  dsimp only
  rw [view_noteEligible]
  have ha : (some reason == some EndReason.aborted) = false := by simpa using hr
  have h1 : ((s.modStream i (fun x => { x with state := .draining, endReason := some reason })).view i).Ok (k + 1) := by
    rw [view_modStream]
    refine ⟨?_, h.fresh, h.head, fun _ _ => Or.inr rfl, fun u => ?_, fun _ b => ?_⟩
    · have := h.outbox
      rw [hs] at this
      simp only [StreamView.ahead, StreamState.recordsAhead] at this ⊢
      omega
    · have := (h.notUp u).1
      rw [hs] at this
      cases this
    · have b : (some reason == some EndReason.aborted) = true := b
      rw [ha] at b
      cases b
  have h2 := streamRecord_ok (.draining reason (s.streams[i]).begun) h1
  split
  · refine drainComplete_ok (drainEndMark_ok h2 ?_ ?_)
    · obtain ⟨n, e⟩ := view_streamRecord (i := i) (.draining reason (s.streams[i]).begun)
        (s := s.modStream i (fun x => { x with state := .draining, endReason := some reason }))
      rw [e, view_modStream]
    · obtain ⟨n, e⟩ := view_streamRecord (i := i) (.draining reason (s.streams[i]).begun)
        (s := s.modStream i (fun x => { x with state := .draining, endReason := some reason }))
      rw [e, view_modStream]
      exact ha
  · exact h2

/-- Withdrawing the pass only clears it. -/
theorem view_withdrawPass : (withdrawPass i s).view i = { s.view i with walking := false } := by
  unfold withdrawPass
  rw [view_modStream]
  rfl

/-- A view with nothing staged and no pass. -/
theorem StreamView.Ok.emptied {v : StreamView} (h : v.Ok k) :
    ({ v with closed := [], forming := [], walking := false } : StreamView).Ok k := by
  refine ⟨h.outbox, h.fresh, (by intro b rest e; cases e), fun u x => ?_, fun u => ?_, fun _ _ => ⟨rfl, rfl, Nat.zero_le _⟩⟩
  · rcases x with x | x
    · exact absurd rfl x
    · exact h.isUp u (Or.inr x)
  · obtain ⟨a, b, _⟩ := h.notUp u
    exact ⟨a, b, Or.inl rfl⟩

theorem view_emptied : (withdrawPass i (s.modStaging i (fun _ => Staging.empty))).view i
    = { s.view i with closed := [], forming := [], walking := false } := by
  rw [view_withdrawPass, view_modStaging]
  rfl

/-- In UP a stream that is neither RUNNING nor DRAINING has nothing closed and no write in flight. -/
theorem StreamView.Ok.bare {v : StreamView} (h : v.Ok k) (hu : v.up = true) (h1 : v.state ≠ .running)
    (h2 : v.state ≠ .draining) : v.closed = [] ∧ v.writing = false := by
  constructor
  · by_contra x
    rcases h.isUp hu (Or.inl x) with e | e
    · exact h1 e
    · exact h2 e
  · by_contra x
    rcases h.isUp hu (Or.inr (by simpa using x)) with e | e
    · exact h1 e
    · exact h2 e

/-- An active stream is a stream in UP. -/
theorem StreamView.Ok.up_of_active {v : StreamView} (h : v.Ok k) (ha : v.state.active = true) : v.up = true := by
  by_contra x
  have := (h.notUp (by simpa using x)).1
  rw [ha] at this
  cases this

theorem endArmed_ok (reason : EndReason) (h : (s.view i).Ok k) (hs : (s.view i).state = .armed) :
    ((endArmed i reason s).view i).Ok k := by
  have hu := h.up_of_active (by rw [hs]; rfl)
  have hb := h.bare hu (by rw [hs]; simp) (by rw [hs]; simp)
  unfold endArmed
  refine endStream_ok reason ?_ ?_ ?_ ?_ <;> rw [view_emptied]
  · exact h.emptied
  · show 1 ≤ (s.view i).state.recordsAhead
    rw [hs]
    decide
  · exact hb.2

theorem examineStopTime_ok (h : (s.view i).Ok k) : ((examineStopTime i s).view i).Ok k := by
  unfold examineStopTime
  split
  · exact h
  · split
    · split
      · rename_i x
        exact enterDraining_ok _ (by simp) h x.1
      · exact h
    all_goals exact h

/-! ### Triggers, ticks and passes -/

theorem closeRuns_writing (p : Nat) : ∀ (fuel : Nat) (l : List PassRecord) (slips : Nat),
    ∀ b ∈ (closeRuns p fuel l slips).1, b.writing = false := by
  intro fuel
  induction fuel with
  | zero => intro l slips b hb; simp [closeRuns] at hb
  | succ fuel ih =>
    intro l slips b hb
    unfold closeRuns at hb
    split at hb
    · simp only [List.mem_cons] at hb
      rcases hb with rfl | hb
      · rfl
      · exact ih _ _ b hb
    · simp at hb

theorem fixHistory_closed (p : Bool) (depth : Nat) (q : Staging) : (fixHistory p depth q).1.closed = q.closed := by
  unfold fixHistory
  split
  · rfl
  · split
    · simp [Staging.trim]
    · rfl

/-- The trigger of an ARMED stream, or of an IDLE one that ARM STREAM triggers at once. -/
theorem takeTrigger_ok (source : TriggerSource) (h : (s.view i).Ok 0)
    (hs : (s.view i).state = .armed ∨ ((s.view i).state = .idle ∧ (s.view i).records = 0 ∧ (s.view i).up = true)) :
    ((takeTrigger i source s).view i).Ok 0 := by
  have hu : (s.view i).up = true := by
    rcases hs with e | e
    · exact h.up_of_active (by rw [e]; rfl)
    · exact e.2.2
  have hb : (s.view i).closed = [] ∧ (s.view i).writing = false := by
    rcases hs with e | e
    · exact h.bare hu (by rw [e]; simp) (by rw [e]; simp)
    · exact h.bare hu (by rw [e.1]; simp) (by rw [e.1]; simp)
  unfold takeTrigger
  split
  · exact h
  · rename_i c _
    dsimp only
    rw [view_noteEligible]
    refine examineStopTime_ok (streamRecord_ok _ ?_)
    rw [view_clearSlips, view_modStream, view_modStaging]
    refine ⟨?_, h.fresh, ?_, fun _ _ => Or.inl rfl, fun x => ?_, fun x => by cases x⟩
    · have := h.outbox
      have ha : (s.view i).ahead ≤ 1 := by unfold StreamView.ahead; split <;> omega
      show (s.view i).records + 2 + (s.view i).ahead + 1 ≤ 6
      rcases hs with e | e
      · rw [e] at this
        simp only [StreamState.recordsAhead] at this
        omega
      · omega
    · refine head_append (l := (fixHistory _ _ _).1.closed) ?_ (closeRuns_writing _ _ _ _)
      rw [fixHistory_closed]
      exact h.head
    · have x : (s.view i).up = false := x
      rw [hu] at x
      cases x

theorem view_placeRequest : (placeRequest i s).view i = s.view i := by
  unfold placeRequest
  split
  · rfl
  · split <;> rfl

/-- A view with other records that are not yet closed, outside a fast drain. -/
theorem StreamView.Ok.passes {v : StreamView} (h : v.Ok k) {forming : List PassRecord} {walking : Bool}
    (hs : v.state ≠ .draining ∨ v.aborted = false) :
    ({ v with forming := forming, walking := walking } : StreamView).Ok k := by
  refine ⟨h.outbox, h.fresh, h.head, h.isUp, h.notUp, fun a b => ?_⟩
  rcases hs with e | e
  · exact absurd a e
  · rw [e] at b; cases b

theorem beginPass_ok (number : Option Word) (dropped : Nat) (h : (s.view i).Ok k) (hs : (s.view i).state ≠ .draining) :
    ((beginPass i number dropped s).view i).Ok k := by
  unfold beginPass
  dsimp only
  rw [view_placeRequest]
  have e : ∀ (t : State) (n : Nat), ({ t with nextPassId := n } : State).view i = t.view i := fun _ _ => rfl
  rw [e, view_modStream, view_modStaging]
  exact h.passes (Or.inl hs)

theorem beginHistory_ok (h : (s.view i).Ok k) (hs : (s.view i).state ≠ .draining) :
    ((beginHistory i s).view i).Ok k := by
  unfold beginHistory
  refine beginPass_ok _ _ ?_ ?_ <;> rw [view_modStaging]
  · exact h.passes (walking := (s.view i).walking) (Or.inl hs)
  · exact hs

theorem takeSlip_ok (c : StreamConfig) (p : PassInProgress) (h : (s.view i).Ok k) (hs : (s.view i).state = .running) :
    ((takeSlip i c p s).view i).Ok k := by
  have hn : (s.view i).state ≠ .draining := by rw [hs]; simp
  have h1 : (((s.modStream i (fun x => { x with
      slippedSince := satSucc limit16 x.slippedSince, totalSlipped := satSucc limit32 x.totalSlipped })).modStaging i
      (fun q => q.modRecord p.pass (fun r => { r with slips := satSucc limit16 r.slips }))).view i).Ok k := by
    rw [view_modStaging, view_modStream]
    exact h.passes (walking := (s.view i).walking) (Or.inl hn)
  unfold takeSlip
  dsimp only
  split
  · exact h1
  · refine enterDraining_ok _ (by simp) h1 ?_
    rw [view_modStaging, view_modStream]
    exact hs

/-- Closing the records that stand behind the last mark adds a block that is not being written. -/
theorem close_head {q : Staging} {w : Bool} (slips : Nat) (short final : Bool)
    (h : ∀ (b : Block) (rest : List Block), q.closed = b :: rest →
      (b.writing = true → w = true) ∧ ∀ x ∈ rest, x.writing = false) :
    ∀ (b : Block) (rest : List Block), (q.close slips short final).closed = b :: rest →
      (b.writing = true → w = true) ∧ ∀ x ∈ rest, x.writing = false := by
  unfold Staging.close
  split
  · exact h
  · exact head_append h (by simp [closedBlock])

theorem takeOverrun_ok (c : StreamConfig) (h : (s.view i).Ok k) (hs : (s.view i).state = .running) :
    ((takeOverrun i c s).view i).Ok k := by
  have hn : (s.view i).state = .draining → (s.view i).aborted = false := by rw [hs]; intro x; cases x
  unfold takeOverrun
  dsimp only
  rw [view_noteEligible]
  generalize ht : clearSlips i _ _ = t
  have e : t.view i = { s.view i with
      closed := ((s.staging[i]).close (s.streams[i]).slippedSince true false).closed,
      forming := ((s.staging[i]).close (s.streams[i]).slippedSince true false).forming } := by
    rw [← ht, view_clearSlips, view_modStaging, view_modStream]
    rfl
  have h1 : (t.view i).Ok k := by
    rw [e]
    exact h.blocks (close_head _ _ _ h.head) (Or.inl hs) hn
  have hs1 : (t.view i).state = .running := by rw [e]; exact hs
  split
  · exact enterDraining_ok _ (by simp) h1 hs1
  · split
    · exact enterDraining_ok _ (by simp) h1 hs1
    · exact h1

theorem takeAttempt_ok (c : StreamConfig) (h : (s.view i).Ok k) (hs : (s.view i).state = .running) :
    ((takeAttempt i c s).view i).Ok k := by
  unfold takeAttempt
  dsimp only
  split
  · have e : ((s.modStream i fun x =>
        { x with nextPass := some ((s.streams[i]).nextPass.getD 0 + 1), begun := satSucc limit32 x.begun }).modStream i
        fun x => { x with droppedSince := 0 }).view i = s.view i := by
      rw [view_modStream_same, view_modStream_same] <;> rfl
    exact beginPass_ok _ _ (by rw [e]; exact h) (by rw [e, hs]; simp)
  · refine takeOverrun_ok c ?_ ?_ <;> rw [view_modStream_same] <;> first | rfl | assumption

theorem takeTick_ok (h : (s.view i).Ok k) : ((takeTick i s).view i).Ok k := by
  unfold takeTick
  dsimp only
  split
  · exact h
  · split
    · rename_i e
      split
      · exact h
      · exact beginHistory_ok h (by show (s.streams[i]).state ≠ _; rw [e]; simp)
    · rename_i e
      split
      · exact takeSlip_ok _ _ h e
      · exact takeAttempt_ok _ h e
    all_goals exact h

theorem takeEdge_ok (n : LineId) (h : (s.view i).Ok 0) : ((takeEdge n i s).view i).Ok 0 := by
  unfold takeEdge
  dsimp only
  split
  · exact h
  · split
    · rename_i e
      split
      · exact takeTrigger_ok _ h (Or.inl e)
      · exact h
    · rename_i e
      split
      · exact enterDraining_ok _ (by simp) h e
      · exact h
    all_goals exact h

theorem takeTime_ok (h : (s.view i).Ok 0) : ((takeTime i s).view i).Ok 0 := by
  unfold takeTime
  dsimp only
  split
  · exact h
  · split
    · rename_i e
      split
      · split
        · exact takeTrigger_ok _ h (Or.inl e)
        · exact h
      all_goals exact h
    · exact examineStopTime_ok h
    all_goals exact h

theorem takeStartRequest_ok (m : WatchId) (h : (s.view i).Ok 0) : ((takeStartRequest m i s).1.view i).Ok 0 := by
  unfold takeStartRequest
  split
  · rename_i e
    exact takeTrigger_ok _ h (Or.inl e)
  · exact h

theorem takeHaltRequest_ok (h : (s.view i).Ok k) : ((takeHaltRequest i s).1.view i).Ok k := by
  unfold takeHaltRequest
  split
  · rename_i e
    exact enterDraining_ok _ (by simp) h e
  · rename_i e
    exact endArmed_ok _ h e
  all_goals exact h

theorem countPass_ok (c : StreamConfig) (h : (s.view i).Ok k)
    (hs : (s.view i).state = .running ∨ (s.view i).state = .draining)
    (hn : (s.view i).state = .draining → (s.view i).aborted = false) : ((countPass i c s).view i).Ok k := by
  unfold countPass
  dsimp only
  rw [view_clearSlips, view_modStaging, view_modStream]
  split
  · exact h.blocks (close_head _ _ _ h.head) hs hn
  · exact h

theorem view_countPass (c : StreamConfig) :
    ∃ a f, (countPass i c s).view i = { s.view i with closed := a, forming := f } := by
  unfold countPass
  dsimp only
  rw [view_clearSlips, view_modStaging, view_modStream]
  exact ⟨_, _, rfl⟩

theorem completePass_ok (c : StreamConfig) (p : PassInProgress) (h : (s.view i).Ok k)
    (hw : (s.view i).walking = true) : ((completePass i c p s).view i).Ok k := by
  have slow : (s.view i).state ≠ .draining ∨ (s.view i).aborted = false := by
    by_contra x
    simp only [not_or, not_not, Bool.not_eq_false] at x
    rw [(h.fast x.1 x.2).1] at hw
    cases hw
  unfold completePass
  dsimp only
  rw [view_noteEligible]
  generalize ht : State.modStream _ i _ = t
  have e : ∃ f, t.view i = { s.view i with forming := f, walking := false } := by
    rw [← ht, view_modStream, view_modStaging]
    exact ⟨_, rfl⟩
  obtain ⟨f, e⟩ := e
  have h1 : (t.view i).Ok k := by
    rw [e]
    exact h.passes slow
  have slow1 : (t.view i).state ≠ .draining ∨ (t.view i).aborted = false := by rw [e]; exact slow
  have drop : ∀ g : Staging → Staging, (∀ q, (g q).closed = q.closed) → ((t.modStaging i g).view i).Ok k := by
    intro g hg
    rw [view_modStaging, hg]
    exact h1.passes (walking := (t.view i).walking) slow1
  split
  · exact drop _ (fun _ => rfl)
  · rename_i hs
    split
    · have h2 := countPass_ok c h1 (Or.inl hs) (fun x => by
        have x : (t.streams[i]).state = .draining := x
        rw [hs] at x
        cases x)
      obtain ⟨a, g, e2⟩ := view_countPass (i := i) (s := t) c
      split
      · exact enterDraining_ok _ (by simp) h2 (by rw [e2]; exact hs)
      · exact h2
    · exact drop _ (fun _ => rfl)
  · rename_i hs
    have ha : (t.view i).aborted = false := by
      rcases slow1 with x | x
      · exact absurd hs x
      · exact x
    refine drainComplete_ok ?_
    split
    · obtain ⟨a, g, e2⟩ := view_countPass (i := i) (s := t) c
      exact drainEndMark_ok (countPass_ok c h1 (Or.inr hs) (fun _ => ha)) (by rw [e2]; exact hs) (by rw [e2]; exact ha)
    · refine drainEndMark_ok (drop _ (fun _ => rfl)) ?_ ?_ <;> rw [view_modStaging]
      · exact hs
      · exact ha
  all_goals exact h1

theorem takeReturn_ok (r : Return) (h : (s.view i).Ok k) : ((takeReturn i r s).view i).Ok k := by
  unfold takeReturn
  dsimp only
  split
  · rename_i c p _ hp
    have hw : (s.view i).walking = true := by
      show (s.streams[i]).pass.isSome = true
      rw [hp]
      rfl
    have slow : (s.view i).state ≠ .draining ∨ (s.view i).aborted = false := by
      by_contra x
      simp only [not_or, not_not, Bool.not_eq_false] at x
      rw [(h.fast x.1 x.2).1] at hw
      cases hw
    split
    · exact h
    · have go : ∀ t : State, (∃ f, t.view i = { s.view i with forming := f }) →
          ((if p.step + 1 < (s.stepsOf i).length then
            placeRequest i (t.modStream i (fun x => { x with pass := some { p with step := p.step + 1 } }))
          else completePass i c p t).view i).Ok k := by
        rintro t ⟨f, e⟩
        have h1 : (t.view i).Ok k := by
          rw [e]
          exact h.passes (walking := (s.view i).walking) slow
        split
        · rw [view_placeRequest, view_modStream]
          exact h1.passes (forming := (t.view i).forming) (by rw [e]; exact slow)
        · exact completePass_ok c p h1 (by rw [e]; exact hw)
      refine go _ ?_
      split
      · split
        · exact ⟨_, view_modStaging (i := i) (s := s) _⟩
        · exact ⟨_, view_modStaging (i := i) (s := s) _⟩
      · exact ⟨_, view_modStaging (i := i) (s := s) _⟩
  · exact h

/-! ### Aborts and block writes -/

theorem abortNow_ok (h : (s.view i).Ok k) (hs : (s.view i).state = .running ∨ (s.view i).state = .draining)
    (hw : (s.view i).writing = false) : ((abortNow i s).view i).Ok k := by
  unfold abortNow
  dsimp only
  have h1 : ((withdrawPass i (s.modStaging i (fun _ => Staging.empty))).view i).Ok k := by
    rw [view_emptied]
    exact h.emptied
  obtain ⟨b, n, e⟩ := view_completeCurrent (i := i) { aborted := true }
    (s := withdrawPass i (s.modStaging i (fun _ => Staging.empty)))
  refine endStream_ok _ (completeCurrent_ok _ h1 (by rw [view_emptied]; exact hw)) ?_ ?_ ?_ <;> rw [e, view_emptied]
  · show 1 ≤ (s.view i).state.recordsAhead
    rcases hs with x | x <;> rw [x] <;> decide
  · exact hw

theorem abortFast_ok (h : (s.view i).Ok k)
    (hs : (s.view i).state = .running ∨ (s.view i).state = .draining) : ((abortFast i s).view i).Ok k := by
  have hu := h.up_of_active (by rcases hs with x | x <;> rw [x] <;> rfl)
  have keep : ∀ q : Staging, q.keepWriting.forming = [] ∧ q.keepWriting.closed.length ≤ 1 ∧
      ∀ (b : Block) (rest : List Block), q.keepWriting.closed = b :: rest → q.closed.head? = some b ∧ rest = [] := by
    intro q
    unfold Staging.keepWriting
    split
    · rename_i b l e
      split
      · refine ⟨rfl, Nat.le_refl 1, fun c rest x => ?_⟩
        injection x with x y
        subst x y
        rw [e]
        exact ⟨rfl, rfl⟩
      · exact ⟨rfl, Nat.zero_le 1, fun c rest x => by cases x⟩
    · exact ⟨rfl, Nat.zero_le 1, fun c rest x => by cases x⟩
  have fresh : ∀ f : Descriptor → Descriptor, ∀ q : List Descriptor,
      (match q with | [] => [] | d :: rest => f d :: rest : List Descriptor).tail = q.tail := by
    intro f q
    cases q <;> rfl
  unfold abortFast
  dsimp only
  have hm : ∀ l : Nat, l = (if (s.streams[i]).state = .running then k + 1 else k) →
      (((modHead i (fun d => { d with timer := none, flushDue := false })
        (withdrawPass i (s.modStaging i Staging.keepWriting))).modStream i
        (fun x => { x with state := .draining, endReason := some .aborted })).view i).Ok l := by
    intro l hl
    rw [view_modStream, modHead, view_modBuffers, view_withdrawPass, view_modStaging]
    refine ⟨?_, fun d hd => ?_, fun b rest e => ?_, fun _ _ => Or.inr rfl, fun x => ?_, fun _ _ =>
      ⟨congrArg StreamView.walking (view_withdrawPass (i := i) (s := s.modStaging i Staging.keepWriting)), (keep _).1,
        (keep _).2.1⟩⟩
    · have := h.outbox
      have ahead : ({ s.view i with
          buffers := match s.buffers[i] with
            | [] => []
            | d :: rest => { d with timer := none, flushDue := false } :: rest } : StreamView).ahead ≤ (s.view i).ahead := by
        unfold StreamView.ahead
        have hb : (s.view i).buffers = s.buffers[i] := rfl
        rw [hb]
        cases s.buffers[i] with
        | nil => exact Nat.le_refl _
        | cons d rest =>
          by_cases hw : (s.view i).writing = true
          · simp [hw]
          · simp only [hw, List.head?_cons, Option.any_some, Descriptor.inUse]
            split
            · rename_i x
              have : 0 < d.blocks := by simpa using x
              simp [this]
            · exact Nat.zero_le _
      have hst : (s.view i).state = (s.streams[i]).state := rfl
      have : (s.view i).records + (s.view i).state.recordsAhead + ({ s.view i with
          buffers := match s.buffers[i] with
            | [] => []
            | d :: rest => { d with timer := none, flushDue := false } :: rest } : StreamView).ahead + k ≤ 6 := by omega
      show (s.view i).records + 1 + ({ s.view i with
          buffers := match s.buffers[i] with
            | [] => []
            | d :: rest => { d with timer := none, flushDue := false } :: rest } : StreamView).ahead + l ≤ 6
      rcases hs with x | x
      · rw [x, StreamState.recordsAhead] at this
        rw [hst] at x
        rw [hl, if_pos x]
        omega
      · rw [x, StreamState.recordsAhead] at this
        rw [hst] at x
        rw [hl, if_neg (by rw [x]; simp)]
        omega
    · exact h.fresh d (by have := fresh _ _ ▸ hd; exact this)
    · obtain ⟨x, y⟩ := (keep _).2.2 b rest e
      subst y
      refine ⟨?_, by simp⟩
      cases hc : (s.staging[i]).closed with
      | nil => rw [hc] at x; cases x
      | cons c l =>
        rw [hc] at x
        injection x with x
        subst x
        exact (h.head c l hc).1
    · have x : (s.view i).up = false := x
      rw [hu] at x
      cases x
  split
  · rename_i x
    exact streamRecord_ok _ (hm (k + 1) (by rw [if_pos x]))
  · rename_i x
    exact hm k (by rw [if_neg x])

theorem abortRun_ok (h : (s.view i).Ok k) (hs : (s.view i).state = .running ∨ (s.view i).state = .draining) :
    ((abortRun i s).view i).Ok k := by
  unfold abortRun
  split
  · exact h
  · split
    · exact abortFast_ok h hs
    · rename_i x
      exact abortNow_ok h hs (show s.writing i = false by simpa using x)

/-- The end of an arming after a successful write, which is no longer in flight. -/
theorem afterWriteSuccess_ok (h : (s.view i).Ok k) (hw : (s.view i).writing = false)
    (hc : (s.view i).state = .draining → (s.view i).aborted = true → (s.view i).closed = []) : ((afterWriteSuccess i s).view i).Ok k := by
  unfold afterWriteSuccess
  split
  · rename_i f
    obtain ⟨b, n, e⟩ := view_completeCurrent (i := i) (s := s) { aborted := true }
    refine endStream_ok _ (completeCurrent_ok _ h hw) ?_ ?_ ?_ <;> rw [e]
    · show 1 ≤ (s.streams[i]).state.recordsAhead
      simp only [StreamContext.fastDrain, Bool.and_eq_true, beq_iff_eq] at f
      rw [f.1]
      decide
    · simp only [StreamContext.fastDrain, Bool.and_eq_true, beq_iff_eq] at f
      exact hc f.1 (by show ((s.streams[i]).endReason == some .aborted) = true; rw [f.2]; rfl)
    · exact hw
  · exact drainComplete_ok h

/-- A failed write takes the place kept for its target's record, and FAULTED that of the stream's end. -/
theorem failStream_ok {w : BlockWrite} (hw : s.writeInFlight = some w) (hi : w.stream = i) (h : (s.view i).Ok k)
    (hs : (s.view i).state = .running ∨ (s.view i).state = .draining) :
    ((failStream i { s with writeInFlight := none }).view i).Ok k := by
  have hu := h.up_of_active (by rcases hs with x | x <;> rw [x] <;> rfl)
  have hv : (s.view i).writing = true := by simp [State.view, State.writing, hw, hi]
  have room : (s.view i).records + (s.view i).state.recordsAhead + 1 + k ≤ 6 := by
    have := h.outbox
    rwa [StreamView.ahead, if_pos (Or.inl hv)] at this
  unfold failStream
  dsimp only
  refine streamRecord_ok _ ?_
  rw [view_modStream]
  have e : (withdrawPass i (({ s with writeInFlight := none } : State).modStaging i (fun _ => Staging.empty))).view i
      = { s.view i with closed := [], forming := [], walking := false, writing := false } := view_emptied
  generalize withdrawPass i (({ s with writeInFlight := none } : State).modStaging i (fun _ => Staging.empty)) = t at e
  have done : ∃ b n, (completeBuffer i { fault := true } t).view i = { t.view i with buffers := b, records := n } ∧
      n ≤ (s.view i).records + 1 ∧ ∀ d ∈ b, d.inUse = false := by
    have hb : t.buffers[i] = (s.view i).buffers := congrArg StreamView.buffers e
    unfold completeBuffer
    cases hq : t.buffers[i] with
    | nil =>
      refine ⟨[], (t.view i).records, ?_, ?_, fun d hd => by cases hd⟩
      · simp only [State.view, hq]
      · rw [show (t.view i).records = (s.view i).records by rw [e]]
        omega
    | cons d rest =>
      dsimp only
      obtain ⟨n, e1, hn, _⟩ := view_joinOutbox (i := i) (s := t.modBuffers i (fun _ => rest))
        (d.doneRecord i { fault := true })
      rw [e1, view_modBuffers]
      refine ⟨rest, n, rfl, ?_, fun x hx => h.fresh x ?_⟩
      · rw [view_modBuffers, e] at hn
        exact hn
      · rw [← hb, hq]
        exact hx
  obtain ⟨b, n, e1, hn, hf⟩ := done
  rw [e1, e]
  refine ⟨?_, fun d hd => hf d (List.mem_of_mem_tail hd), fun c rest x => (by cases x), fun _ x => ?_, fun u => ?_,
    fun x => by cases x⟩
  · show n + 0 + (if false = true ∨ b.head?.any (·.inUse) = true then 1 else 0) + (k + 1) ≤ 6
    have one : 1 ≤ (s.view i).state.recordsAhead := by rcases hs with x | x <;> rw [x] <;> decide
    rw [if_neg]
    · omega
    · rintro (x | x)
      · cases x
      · cases b with
        | nil => cases x
        | cons d l => simp [hf d (by simp)] at x
  · rcases x with x | x
    · exact absurd rfl x
    · cases x
  · have u : (s.view i).up = false := u
    rw [hu] at u
    cases u

/-! ### Grants and ends of block writes -/

/-- The view of the write's stream when its write is no longer in flight. -/
theorem view_written : ({ s with writeInFlight := none } : State).view i = { s.view i with writing := false } := rfl

/-- The end of the write in flight, and what follows of its stream, keep the outboxes in order when they keep the view
of its stream so. -/
theorem outboxes_of_end {t : State} {w : BlockWrite} (hw : s.writeInFlight = some w)
    (h : StreamStep w.stream { s with writeInFlight := none } t) (o : s.OutboxesOrdered)
    (own : (s.view w.stream).Ok 0 → (s.view w.stream).writing = true → (t.view w.stream).Ok 0) : t.OutboxesOrdered := by
  obtain ⟨v, q⟩ := (outboxesOrdered_iff s).mp o
  refine (outboxesOrdered_iff t).mpr ⟨fun j => ?_, fun _ => ?_⟩
  · by_cases e : j = w.stream
    · subst e
      exact own (v _) (by simp [State.view, State.writing, hw])
    · rw [h.view e]
      have hf : (s.view j).writing = false := by
        simp only [State.view, State.writing, hw]
        exact beq_eq_false_iff_ne.mpr (fun x => e x.symm)
      have : ({ s with writeInFlight := none } : State).view j = s.view j := by
        rw [view_written, ← hf]
      rw [this]
      exact v j
  · obtain ⟨_, _, _, _, _, _, _, _, _, _, rfl⟩ := h.frame
    rfl

/-- A view whose first block begins its write, or that is of another stream. -/
theorem view_beginWrite {t : State} {w : BlockWrite} (j : StreamId) (h1 : t.streams = s.streams)
    (h2 : t.staging = (s.modStaging i Staging.startWrite).staging) (h3 : t.buffers = s.buffers)
    (h4 : t.outboxes = s.outboxes) (h5 : t.link = s.link) (h6 : t.writeInFlight = some w) (hi : w.stream = i) :
    t.view j = if j = i then { s.view j with closed := (s.staging[j]).startWrite.closed, writing := true }
      else { s.view j with writing := false } := by
  have form : (s.staging[j]).startWrite.forming = (s.staging[j]).forming := by
    unfold Staging.startWrite
    split <;> rfl
  unfold State.view State.writing State.linkUp
  rw [h1, h2, h3, h4, h5, h6]
  dsimp only
  split
  · rename_i e
    subst e
    have hg : ((s.modStaging j Staging.startWrite).staging[j]) = (s.staging[j]).startWrite := upd_same _ _ _
    rw [hg, form, hi, beq_self_eq_true]
  · rename_i e
    have hg : ((s.modStaging i Staging.startWrite).staging[j]) = s.staging[j] := upd_other _ _ e
    rw [hg, hi, beq_eq_false_iff_ne.mpr (fun x => e x.symm)]

/-- A grant takes the place of a stream with an empty outbox (R85, R97). -/
theorem grantWrite_outboxes (he : s.eligible i = true) (hn : s.writeInFlight = none) (o : s.OutboxesOrdered) :
    (grantWrite i s).OutboxesOrdered := by
  simp only [State.eligible, Bool.and_eq_true, List.isEmpty_iff] at he
  obtain ⟨⟨⟨hu, hr⟩, _⟩, ho⟩ := he
  obtain ⟨v, q⟩ := (outboxesOrdered_iff s).mp o
  have idle : ∀ j, (s.view j).writing = false := fun j => by simp [State.view, State.writing, hn]
  unfold grantWrite
  split
  · rename_i b d hb hd
    dsimp only
    refine (outboxesOrdered_iff _).mpr ⟨fun j => ?_, fun x => ?_⟩
    swap
    · have up : s.link.state = .up := by simpa [State.linkUp] using hu
      have x : s.link.state = .down ∨ s.link.state = .loading := x
      rw [up] at x
      rcases x with x | x <;> cases x
    · have h := v j
      rw [view_beginWrite (s := s) (i := i) j]
      rotate_left
      any_goals rfl
      split
      · rename_i e
        subst e
        obtain ⟨c, rest, hc⟩ : ∃ c rest, (s.staging[j]).closed = c :: rest := by
          unfold Staging.readyBlock at hb
          split at hb
          · cases hb
          · rename_i c rest e
            exact ⟨c, rest, e⟩
        have hs := h.isUp hu (Or.inl (by show (s.staging[j]).closed ≠ []; rw [hc]; simp))
        have hst : (s.staging[j]).startWrite.closed = { c with writing := true } :: rest := by
          unfold Staging.startWrite
          rw [hc]
        refine ⟨?_, h.fresh, fun x l e => ?_, fun _ _ => hs, fun u => ?_, fun x y => ?_⟩
        · have rec0 : (s.view j).records = 0 := by
            show (s.outboxes[j]).length = 0
            rw [ho]
            rfl
          have ra : (s.view j).state.recordsAhead ≤ 2 := by rcases hs with x | x <;> rw [x] <;> decide
          show (s.view j).records + (s.view j).state.recordsAhead + (if _ then 1 else 0) + 0 ≤ 6
          rw [rec0]
          split <;> omega
        · have e : (s.staging[j]).startWrite.closed = x :: l := e
          rw [hst] at e
          injection e with e1 e2
          subst e2
          exact ⟨fun _ => rfl, (h.head c rest hc).2⟩
        · exact absurd hu (by rw [show s.linkUp = false from u]; simp)
        · obtain ⟨a, b, c'⟩ := h.fast x y
          refine ⟨a, b, ?_⟩
          show (s.staging[j]).startWrite.closed.length ≤ 1
          have c' : (s.staging[j]).closed.length ≤ 1 := c'
          rw [hc] at c'
          rw [hst]
          exact c'
      · have e : ({ s.view j with writing := false } : StreamView) = s.view j := by rw [← idle j]
        rw [e]
        exact h
  · exact o

theorem chooseGrant_outboxes (o : s.OutboxesOrdered) : (chooseGrant s).OutboxesOrdered := by
  unfold chooseGrant
  split
  · exact o
  · rename_i hn
    split
    · rename_i i hi
      exact grantWrite_outboxes (List.find?_some hi) (by simpa using hn) o
    · exact o

theorem grantFirst_outboxes (o : s.OutboxesOrdered) : (grantFirst s).OutboxesOrdered := by
  unfold grantFirst
  split
  · exact o
  · rename_i hn
    split
    · rename_i i hi
      exact grantWrite_outboxes (List.find?_some hi) (by simpa using hn) o
    · exact chooseGrant_outboxes o

theorem view_recordBlock (w : BlockWrite) : (recordBlock w s).view w.stream = { s.view w.stream with
    closed := (s.view w.stream).closed.tail, writing := false,
    buffers := match (s.view w.stream).buffers with | [] => [] | d :: l => d.addBlock w :: l } := by
  unfold recordBlock modHead
  rw [view_modBuffers, view_modStream_same _ rfl rfl rfl, view_modStaging, view_written]
  rfl

/-- A block written with success leaves, and its target is in use. -/
theorem recordBlock_ok (w : BlockWrite) (h : (s.view w.stream).Ok k) (hv : (s.view w.stream).writing = true) :
    ((recordBlock w s).view w.stream).Ok k := by
  rw [view_recordBlock]
  have tail : ∀ q : List Descriptor, (match q with | [] => [] | d :: l => d.addBlock w :: l : List Descriptor).tail = q.tail :=
    fun q => by cases q <;> rfl
  refine ⟨?_, fun d hd => h.fresh d (by rw [← tail]; exact hd), fun b l x => ?_, fun u _ => h.isUp u (Or.inr hv),
    fun u => ?_, fun x y => ?_⟩
  · have := h.outbox
    rw [StreamView.ahead, if_pos (Or.inl hv)] at this
    refine Nat.le_trans ?_ this
    exact Nat.add_le_add_right (Nat.add_le_add_left (StreamView.ahead_le _) _) _
  · have x : (s.view w.stream).closed.tail = b :: l := x
    cases hc : (s.view w.stream).closed with
    | nil => rw [hc] at x; cases x
    | cons c m =>
      rw [hc] at x
      have x : m = b :: l := x
      subst x
      have f := (h.head c _ hc).2
      exact ⟨fun y => absurd y (by rw [f b (by simp)]; simp), fun z hz => f z (by simp [hz])⟩
  · obtain ⟨a, b, c⟩ := h.notUp u
    refine ⟨a, b, Or.inl ?_⟩
    show (s.view w.stream).closed.tail = []
    rcases c with c | ⟨c, _⟩
    · rw [c]; rfl
    · exact List.eq_nil_of_length_eq_zero (by rw [List.length_tail, c])
  · obtain ⟨a, b, c⟩ := h.fast x y
    refine ⟨a, b, ?_⟩
    show (s.view w.stream).closed.tail.length ≤ 1
    rw [List.length_tail]
    omega

theorem roomTest_ok (h : (s.view i).Ok k) (hw : (s.view i).writing = false)
    (hd : s.buffers[i] = [] ∨ (s.view i).buffers.head?.any (·.inUse) = true) : ((roomTest i s).view i).Ok k ∧
    (∃ b n, (roomTest i s).view i = { s.view i with buffers := b, records := n }) ∧
    (((roomTest i s).buffers[i]).length = (s.buffers[i]).length → roomTest i s = s) := by
  have shorter : ∀ flags d l, s.buffers[i] = d :: l →
      ((completeBuffer i flags s).buffers[i]).length = (s.buffers[i]).length → False := by
    intro flags d l e x
    rw [e] at x
    have y := (joinOutbox_frame i (d.doneRecord i flags) (s.modBuffers i (fun _ => l)))
    unfold completeBuffer at x
    rw [e] at x
    dsimp only at x
    obtain ⟨_, _, _, y⟩ := y
    rw [y] at x
    have z : ((s.modBuffers i (fun _ => l)).buffers[i]) = l := upd_same _ _ _
    rw [show ∀ (o : Vector (List OutboxEntry) 8) (R : Vector (Option Ring) 4) (B : List BusItem),
      (({ s.modBuffers i (fun _ => l) with outboxes := o, rings := R, bus := B } : State).buffers[i]) = l
      from fun _ _ _ => z] at x
    simp at x
  unfold roomTest
  split
  · exact ⟨h, ⟨_, _, rfl⟩, fun _ => rfl⟩
  · rename_i d l e
    have use : (s.view i).buffers.head?.any (·.inUse) = true := by
      rcases hd with x | x
      · rw [x] at e; cases e
      · exact x
    split
    · exact ⟨completeBuffer_ok _ h hw use, view_completeBuffer _, fun x => (shorter _ _ _ e x).elim⟩
    · split
      · exact ⟨completeBuffer_ok _ h hw use, view_completeBuffer _, fun x => (shorter _ _ _ e x).elim⟩
      · exact ⟨h, ⟨_, _, rfl⟩, fun _ => rfl⟩

/-- The flush timer starts in a buffer that is in use already. -/
theorem startFlushTimer_ok (first : Bool) (depth : Nat) (h : (s.view i).Ok k)
    (use : (s.buffers[i]).length = depth → s.buffers[i] = [] ∨ (s.view i).buffers.head?.any (·.inUse) = true) :
    ((startFlushTimer i first depth s).view i).Ok k ∧
    ∃ b, (startFlushTimer i first depth s).view i = { s.view i with buffers := b } := by
  unfold startFlushTimer
  split
  · exact ⟨h, _, rfl⟩
  · rename_i c _
    split
    · rename_i hc
      simp only [Bool.and_eq_true, decide_eq_true_eq] at hc
      have u := use hc.1.2
      rw [modHead, view_modBuffers]
      refine ⟨?_, _, rfl⟩
      refine ⟨?_, fun d hd => h.fresh d ?_, h.head, h.isUp, h.notUp, h.fast⟩
      · have out := h.outbox
        refine Nat.le_trans (Nat.add_le_add_right (Nat.add_le_add_left ?_ _) _) out
        rcases u with u | u
        · rw [u]
          have : (s.view i).buffers = [] := u
          rw [StreamView.ahead, StreamView.ahead, this]
        · rw [show (s.view i).ahead = 1 by rw [StreamView.ahead, if_pos (Or.inr u)]]
          exact StreamView.ahead_le _
      · have hb : (s.view i).buffers = s.buffers[i] := rfl
        rw [hb]
        cases e : s.buffers[i] with
        | nil => rw [e] at hd; exact hd
        | cons x l => rw [e] at hd; exact hd
    · exact ⟨h, _, rfl⟩

theorem succeedWrite_outboxes {w : BlockWrite} (hw : s.writeInFlight = some w) (o : s.OutboxesOrdered) :
    (succeedWrite w s).OutboxesOrdered := by
  unfold succeedWrite
  refine chooseGrant_outboxes (outboxes_of_end hw ?_ o (fun h hv => ?_))
  · unfold recordBlock
    exact (((((modStaging_step _ _ _).trans (modStream_step _ _ _ rfl rfl)).trans (modHead_step _ _ _)).trans
      (roomTest_step _ _)).trans (startFlushTimer_step _ _ _ _)).trans (afterWriteSuccess_step _ _)
  · have e := view_recordBlock (s := s) w
    have h1 := recordBlock_ok w h hv
    generalize recordBlock w s = r at e h1 ⊢
    have hr : (r.view w.stream).writing = false := by rw [e]
    have use : r.buffers[w.stream] = [] ∨ (r.view w.stream).buffers.head?.any (·.inUse) = true := by
      have hb : (r.view w.stream).buffers = r.buffers[w.stream] := rfl
      rw [← hb, e]
      dsimp only
      cases (s.view w.stream).buffers with
      | nil => exact Or.inl rfl
      | cons d l => exact Or.inr (by simp [Descriptor.inUse, Descriptor.addBlock])
    have len : (r.buffers[w.stream]).length = (s.buffers[w.stream]).length := by
      have hb : (r.view w.stream).buffers = r.buffers[w.stream] := rfl
      have hb' : (s.view w.stream).buffers = s.buffers[w.stream] := rfl
      rw [← hb, ← hb', e]
      dsimp only
      cases (s.view w.stream).buffers <;> rfl
    obtain ⟨h2, ⟨b2, n2, e2⟩, same⟩ := roomTest_ok h1 hr use
    have h3 := startFlushTimer_ok (s.firstBlock w.stream) (s.buffers[w.stream]).length h2
      (fun x => by rw [same (x.trans len.symm)]; exact use)
    obtain ⟨h3, b3, e3⟩ := h3
    refine afterWriteSuccess_ok h3 (by rw [e3, e2]; exact hr) (fun f g => ?_)
    rw [e3, e2, e] at f g
    rw [e3, e2, e]
    have := (h.fast f g).2.2
    exact List.eq_nil_of_length_eq_zero (by
      show ((s.view w.stream).closed.tail).length = 0
      rw [List.length_tail]
      omega)

/-- The end of a write after a teardown began leaves nothing staged (R98). -/
theorem discardWrite_ok {w : BlockWrite} (hu : s.linkUp = false) (h : (s.view w.stream).Ok k) :
    ((discardWrite w s).view w.stream).Ok k := by
  unfold discardWrite
  rw [view_modStaging, view_written]
  obtain ⟨a, b, c⟩ := h.notUp hu
  have nil : (s.staging[w.stream]).dropHead.closed = [] := by
    rcases c with c | ⟨c, _⟩
    · exact congrArg List.tail c
    · exact List.eq_nil_of_length_eq_zero (by
        have : (s.staging[w.stream]).closed.length = 1 := c
        rw [Staging.dropHead, List.length_tail, this])
  refine ⟨?_, h.fresh, fun x rest e => ?_, fun u => ?_, fun _ => ⟨a, b, Or.inl nil⟩, fun x _ => ?_⟩
  · have := h.outbox
    refine Nat.le_trans ?_ this
    refine Nat.add_le_add_right (Nat.add_le_add_left ?_ _) _
    unfold StreamView.ahead
    split
    · rename_i x
      rw [if_pos (by rcases x with x | x; cases x; exact Or.inr x)]
    · exact Nat.zero_le _
  · have : (s.staging[w.stream]).dropHead.closed = x :: rest := e
    rw [nil] at this
    cases this
  · have : s.linkUp = true := u
    rw [hu] at this
    cases this
  · have : (s.view w.stream).state = .draining := x
    rw [this] at a
    cases a

theorem endWrite_outboxes (o : s.OutboxesOrdered) : (endWrite s).OutboxesOrdered := by
  unfold endWrite
  split
  · exact o
  · rename_i w hw
    split
    · exact o
    · split
      · exact succeedWrite_outboxes hw o
      · rename_i hu
        refine outboxes_of_end hw (modStaging_step _ _ _) o (fun h hv => ?_)
        exact discardWrite_ok (by simpa using hu) h

theorem failWrite_outboxes (o : s.OutboxesOrdered) : (failWrite s).OutboxesOrdered := by
  unfold failWrite
  split
  · exact o
  · rename_i w hw
    split
    · rename_i hu
      refine chooseGrant_outboxes (outboxes_of_end hw (failStream_step _ _) o (fun h hv => ?_))
      exact failStream_ok hw rfl h (h.isUp hu (Or.inr hv))
    · rename_i hu
      exact outboxes_of_end hw (modStaging_step _ _ _) o (fun h _ => discardWrite_ok (by simpa using hu) h)

end Sys2Proof.Machine
end

