-- ==== Sys2Proof/Laws/RecordSteps.lean ====
section
/-!
SUPPORT. Laws/RecordSteps.lean: which record a transition of the Stream Controller joins to the outbox. A record that joins
depends on the stream's ring, the rings and the outboxes alone, so the transitions reduce to it one by one.
-/

namespace Sys2Proof.Machine

variable {i : StreamId} {s t : State}

/-- A change of what no record depends on: the streams, the staging queues, the buffers, the converters, the list of the
streams that became eligible. -/
def State.aside (s : State) (st : Vector StreamContext 8) (sg : Vector Staging 8) (bf : Vector (List Descriptor) 8)
    (cv : Vector Converter 4) (be : List StreamId) : State :=
  { s with streams := st, staging := sg, buffers := bf, converters := cv, becameEligible := be }

variable (st : Vector StreamContext 8) (sg : Vector Staging 8) (bf : Vector (List Descriptor) 8) (cv : Vector Converter 4)
  (be : List StreamId)

theorem examineMessage_aside (n : RingId) (s : State) :
    examineMessage n (s.aside st sg bf cv be) = (examineMessage n s).aside st sg bf cv be := by
  unfold examineMessage
  rw [show (s.aside st sg bf cv be).rings = s.rings from rfl]
  split
  · rfl
  · split
    · unfold issueMessage
      rw [show (s.aside st sg bf cv be).linkUp = s.linkUp from rfl, show (s.aside st sg bf cv be).elapsed = s.elapsed from rfl]
      split <;> rfl
    · rfl

/-- A record is placed whatever stands aside. -/
theorem place_aside (n : RingId) (r : Record) (s : State) :
    place n r (s.aside st sg bf cv be) = (place n r s).map (fun t => t.aside st sg bf cv be) := by
  unfold place
  rw [show (s.aside st sg bf cv be).rings = s.rings from rfl]
  split
  · rfl
  · split
    · rename_i q _ _
      exact congrArg some (examineMessage_aside st sg bf cv be n
        ((s.emit (.write q.slotAddress (r.bytes q.phase))).setRing n (q.afterWrite s.elapsed)))
    · split <;> rfl

/-- A record joins an outbox whatever stands aside, as long as the stream's configuration is the same. -/
theorem joinOutbox_aside (r : Record) (s : State) (hc : (st[i]).config = (s.streams[i]).config) :
    joinOutbox i r (s.aside st sg bf cv be) = (joinOutbox i r s).aside st sg bf cv be := by
  unfold joinOutbox
  rw [show ((s.aside st sg bf cv be).streams[i]).config = (s.streams[i]).config from hc,
    show (s.aside st sg bf cv be).linkUp = s.linkUp from rfl, show (s.aside st sg bf cv be).outboxes = s.outboxes from rfl]
  cases (s.streams[i]).config with
  | none => rfl
  | some c =>
    dsimp only
    by_cases hu : (!s.linkUp) = true
    · rw [if_pos hu, if_pos hu]
    · rw [if_neg hu, if_neg hu]
      by_cases ho : s.outboxes[i] = []
      · rw [if_pos ho, if_pos ho, place_aside]
        cases place c.ring r s <;> rfl
      · rw [if_neg ho, if_neg ho]
        rfl

/-! ### Changes that stand aside -/

/-- A change of what no record of stream `i` depends on. -/
structure Aside (i : StreamId) (s u : State) : Prop where
  eq : u = s.aside u.streams u.staging u.buffers u.converters u.becameEligible
  config : (u.streams[i]).config = (s.streams[i]).config

theorem Aside.refl : Aside i s s := ⟨rfl, rfl⟩

theorem Aside.trans {u : State} (h : Aside i s t) (k : Aside i t u) : Aside i s u :=
  ⟨by have e := k.eq; rw [h.eq] at e; exact e, k.config.trans h.config⟩

/-- A record joins the same outbox on both sides of a change that stands aside. -/
theorem Aside.join {u : State} (h : Aside i s u) (r : Record) : Aside i (joinOutbox i r s) (joinOutbox i r u) := by
  have j := joinOutbox_aside u.streams u.staging u.buffers u.converters u.becameEligible r s h.config
  rw [← h.eq] at j
  obtain ⟨R, B, O, f⟩ := joinOutbox_frame i r s
  constructor
  · rw [j]
    rfl
  · rw [j, f]
    exact h.config

theorem modStream_aside (f : StreamContext → StreamContext) (hc : (f s.streams[i]).config = (s.streams[i]).config) :
    Aside i s (s.modStream i f) :=
  ⟨rfl, by rw [← hc]; exact congrArg StreamContext.config (upd_same _ i f)⟩

theorem modStaging_aside (f : Staging → Staging) : Aside i s (s.modStaging i f) := ⟨rfl, rfl⟩

theorem modBuffers_aside (f : List Descriptor → List Descriptor) : Aside i s (s.modBuffers i f) := ⟨rfl, rfl⟩

theorem withdrawPass_aside : Aside i s (withdrawPass i s) :=
  Aside.trans (t := { s with converters := mapAll s.converters (fun c => c.withdraw i) }) ⟨rfl, rfl⟩
    (modStream_aside (fun x => { x with pass := none }) rfl)

theorem noteEligible_aside (u : State) : Aside i u (noteEligible i s u) := by
  rw [noteEligible_eq]
  exact ⟨rfl, rfl⟩

theorem clearSlips_aside (closes : Bool) : Aside i s (clearSlips i closes s) := by
  unfold clearSlips
  split
  · exact modStream_aside _ rfl
  · exact Aside.refl

theorem drainEndMark_aside : Aside i s (drainEndMark i s) := (modStaging_aside _).trans (clearSlips_aside _)

/-! ### The record of a transition -/

/-- The end of an arming joins ENDED (R2). -/
theorem endStream_joins (reason : EndReason) :
    Aside i (streamRecord i (.ended reason (s.streams[i]).begun (s.streams[i]).nextSequence) s) (endStream i reason s) :=
  (modStream_aside (fun x => { x with state := .idle, endReason := some reason }) rfl).join _

/-- The completion of the head descriptor joins its BUFFER_DONE record (R93). -/
theorem completeBuffer_joins {d : Descriptor} {rest : List Descriptor} (hd : s.buffers[i] = d :: rest)
    (flags : BufferFlags) : Aside i (joinOutbox i (d.doneRecord i flags) s) (completeBuffer i flags s) := by
  unfold completeBuffer
  rw [hd]
  exact (modBuffers_aside _).join _

end Sys2Proof.Machine
end

