-- ==== Sys2Proof/Tests/Slice0.lean ====
section
/-!
SUPPORT. Tests/Slice0.lean: small tests. The well-formedness check, order slots written out from Tables 12-4 and 12-5,
single steps with values from the spec, and for each statement of Certificates/Slice0/Obligations.lean that has hypotheses
a state and operands that meet them, clause by clause.
-/

namespace Sys2Proof.Tests

open Sys2Proof Sys2Proof.Machine

/-! ### The well-formedness check -/

theorem test_known_kind_is_not_unknown : (Instr.unknownKind ⟨false, 0⟩ 0x0010).wellFormed = false := by decide

theorem test_kind_that_names_no_order_is_unknown : (Instr.unknownKind ⟨false, 0⟩ 0x0003).wellFormed = true := by decide

/-! ### Order slots, byte by byte from Tables 12-4 and 12-5 -/

/-- A slot of 64 bytes from its first bytes; the others are 0. -/
def slot (bytes : List Byte) : List Byte := bytes ++ List.replicate (64 - bytes.length) 0

/-- NOP with SILENT, tag 0x04030201. -/
theorem test_slot_nop :
    decodeOrder (slot [0x01, 0x00, 0x01, 0x00, 0x01, 0x02, 0x03, 0x04]) = some (.nop ⟨true, 0x04030201⟩) := by decide

/-- SET CHANNEL: kind 0x0010, channel at 0x08, range at 0x09, settle at 0x0A. -/
theorem test_slot_set_channel :
    decodeOrder (slot [0x10, 0, 0, 0, 5, 0, 0, 0, 31, 3, 15]) = some (.setChannel ⟨false, 5⟩ 31 3 15) := by decide

/-- RUN PACE: kind 0x0021, generator at 0x08. -/
theorem test_slot_run_pace :
    decodeOrder (slot [0x21, 0, 0, 0, 0, 0, 0, 0, 3]) = some (.runPace ⟨false, 0⟩ 3) := by decide

/-- ARM STREAM: kind 0x0031, stream at 0x08. -/
theorem test_slot_arm_stream :
    decodeOrder (slot [0x31, 0, 0, 0, 0, 0, 0, 0, 7]) = some (.armStream ⟨false, 0⟩ 7) := by decide

/-- SET WINDOW: kind 0x0042, base at 0x10, mask at 0x18, least significant byte first. -/
theorem test_slot_set_window :
    decodeOrder (slot [0x42, 0, 0, 0, 0, 0, 0, 0, 2, 1, 1, 0, 0, 0, 0, 0, 0, 0, 0, 0, 1, 0, 0, 0, 0, 0, 0, 0, 0xFF]) =
      some (.setWindow ⟨false, 0⟩ 2 1 1 0x0000000100000000 0x000000FF00000000) := by decide

/-- CLEAR WATCH: kind 0x0051, watch at 0x08. -/
theorem test_slot_clear_watch :
    decodeOrder (slot [0x51, 0, 0, 0, 0, 0, 0, 0, 15]) = some (.clearWatch ⟨false, 0⟩ 15) := by decide

/-- ARM SYNC: kind 0x0061, preset at 0x08, timeout at 0x10. -/
theorem test_slot_arm_sync :
    decodeOrder (slot [0x61, 0, 0, 0, 0, 0, 0, 0, 1, 0, 0, 0, 0, 0, 0, 0x80, 0x60, 0xEA]) =
      some (.armSync ⟨false, 0⟩ 0x8000000000000001 60000) := by decide

/-- A kind that Table 12-5 does not name. -/
theorem test_slot_unknown : decodeOrder (slot [0x03]) = some (.unknownKind ⟨false, 0⟩ 3) := by decide

/-! ### States -/

/-- A ring of 16 slots with nothing written. -/
def ring : Ring := ⟨0x2000, 16, 64, 0, 0, 0, [], true, 0, .stopped⟩

/-- The record of a NOP. -/
def record : Record := .orderDone 0 1 .done 0 0

/-- The same ring with every slot written and every place of its pending list taken but `n`. -/
def fullRing (n : Nat) : Ring := { ring with written := 16, count := 16, waiting := List.replicate (16 - n) record }

/-- The link is UP, all rings are enabled, the next sample can find SYNC changed, and nothing else has happened. -/
def up : State :=
  { State.reset with
    link := ⟨.up, true, false, 0x1000, .none, 0, none⟩
    orders := ⟨some ⟨0x10000, 16⟩, 0, 1, .idle, false⟩
    rings := Vector.replicate 4 (some ring)
    syncNext := 0 }

/-- The read of the slot at the head is in flight. -/
def ready : State := { up with orders := ⟨some ⟨0x10000, 16⟩, 0, 1, .fetching 0, false⟩ }

/-- What it takes to take an order. -/
theorem takes {s : State} (up : s.linkUp = true) (work : s.orders.work = .fetching 0) (time : s.inTime 0 = true) :
    s.takesOrder := ⟨up, 0, work, time⟩

/-- A state with the link no longer UP. -/
def stopping (s : State) : State := { s with link := { s.link with state := .stopping } }

/-- No ring enabled. -/
def noRings (s : State) : State := { s with rings := Vector.replicate 4 none }

/-- A configuration: one pass to a block, a history of two passes, an external start. -/
def config : StreamConfig := ⟨0, 0, 0, 1, 2, .external, .none, .mark, .mark, 0⟩

/-- Stream 0 with a state and configuration on two pages, over a list of two steps. -/
def withStream (x : StreamState) (c : StreamConfig) (s : State) : State :=
  { s with
    streams := upd s.streams 0 (fun y => { y with state := x, config := some c, pagesHeld := 2 })
    freePages := 62
    scanLists := upd s.scanLists 0 (fun _ => [⟨0, 1⟩, ⟨1, 2⟩]) }

/-- Stream 0 with a pass in progress at a step. -/
def withPass (step : Nat) (s : State) : State :=
  { s with
    streams := upd s.streams 0 (fun y => { y with pass := some ⟨0, step⟩ })
    staging := upd s.staging 0 (fun _ => ⟨[], [⟨0, none, 0, false, [none, none], 0, 0⟩]⟩)
    nextPassId := 1 }

/-- A record of one complete pass of two steps. -/
def passRecord : PassRecord := ⟨9, none, 0, true, [some ⟨1, false⟩, some ⟨2, false⟩], 0, 0⟩

/-- A block of one pass. -/
def block (writing : Bool) : Block := ⟨[passRecord], 0, false, false, writing⟩

/-- A buffer of 4096 bytes. -/
def buffer : Descriptor := ⟨0x100000, 4096, 7, 0, 0, 0, 0, none, false⟩

/-- Stream 0 with a closed block and a buffer. -/
def withBlock (writing : Bool) (s : State) : State :=
  { s with
    staging := upd s.staging 0 (fun _ => ⟨[block writing], []⟩), buffers := upd s.buffers 0 (fun _ => [buffer]) }

/-- A block write of stream 0 is in flight. -/
def withWrite (s : State) : State := { s with writeInFlight := some ⟨0, 0x100000, 7, 40, 0, 0⟩ }

/-- Generator 0 is changed. -/
def withGenerator (f : Generator → Generator) (s : State) : State := { s with generators := upd s.generators 0 f }

/-- Watch 0 enabled on CH0 with limits −100 and 100, and more changed. -/
def withWatch (f : Watch → Watch) (s : State) : State :=
  { s with watches := upd s.watches 0 (fun w => f { w with enabled := true, low := BitVec.ofInt 16 (-100), high := 100 }) }

/-- Window 0 covers every address. -/
def withWindow (use : WindowUse) (s : State) : State := { s with windows := upd s.windows 0 (fun _ => ⟨true, 0, 0, use⟩) }

/-- A timebase with a role, an arm and a fire. -/
def tb (role : Role) (arm : Option SyncArm) (fire : Fire) (s : State) : State :=
  { s with timebase := ⟨5, role, arm, fire, none, false⟩ }

/-! ### Single steps, with values that the spec gives -/

/-- R38, Table 2-2: 10 V on range 0 gives the limited code 32767 with CLIP; half of full scale gives 16384. -/
theorem test_full_scale_is_limited : convert ⟨10, 0⟩ 0 = (32767, true) ∧ convert ⟨5, 0⟩ 0 = (16384, false) := by decide

/-- R38: midway between two codes the one nearer to zero is taken: 3/2 of a code of range 3 gives 1, −3/2 gives −1. -/
theorem test_midway_goes_toward_zero :
    convert ⟨3, 65535⟩ 3 = (1, false) ∧ convert ⟨-3, 65535⟩ 3 = (-1, false) := by decide

/-- R47: the mean drops its fraction toward zero: −1 and 0 give 0. -/
theorem test_mean_drops_fraction :
    (formSample 2 3 #v[⟨-1, 32767⟩, ⟨0, 0⟩, ⟨0, 0⟩, ⟨0, 0⟩, ⟨0, 0⟩, ⟨0, 0⟩, ⟨0, 0⟩, ⟨0, 0⟩]).code = 0 := by decide

/-- R46, section 3.2: a settle of (1 + n) µs and conversions of 2 µs each, 50 periods to the microsecond. -/
theorem test_step_periods : stepPeriods true 3 4 = 600 ∧ stepPeriods false 3 4 = 400 := by decide

/-- R79: an address matches a window in the bits of its mask. -/
theorem test_window_covers :
    (⟨true, 0x10000, 0xFFFFFFFFFFFF0000, .both⟩ : Window).covers 0x1FFFF = true ∧
      (⟨true, 0x10000, 0xFFFFFFFFFFFF0000, .both⟩ : Window).covers 0x20000 = false := by decide

/-- R142: an ORDER TAIL write at the ring's size is BAD TAIL. -/
theorem test_bad_tail : (writeTail 16 up).link.cause = .badTail ∧ (writeTail 15 up).link.cause = .none := by decide

/-- R170: a teardown forgets the geometry of the Order Ring. -/
theorem test_teardown_forgets_geometry : up.orders.geometry ≠ none ∧ (teardown up).orders.geometry = none := by decide

/-- R156: on a ring with nothing written a head write may return no slot. -/
theorem test_bad_head : (writeHead 0 1 up).link.cause = .badHead ∧ (writeHead 0 0 up).link.cause = .none := by decide

/-- R39: an accepted SET CHANNEL writes the entry. -/
theorem test_set_channel :
    (match exec (.setChannel ⟨true, 0⟩ 9 2 3) ready with
      | .next t => decide (t.channels[9] = ⟨2, 3⟩)
      | _ => false) = true := by decide

/-- R6: an ARM STREAM with start EXTERNAL leaves the stream ARMED. -/
theorem test_arm_stream :
    (match exec (.armStream ⟨true, 0⟩ 0) (withStream .idle config ready) with
      | .next t => decide ((t.streams[0]).state = .armed)
      | _ => false) = true := by decide

/-- R102, R104: the first tick of a burst of one ends it. -/
theorem test_burst_of_one :
    (match exec (.tick 0 []) (withGenerator (fun g => { g with state := .running, mode := .burst, divideCount := 49 }) up) with
      | .next t => decide ((t.generators[0]).state = .done ∧ (t.generators[0]).ticks = 1)
      | _ => false) = true := by decide

/-- R102: a generator on a trigger line ticks at its edges, so a tick command changes nothing (notes/assumptions/7.md). -/
theorem test_tick_of_a_line_source :
    completeTick 0 [] (withGenerator (fun g => { g with state := .running, source := .trig 0 }) up)
      = (withGenerator (fun g => { g with state := .running, source := .trig 0 }) up) := by decide

/-- R110: a sample that finds an ACTIVE line ACTIVE is no edge: the second of two counts nothing. -/
theorem test_second_edge_of_an_active_line :
    (match exec (.trigEdge 0 [] []) (withGenerator (fun g => { g with state := .running, source := .trig 0 }) up) with
      | .next t => decide ((t.generators[0]).divideCount = 1 ∧ takeLineEdge 0 [] [] t = t)
      | _ => false) = true := by decide

/-- R121: with persistence 1 the first sample above the high limit enters ABOVE; a sample at the limit is in band. -/
theorem test_watch_enters_above :
    ((judge 0 ⟨0, 0, ⟨101, false⟩, 0, none⟩ (withWatch id up)).watches[0]).state = .above ∧
      ((judge 0 ⟨0, 0, ⟨100, false⟩, 0, none⟩ (withWatch id up)).watches[0]).state = .inside := by decide

/-- R134: an armed follower loads its preset at the edge. -/
theorem test_sync_load :
    (match exec (.syncFallingEdge []) { up with timebase := ⟨5, .follower, some ⟨1000, 0, none⟩, .absent, none, false⟩ } with
      | .next t => decide (t.timebase.count = 1000 ∧ t.timebase.arm = none)
      | _ => false) = true := by decide

/-- R114: a SYNC line that is low cannot fall. -/
theorem test_no_edge_of_a_low_sync :
    handSyncEdge [] { up with syncHigh := false } = { up with syncHigh := false } := by decide

/-- R137: a stream that starts at the count of the sample is triggered although the load goes past or below it. -/
theorem test_time_met_at_the_load :
    (match exec (.syncFallingEdge []) { withStream .armed { config with start := .time 5 } up with
        timebase := ⟨5, .follower, some ⟨0, 0, none⟩, .absent, none, false⟩ } with
      | .next t => decide ((t.streams[0]).trigger = some ⟨5, .time⟩ ∧ t.timebase.count = 0)
      | _ => false) = true := by decide

/-- R174: a reply more than 50 ms after the read was issued is discarded. -/
theorem test_late_reply :
    (match exec (.nop ⟨true, 0⟩) { ready with elapsed := 2500001 } with
      | .next t => decide (t = { ready with elapsed := 2500001 })
      | _ => false) = true := by decide

/-- R86: the stream that became eligible first is granted first, whatever the grant pointer. -/
theorem test_first_eligible_is_granted :
    (grantFirst { withBlock false (withStream .running config up) with
      staging := Vector.replicate 8 ⟨[block false], []⟩, buffers := Vector.replicate 8 [buffer],
      becameEligible := [3, 0] }).grantPointer = 3 := by decide

/-- R167: three bytes of LINK STATUS from offset 5: bits 8 to 31. -/
theorem test_three_byte_read :
    (readWindow { State.reset with link := ⟨.fault, true, false, 0, .badHead, 0x0203, none⟩ } 0x005 .three) = 0x020300 := by
  decide

/-- R171: format 1 is the only one. -/
theorem test_control_block_format :
    checkControlBlock ⟨2, 0, 16, Vector.replicate 4 ⟨0, 16, 0, 1, true⟩⟩ = some 1 ∧
      checkControlBlock ⟨1, 0, 16, Vector.replicate 4 ⟨0, 16, 0, 1, true⟩⟩ = none := by decide

/-! ### What meets the hypotheses of the statements -/

theorem test_ready_takes_orders : ready.takesOrder := takes rfl rfl rfl

theorem test_IdlePeriodCounts_met :
    State.reset.pending = [] ∧ dueEvents State.reset = [] ∧ State.reset.syncHigh = true ∧
      (∃ g : Generator, g.prescaleCount + 1 < g.prescale ∧ g.divideCount < g.divide ∧ g.owed = 0) ∧
      (∃ g : Generator, g.prescaleCount + 1 = g.prescale ∧ g.divideCount + 1 < g.divide ∧ g.owed = 0) ∧
      (∃ g : Generator, g.prescaleCount + 1 = g.prescale ∧ g.divideCount + 1 = g.divide ∧ g.owed = 0) :=
  ⟨rfl, rfl, rfl, ⟨{ Generator.reset with prescale := 2 }, by decide⟩, ⟨Generator.reset, by decide⟩,
    ⟨{ Generator.reset with divideCount := 49 }, by decide⟩⟩

theorem test_DueEventsAreQueued_met :
    State.reset.pending = [] ∧ dueEvents { up with returns := Vector.replicate 8 [⟨0, 0, ⟨1, false⟩, 0⟩] } ≠ [] ∧
      ready.orders.work = .fetching 0 :=
  ⟨rfl, by decide, rfl⟩

theorem test_OrderFetchEnds_met :
    (Instr.nop ⟨false, 0⟩).kindCode = some 1 ∧ (Instr.nop ⟨false, 0⟩).wellFormed = true ∧
      up.orders.work.isFetching = false ∧ (stopping ready).orders.work = .fetching 0 ∧
      (stopping ready).linkUp = false ∧ ready.orders.work.isFetching = true ∧ ready.linkUp = true ∧
      0 + 2500000 < { ready with elapsed := 2500001 }.elapsed ∧
      { stopping ready with elapsed := 2500000 }.elapsed ≤ 0 + 2500000 := by decide

theorem test_OrderIsAnswered_met :
    (accept (ready.taking 1 ⟨true, 0⟩)).state = ready.taking 1 ⟨true, 0⟩ ∧
      ready.answered 1 ⟨true, 0⟩ accept = finishOrder (ready.inHand 1 ⟨true, 0⟩) (accept (ready.taking 1 ⟨true, 0⟩)) ∧
      (accept (ready.taking 1 ⟨true, 0⟩)).returned = [] ∧ (accept (ready.taking 1 ⟨true, 0⟩)).status = .done ∧
      (refuse (ready.taking 1 ⟨true, 0⟩) .badField 0).status ≠ .done ∧
      (place 0 record (ready.taking 1 ⟨false, 0⟩)).isSome = true ∧
      (place 0 record (State.taking { ready with rings := upd ready.rings 0 (fun _ => some (fullRing 0)) } 1
        ⟨false, 0⟩)).isSome = false :=
  ⟨rfl, rfl, by decide⟩

/-- Two RETURNED records for a ring with one place left: the first is placed, and the Order Unit waits with the second. -/
theorem test_OrderIsAnswered_waits_met :
    (∃ t, [(⟨0, record⟩ : OutboxEntry)].foldl (fun u r => u.bind (place r.ring r.record))
        (some { up with rings := upd up.rings 0 (fun _ => some (fullRing 1)) }) = some t ∧
      (place 0 record t).isSome = false) ∧ (place 0 record up).isSome = true := by
  exact ⟨⟨{ up with rings := upd up.rings 0 (fun _ => some (fullRing 0)) }, by decide⟩, by decide⟩

theorem test_RecordPlacement_met :
    up.rings[0] = some ring ∧ ring.waiting = [] ∧ 0 < ring.free ∧ ring.count + 1 < ring.threshold ∧
      { ring with armed := false }.armed = false ∧ { ring with threshold := 1 }.threshold ≤ ring.count + 1 ∧
      (fullRing 16).waiting = [] ∧ (fullRing 16).free = 0 ∧ (fullRing 1).waiting.length = 15 ∧
      (fullRing 0).waiting.length = 16 := by decide

theorem test_NopAndUnknownKind_met : ready.takesOrder ∧ (3 : Half) ∉ knownKinds := ⟨takes rfl rfl rfl, by decide⟩

theorem test_ReadStatusAndItsEnd_met :
    ready.takesOrder ∧ (withWindow .status ready).takesOrder ∧
      ¬((2 : Byte).toNat = 0) ∧ (7 : Byte).toNat < 8 ∧ (8 : Byte).toNat < 9 ∧ (4 : Long).toNat % 8 ≠ 0 ∧
      2 ^ 64 ≤ (0xFFFFFFFFFFFFFFC8 : Long).toNat + 63 ∧ (0xFFFFFFFFFFFFFFC0 : Long).toNat + 63 < 2 ^ 64 ∧
      (∀ w : WindowId, (ready.windows[w]).covers 0 = false) ∧
      (((withWindow .status ready).windows[0]).covers 0xFFFFFFFFFFFFFFC0 = true ∧
        ((withWindow .status ready).windows[0]).covers 0xFFFFFFFFFFFFFFFF = true) ∧
      { up with orders := { up.orders with work := .executing ⟨0, 2, 0, false⟩ 0 } }.linkUp = true ∧
      (stopping up).linkUp = false ∧ 0 + 2500000 < { up with elapsed := 2500001 }.elapsed ∧ up.elapsed ≤ 0 + 2500000 :=
  ⟨takes rfl rfl rfl, takes rfl rfl rfl, by decide⟩

/-- The Order Unit waits with a record, and room has been reported. -/
def waiting : State :=
  { up with
    orders := { up.orders with work := .placing ⟨0, 1, 0, false⟩ [⟨0, record⟩], roomReported := true }
    timebase := { up.timebase with hold := some record, roomReported := true } }

theorem test_RecordsAreReoffered_met :
    waiting.orders.work = .placing ⟨0, 1, 0, false⟩ [⟨0, record⟩] ∧ waiting.orders.roomReported = true ∧
      waiting.timebase.hold = some record ∧ waiting.timebase.roomReported = true ∧
      (place 0 record waiting).isSome = true ∧
      (place 0 record { waiting with rings := upd waiting.rings 0 (fun _ => some (fullRing 0)) }).isSome = false := by
  decide

theorem test_SetChannelWrites_met :
    (withStream .armed config ready).takesOrder ∧ (withStream .armed config ready).converts 0 1 = true ∧
      (∀ i : StreamId, (withStream .armed config ready).converts i 31 = false) ∧ 32 ≤ (32 : Byte).toNat :=
  ⟨takes rfl rfl rfl, by decide⟩

theorem test_ScanListOrders_met :
    (withStream .idle config ready).takesOrder ∧ (withStream .idle config ready).bindsList 0 0 = true ∧
      (∀ i : StreamId, (withStream .idle config ready).bindsList i 15 = false) ∧
      step? ⟨31, 8⟩ = some ⟨31, 8⟩ ∧ step? ⟨32, 8⟩ = none ∧ step? ⟨31, 3⟩ = none ∧
      (List.replicate 6 (⟨31, 8⟩ : StepEntry)).map step? = (List.replicate 6 (⟨31, 8⟩ : ScanStep)).map some ∧
      32 < (27 : Nat) + (6 : Byte).toNat ∧ (26 : Nat) + (6 : Byte).toNat ≤ 32 ∧ 16 ≤ (16 : Byte).toNat :=
  ⟨takes rfl rfl rfl, by decide⟩

/-- Generator 1 stopped and gated by TRIG0, generator 2 gated. -/
def gates : State :=
  { ready with
    generators := upd (upd ready.generators 1 (fun g => { g with gate := some 0 })) 2 (fun g => { g with state := .gated }) }

theorem test_PaceOrders_met :
    ready.takesOrder ∧ (ready.generators[3]).state = .stopped ∧
      ((withGenerator (fun g => { g with state := .running }) ready).generators[0]).state = .running ∧
      (4 : Byte).toNat = (PaceSource.trig 3).code ∧ (4 : Byte).toNat = gateCode (some 3) ∧
      (1 : Byte).toNat = PaceMode.burst.code ∧ (65536 : Word).toNat = 65536 ∧ (7 : Word).toNat * (7 : Word).toNat < 50 ∧
      50 ≤ (5 : Word).toNat * (10 : Word).toNat ∧
      (gates.generators[2]).state = .gated ∧ (gates.generators[1]).gate = some 0 ∧ (gates.lines[0]).active = false ∧
      (gates.generators[3]).gate = none ∧ gates.linkUp = true :=
  ⟨takes rfl rfl rfl, by decide⟩

theorem test_SetLineWritesPolarity_met :
    (withStream .armed { config with start := .line 3 } ready).takesOrder ∧
      ((withStream .armed { config with start := .line 3 } ready).streams[0]).state.active = true ∧
      (∀ i : StreamId, (ready.streams[i]).state.active = false) ∧
      ((withGenerator (fun g => { g with state := .running, source := .trig 3 }) ready).generators[0]).source = .trig 3 ∧
      (∀ g : GeneratorId, (ready.generators[g]).state = .stopped) :=
  ⟨takes rfl rfl rfl, by decide⟩

/-- A payload of CONFIGURE STREAM: stream 0, list 0, one pass to a block, two pages, depth 2, start EXTERNAL. -/
def payload : ConfigureFields := ⟨0, 0, 0, 0, 1, 2, 0, 2, 0, 1, 0, 0, 0, 0, 0, 0⟩

theorem test_ConfigureStreamTakesEffect_met :
    (withStream .idle config ready).takesOrder ∧ streamConfig? payload = some (config, 2) ∧
      streamConfig? { payload with pages := 65 } = none ∧
      ((withStream .idle config ready).scanLists[0]).length = 2 ∧ ready.streams[7].state = .unconfigured ∧
      (ready.scanLists[0]).length = 0 ∧ (1 * 2 ≤ 2048 ∧ max (1 * 2) (2 * 2) + 2 ≤ 2 * 128) ∧
      { withStream .idle config ready with freePages := 0 }.freePages + 1 < 2 ∧
      ((withStream .armed config ready).streams[0]).state = .armed :=
  ⟨takes rfl rfl rfl, by decide⟩

theorem test_ConfigureFieldsName_met :
    payload.passesPerBlock.toNat = config.passesPerBlock ∧ payload.startKind = byteOf config.start.code ∧
      payload.stopKind = byteOf config.stop.code ∧ payload.policies.getLsbD 0 = config.slipPolicy.halts ∧
      streamConfig? { payload with stopKind := 1, count := 1 } = some ({ config with stop := .count 1 }, 2) ∧
      streamConfig? { payload with stopKind := 1, count := 0 } = none := by decide

theorem test_ArmStreamBegins_met :
    (withStream .idle config ready).takesOrder ∧ ((withStream .idle config ready).streams[0]).config = some config ∧
      (withStream .idle config ready).outboxes[0] = [] ∧ (withStream .idle config ready).rings[0] ≠ none ∧
      (noRings ready).rings[0] = none ∧ { ready with outboxes := Vector.replicate 8 [⟨0, record⟩] }.outboxes[0] ≠ [] ∧
      (0 : Long) ≤ ready.timebase.count ∧ ready.timebase.count < 1 :=
  ⟨takes rfl rfl rfl, by decide⟩

/-- Stream 0 in fast drain. -/
def fastDraining : State :=
  let s := withWrite (withBlock true (withStream .draining config ready))
  { s with streams := upd s.streams 0 (fun x => { x with endReason := some .aborted }) }

theorem test_StartStopAndAbort_met :
    fastDraining.takesOrder ∧ (ready.streams[7]).state.active = false ∧ (fastDraining.streams[0]).state = .draining ∧
      (fastDraining.streams[0]).endReason = some .aborted ∧
      ((withStream .running config ready).streams[0]).state = .running ∧ fastDraining.writing 0 = true ∧
      ready.writing 0 = false ∧ fastDraining.buffers[0] = [buffer] ∧
      (withStream .armed config ready).takesOrder ∧ ((withStream .armed config ready).streams[0]).state = .armed :=
  ⟨takes rfl rfl rfl, by decide, by decide, by decide, by decide, by decide, by decide, by decide, takes rfl rfl rfl,
    by decide⟩

theorem test_ResetStreamReturnsAll_met :
    (withStream .faulted config ready).takesOrder ∧ ((withStream .faulted config ready).streams[0]).state = .faulted ∧
      ((withStream .faulted config ready).streams[0]).config = some config ∧
      (withStream .faulted config ready).outboxes[0] = [] ∧ (ready.streams[7]).state = .unconfigured ∧
      ((withStream .armed config ready).streams[0]).state.active = true :=
  ⟨takes rfl rfl rfl, by decide⟩

theorem test_EndingsOfAnArming_met :
    ((withPass 1 (withStream .running config up)).streams[0]).pass ≠ none ∧
      ((withStream .running config up).streams[0]).pass = none ∧
      (withStream .running config up).staging[0] = Staging.empty ∧ (withStream .running config up).writing 0 = false ∧
      ((withBlock true (withStream .running config up)).streams[0]).pass = none ∧
      ((withBlock true (withStream .running config up)).staging[0]).closed = [] ++ [block true] ∧
      ((withBlock true (withStream .running config up)).staging[0]).forming = [] ∧
      (({ withStream .running config up with staging := upd up.staging 0 (fun _ => ⟨[], [passRecord]⟩) } : State).staging[0]).forming
        = passRecord :: [] := by
  decide

/-- An ARMED stream with three complete history records and a pass in progress. -/
def history (depth : Nat) : State :=
  let s := withPass 1 (withStream .armed { config with depth := depth } up)
  { s with
    staging := upd s.staging 0 (fun q => { q with forming := List.replicate 3 passRecord ++ q.forming }) }

theorem test_TriggerNumbersHistory_met :
    ((history 2).streams[0]).config = some config ∧ ((history 2).staging[0]).closed = [] ∧
      ((history 2).streams[0]).pass ≠ none ∧ ((history 0).streams[0]).pass ≠ none ∧
      ((withStream .armed config up).streams[0]).pass = none ∧ 1 ≤ config.passesPerBlock := by decide

/-- A trigger whose stop time the count has passed, with a history that drains and with nothing staged. -/
theorem test_TriggerNumbersHistory_late_met :
    ((withStream .armed { config with stop := .time 5 } (tb .off none .absent up)).streams[0]).config
        = some { config with stop := .time 5 } ∧
      (5 : Long) ≤ (withStream .armed { config with stop := .time 5 } (tb .off none .absent up)).timebase.count ∧
      ((withStream .armed { config with stop := .time 5 } up).streams[0]).pass = none ∧
      (withStream .armed { config with stop := .time 5 } up).staging[0] = Staging.empty ∧ up.writing 0 = false ∧
      ((history 2).staging[0]).forming ≠ [] := by decide

theorem test_BufferOrders_met :
    (withWindow .buffers (withStream .idle config ready)).takesOrder ∧
      (withWindow .buffers (withStream .idle config ready)).maxBlockBytes 0 = 40 ∧
      entryFieldsOk ⟨8, 40, 1⟩ 40 = true ∧ entryFieldsOk ⟨8, 32, 1⟩ 40 = false ∧
      ((withWindow .buffers ready).windows[0]).covers 8 = true ∧ (∀ w : WindowId, (ready.windows[w]).covers 8 = false) ∧
      32 < (List.replicate 30 buffer).length + (3 : Byte).toNat ∧ (List.replicate 29 buffer).length + (3 : Byte).toNat ≤ 32 ∧
      (ready.streams[7]).state = .unconfigured ∧ ((withBlock false ready).staging[0]).readyBlock ≠ none ∧
      ready.buffers[0] = [] ∧ (withBlock false ready).buffers[0] ≠ [] ∧ (ready.staging[0]).readyBlock = none ∧
      ((withStream .idle config ready).streams[0]).state = .idle ∧
      ((withStream .idle config ready).streams[0]).config = some config ∧
      (withStream .idle config ready).outboxes[0] = [] ∧
      { ready with outboxes := Vector.replicate 8 [⟨0, record⟩] }.outboxes[0] ≠ [] ∧
      ((withStream .running config ready).streams[0]).state = .running :=
  ⟨takes rfl rfl rfl, by decide⟩

theorem test_SetWindowReplaces_met :
    ready.takesOrder ∧ 4 ≤ (4 : Byte).toNat ∧ 2 ≤ (2 : Byte).toNat ∧ 3 ≤ (3 : Byte).toNat :=
  ⟨takes rfl rfl rfl, by decide⟩

theorem test_WatchOrders_met :
    ready.takesOrder ∧ (8 : Byte) = byteOf (filterCode (some 7)) ∧ (16 : Byte) = byteOf (WatchAction.halt 7).code ∧
      (100 : Half).toInt ≤ (100 : Half).toInt ∧ (99 : Half).toInt < (100 : Half).toInt ∧ ready.rings[3] ≠ none ∧
      (noRings ready).rings[3] = none ∧ (16 : Byte).toNat ≤ 16 ∧ (4095 : Half).toNat ≤ 4095 ∧
      ((withWatch (fun w => { w with state := .above, alert := 2 }) ready).watches[0]).enabled = true :=
  ⟨takes rfl rfl rfl, by decide⟩

theorem test_TimebaseOrders_met :
    (tb .leader none .absent ready).takesOrder ∧ (tb .follower none .absent ready).takesOrder ∧
      (tb .leader (some ⟨0, 0, none⟩) .absent ready).timebase.arm ≠ none ∧
      (tb .leader none (.driving 50) ready).timebase.fire = .driving 50 ∧
      (tb .follower none .absent ready).timebase.role ≠ .leader ∧
      (tb .leader none (.waiting 6) ready).timebase.fire ≠ .absent ∧ (5 : Long) ≤ (tb .leader none .absent ready).timebase.count ∧
      (tb .leader none .absent ready).timebase.count < 6 ∧ 60000 < (60001 : Word).toNat ∧ (60000 : Word).toNat ≤ 60000 ∧
      ready.timebase.role = .off ∧ (tb .follower none .absent ready).timebase.hold = none ∧
      { tb .follower none .absent ready with
        timebase := { (tb .follower none .absent ready).timebase with hold := some record } }.timebase.hold ≠ none :=
  ⟨takes rfl rfl rfl, takes rfl rfl rfl, by decide⟩

theorem test_TeardownOfEveryBlock_met :
    ((withBlock true (withStream .running config up)).streams[0]).state.active = true ∧ (up.streams[7]).state.active = false ∧
      ready.orders.work.isFetching = true ∧ waiting.orders.work = .placing ⟨0, 1, 0, false⟩ [⟨0, record⟩] := by decide

/-- A link in a state. -/
def linkIn (x : LinkState) (s : State) : State := { s with link := { s.link with state := x } }

theorem test_LinkControlWrites_met :
    { up with link := { up.link with resetPending := true } }.link.resetPending = true ∧ up.link.resetPending = false ∧
      (linkIn .down up).link.cbAddress.toNat + 127 < 2 ^ 64 ∧ 2 ^ 64 ≤ (0xFFFFFFFFFFFFFF81 : Long).toNat + 127 ∧
      (linkIn .loading up).link.state = .loading ∧ up.link.state = .up := by decide

theorem test_QuietLinkMovesOn_met :
    { up with link := { up.link with resetPending := true } }.readsOutstanding = 0 ∧ ready.readsOutstanding ≠ 0 ∧
      (stopping up).link.state = .stopping ∧ (stopping up).readsOutstanding = 0 ∧ (stopping up).link.enable = true ∧
      (stopping up).link.cbAddress.toNat + 127 < 2 ^ 64 ∧ (stopping up).link.resetPending = false ∧
      2 ^ 64 ≤ { (stopping up).link with cbAddress := 0xFFFFFFFFFFFFFF81 }.cbAddress.toNat + 127 ∧
      { (stopping up).link with resetPending := true }.resetPending = true := by decide

theorem test_OrderTailWrites_met :
    up.linkUp = true ∧ (stopping up).linkUp = false ∧ up.orders.geometry = some ⟨0x10000, 16⟩ ∧ 16 ≤ (16 : Word).toNat ∧
      (15 : Word).toNat < 16 ∧ up.orders.head < 16 ∧ up.orders.work = .idle ∧ up.orders.head ≠ (15 : Word).toNat ∧
      ready.orders.work ≠ .idle := by decide

theorem test_CrHeadWrites_met :
    up.linkUp = true ∧ up.rings[0] = some ring ∧ (noRings up).rings[0] = none ∧ 2 * ring.size ≤ (32 : Word).toNat ∧
      (fullRing 16).outstanding = 16 ∧ (16 + 2 * 16 - (fullRing 16).returned) % (2 * 16) ≤ (fullRing 16).outstanding ∧
      (fullRing 16).outstanding < (17 + 2 * 16 - (fullRing 16).returned) % (2 * 16) ∧ ring.waiting = [] ∧
      (∀ i : StreamId, up.outboxes[i] = []) ∧ up.orders.waitingOn ≠ some 0 ∧ up.timebase.hold = none ∧ ring.count = 0 ∧
      (place 0 record up).isSome = true ∧
      (place 0 record { up with rings := upd up.rings 0 (fun _ => some (fullRing 0)) }).isSome = false ∧
      { up with outboxes := Vector.replicate 8 [⟨0, record⟩] }.outboxes[0] = ⟨0, record⟩ :: [] ∧
      ¬((fullRing 0).waiting = [] ∧ 0 < (fullRing 0).free ∨ (fullRing 0).waiting.length < 16) ∧
      ((fullRing 1).waiting.length < 16) ∧ 1 ≤ (fullRing 0).count ∧ { fullRing 0 with timer := .expired }.timer = .expired := by
  decide

theorem test_PendingRecordsMove_met :
    (Ring.Ordered { fullRing 0 with armed := false, returned := 3 }) ∧
      ({ fullRing 0 with armed := false, returned := 3 } : Ring).free = 3 ∧
      ({ fullRing 0 with armed := false, returned := 3 } : Ring).holdoffUs = 0 ∧
      (fullRing 0).waiting = record :: List.replicate 15 record ∧ (fullRing 0).free = 0 ∧
      0 < { fullRing 0 with returned := 16 }.free ∧ { fullRing 0 with returned := 16 }.count + 1 < ring.threshold ∧
      { fullRing 0 with threshold := 17 }.threshold ≤ (fullRing 0).count + 1 ∧ (noRings up).rings[0] = none :=
  ⟨⟨by decide, by decide, by decide, by decide, by decide⟩, by decide⟩

theorem test_RegisterWrites_met :
    (0x014 : BitVec 12) ∉ ([0x000, 0x008, 0x00C, 0x010, 0x020, 0x024, 0x028, 0x02C] : List (BitVec 12)) ∧
      (3 : Long).getLsbD 1 = true ∧ (1 : Long).getLsbD 1 = false ∧ up.link.state ≠ .down ∧
      State.reset.link.state = .down ∧ (0x00C : BitVec 12).toNat % 8 ≠ 0 ∧ (0x020 : BitVec 12).toNat % 8 = 0 := by decide

theorem test_RegisterReads_met :
    (0x008 : BitVec 12).toNat % 8 = 0 ∧ (0x00C : BitVec 12).toNat % 4 = 0 ∧
      (0x014 : BitVec 12).toNat ∉ [0x000, 0x004, 0x008, 0x00C, 0x010, 0x020, 0x024, 0x028, 0x02C] ∧
      (0x00D : BitVec 12).toNat = (0x00C : BitVec 12).toNat + 1 ∧ 1 + AccessWidth.three.bytes ≤ 4 ∧
      up.rings[0] = some ring ∧ (noRings up).rings[0] = none ∧
      (∀ a ∈ [0x000, 0x004, 0x008, 0x00C, 0x010, 0x020, 0x024, 0x028, 0x02C],
        a + 4 ≤ (0x018 : BitVec 12).toNat ∨ (0x018 : BitVec 12).toNat + AccessWidth.eight.bytes ≤ a) := by decide

/-- The Control Block read is in flight. -/
def loading : State := { State.reset with link := ⟨.loading, true, false, 0x1000, .none, 0, some 0⟩ }

theorem test_ControlBlockReadEnds_met :
    loading.link.cbRead = some 0 ∧ loading.link.state = .loading ∧ loading.link.resetPending = false ∧
      (stopping loading).link.state ≠ .loading ∧ up.link.cbRead = none ∧
      checkControlBlock ⟨2, 0, 16, Vector.replicate 4 ⟨0, 16, 0, 1, true⟩⟩ = some 1 ∧
      checkControlBlock ⟨1, 0, 4096, Vector.replicate 4 ⟨0, 4096, 65535, 64, true⟩⟩ = none ∧
      2500000 + 0 < { loading with elapsed := 2500001 }.elapsed ∧ loading.elapsed ≤ 0 + 2500000 ∧
      checkControlBlock ⟨1, 0, 16, #v[⟨0, 16, 0, 1, true⟩, ⟨0, 16, 0, 1, true⟩, ⟨32, 16, 65536, 64, true⟩, ⟨8, 16, 0, 1, true⟩]⟩
        = some 0x0306 ∧
      checkControlBlock ⟨1, 0, 16, #v[⟨0, 16, 0, 1, true⟩, ⟨0, 16, 0, 1, true⟩, ⟨32, 16, 65536, 64, true⟩, ⟨8, 16, 0, 1, false⟩]⟩
        = some 0x0208 := by decide

theorem test_TriggerEdgeReachesItsReceivers_met :
    (∀ g : GeneratorId, ((withStream .armed { config with start := .line 0 } up).generators[g]).state ≠ .running) ∧
      ((withStream .armed { config with start := .line 0 } up).streams[0]).state = .armed ∧
      ((withStream .running { config with stop := .line 0 } up).streams[0]).state = .running ∧
      ((withGenerator (fun g => { g with state := .running, source := .trig 0 }) up).generators[0]).sourceEvent.2
        = false ∧
      (up.lines[0]).active = false ∧ (up.lines[0]).owed ≠ .edge ∧
      { up.lines[0] with high := true, owed := .edge }.active = true ∧
      ((withGenerator (fun g => { g with state := .running, source := .trig 0, divide := 1 })
        (withStream .running config up)).generators[0]).sourceEvent.2 = true ∧
      ((withStream .running config up).streams[0]).config = some config ∧ config.generator = 0 := by decide

/-- An ARMED stream that starts on a line when its stop time is reached. -/
theorem test_TriggerEdge_late_met :
    ((withStream .armed { config with start := .line 0, stop := .time 5 } (tb .off none .absent up)).streams[0]).state
        = .armed ∧
      (5 : Long) ≤ (withStream .armed { config with start := .line 0, stop := .time 5 } (tb .off none .absent up)).timebase.count ∧
      (up.generators[0]).state ≠ .running := by decide

/-- Stream 0 starts or stops on the line that its generator counts, and the generator's interval completes on the edge. -/
def reachedTwice (x : StreamState) : State :=
  withGenerator (fun g => { g with state := .running, source := .trig 0, divide := 1 })
    (withStream x { config with start := .line 0, stop := .line 0 } up)

theorem test_TriggerEdge_twice_met :
    ∀ x ∈ [StreamState.armed, .running],
      ((reachedTwice x).streams[0]).state = x ∧
      ((reachedTwice x).streams[0]).config = some { config with start := .line 0, stop := .line 0 } ∧
      ((reachedTwice x).generators[0]).state = .running ∧ ((reachedTwice x).generators[0]).source = .trig 0 ∧
      ((reachedTwice x).generators[0]).sourceEvent.2 = true ∧ ((reachedTwice x).lines[0]).active = false ∧
      ((reachedTwice x).generators[1]).state ≠ .running ∧ ((reachedTwice x).streams[7]).config = none := by decide

/-- Stream 0 is ARMED and starts on TRIG0, which the sample at count 5 found ACTIVE: the gates have followed, and the edge
is owed. -/
def owing : State :=
  tb .off none .absent { withStream .armed { config with start := .line 0 } up with
    lines := upd up.lines 0 (fun l => { l with high := true, owed := .edge }) }

theorem owing_ready {m : Nat} (h : 0 < m) : owing.readyAt m = settleLine 0 owing := by
  unfold State.readyAt
  rw [if_pos (by simpa using ⟨h, by decide⟩)]
  exact settleLines_one (by decide)

/-- R110: an edge that is owed when time passes is taken first, with the count of its sample. -/
theorem test_owed_edge_has_its_count :
    ∃ t, exec (.timeReached 9 []) owing = .next t ∧ t.timebase.count = 9 ∧
      (t.streams[0]).trigger = some ⟨5, .line 0⟩ :=
  ⟨reachTime 9 [] (settleLine 0 owing),
    congrArg (fun s => (.next (reachTime 9 [] s) : Outcome)) (owing_ready (m := 4) (by decide)), by decide⟩

/-- The same part armed as a follower, with preset 1000. -/
def owingArmed : State := tb .follower (some ⟨1000, 0, none⟩) .absent owing

theorem owingArmed_at_sample : owingArmed.atSyncSample = settleLine 0 owingArmed := by
  have h : owingArmed.readyAt 1 = settleLine 0 owingArmed := by
    unfold State.readyAt
    rw [if_pos (by decide)]
    exact settleLines_one (by decide)
  show passTo 0 (owingArmed.readyAt 1) = _
  rw [h]
  rfl

/-- R110, R134: a load at the moment of an owed edge does not change the count that the edge carries. -/
theorem test_owed_edge_before_load :
    ∃ t, exec (.syncFallingEdge []) owingArmed = .next t ∧ t.timebase.count = 1000 ∧
      (t.streams[0]).trigger = some ⟨5, .line 0⟩ :=
  ⟨handSyncEdge [] (settleLine 0 owingArmed),
    congrArg (fun s => (.next (handSyncEdge [] s) : Outcome)) owingArmed_at_sample, by decide⟩

/-- R114: SYNC cannot fall before its next sample. -/
theorem test_sync_waits_for_its_sample :
    (match exec (.syncFallingEdge []) { up with syncNext := 3 } with
      | .next t => decide (t.elapsed = 3 ∧ t.syncHigh = false ∧ t.syncNext = 4)
      | _ => false) = true := by decide

theorem test_SyncEdgeLoadsPreset_sample_met :
    owingArmed.syncHigh = true ∧ (owingArmed.lines[0]).active = true ∧ (owingArmed.lines[0]).owed = .edge ∧
      (∀ k : LineId, k ≠ 0 → (owingArmed.lines[k]).owed = .nothing) := by decide

/-- R110: of the edges that TRIG_EDGE, GATE_CHANGE to INACTIVE and TRIG_EDGE give, the second comes two periods later. -/
theorem test_edges_stand_two_periods_apart :
    ∃ u, exec (.gateChange 0 false) owing = .next u ∧ u.elapsed = 1 ∧ (u.lines[0]).active = false ∧
      ∃ v, exec (.trigEdge 0 [] []) u = .next v ∧ v.elapsed = 2 :=
  ⟨takeLineChange 0 false (passTo 1 (settleLine 0 owing)),
    congrArg (fun s => (.next (takeLineChange 0 false (passTo 1 s)) : Outcome)) (owing_ready (m := 1) (by decide)),
    by decide, by decide, _, rfl, by decide⟩

theorem test_TriggerEdge_ready_met :
    (owing.lines[0]).active = true ∧ (owing.lines[0]).owed = .edge ∧ owing.elapsed < 1 ∧
      (∀ k : LineId, k ≠ 0 → (owing.lines[k]).owed = .nothing) ∧ owing.elapsed < (owing.lines[0]).nextSample ∧
      ({ owing.lines[0] with owed := .change } : Line).owed ≠ .nothing := by decide

theorem test_GateFollowsItsLine_met :
    ((withGenerator (fun g => { g with gate := some 0, state := .running }) up).generators[0]).state = .running ∧
      (gates.generators[2]).state = .gated ∧ (up.generators[3]).gate ≠ some 0 ∧
      ((withGenerator (fun g => { g with gate := some 0, state := .gated }) up).generators[0]).gate = some 0 ∧
      (up.lines[0]).active = false ∧ (up.lines[0]).owed = .nothing ∧
      { up.lines[0] with high := true, owed := .change }.active = true ∧
      { up.lines[0] with high := true, owed := .edge }.owed ≠ .nothing := by decide

theorem test_SyncEdgeLoadsPreset_met :
    (tb .off none .absent up).timebase.role = .off ∧ up.syncHigh = true ∧ { up with syncHigh := false }.syncHigh = false ∧
      (tb .leader (some ⟨9, 0, none⟩) (.driving 50) up).timebase.arm = some ⟨9, 0, none⟩ ∧
      (tb .leader (some ⟨9, 0, none⟩) (.driving 50) up).timebase.fire = .driving 50 ∧
      (∀ e, (tb .follower (some ⟨9, 0, none⟩) (.waiting 10) up).timebase.fire ≠ .driving e) ∧
      (∃ w, exec (.timeReached 5 []) (tb .follower (some ⟨9, 0, none⟩) (.waiting 10) up) = .next w) ∧ up.linkUp = true ∧
      (place 0 record up).isSome = true ∧ (stopping up).linkUp = false ∧
      (place 0 record { up with rings := upd up.rings 0 (fun _ => some (fullRing 0)) }).isSome = false :=
  ⟨by decide, by decide, by decide, by decide, by decide, (fun _ h => nomatch h), ⟨_, rfl⟩, by decide⟩

/-- An armed part at a falling edge, for each content of its fire field. -/
theorem test_SyncEdgeLoadsPreset_completes_met :
    ∀ fire ∈ [Fire.absent, .waiting 9, .driving 50],
      (tb .leader (some ⟨9, 0, none⟩) fire up).syncHigh = true ∧
      (tb .leader (some ⟨9, 0, none⟩) fire up).timebase.role ≠ .off ∧
      (tb .leader (some ⟨9, 0, none⟩) fire up).timebase.arm = some ⟨9, 0, none⟩ ∧
      (tb .leader (some ⟨9, 0, none⟩) fire up).timebase.fire = fire := by decide

theorem test_TickIsIssued_met :
    (up.generators[3]).state ≠ .running ∧
      ((withGenerator (fun g => { g with state := .running, mode := .burst, burst := 2 }) up).generators[0]).burst = 2 ∧
      min (0 + 1) 4294967295 < 2 ∧ 2 ≤ min (1 + 1) 4294967295 ∧ (Generator.reset).mode = .continuous ∧
      (up.streams[7]).state = .unconfigured ∧ (up.generators[3]).source = .reference ∧ (up.generators[3]).owed ≤ 1 ∧
      0 * 1 + 0 < 1 * 50 ∧ ((withStream .armed config up).streams[0]).config = some config ∧ config.generator = 0 := by decide

theorem test_TickAtAStream_met :
    ((withStream .armed config up).streams[0]).config = some config ∧
      ((withStream .armed config up).stepsOf 0).length = 2 ∧ ((withStream .armed config up).staging[0]).closed = [] ∧
      ((withStream .armed config up).staging[0]).slotsInUse 2 + 2 ≤ ((withStream .armed config up).streams[0]).capacity ∧
      ((withPass 1 (withStream .running config up)).streams[0]).pass = some ⟨0, 1⟩ ∧
      ({ (withStream .running config up).streams[0] with pagesHeld := 0 } : StreamContext).capacity < 0 + 2 ∧
      config.slipPolicy = .mark ∧
      { config with slipPolicy := .halt }.slipPolicy = .halt ∧ config.stop = .none := by decide

theorem test_TimeIsReached_met :
    up.timebase.count ≤ 5 ∧ ((withStream .armed { config with start := .time 5 } up).streams[0]).state = .armed ∧
      ((withStream .running { config with stop := .time 5 } up).streams[0]).state = .running ∧
      (up.streams[7]).timeMet 5 = false ∧ (tb .leader none (.waiting 5) up).timebase.fire = .waiting 5 := by decide

/-- An ARMED stream whose start time and stop time are reached together. -/
theorem test_TimeIsReached_late_met :
    ((withStream .armed { config with start := .time 5, stop := .time 4 } up).streams[0]).state = .armed ∧
      ((withStream .armed { config with start := .time 5, stop := .time 4 } up).streams[0]).config
        = some { config with start := .time 5, stop := .time 4 } ∧ (4 : Long) ≤ 5 ∧ up.timebase.count ≤ 5 := by decide

theorem test_PulseEndsAndArmExpires_met :
    (tb .leader none (.driving 50) up).timebase.fire = .driving 50 ∧ up.timebase.fire = .absent ∧
      (tb .leader (some ⟨9, 1, some 50000⟩) .absent up).timebase.arm = some ⟨9, 1, some 50000⟩ ∧ up.linkUp = true ∧
      up.timebase.arm = none ∧ up.syncHigh = true ∧ { up with syncHigh := false }.syncHigh = false := by decide

theorem test_ConversionGivesNearestCode_met : exactCode ⟨10, 0⟩ 0 = 32768 ∧ exactCode ⟨-11, 0⟩ 0 = -36045 ∧
      (((List.replicate 8 (⟨-1, 32767⟩ : Voltage)).take 8).map (fun v => (convert v 3).1)).sum = -8 := by decide

/-- Converter 0 at work for stream 0, with a request of stream 3 waiting. -/
def converting : State :=
  { up with
    converters := upd up.converters 0 (fun c =>
      { c with
        conversion := some ⟨some 0, 0, 0, 0, 1, 0, 0, 150⟩, grantPointer := 0, lastChannel := some 0
        slots := upd c.slots 3 (fun _ => some ⟨3, 1, 0, 5, 2⟩) }) }

theorem test_StepCompletes_met :
    (up.converters[0]).conversion = none ∧
      (converting.converters[0]).conversion = some ⟨some 0, 0, 0, 0, 1, 0, 0, 150⟩ ∧
      (converting.converters[0]).slots[3] = some ⟨3, 1, 0, 5, 2⟩ ∧
      (∀ j : StreamId, 1 ≤ j → j < 3 → (converting.converters[0]).slots[j] = none) ∧
      (∀ i : StreamId, (up.converters[0]).slots[i] = none) := by decide

/-- A RUNNING stream without pages, whose attempt finds no room, with nothing staged and with a block in formation. -/
def overrunning (c : StreamConfig) (q : Staging) : State :=
  let s := withStream .running c converting
  { s with streams := upd s.streams 0 (fun x => { x with pagesHeld := 0 }), staging := upd s.staging 0 (fun _ => q) }

theorem test_TickAtAStream_overrun_met :
    ∀ c ∈ [{ config with overrunPolicy := .halt }, { config with stop := .count 1 }, { config with stop := .count 2 }],
      ∀ q ∈ [Staging.empty, ⟨[], [passRecord]⟩, ⟨[block true], []⟩],
        ((overrunning c q).streams[0]).state = .running ∧ ((overrunning c q).streams[0]).config = some c ∧
        ((overrunning c q).streams[0]).pass = none ∧ ((overrunning c q).stepsOf 0).length = 2 ∧
        ((overrunning c q).streams[0]).capacity < ((overrunning c q).staging[0]).slotsInUse 2 + 2 ∧
        min (((overrunning c q).streams[0]).begun + 1) 4294967295 = 1 := by decide

/-- A pass that begins while converter 0, which serves CH0, is idle and while it is busy. -/
theorem test_TickAtAStream_request_met :
    ∀ s ∈ [withStream .armed config up, withStream .running config up, withStream .running config converting],
      (s.stepsOf 0)[0]? = some ⟨0, 1⟩ ∧ (s.streams[0]).pass = none ∧
      ((s.streams[0]).state = .armed ∨
        ((s.streams[0]).state = .running ∧ (s.staging[0]).slotsInUse 2 + 2 ≤ (s.streams[0]).capacity)) ∧
      (s.converters[0] = up.converters[0] ∧ (s.converters[0]).conversion = none ∨
        (s.converters[0]).conversion ≠ none) := by decide

/-- A return for the pass in progress of stream 0. -/
def returned (step : Nat) : State :=
  { withPass step (withStream .running config up) with returns := upd up.returns 0 (fun _ => [⟨0, step, ⟨1, false⟩, 0⟩]) }

/-- The last return of a pass whose record has a number, in a state of stream 0 with a configuration. -/
def lastReturn (x : StreamState) (c : StreamConfig) (number : Option Word) : State :=
  let s := returned 1
  { s with
    streams := upd s.streams 0 (fun y => { y with state := x, config := some c, endReason := some .stopOrder })
    staging := upd s.staging 0 (fun _ => ⟨[], [⟨0, number, 0, false, [some ⟨5, false⟩, none], 0, 0⟩]⟩) }

theorem test_ReturnIsTaken_met :
    (returned 0).returns[0] = [⟨0, 0, ⟨1, false⟩, 0⟩] ∧ ((returned 0).streams[0]).pass = some ⟨0, 0⟩ ∧
      ((returned 0).stepsOf 0)[0]? = some ⟨0, 1⟩ ∧ ((returned 1).stepsOf 0)[1]? = some ⟨1, 2⟩ ∧
      ((returned 0).stepsOf 0).length = 2 ∧ { returned 0 with streams := up.streams }.streams[0].pass = none ∧
      ((lastReturn .running { config with stop := .count 0 } (some 0)).streams[0]).begun = 0 ∧
      (((lastReturn .running config (some 0)).staging[0]).findRecord 0).bind (·.number) = some 0 ∧
      (((lastReturn .draining config none).staging[0]).findRecord 0).bind (·.number) = none ∧
      ((lastReturn .draining { config with passesPerBlock := 2 } (some 0)).streams[0]).state = .draining ∧
      (lastReturn .draining config none).writing 0 = false ∧
      ((lastReturn .draining config none).streams[0]).endReason = some .stopOrder ∧ EndReason.stopOrder ≠ .aborted ∧
      1 ≤ config.passesPerBlock ∧ ((lastReturn .draining config (some 0)).stepsOf 0).length ≤ 1 + 1 := by decide

/-- The last return of a history pass of an ARMED stream, behind a full history. -/
theorem test_ReturnIsTaken_history_met :
    ((lastReturn .armed config none).streams[0]).state = .armed ∧
      (∀ e ∈ ((lastReturn .armed config none).staging[0]).forming, e.pass = 0 ∨ e.complete = true) ∧
      (∀ e ∈ ((history 2).staging[0]).forming, e.pass = 0 ∨ e.complete = true) ∧
      config.depth < ((history 2).staging[0]).forming.length ∧ ((history 2).stepsOf 0).length ≤ 1 + 1 := by decide

/-- A walk that moves on to a step of CH1 while converter 0 is idle and while it is busy. -/
theorem test_ReturnIsTaken_request_met :
    ((returned 0).stepsOf 0)[0 + 1]? = some ⟨1, 2⟩ ∧ ((returned 0).converters[0]).conversion = none ∧
      ({ returned 0 with converters := converting.converters }.converters[0]).conversion ≠ none ∧
      (1 : ChannelId).val / 8 = (0 : ConverterId).val := by decide

/-- An offer of a sample on CH0 with a code. -/
def offer (code : Half) : Offer := ⟨0, 0, ⟨code, false⟩, 0, none⟩

theorem test_OfferIsJudged_met :
    { up with offers := [offer 101] }.offers[0]? = some (offer 101) ∧ (101 : Half).toInt = 101 ∧
      ((withWatch id up).watches[0]).wait = none ∧ ((withWatch id up).watches[0]).state = .inside ∧
      ((withWatch id up).watches[0]).high.toInt < 101 ∧ ((withWatch id up).watches[0]).low.toInt = -100 ∧
      ((withWatch id up).watches[0]).persistence = 1 ∧
      ((withWatch (fun w => { w with state := .above, hysteresis := 1 }) up).watches[0]).high.toInt - 1 = 99 ∧
      ((withWatch (fun w => { w with state := .below }) up).watches[0]).state = .below ∧
      (up.watches[15]).enabled = false ∧
      ((withWatch (fun w => { w with wait := some ⟨.start 0, none, none, false⟩ }) up).watches[0]).wait ≠ none := by decide

/-- Every change of state of a watch, and every way its record can go. -/
theorem test_OfferIsJudged_changes_met :
    (∃ (run : RunSide → Nat) (enters : WatchState → Prop),
      (∀ side, run side = if ((withWatch id up).watches[0]).runSide = side then ((withWatch id up).watches[0]).runCount + 1
        else 1) ∧
      (enters .above ↔ ((withWatch id up).watches[0]).state = .inside ∧ ((withWatch id up).watches[0]).high.toInt < 101 ∧
        run .high = ((withWatch id up).watches[0]).persistence) ∧ enters .above ∧
      (enters .below ↔ ((withWatch id up).watches[0]).state = .inside ∧ (101 : Int) ≤ ((withWatch id up).watches[0]).high.toInt
        ∧ (101 : Int) < ((withWatch id up).watches[0]).low.toInt ∧
        run .low = ((withWatch id up).watches[0]).persistence) ∧
      (enters .inside ↔ (((withWatch id up).watches[0]).state = .above ∧ (101 : Int) ≤
          ((withWatch id up).watches[0]).high.toInt - (((withWatch id up).watches[0]).hysteresis : Int)) ∨
        (((withWatch id up).watches[0]).state = .below ∧
          ((withWatch id up).watches[0]).low.toInt + (((withWatch id up).watches[0]).hysteresis : Int) ≤ (101 : Int)))) ∧
      ((withWatch (fun w => { w with action := .start 0, note := true }) up).watches[0]).action ≠ .none ∧
      ((withWatch id up).watches[0]).action = .none ∧ ((withWatch id up).watches[0]).note = false ∧
      (place 0 record up).isSome = true ∧ (place 0 record (noRings up)).isSome = false ∧
      (judge 0 (offer 101) (withWatch id up)).watches[0].state ≠ ((withWatch id up).watches[0]).state :=
  ⟨⟨fun side => if ((withWatch id up).watches[0]).runSide = side then ((withWatch id up).watches[0]).runCount + 1 else 1,
    fun state => state = .above, fun _ => rfl, by decide, rfl, by decide, by decide⟩, by decide⟩

/-- Watch 0 waits for the answer to a request. -/
def asking (w : AnswerWait) (s : State) : State := withWatch (fun x => { x with wait := some w }) s

theorem test_WatchRequestAndAnswer_met :
    ((asking ⟨.start 0, none, none, false⟩ (withStream .armed config up)).watches[0]).wait
        = some ⟨.start 0, none, none, false⟩ ∧
      ((withStream .armed config up).streams[0]).state = .armed ∧
      ((withStream .running config up).streams[0]).state = .running ∧
      ((asking ⟨.halt 0, none, none, false⟩ up).watches[0]).wait = some ⟨.halt 0, none, none, false⟩ ∧
      ((asking ⟨.halt 0, some .taken, some ⟨0, .above, offer 101, .halt 0⟩, false⟩ up).watches[0]).waiting = [] ∧
      (place 0 record up).isSome = true ∧ (place 0 record (noRings up)).isSome = false := by decide

/-- An answer that comes while offers wait, at a watch that is enabled and at one that is not. -/
theorem test_WatchAnswer_waiting_met :
    ∀ enabled ∈ [true, false],
      ∃ s, s = withWatch (fun w => { w with
          enabled := enabled, waiting := [offer 101, offer 0], wait := some ⟨.start 0, some .taken, none, false⟩ }) up ∧
        (s.watches[0]).wait = some ⟨.start 0, some .taken, none, false⟩ ∧ (s.watches[0]).waiting ≠ [] ∧
        (s.watches[0]).enabled = enabled := by
  intro enabled h
  refine ⟨_, rfl, ?_⟩
  revert h
  cases enabled <;> decide

theorem test_GrantIssuesBlock_met :
    (withWrite up).writeInFlight ≠ none ∧ (∀ i : StreamId, up.eligible i = false) ∧
      (withBlock false (withStream .running config up)).eligible 0 = true ∧
      ((withBlock false (withStream .running config up)).staging[0]).closed = [block false] ∧
      (withBlock false (withStream .running config up)).buffers[0] = [buffer] ∧
      (∀ j : StreamId, (withBlock false up).grantPointer + 1 ≤ j → j < 0 → (withBlock false up).eligible j = false) ∧
      { withBlock false (withStream .running config up) with becameEligible := [7, 0] }.becameEligible = [7] ++ 0 :: [] ∧
      (∀ j ∈ ([7] : List StreamId), (withBlock false (withStream .running config up)).eligible j = false) ∧
      (withStream .running config up).eligible 0 = false := by
  decide

/-- A block write of stream 0 in flight. -/
def writing : State := withWrite (withBlock true (withStream .running config up))

theorem test_BlockWriteEnds_met :
    writing.writeInFlight = some ⟨0, 0x100000, 7, 40, 0, 0⟩ ∧ writing.linkUp = true ∧ (stopping writing).linkUp = false ∧
      writing.buffers[0] = [buffer] ∧ (writing.staging[0]).closed = [block true] ∧
      (writing.streams[0]).config = some config ∧ (writing.streams[0]).state = .running ∧
      writing.maxBlockBytes 0 ≤ buffer.length - 40 ∧ buffer.flushDue = false ∧
      { buffer with length := 48 }.length - 40 < writing.maxBlockBytes 0 ∧
      { buffer with flushDue := true }.flushDue = true ∧ 0 + 2500000 < { writing with elapsed := 2500001 }.elapsed ∧
      writing.elapsed ≤ 0 + 2500000 ∧ (fastDraining.streams[0]).endReason = some .aborted ∧
      fastDraining.writeInFlight = some ⟨0, 0x100000, 7, 40, 0, 0⟩ ∧ (fastDraining.streams[0]).config = some config ∧
      (({ fastDraining with streams := upd fastDraining.streams 0 (fun x => { x with endReason := some .stopLine }) } :
        State).streams[0]).endReason = some .stopLine ∧ EndReason.stopLine ≠ .aborted ∧
      (fastDraining.streams[0]).pass = none ∧ (fastDraining.staging[0]).closed.tail = [] ∧
      (fastDraining.staging[0]).forming = [] ∧ up.writeInFlight = none := by decide

/-- Stream 0 with a buffer whose flush timer runs. -/
def flushing (s : State) : State := { s with buffers := upd s.buffers 0 (fun _ => [{ buffer with blocks := 1, timer := some 9 }]) }

theorem test_TimersExpire_met :
    (flushing up).buffers[0] = [{ buffer with blocks := 1, timer := some 9 }] ∧ (flushing writing).writing 0 = true ∧
      (flushing up).writing 0 = false ∧ up.buffers[7] = [] ∧
      { up with rings := Vector.replicate 4 (some { ring with count := 1, timer := .running 9 }) }.rings[0]
        = some { ring with count := 1, timer := .running 9 } ∧
      (ring.timer = .stopped) ∧ { ring with count := 1 }.armed = true ∧ { ring with armed := false }.armed = false := by decide

theorem test_RecordsJoinOutbox_met :
    ((withStream .running config up).streams[0]).config = some config ∧ (withStream .running config up).linkUp = true ∧
      (withStream .running config up).outboxes[0] = [] ∧ (place 0 record (withStream .running config up)).isSome = true ∧
      (place 0 record (noRings (withStream .running config up))).isSome = false ∧
      { up with outboxes := Vector.replicate 8 [⟨0, record⟩] }.outboxes[0] ≠ [] ∧ (stopping up).linkUp = false ∧
      (withBlock false up).buffers[0] = buffer :: [] ∧ buffer.blocks = 0 ∧
      ((history 2).streams[0]).config = some config ∧ ((history 2).streams[0]).pass ≠ none ∧
      ((withPass 1 (withStream .running config up)).streams[0]).pass ≠ none ∧
      ((withStream .running config up).streams[0]).pass = none ∧
      (withStream .running config up).staging[0] = Staging.empty ∧ (withStream .running config up).writing 0 = false ∧
      ∃ done : BufferFlags → State → State, ∀ (f : BufferFlags) (u : State),
        (∀ d rest, (flushing up).buffers[0] = d :: rest → 0 < d.blocks →
          done f u = joinOutbox 0 (.bufferDone 0 f d.tag d.fill d.blocks d.firstSequence d.lastSequence) u) ∧
        ((∀ d rest, (flushing up).buffers[0] = d :: rest → d.blocks = 0) → done f u = u) := by
  refine ⟨by decide, by decide, by decide, by decide, by decide, by decide, by decide, by decide, by decide, by decide,
    by decide, by decide, by decide, by decide, by decide, ?_⟩
  refine ⟨fun f u => joinOutbox 0 (.bufferDone 0 f 7 0 1 0 0) u, fun f u => ⟨?_, fun h => ?_⟩⟩
  · intro d rest h _
    cases h
    rfl
  · exact absurd (h _ _ rfl) (by decide)

theorem test_RecordLayout_met :
    (∃ one : Bool → Nat, ∀ b : Bool, one b = if b = true then 1 else 0) ∧ (offer 101).number = none ∧
      { offer 101 with number := some 3 }.number = some 3 := ⟨⟨fun b => if b = true then 1 else 0, fun _ => rfl⟩, by decide⟩

/-- A block of two passes of two steps, the first after a dropped attempt, the second with a slip. -/
def twoPasses : Block :=
  ⟨[{ passRecord with number := some 4, droppedBefore := 1 }, { passRecord with number := some 5, slips := 1 }], 1, false,
    true, true⟩

/-- Table 12-7: the words of the second pass, SLIPPED in its first. -/
theorem test_block_words : ((twoPasses.bytes 3 2 9).drop 40).map (·.toNat) = [1, 0, 2, 0, 2, 0, 0, 0] := by decide

theorem test_BlockLayout_met :
    twoPasses.records.head? = some { passRecord with number := some 4, droppedBefore := 1 } ∧
      (∀ r ∈ twoPasses.records, r.slots.length = 2) ∧
      twoPasses.records[1]? = some { passRecord with number := some 5, slips := 1 } ∧
      passRecord.slots[0]? = some (some ⟨1, false⟩) := by decide

theorem test_StatusSectionLayout_met :
    ((withStream .idle config up).streams[0]).config = some config ∧ (up.streams[7]).config = none ∧
      ((withStream .idle config up).streams[0]).trigger = none ∧ ((history 2).streams[0]).nextPass = none ∧
      ((withPass 1 up).streams[0]).pass = some ⟨0, 1⟩ ∧ (flushing up).buffers[0] = { buffer with blocks := 1, timer := some 9 } :: [] ∧
      up.buffers[0] = [] ∧ writing.writeInFlight = some ⟨0, 0x100000, 7, 40, 0, 0⟩ ∧ up.writeInFlight = none ∧
      (tb .follower (some ⟨9, 1, some 50000⟩) (.waiting 10) up).timebase.arm = some ⟨9, 1, some 50000⟩ ∧
      (tb .follower (some ⟨9, 1, some 50000⟩) (.waiting 10) up).timebase.fire = .waiting 10 ∧ up.timebase.hold = none ∧
      { up.timebase with hold := some (.timebaseEvent .syncTaken .leader 1 9 5) }.hold
        = some (.timebaseEvent .syncTaken .leader 1 9 5) := by decide

/-- Table 12-11: a reset part's PART section 0 names 64 free pages, no write in flight (8) and grant pointer ST7. -/
theorem test_part_section_0 : ((partSection0 State.reset).take 8).map (·.toNat) = [1, 0, 0, 0, 64, 8, 7, 0] := by decide

theorem test_invariants_met : State.reset.PagesAccounted ∧ State.reset.RingsOrdered ∧ State.reset.BuffersBounded :=
  ⟨by unfold State.PagesAccounted; decide, by intro n r h; revert n; simp [State.reset], by
    intro i; simp [State.reset]⟩

theorem test_OutsideUpThePartIsQuiet_met :
    State.reset.QuietOutsideUp ∧ State.reset.linkUp = false ∧ (∃ t, step State.reset = .next t) :=
  ⟨fun _ => ⟨by decide, rfl⟩, by decide, ⟨_, rfl⟩⟩

theorem test_OutboxesStayBounded_met : State.reset.OutboxesOrdered := by
  refine ⟨by decide, ?_, ?_, by decide, by decide, by decide, by decide⟩ <;> simp [State.reset, Staging.empty]

theorem test_CountNeverDecreases_met :
    (∀ p, Instr.tick 0 [] ≠ .powerOnReset p) ∧ (∃ t, exec (.tick 0 []) up = .next t) ∧ up.timebase.arm = none :=
  ⟨by simp, ⟨_, rfl⟩, by decide⟩

theorem test_OrdersReadBack_met : (Instr.armStream ⟨true, 1⟩ 7).wellFormed = true ∧ (encodeOrder (.armStream ⟨true, 1⟩ 7)).isSome = true := by
  decide

end Sys2Proof.Tests
end

