-- ==== Sys2Proof/Proofs/ArmAndResetStream.lean ====
section
/-!
PROOFS. Proofs/ArmAndResetStream.lean: how an order that names a stream reaches its owner, what the owners of ARM STREAM
and RESET STREAM answer case by case, and the two statements about these orders.
-/

namespace Sys2Proof.Machine

/-! ### Orders that name a stream -/

/-- A number below 8 reaches the owner of that stream. -/
@[simp] theorem onStream_byteOf (i : StreamId) (owner : StreamId → State → Answer) :
    onStream (byteOf i) owner = owner i := by
  funext u
  unfold onStream
  rw [index?_byteOf (by decide) i]

/-- A number above 7 is refused before every other check (R178). -/
theorem onStream_above {b : Byte} (hb : 8 ≤ b.toNat) (owner : StreamId → State → Answer) :
    onStream b owner = fun u => refuse u .badField 0 := by
  funext u
  unfold onStream
  rw [index?_none hb]

section
variable {s : State} (hs : s.takesOrder) (h : OrderHeader)
include hs

/-- ARM STREAM is answered as its owner decides in the state in which the order is taken. -/
theorem exec_armStream (b : Byte) :
    exec (.armStream h b) s = .next (s.answered 0x0031 h (onStream b armOwner)) :=
  congrArg Host.Outcome.next (takeDecided_eq hs 0x0031 h (onStream b armOwner))

/-- RESET STREAM is answered as its owner decides in the state in which the order is taken. -/
theorem exec_resetStream (b : Byte) :
    exec (.resetStream h b) s = .next (s.answered 0x0035 h (onStream b resetOwner)) :=
  congrArg Host.Outcome.next (takeDecided_eq hs 0x0035 h (onStream b resetOwner))

theorem exec_armStream_of_owner {i : StreamId} {a : State → Answer}
    (e : armOwner i (s.taking 0x0031 h) = a (s.taking 0x0031 h)) :
    exec (.armStream h (byteOf i)) s = .next (s.answered 0x0031 h a) := by
  rw [exec_armStream hs, onStream_byteOf, answered_congr e]

theorem exec_resetStream_of_owner {i : StreamId} {a : State → Answer}
    (e : resetOwner i (s.taking 0x0035 h) = a (s.taking 0x0035 h)) :
    exec (.resetStream h (byteOf i)) s = .next (s.answered 0x0035 h a) := by
  rw [exec_resetStream hs, onStream_byteOf, answered_congr e]

end

/-! ### The owner of ARM STREAM -/

section
variable {u : State} {i : StreamId} {c : StreamConfig}

/-- Check 1 of R5. -/
theorem armOwner_of_not_idle (hstate : (u.streams[i]).state ≠ .idle) : armOwner i u = refuse u .wrongState 0 := by
  unfold armOwner
  split
  next hidle _ => exact absurd hidle hstate
  next => rfl

/-- What an IDLE stream with a configuration answers: checks 2 and 3 of R5, in this order, and then the effect. -/
theorem armOwner_of_idle (hstate : (u.streams[i]).state = .idle) (hconfig : (u.streams[i]).config = some c) :
    armOwner i u =
      if u.outboxes[i] ≠ [] then refuse u .backlog 0
      else if u.rings[c.ring] = none then refuse u .badField 0
      else accept (arm i c u) := by
  unfold armOwner
  rw [hstate, hconfig]
  simp

/-- Start condition NOW: the trigger is taken at once (R6). -/
theorem arm_of_now (hstart : c.start = .now) :
    arm i c u = takeTrigger i .now (u.modStream i StreamContext.clearRun) := by
  unfold arm
  rw [hstart]

/-- Start condition TIME that the count has reached: the trigger is taken at once with source LATE TIME (R6). -/
theorem arm_of_late {t : Long} (hstart : c.start = .time t) (hlate : t ≤ u.timebase.count) :
    arm i c u = takeTrigger i .lateTime (u.modStream i StreamContext.clearRun) := by
  unfold arm
  rw [hstart]
  exact if_pos hlate

/-- Any other start condition: the stream waits ARMED (R6). -/
theorem arm_of_waiting
    (hstart : c.start = .external ∨ (∃ n, c.start = .line n) ∨ ∃ t, c.start = .time t ∧ u.timebase.count < t) :
    arm i c u = (u.modStream i StreamContext.clearRun).modStream i (fun x => { x with state := .armed }) := by
  unfold arm
  obtain hext | ⟨n, hline⟩ | ⟨t, htime, hahead⟩ := hstart
  · rw [hext]
  · rw [hline]
  · rw [htime]
    exact if_neg (BitVec.not_le.mpr hahead)

end

/-- Settles O17: R5's checks by the owner's cases, and R6's effect by the start condition. -/
theorem armStreamBegins : Obligations.ArmStreamBegins := by
  intro h s hs
  refine ⟨fun b hb => ?_, fun i => ⟨fun hstate => ?_, fun c hidle hconfig => ?_⟩⟩
  · rw [exec_armStream hs, onStream_above hb]
  · exact exec_armStream_of_owner hs h (armOwner_of_not_idle hstate)
  · have owner := armOwner_of_idle (u := s.taking 0x0031 h) hidle hconfig
    refine ⟨fun hbacklog => ?_, fun hempty hring => ?_, fun clear hempty hring hclear => ?_⟩
    · exact exec_armStream_of_owner hs h (owner.trans (if_pos hbacklog))
    · have checked := owner.trans (if_neg (not_not_intro hempty))
      exact exec_armStream_of_owner hs h (checked.trans (if_pos hring))
    · have checked := owner.trans (if_neg (not_not_intro hempty))
      have accepted := checked.trans (if_neg hring)
      subst hclear
      refine ⟨fun hnow => ?_, fun t htime hlate => ?_, fun hwait => ?_⟩
      · exact exec_armStream_of_owner hs h (accepted.trans (congrArg accept (arm_of_now hnow)))
      · exact exec_armStream_of_owner hs h (accepted.trans (congrArg accept (arm_of_late htime hlate)))
      · exact exec_armStream_of_owner hs h (accepted.trans (congrArg accept (arm_of_waiting hwait)))

/-! ### The owner of RESET STREAM -/

section
variable {u : State} {i : StreamId} {c : StreamConfig}

/-- The RETURNED records of a configured stream: one for each descriptor, with zero bytes, to the stream's ring or to CR0
(R25, R147). -/
theorem returnedRecords_of_config (hconfig : (u.streams[i]).config = some c) :
    u.returnedRecords i =
      (u.buffers[i]).map (fun d =>
        ⟨if u.rings[c.ring] = none then 0 else c.ring, .bufferDone i { returned := true } d.tag 0 0 0 0⟩) := by
  have hring : u.returnRing c.ring = if u.rings[c.ring] = none then 0 else c.ring := by
    unfold State.returnRing
    cases u.rings[c.ring] <;> rfl
  unfold State.returnedRecords
  rw [hconfig, ← hring]
  rfl

/-- An UNCONFIGURED stream has nothing to give back (R25). -/
theorem resetOwner_of_unconfigured (hstate : (u.streams[i]).state = .unconfigured) : resetOwner i u = accept u := by
  unfold resetOwner
  rw [hstate]

theorem resetOwner_of_active (hactive : (u.streams[i]).state.active = true) :
    resetOwner i u = refuse u .wrongState 0 := by
  unfold resetOwner
  revert hactive
  cases (u.streams[i]).state with
  | unconfigured | idle | faulted => exact fun hactive => absurd hactive (by decide)
  | armed | running | draining => exact fun _ => rfl

/-- An IDLE or FAULTED stream is reset once its outbox is empty (R25). -/
theorem resetOwner_of_ended (hstate : (u.streams[i]).state = .idle ∨ (u.streams[i]).state = .faulted) :
    resetOwner i u =
      if u.outboxes[i] ≠ [] then refuse u .backlog 0
      else { state := resetStream i u, status := .done, returned := u.returnedRecords i } := by
  unfold resetOwner
  obtain hidle | hfaulted := hstate
  · rw [hidle]
    simp
  · rw [hfaulted]
    simp

end

/-- Settles O19: by the stream's state, and for an IDLE or FAULTED stream by its outbox. -/
theorem resetStreamReturnsAll : Obligations.ResetStreamReturnsAll := by
  intro h s hs
  refine ⟨fun b hb => ?_, fun i => ⟨fun hstate => ?_, fun hactive => ?_, fun hended => ?_⟩⟩
  · rw [exec_resetStream hs, onStream_above hb]
  · exact exec_resetStream_of_owner hs h (resetOwner_of_unconfigured hstate)
  · exact exec_resetStream_of_owner hs h (resetOwner_of_active hactive)
  · have owner := resetOwner_of_ended (u := s.taking 0x0035 h) hended
    refine ⟨fun hbacklog => ?_, fun c hempty hconfig => ?_⟩
    · exact exec_resetStream_of_owner hs h (owner.trans (if_pos hbacklog))
    · have reset := owner.trans (if_neg (not_not_intro hempty))
      rw [returnedRecords_of_config (u := s.taking 0x0035 h) hconfig] at reset
      exact exec_resetStream_of_owner hs h reset

end Sys2Proof.Machine
end

