-- ==== Sys2Proof/Proofs/ScanAndChannelOrders.lean ====
section
/-!
PROOFS. Proofs/ScanAndChannelOrders.lean: what the Channel Table and the Scan Table answer to SET CHANNEL, LOAD SCAN and
CLEAR SCAN case by case, and the two statements about these orders.
-/

namespace Sys2Proof.Machine

/-! ### What a field names -/

theorem toNat_lt_of_index? {n : Nat} {b : Byte} {i : Fin n} (h : index? n b = some i) : b.toNat < n := by
  by_contra hout
  rw [index?_none (not_lt.mp hout)] at h
  cases h

theorem toNat_lt_of_flag? {b : Byte} {x : Bool} (h : flag? b = some x) : b.toNat < 2 := by
  by_contra hout
  rw [flag?_none (not_lt.mp hout)] at h
  cases h

theorem bounds_of_inRange? {low high x n : Nat} (h : inRange? low high x = some n) : low ≤ x ∧ x ≤ high := by
  by_contra hout
  rw [inRange?_none (by omega)] at h
  cases h

theorem flag?_of_toNat_zero {b : Byte} (h : b.toNat = 0) : flag? b = some false := by
  obtain rfl : b = 0 := BitVec.eq_of_toNat_eq h
  exact flag?_zero

theorem flag?_of_toNat_one {b : Byte} (h : b.toNat = 1) : flag? b = some true := by
  obtain rfl : b = 1 := BitVec.eq_of_toNat_eq h
  exact flag?_one

theorem flag?_isSome {b : Byte} (h : b.toNat < 2) : ∃ x, flag? b = some x := by
  obtain hzero | hone : b.toNat = 0 ∨ b.toNat = 1 := by omega
  · exact ⟨_, flag?_of_toNat_zero hzero⟩
  · exact ⟨_, flag?_of_toNat_one hone⟩

/-! ### Orders that reach the Channel Table and the Scan Table -/

section
variable {s : State} (hs : s.takesOrder) (h : OrderHeader) {a : State → Answer}
include hs

/-- SET CHANNEL is answered as the Channel Table decides in the state in which the order is taken. -/
theorem exec_setChannel_of_owner {channel range settle : Byte}
    (e : setChannelOwner channel range settle (s.taking 0x0010 h) = a (s.taking 0x0010 h)) :
    exec (.setChannel h channel range settle) s = .next (s.answered 0x0010 h a) :=
  congrArg Host.Outcome.next ((takeDecided_eq hs 0x0010 h _).trans (answered_congr e))

/-- LOAD SCAN is answered as the Scan Table decides in the state in which the order is taken. -/
theorem exec_loadScan_of_owner {list mode count : Byte} {entries : Vector StepEntry 6}
    (e : loadScanOwner list mode count entries (s.taking 0x0011 h) = a (s.taking 0x0011 h)) :
    exec (.loadScan h list mode count entries) s = .next (s.answered 0x0011 h a) :=
  congrArg Host.Outcome.next ((takeDecided_eq hs 0x0011 h _).trans (answered_congr e))

/-- CLEAR SCAN is answered as the Scan Table decides in the state in which the order is taken. -/
theorem exec_clearScan_of_owner {list : Byte}
    (e : clearScanOwner list (s.taking 0x0012 h) = a (s.taking 0x0012 h)) :
    exec (.clearScan h list) s = .next (s.answered 0x0012 h a) :=
  congrArg Host.Outcome.next ((takeDecided_eq hs 0x0012 h _).trans (answered_congr e))

end

/-! ### SET CHANNEL -/

/-- Check 1 of R39. -/
theorem setChannelOwner_out_of_range {channel range settle : Byte}
    (hout : 32 ≤ channel.toNat ∨ 4 ≤ range.toNat ∨ 16 ≤ settle.toNat) (u : State) :
    setChannelOwner channel range settle u = refuse u .badField 0 := by
  unfold setChannelOwner
  split
  next _ _ _ hchannel hrange hsettle =>
    have := toNat_lt_of_index? hchannel
    have := toNat_lt_of_index? hrange
    have := toNat_lt_of_index? hsettle
    omega
  next => rfl

section
variable {u : State} (ch : ChannelId) (r : Fin 4) (n : Fin 16)

/-- Check 2 of R39. -/
theorem setChannelOwner_of_user {i : StreamId} (huser : allStreams.find? (fun j => u.converts j ch) = some i) :
    setChannelOwner (byteOf ch) (byteOf r) (byteOf n) u = refuse u .inUse i := by
  unfold setChannelOwner
  rw [index?_byteOf (by decide), index?_byteOf (by decide), index?_byteOf (by decide)]
  simp only [huser]

/-- A channel that no active stream converts is written (R40). -/
theorem setChannelOwner_of_unused (hunused : allStreams.find? (fun j => u.converts j ch) = none) :
    setChannelOwner (byteOf ch) (byteOf r) (byteOf n) u = accept (writeChannel ch ⟨r, n⟩ u) := by
  unfold setChannelOwner
  rw [index?_byteOf (by decide), index?_byteOf (by decide), index?_byteOf (by decide)]
  simp only [hunused]

end

/-- Settles O11: R39's checks by the Channel Table's cases, and R40's effect as `writeChannel` states it. -/
theorem setChannelWrites : Obligations.SetChannelWrites := by
  intro h s hs
  refine ⟨fun channel range settle hout => ?_, fun ch r n => ⟨fun i huser hfirst => ?_, fun hunused => ?_⟩⟩
  · exact exec_setChannel_of_owner hs h (setChannelOwner_out_of_range hout _)
  · exact exec_setChannel_of_owner hs h (setChannelOwner_of_user ch r n (find_streams huser hfirst))
  · exact exec_setChannel_of_owner hs h (setChannelOwner_of_unused ch r n (find_streams_none hunused))

/-! ### The entries of LOAD SCAN -/

/-- The first entry that names no step is found after the entries before it. -/
theorem firstBadStep_eq_some {l : List StepEntry} {k : Nat} (hk : k < l.length) (hbad : step? l[k] = none)
    (hbefore : ∀ j, (hj : j < k) → step? l[j] ≠ none) (i : Nat) : firstBadStep l i = some (i + k) := by
  induction l generalizing k i with
  | nil => exact absurd hk (Nat.not_lt_zero k)
  | cons e rest ih =>
    unfold firstBadStep
    cases k with
    | zero =>
      have he : step? e = none := hbad
      simp [he]
    | succ k =>
      have he : step? e ≠ none := hbefore 0 k.succ_pos
      rw [if_neg (by simpa using he), ih (Nat.lt_of_succ_lt_succ hk) hbad
        (fun j hj => hbefore (j + 1) (Nat.succ_lt_succ hj)), Nat.add_right_comm, Nat.add_assoc]

/-- Entries that all name steps pass check 3 of R30. -/
theorem firstBadStep_eq_none {l : List StepEntry} {steps : List ScanStep} (hsteps : l.map step? = steps.map some)
    (i : Nat) : firstBadStep l i = none := by
  induction l generalizing steps i with
  | nil => rfl
  | cons e rest ih =>
    cases steps with
    | nil => cases hsteps
    | cons x xs =>
      obtain ⟨he, hrest⟩ := List.cons.inj hsteps
      unfold firstBadStep
      rw [he]
      exact ih hrest (i + 1)

/-- The steps that entries name are the steps a list receives from them. -/
theorem filterMap_step? {l : List StepEntry} {steps : List ScanStep} (hsteps : l.map step? = steps.map some) :
    l.filterMap step? = steps := by
  calc l.filterMap step? = (l.map step?).filterMap id :=
      (List.filterMap_map (f := step?) (g := id)).symm
    _ = (steps.map some).filterMap id := by rw [hsteps]
    _ = steps := by simp [List.filterMap_map]

/-! ### The Scan Table's answers -/

section
variable {u : State} {l : ListId}

/-- The lowest-numbered stream bound to a list is its user (R29). -/
theorem listUser_eq_some {i : StreamId} (huser : u.bindsList i l = true)
    (hfirst : ∀ j : StreamId, j < i → u.bindsList j l = false) : u.listUser l = some i := find_streams huser hfirst

theorem listUser_eq_none (hunbound : ∀ i : StreamId, u.bindsList i l = false) : u.listUser l = none :=
  find_streams_none hunbound

/-- R33: a list number out of range. -/
theorem clearScanOwner_out_of_range {list : Byte} (hout : 16 ≤ list.toNat) :
    clearScanOwner list u = refuse u .badField 0 := by
  unfold clearScanOwner
  rw [index?_none hout]

/-- R33: a bound list. -/
theorem clearScanOwner_of_user {i : StreamId} (huser : u.listUser l = some i) :
    clearScanOwner (byteOf l) u = refuse u .inUse i := by
  unfold clearScanOwner
  rw [index?_byteOf (by decide)]
  simp only [huser]

theorem clearScanOwner_of_unbound (hunbound : u.listUser l = none) :
    clearScanOwner (byteOf l) u = accept (u.setList l []) := by
  unfold clearScanOwner
  rw [index?_byteOf (by decide)]
  simp only [hunbound]

variable {mode count : Byte} {entries : Vector StepEntry 6}

/-- Check 1 of R30. -/
theorem loadScanOwner_out_of_range {list : Byte}
    (hout : 16 ≤ list.toNat ∨ 2 ≤ mode.toNat ∨ count.toNat = 0 ∨ 6 < count.toNat) :
    loadScanOwner list mode count entries u = refuse u .badField 0 := by
  unfold loadScanOwner
  split
  next _ _ _ hlist hmode hcount =>
    have := toNat_lt_of_index? hlist
    have := toNat_lt_of_flag? hmode
    have := bounds_of_inRange? hcount
    omega
  next => rfl

variable {append : Bool} (hmode : flag? mode = some append) (hcount : 1 ≤ count.toNat ∧ count.toNat ≤ 6)
include hmode hcount

/-- Check 2 of R30. -/
theorem loadScanOwner_of_user {i : StreamId} (huser : u.listUser l = some i) :
    loadScanOwner (byteOf l) mode count entries u = refuse u .inUse i := by
  unfold loadScanOwner
  rw [index?_byteOf (by decide), hmode, inRange?_some hcount]
  simp only [huser]

/-- Check 3 of R30. -/
theorem loadScanOwner_of_bad_step (hunbound : u.listUser l = none) {k : Nat}
    (hbad : firstBadStep (entries.toList.take count.toNat) 0 = some k) :
    loadScanOwner (byteOf l) mode count entries u = refuse u .badField (k + 1) := by
  unfold loadScanOwner
  rw [index?_byteOf (by decide), hmode, inRange?_some hcount]
  simp only [hunbound, hbad]

/-- Check 4 of R30 and the effect: the list is what stays of it, nothing for REPLACE (R31) and all of it for APPEND
(R32), and the order's steps. -/
theorem loadScanOwner_of_steps (hunbound : u.listUser l = none) {steps : List ScanStep}
    (hsteps : (entries.toList.take count.toNat).map step? = steps.map some) {old : List ScanStep}
    (hold : old = if append then u.scanLists[l] else []) :
    loadScanOwner (byteOf l) mode count entries u =
      if 32 < old.length + count.toNat then refuse u .badField 7 else accept (u.setList l (old ++ steps)) := by
  unfold loadScanOwner
  rw [index?_byteOf (by decide), hmode, inRange?_some hcount]
  simp only [hunbound, firstBadStep_eq_none hsteps, filterMap_step? hsteps, hold]

end

/-- Settles O12: the checks of R30 in the Scan Table's order, the two modes by what they keep of the list, and the cases
of R33. -/
theorem scanListOrders : Obligations.ScanListOrders := by
  refine ⟨fun h mode count entries s hs => ⟨fun list hout => ?_, fun l hmode hlow hhigh => ?_⟩,
    fun h s hs => ⟨fun list hout => ?_, fun l => ⟨fun i huser hfirst => ?_, fun hunbound => ?_⟩⟩⟩
  · exact exec_loadScan_of_owner hs h (loadScanOwner_out_of_range hout)
  · have hcount := And.intro hlow hhigh
    obtain ⟨append, happend⟩ := flag?_isSome hmode
    refine ⟨fun i huser hfirst => ?_, fun hunbound => ?_⟩
    · exact exec_loadScan_of_owner hs h (loadScanOwner_of_user happend hcount (listUser_eq_some huser hfirst))
    · have hfree : (s.taking 0x0011 h).listUser l = none := listUser_eq_none hunbound
      refine ⟨fun k hk hbad hbefore => ?_, fun steps hsteps => ⟨fun hone hfull => ?_, fun hzero => ?_,
        fun hone hroom => ?_⟩⟩
      · have hfound : firstBadStep (entries.toList.take count.toNat) 0 = some (0 + k.val) :=
          firstBadStep_eq_some (by simpa using hk) (by simpa using hbad)
            (fun j hj => by simpa using hbefore ⟨j, hj.trans k.isLt⟩ hj) 0
        rw [Nat.zero_add] at hfound
        exact exec_loadScan_of_owner hs h (loadScanOwner_of_bad_step happend hcount hfree hfound)
      · have owner := loadScanOwner_of_steps (flag?_of_toNat_one hone) hcount hfree hsteps rfl
        exact exec_loadScan_of_owner hs h (owner.trans (if_pos hfull))
      · have owner := loadScanOwner_of_steps (flag?_of_toNat_zero hzero) hcount hfree hsteps rfl
        exact exec_loadScan_of_owner hs h (owner.trans (if_neg (by simpa using hhigh.trans (by decide))))
      · have owner := loadScanOwner_of_steps (flag?_of_toNat_one hone) hcount hfree hsteps rfl
        exact exec_loadScan_of_owner hs h (owner.trans (if_neg (not_lt.mpr hroom)))
  · exact exec_clearScan_of_owner hs h (clearScanOwner_out_of_range hout)
  · exact exec_clearScan_of_owner hs h (clearScanOwner_of_user (listUser_eq_some huser hfirst))
  · exact exec_clearScan_of_owner hs h (clearScanOwner_of_unbound (listUser_eq_none hunbound))

end Sys2Proof.Machine
end

