-- ==== Sys2Proof/Proofs/Conversions.lean ====
section
/-!
PROOFS. Proofs/Conversions.lean: the code of one conversion is nearest to the exact value, the sum of a step's codes
divides into a sample of 16 bits, and the statement about both.
-/

namespace Sys2Proof.Machine

/-! ### The nearest code -/

/-- `k` is a whole number nearest to `x / d`, and the nearer to zero of two that are equally near. -/
def IsNearest (x d k : Int) : Prop :=
  ∀ j : Int, |x - k * d| ≤ |x - j * d| ∧ (|x - k * d| = |x - j * d| → |k| ≤ |j|)

/-- Both sides of zero round alike. -/
theorem IsNearest.neg {x d k : Int} (h : IsNearest x d k) : IsNearest (-x) d (-k) := by
  intro j
  have mirrored (m : Int) : |-x - m * d| = |x - -m * d| := by rw [← abs_neg]; congr 1; ring
  rw [mirrored, mirrored, neg_neg, abs_neg, ← abs_neg j]
  exact h (-j)

/-- A code that is not negative is nearest when the value lies within half a code of it, above the lower middle. -/
theorem isNearest_of_within_half {x d k : Int} (hd : 0 < d) (hk : 0 ≤ k) (hlow : 2 * (k * d) < 2 * x + d)
    (hhigh : 2 * x ≤ 2 * (k * d) + d) : IsNearest x d k := by
  intro j
  obtain hbelow | rfl | habove := lt_trichotomy j k
  · have hgap : (j + 1) * d ≤ k * d := mul_le_mul_of_nonneg_right hbelow hd.le
    have hstrict : |x - k * d| < |x - j * d| :=
      (abs_lt.mpr ⟨by linarith, by linarith⟩).trans_le (le_abs_self _)
    exact ⟨hstrict.le, fun heq => absurd heq hstrict.ne⟩
  · exact ⟨le_rfl, fun _ => le_rfl⟩
  · have hgap : (k + 1) * d ≤ j * d := mul_le_mul_of_nonneg_right habove hd.le
    refine ⟨(abs_le.mpr ⟨by linarith, by linarith⟩).trans (neg_le_abs (x - j * d)), fun _ => ?_⟩
    exact abs_le_abs_of_nonneg hk habove.le

/-- The half-code bounds of the model's rounding. -/
theorem nearest_within_half (a : Nat) {b : Nat} (hb : 0 < b) :
    2 * (nearest a b * b) < 2 * a + b ∧ 2 * a ≤ 2 * (nearest a b * b) + b := by
  have hdiv := Nat.div_add_mod (2 * a + b - 1) (2 * b)
  have hmod := Nat.mod_lt (2 * a + b - 1) (show 0 < 2 * b by omega)
  have hprod : 2 * b * nearest a b = 2 * (nearest a b * b) := by ring
  unfold nearest at *
  omega

theorem nearest_isNearest (a : Nat) {b : Nat} (hb : 0 < b) : IsNearest a b (nearest a b) := by
  obtain ⟨hlow, hhigh⟩ := nearest_within_half a hb
  exact isNearest_of_within_half (by exact_mod_cast hb) (by positivity) (by exact_mod_cast hlow)
    (by exact_mod_cast hhigh)

theorem fullScale_pos (range : Fin 4) : 0 < fullScale range := by
  revert range
  decide

theorem fullScale_eq (range : Fin 4) :
    (fullScale range : Int) = if range = 0 then 10 else if range = 1 then 5 else if range = 2 then 2 else 1 := by
  revert range
  decide

/-- The code before limiting is nearest to V × 32768 / FS (R38). -/
theorem exactCode_isNearest (v : Voltage) (range : Fin 4) :
    IsNearest (v.num * 32768) ((v.denPred + 1 : Int) * fullScale range) (exactCode v range) := by
  have hrounded := nearest_isNearest (v.num.natAbs * 32768)
    (Nat.mul_pos v.denPred.succ_pos (fullScale_pos range))
  push_cast at hrounded
  unfold exactCode
  split
  next hneg =>
    rw [abs_of_neg hneg] at hrounded
    have hmirrored := hrounded.neg
    rwa [neg_mul, neg_neg] at hmirrored
  next hnonneg => rwa [abs_of_nonneg (not_lt.mp hnonneg)] at hrounded

/-! ### The sample of averaged conversions -/

/-- A code fits 16 bits (R38). -/
theorem convert_bounds (v : Voltage) (range : Fin 4) :
    -32768 ≤ (convert v range).1 ∧ (convert v range).1 ≤ 32767 := by
  simp only [convert]
  split
  · decide
  split
  · decide
  · simp only
    omega

/-- Division that drops the fraction toward zero: what is dropped is less than the divisor, the quotient goes no farther
from zero, and it keeps the sign. -/
theorem tdiv_truncates (x : Int) {a : Nat} (ha : 0 < a) :
    |x - x.tdiv a * a| < a ∧ |x.tdiv a * a| ≤ |x| ∧ 0 ≤ x.tdiv a * x := by
  have natural (n : Nat) :
      |(n : Int) - (n / a : Nat) * a| < a ∧ |((n / a : Nat) : Int) * a| ≤ |(n : Int)| ∧ 0 ≤ ((n / a : Nat) : Int) * n := by
    have hle : ((n / a : Nat) : Int) * a ≤ n := by exact_mod_cast Nat.div_mul_le_self n a
    have hlt : (n : Int) < (n / a : Nat) * a + a := by exact_mod_cast Nat.lt_div_mul_add ha
    exact ⟨abs_lt.mpr ⟨by linarith, by linarith⟩, abs_le_abs_of_nonneg (by positivity) hle, by positivity⟩
  obtain ⟨n, rfl | rfl⟩ := x.eq_nat_or_neg
  · exact natural n
  · rw [Int.neg_tdiv]
    have mirrored : -(n : Int) - -((n : Int).tdiv a) * a = -(n - (n : Int).tdiv a * a) := by ring
    rw [mirrored, neg_mul, neg_mul_neg, abs_neg, abs_neg, abs_neg]
    exact natural n

/-- The codes of a step's conversions. -/
def stepCodes (a : Nat) (range : Fin 4) (inputs : Vector Voltage 8) : List Int :=
  (inputs.toList.take a).map (fun v => (convert v range).1)

theorem formSample_code (a : Nat) (range : Fin 4) (inputs : Vector Voltage 8) :
    (formSample a range inputs).code = BitVec.ofInt 16 ((stepCodes a range inputs).sum.tdiv a) := by
  simp [formSample, stepCodes, List.sum_eq_foldl, Function.comp_def]

theorem formSample_clip (a : Nat) (range : Fin 4) (inputs : Vector Voltage 8) :
    (formSample a range inputs).clip = true ↔ ∃ v ∈ inputs.toList.take a, (convert v range).2 = true := by
  simp only [formSample, List.any_map, List.any_eq_true, Function.comp_apply]

/-- As many codes as conversions of 16 bits each add up to no more than so many times the end of the range. -/
theorem stepCodes_sum_bounds {a : Nat} (ha : a ≤ 8) (range : Fin 4) (inputs : Vector Voltage 8) :
    -32768 * (a : Int) ≤ (stepCodes a range inputs).sum ∧ (stepCodes a range inputs).sum ≤ 32767 * a := by
  have hlength : (stepCodes a range inputs).length = a := by simp [stepCodes, ha]
  have hmem : ∀ x ∈ stepCodes a range inputs, -32768 ≤ x ∧ x ≤ 32767 := by
    intro x hx
    obtain ⟨v, -, rfl⟩ := List.mem_map.mp hx
    exact convert_bounds v range
  have hlow := List.card_nsmul_le_sum _ _ (fun x hx => (hmem x hx).1)
  have hhigh := List.sum_le_card_nsmul _ _ (fun x hx => (hmem x hx).2)
  rw [hlength, nsmul_eq_mul] at hlow hhigh
  exact ⟨by linarith, by linarith⟩

/-- The quotient of a sum of codes by their number fits the sample's 16 bits. -/
theorem formSample_toInt {a : Nat} (hpos : 0 < a) (ha : a ≤ 8) (range : Fin 4) (inputs : Vector Voltage 8) :
    (formSample a range inputs).code.toInt = (stepCodes a range inputs).sum.tdiv a := by
  obtain ⟨hlow, hhigh⟩ := stepCodes_sum_bounds ha range inputs
  have hdivisor : (0 : Int) < a := by exact_mod_cast hpos
  rw [formSample_code]
  refine BitVec.toInt_ofInt_eq_self (by decide) ?_ ?_
  · have hmono := Int.tdiv_le_tdiv hdivisor hlow
    rwa [Int.mul_tdiv_cancel _ hdivisor.ne'] at hmono
  · have hmono := Int.tdiv_le_tdiv hdivisor hhigh
    rw [Int.mul_tdiv_cancel _ hdivisor.ne'] at hmono
    exact Int.lt_of_le_sub_one hmono

/-- Settles O42: the code by the bounds of the model's rounding on either side of zero, the sample by division toward
zero of a sum that fits. -/
theorem conversionGivesNearestCode : Obligations.ConversionGivesNearestCode := by
  refine ⟨?_, ?_⟩
  · rintro v range k fs d hfs rfl rfl
    obtain rfl : fs = fullScale range := hfs.trans (fullScale_eq range).symm
    have hnearest := exactCode_isNearest v range
    exact ⟨fun j => (hnearest j).1, fun j => (hnearest j).2, rfl⟩
  · intro a range inputs sum m ha hsum hm
    have hpos : 0 < a := by omega
    have hquotient : m = sum.tdiv a := hm.trans (hsum ▸ formSample_toInt hpos (by omega) range inputs)
    obtain ⟨hdropped, hnearer, hsign⟩ := tdiv_truncates sum hpos
    rw [hquotient]
    exact ⟨hdropped, hnearer, hsign, formSample_clip a range inputs⟩

end Sys2Proof.Machine
end

