-- ==== Sys2Proof/Proofs/SetWindow.lean ====
section
/-!
PROOFS. Proofs/SetWindow.lean: what the bytes of a window's `enabled` and `use` name, what the Delivery Unit answers to
SET WINDOW, and the statement about this order.
-/

namespace Sys2Proof.Machine

/-! ### What a field names -/

/-- A yes-or-no byte reads back (R178). -/
theorem flag?_ofBool (x : Bool) : flag? (if x then 1 else 0) = some x := by
  cases x
  · exact flag?_zero
  · exact flag?_one

/-- The code of a use in Table 12-8 names that use. -/
theorem use?_byteOf_code (use : WindowUse) : use? (byteOf use.code) = some use := by
  cases use <;> rfl

/-- The codes of Table 12-8 are the only bytes that name a use. -/
theorem toNat_lt_of_use? {b : Byte} {use : WindowUse} (h : use? b = some use) : b.toNat < 3 := by
  unfold use? at h
  split_ifs at h with hzero hone htwo
  · rw [hzero]; decide
  · rw [hone]; decide
  · rw [htwo]; decide

/-! ### SET WINDOW -/

/-- SET WINDOW is answered as the Delivery Unit decides in the state in which the order is taken. -/
theorem exec_setWindow_of_owner {s : State} (hs : s.takesOrder) (h : OrderHeader) {a : State → Answer}
    {window enabled use : Byte} {base mask : Long}
    (e : setWindowOwner window enabled use base mask (s.taking 0x0042 h) = a (s.taking 0x0042 h)) :
    exec (.setWindow h window enabled use base mask) s = .next (s.answered 0x0042 h a) :=
  congrArg Host.Outcome.next ((takeDecided_eq hs 0x0042 h _).trans (answered_congr e))

/-- The refusals of R80, and of R178 for a byte that is neither yes nor no. -/
theorem setWindowOwner_out_of_range {window enabled use : Byte}
    (hout : 4 ≤ window.toNat ∨ 2 ≤ enabled.toNat ∨ 3 ≤ use.toNat) (base mask : Long) (u : State) :
    setWindowOwner window enabled use base mask u = refuse u .badField 0 := by
  unfold setWindowOwner
  split
  next _ _ _ hwindow henabled huse =>
    have := toNat_lt_of_index? hwindow
    have := toNat_lt_of_flag? henabled
    have := toNat_lt_of_use? huse
    omega
  next => rfl

/-- An order whose fields are in range replaces the window, enabled or not (R80). -/
theorem setWindowOwner_of_fields (w : WindowId) (enabled : Bool) (use : WindowUse) (base mask : Long) (u : State) :
    setWindowOwner (byteOf w) (if enabled then 1 else 0) (byteOf use.code) base mask u
      = accept { u with windows := upd u.windows w (fun _ => ⟨enabled, base, mask, use⟩) } := by
  unfold setWindowOwner
  rw [index?_byteOf (by decide), flag?_ofBool, use?_byteOf_code]

/-- Settles O23: both answers of the Delivery Unit, by what the three bytes of the order name. -/
theorem setWindowReplaces : Obligations.SetWindowReplaces := by
  intro h base mask s hs
  refine ⟨fun window enabled use hout => ?_, fun w enabled use => ?_⟩
  · exact exec_setWindow_of_owner hs h (setWindowOwner_out_of_range hout base mask _)
  · exact exec_setWindow_of_owner hs h (setWindowOwner_of_fields w enabled use base mask _)

end Sys2Proof.Machine
end

