-- ==== Sys2Proof/Proofs/WatchOrders.lean ====
section
/-!
PROOFS. Proofs/WatchOrders.lean: which watch and setting the fields of SET WATCH name, what the Watch Unit answers to SET
WATCH and CLEAR WATCH case by case, the alert level as the highest of the levels out of band, and the statement about them.
-/

namespace Sys2Proof.Machine

/-! ### What a field names -/

/-- The code of a filter names that filter. -/
theorem filter?_byteOf_code (filter : Option StreamId) : filter? (byteOf (filterCode filter)) = some filter := by
  cases filter with
  | none => rfl
  | some i => revert i; decide

/-- No code above 8 names a filter. -/
theorem toNat_le_of_filter? {b : Byte} {filter : Option StreamId} (h : filter? b = some filter) : b.toNat ≤ 8 := by
  unfold filter? at h
  split_ifs at h with hany
  · simp [hany]
  · obtain ⟨i, hi, -⟩ := Option.map_eq_some_iff.mp h
    have := toNat_lt_of_index? hi
    bv_omega

/-- The code of an action in Table 12-8 names that action. -/
theorem action?_byteOf_code (action : WatchAction) : action? (byteOf action.code) = some action := by
  cases action with
  | none => rfl
  | start i => revert i; decide
  | halt i => revert i; decide

/-- No code above 16 names an action. -/
theorem toNat_le_of_action? {b : Byte} {action : WatchAction} (h : action? b = some action) : b.toNat ≤ 16 := by
  unfold action? at h
  split_ifs at h with hnone hstart
  · simp [hnone]
  · omega
  · obtain ⟨i, hi, -⟩ := Option.map_eq_some_iff.mp h
    have := toNat_lt_of_index? hi
    bv_omega

/-- The fields of SET WATCH lie in their ranges and name watch `m` and the setting `w`, with the judgement of R118. -/
structure NamesWatch (f : WatchFields) (m : WatchId) (w : Watch) : Prop where
  watch : f.watch = byteOf m
  channel : f.channel = byteOf w.channel
  filter : f.filter = byteOf (filterCode w.filter)
  action : f.action = byteOf w.action.code
  hysteresis : f.hysteresis.toNat ≤ 4095
  persistence : 1 ≤ f.persistence.toNat ∧ f.persistence.toNat ≤ 16
  alert : f.alert = byteOf w.alert
  note : f.note = if w.note then 1 else 0
  ring : f.ring = byteOf w.ring
  setting : w = { w with
    enabled := true, low := f.low, high := f.high, hysteresis := f.hysteresis.toNat,
    persistence := f.persistence.toNat, state := .inside, runCount := 0, runSide := .none, lost := 0, wait := none,
    waiting := [] }

theorem watch?_of_names {f : WatchFields} {m : WatchId} {w : Watch} (hnames : NamesWatch f m w) : watch? f = some (m, w) := by
  unfold watch?
  rw [hnames.watch, hnames.channel, hnames.filter, hnames.action, hnames.alert, hnames.note, hnames.ring,
    index?_byteOf (by decide), index?_byteOf (by decide), filter?_byteOf_code, action?_byteOf_code,
    inRange?_some ⟨Nat.zero_le _, hnames.hysteresis⟩, inRange?_some hnames.persistence, index?_byteOf (by decide),
    flag?_ofBool, index?_byteOf (by decide)]
  exact congrArg (fun x => some (m, x)) hnames.setting.symm

/-- A field outside its range names no watch (R117 check 1). -/
theorem watch?_eq_none {f : WatchFields}
    (hout : 16 ≤ f.watch.toNat ∨ 32 ≤ f.channel.toNat ∨ 8 < f.filter.toNat ∨ 16 < f.action.toNat ∨
      4095 < f.hysteresis.toNat ∨ f.persistence.toNat = 0 ∨ 16 < f.persistence.toNat ∨ 4 ≤ f.alert.toNat ∨
      2 ≤ f.note.toNat ∨ 4 ≤ f.ring.toNat) : watch? f = none := by
  by_contra hsome
  obtain ⟨x, hx⟩ := Option.ne_none_iff_exists'.mp hsome
  simp only [watch?, Option.bind_eq_bind, Option.bind_eq_some_iff] at hx
  obtain ⟨_, hwatch, _, hchannel, _, hfilter, _, haction, _, hhysteresis, _, hpersistence, _, halert, _, hnote, _, hring,
    -⟩ := hx
  have := toNat_lt_of_index? hwatch
  have := toNat_lt_of_index? hchannel
  have := toNat_le_of_filter? hfilter
  have := toNat_le_of_action? haction
  have := bounds_of_inRange? hhysteresis
  have := bounds_of_inRange? hpersistence
  have := toNat_lt_of_index? halert
  have := toNat_lt_of_flag? hnote
  have := toNat_lt_of_index? hring
  omega

/-! ### Orders that reach the Watch Unit -/

section
variable {s : State} (hs : s.takesOrder) (h : OrderHeader) {a : State → Answer}
include hs

/-- SET WATCH is answered as the Watch Unit decides in the state in which the order is taken. -/
theorem exec_setWatch_of_owner {f : WatchFields} (e : setWatchOwner f (s.taking 0x0050 h) = a (s.taking 0x0050 h)) :
    exec (.setWatch h f) s = .next (s.answered 0x0050 h a) :=
  congrArg Host.Outcome.next ((takeDecided_eq hs 0x0050 h _).trans (answered_congr e))

/-- CLEAR WATCH is answered as the Watch Unit decides in the state in which the order is taken. -/
theorem exec_clearWatch_of_owner {b : Byte} (e : clearWatchOwner b (s.taking 0x0051 h) = a (s.taking 0x0051 h)) :
    exec (.clearWatch h b) s = .next (s.answered 0x0051 h a) :=
  congrArg Host.Outcome.next ((takeDecided_eq hs 0x0051 h _).trans (answered_congr e))

end

/-! ### The Watch Unit's answers -/

section
variable {u : State} {f : WatchFields} {m : WatchId} {w : Watch}

/-- Check 1 of R117. -/
theorem setWatchOwner_of_no_watch (hnone : watch? f = none) : setWatchOwner f u = refuse u .badField 1 := by
  unfold setWatchOwner
  rw [hnone]

/-- Checks 2 and 3 of R117, in this order, and then the effect (R118). -/
theorem setWatchOwner_of_watch (hwatch : watch? f = some (m, w)) :
    setWatchOwner f u =
      if w.high.toInt ≤ w.low.toInt then refuse u .badField 2
      else if w.note = true ∧ u.rings[w.ring] = none then refuse u .badField 3
      else accept (recomputeAlert (u.modWatch m (fun old => old.replaceSetting w))) := by
  unfold setWatchOwner
  rw [hwatch]
  simp

/-- R119: a watch number out of range. -/
theorem clearWatchOwner_out_of_range {b : Byte} (hout : 16 ≤ b.toNat) : clearWatchOwner b u = refuse u .badField 0 := by
  unfold clearWatchOwner
  rw [index?_none hout]

theorem clearWatchOwner_byteOf (m : WatchId) :
    clearWatchOwner (byteOf m) u
      = accept (recomputeAlert (u.modWatch m (fun w => { w.resetJudgement with enabled := false }))) := by
  unfold clearWatchOwner
  rw [index?_byteOf (by decide)]

end

/-! ### The alert level -/

/-- The alert levels of the enabled watches out of band (R125). -/
def levelsOutOfBand (watches : Vector Watch 16) : List (Fin 4) :=
  (allWatches.filter (fun m => (watches[m]).enabled && (watches[m]).state != .inside)).map (fun m => (watches[m]).alert)

theorem mem_levelsOutOfBand {watches : Vector Watch 16} {level : Fin 4} :
    level ∈ levelsOutOfBand watches ↔
      ∃ m : WatchId, (watches[m]).enabled = true ∧ (watches[m]).state ≠ .inside ∧ (watches[m]).alert = level := by
  simp [levelsOutOfBand, and_assoc]

/-- The model's walk over the watches takes the highest of these levels, or 0 when there is none. -/
theorem alertOf_eq_max? (watches : Vector Watch 16) : alertOf watches = (levelsOutOfBand watches).max?.getD 0 := by
  calc alertOf watches = (levelsOutOfBand watches).foldl max 0 := by
        rw [levelsOutOfBand, List.foldl_map, List.foldl_filter]
        rfl
    _ = max 0 ((levelsOutOfBand watches).max?.getD 0) := List.foldl_max
    _ = (levelsOutOfBand watches).max?.getD 0 := max_eq_right (Fin.zero_le _)

/-- No enabled watch out of band has a level above the alert level. -/
theorem le_alertOf {watches : Vector Watch 16} {level : Fin 4} (hmem : level ∈ levelsOutOfBand watches) :
    level ≤ alertOf watches := by
  rw [alertOf_eq_max?]
  cases hmax : (levelsOutOfBand watches).max? with
  | none => exact absurd hmem (by simp [List.max?_eq_none_iff.mp hmax])
  | some highest => exact (List.max?_eq_some_iff.mp hmax).2 level hmem

/-- An alert level other than 0 is that of an enabled watch out of band. -/
theorem alertOf_mem_levelsOutOfBand {watches : Vector Watch 16} (hlevel : alertOf watches ≠ 0) :
    alertOf watches ∈ levelsOutOfBand watches := by
  rw [alertOf_eq_max?] at hlevel ⊢
  cases hmax : (levelsOutOfBand watches).max? with
  | none => rw [hmax] at hlevel; exact absurd rfl hlevel
  | some highest => exact (List.max?_eq_some_iff.mp hmax).1

/-- Settles O24: R117's checks by what the fields name, R118's and R119's effects as the Watch Unit's updates, and the
alert level as the highest of the levels out of band. -/
theorem watchOrders : Obligations.WatchOrders := by
  refine ⟨fun h f s hs => ⟨fun hout => ?_, fun m channel filter action alert note ring hwatch hchannel hfilter haction
    hhysteresis hlow hhigh halert hnote hring => ?_⟩, fun h s hs => ⟨fun b hout => ?_, fun m => ?_⟩, ?_⟩
  · exact exec_setWatch_of_owner hs h (setWatchOwner_of_no_watch (watch?_eq_none hout))
  · have hnames : NamesWatch f m { Watch.reset with
        enabled := true, channel, filter, low := f.low, high := f.high, hysteresis := f.hysteresis.toNat,
        persistence := f.persistence.toNat, alert, action, note, ring } :=
      ⟨hwatch, hchannel, hfilter, haction, hhysteresis, ⟨hlow, hhigh⟩, halert, hnote, hring, rfl⟩
    have owner := setWatchOwner_of_watch (u := s.taking 0x0050 h) (watch?_of_names hnames)
    refine ⟨fun hband => ?_, fun hband hnoted hdisabled => ?_, fun hband henabled => ?_⟩
    · exact exec_setWatch_of_owner hs h (owner.trans (if_pos hband))
    · have checked := owner.trans (if_neg (not_le.mpr hband))
      exact exec_setWatch_of_owner hs h (checked.trans (if_pos ⟨hnoted, hdisabled⟩))
    · have checked := owner.trans (if_neg (not_le.mpr hband))
      exact exec_setWatch_of_owner hs h (checked.trans (if_neg (fun ⟨hnoted, hdisabled⟩ => henabled hnoted hdisabled)))
  · exact exec_clearWatch_of_owner hs h (clearWatchOwner_out_of_range hout)
  · exact exec_clearWatch_of_owner hs h (clearWatchOwner_byteOf m)
  · rintro s _ rfl
    exact ⟨rfl, fun m henabled hout => le_alertOf (mem_levelsOutOfBand.mpr ⟨m, henabled, hout, rfl⟩),
      fun hlevel => mem_levelsOutOfBand.mp (alertOf_mem_levelsOutOfBand hlevel)⟩

end Sys2Proof.Machine
end

