-- ==== Sys2Proof/Proofs/OrderRing.lean ====
section
/-!
PROOFS. Proofs/OrderRing.lean: when the Order Unit begins a fetch and what the fetch changes, how an ORDER TAIL write is
taken, how NOP and an order of unknown kind are answered, and the two statements about them.
-/

namespace Sys2Proof.Machine

/-! ### Beginning a fetch -/

/-- The read of the slot at the head of an Order Ring is in flight (R143). -/
def State.fetchingHead (s : State) (g : OrderRing) : State :=
  { s with
    orders := { s.orders with work := .fetching s.elapsed }
    bus := s.bus ++ [.read (g.base + BitVec.ofNat 64 (64 * s.orders.head)) 64] }

section
variable {s : State} {g : OrderRing}

/-- An IDLE Order Unit with orders available begins a fetch in UP (R143). -/
theorem beginFetch_of_available (hgeometry : s.orders.geometry = some g) (hidle : s.orders.work = .idle)
    (hup : s.linkUp = true) (havailable : s.orders.available ≠ 0) : beginFetch s = s.fetchingHead g := by
  unfold beginFetch
  rw [hgeometry, hidle]
  exact if_pos ⟨hup, havailable⟩

/-- Without orders available no fetch begins. -/
theorem beginFetch_of_none_available (hnone : s.orders.available = 0) : beginFetch s = s := by
  unfold beginFetch
  split
  · exact if_neg (fun hboth => hboth.2 hnone)
  · rfl

/-- An Order Unit that is not IDLE begins no fetch. -/
theorem beginFetch_of_busy (hbusy : s.orders.work ≠ .idle) : beginFetch s = s := by
  unfold beginFetch
  split
  next hidle => exact absurd hidle hbusy
  next => rfl

end

/-- The Order Unit stays as it is, or reads the slot at the head of its ring. -/
theorem beginFetch_cases (s : State) : beginFetch s = s ∨ ∃ g, beginFetch s = s.fetchingHead g := by
  unfold beginFetch
  split
  · split
    · exact .inr ⟨_, rfl⟩
    · exact .inl rfl
  · exact .inl rfl

/-- Beginning a fetch touches the Order Unit and issues at most one read of a slot. -/
theorem beginFetch_frame (s : State) :
    beginFetch s = { s with orders := (beginFetch s).orders, bus := (beginFetch s).bus } ∧
      ((beginFetch s).bus = s.bus ∨ ∃ a, (beginFetch s).bus = s.bus ++ [.read a 64]) := by
  obtain hstays | ⟨g, hfetch⟩ := beginFetch_cases s
  · rw [hstays]
    exact ⟨rfl, .inl rfl⟩
  · rw [hfetch]
    exact ⟨rfl, .inr ⟨_, rfl⟩⟩

/-- With head and tail inside the ring, none are available exactly when head and tail are equal (R141). -/
theorem available_eq_zero_iff {o : OrderUnit} {g : OrderRing} (hgeometry : o.geometry = some g)
    (hhead : o.head < g.size) (htail : o.tail < g.size) : o.available = 0 ↔ o.head = o.tail := by
  have havailable : o.available = (o.tail + g.size - o.head) % g.size := by
    unfold OrderUnit.available
    rw [hgeometry]
  rw [havailable]
  by_cases hwrapped : o.tail < o.head
  · rw [Nat.mod_eq_of_lt (by omega)]
    omega
  · have hahead : o.tail + g.size - o.head = (o.tail - o.head) + g.size := by omega
    rw [hahead, Nat.add_mod_right, Nat.mod_eq_of_lt (by omega)]
    omega

/-! ### ORDER TAIL writes -/

/-- A fault in UP is latched and begins the teardown (R173). -/
theorem linkFault_of_up {s : State} (hup : s.linkUp = true) (cause : FaultCause) (detail : Half) :
    linkFault cause detail s
      = teardown { s with link := { s.link with state := .fault, cause := cause, detail := detail } } := if_pos hup

section
variable {value : Word} {s : State} {g : OrderRing}

/-- A write outside UP is not taken (R142). -/
theorem writeTail_of_not_up (hdown : s.linkUp = false) : writeTail value s = s := by
  unfold writeTail
  rw [hdown]
  rfl

/-- In UP a value below the size becomes the tail, and any other is BAD TAIL (R142). -/
theorem writeTail_of_up (hup : s.linkUp = true) (hgeometry : s.orders.geometry = some g) :
    writeTail value s =
      if value.toNat < g.size then beginFetch { s with orders := { s.orders with tail := value.toNat } }
      else linkFault .badTail (value.extractLsb' 0 16) s := by
  unfold writeTail
  rw [hup, hgeometry]
  rfl

end

/-- Settles O29: by the link, the value against the size, and whether the new tail leaves an IDLE Order Unit orders to
fetch. -/
theorem orderTailWrites : Obligations.OrderTailWrites := by
  intro value s
  refine ⟨fun hdown => ?_, fun g hup hgeometry => ?_⟩
  · exact congrArg Host.Outcome.next (writeTail_of_not_up hdown)
  · have hwrite := writeTail_of_up (value := value) hup hgeometry
    refine ⟨fun hlarge => ?_, fun hvalue hhead => ?_⟩
    · have hfault := hwrite.trans (if_neg (not_lt.mpr hlarge))
      exact congrArg Host.Outcome.next (hfault.trans (linkFault_of_up hup _ _))
    · have hstore := hwrite.trans (if_pos hvalue)
      have hnone := available_eq_zero_iff (o := { s.orders with tail := value.toNat }) hgeometry hhead hvalue
      refine ⟨fun hquiet => ?_, fun hidle hdiffer => ?_⟩
      · refine congrArg Host.Outcome.next (hstore.trans ?_)
        obtain hbusy | hequal := hquiet
        · exact beginFetch_of_busy hbusy
        · exact beginFetch_of_none_available (hnone.mpr hequal)
      · have hfetch := beginFetch_of_available (s := { s with orders := { s.orders with tail := value.toNat } })
          hgeometry hidle hup (mt hnone.mp hdiffer)
        exact congrArg Host.Outcome.next (hstore.trans hfetch)

/-! ### NOP and orders of unknown kind -/

/-- An order that was SILENT and ended with DONE leaves no record: the Order Unit is IDLE and may fetch (R146, R143). -/
theorem answered_of_silent_done {s : State} {kind : Half} {h : OrderHeader} {a : State → Answer} {u : State}
    {detail : Nat} (hanswer : a (s.taking kind h) = { state := u, status := .done, detail })
    (hsilent : h.silent = true) :
    s.answered kind h a = beginFetch { u with orders := { u.orders with work := .idle, roomReported := false } } := by
  have hnoRecord : orderDone (s.inHand kind h) .done detail = [] := if_pos ⟨hsilent, rfl⟩
  unfold State.answered finishOrder
  rw [hanswer, hnoRecord]
  rfl

section
variable {s : State} (hs : s.takesOrder) (h : OrderHeader)
include hs

/-- NOP is answered DONE by the Order Unit itself (R148). -/
theorem exec_nop : exec (.nop h) s = .next (s.answered 0x0001 h accept) :=
  congrArg Host.Outcome.next (takeDecided_eq hs 0x0001 h accept)

/-- A code that Table 12-5 does not name is refused with UNKNOWN KIND (R145). -/
theorem exec_unknownKind {kind : Half} (hkind : kind ∉ knownKinds) :
    exec (.unknownKind h kind) s = .next (s.answered kind h (fun u => refuse u .unknownKind 0)) := by
  have hunnamed : ¬knownKinds.contains kind = true := fun hnamed => hkind (List.contains_iff_mem.mp hnamed)
  have harm : exec (.unknownKind h kind) s = .next (takeDecided kind h (fun u => refuse u .unknownKind 0) s) :=
    if_neg hunnamed
  rw [harm, takeDecided_eq hs]

/-- With SILENT set nothing but the Order Unit and its next read changes at a NOP (R148). -/
theorem exec_nop_of_silent (hsilent : h.silent = true) :
    ∃ t, exec (.nop h) s = .next t ∧ t = { s with orders := t.orders, bus := t.bus } ∧
      (t.bus = s.bus ∨ ∃ a, t.bus = s.bus ++ [.read a 64]) := by
  have hanswered := answered_of_silent_done (s := s) (kind := 0x0001) (a := accept) rfl hsilent
  obtain ⟨hframe, hbus⟩ := beginFetch_frame
    { s.taking 0x0001 h with orders := { (s.taking 0x0001 h).orders with work := .idle, roomReported := false } }
  exact ⟨_, (exec_nop hs h).trans (congrArg Host.Outcome.next hanswered), hframe, hbus⟩

end

/-- Settles O8: NOP's answer, its frame when it leaves no record, and the refusal of an unnamed kind. -/
theorem nopAndUnknownKind : Obligations.NopAndUnknownKind :=
  ⟨fun h _ hs => ⟨exec_nop hs h, exec_nop_of_silent hs h⟩, fun h _ _ hs hkind => exec_unknownKind hs h hkind⟩

end Sys2Proof.Machine
end

