-- ==== Sys2Proof/Proofs/CommandSteps.lean ====
section
/-!
PROOFS. Proofs/CommandSteps.lean: what the commands that leave the link's own state alone can do. `CommandStep s t` says it
once: a `PartStep` that keeps the outboxes in order and does not turn the count back. Every operation that such a command
is made of is one.
-/

namespace Sys2Proof.Machine

variable {s t u : State}

/-! ### Steps of a command -/

/-- What a command that leaves the link's own state alone can do. -/
structure CommandStep (s t : State) : Prop where
  part : PartStep s t
  outboxes : s.OutboxesOrdered → t.OutboxesOrdered
  count : s.timebase.count ≤ t.timebase.count

theorem CommandStep.refl (s : State) : CommandStep s s := ⟨PartStep.refl s, id, BitVec.le_refl _⟩

theorem CommandStep.trans (h : CommandStep s t) (k : CommandStep t u) : CommandStep s u :=
  ⟨h.part.trans k.part, fun o => k.outboxes (h.outboxes o), BitVec.le_trans h.count k.count⟩

theorem CommandStep.foldl {α : Type} (f : State → α → State) (h : ∀ s a, CommandStep s (f s a)) (l : List α) (s : State) :
    CommandStep s (l.foldl f s) :=
  foldl_keeps f (CommandStep s) l s (fun v a _ k => k.trans (h v a)) (CommandStep.refl s)

/-- The outboxes stay in order when nothing that they are judged by changes. -/
theorem outboxes_of_same (h1 : t.streams = s.streams) (h2 : t.staging = s.staging) (h3 : t.buffers = s.buffers)
    (h4 : t.outboxes = s.outboxes) (h5 : t.writeInFlight = s.writeInFlight) (h6 : t.link = s.link)
    (o : s.OutboxesOrdered) : t.OutboxesOrdered := by
  obtain ⟨v, q⟩ := (outboxesOrdered_iff s).mp o
  refine (outboxesOrdered_iff t).mpr ⟨fun j => ?_, ?_⟩
  · rw [view_congr j (by rw [h1]) (by rw [h2]) (by rw [h3]) (by rw [h4]) h5 h6]
    exact v j
  · rw [h5, h6]
    exact q

/-- A change of tables, generators, lines and watches, and of the Timebase but for its count. -/
def TableStep (s t : State) : Prop :=
  ∃ sl ch cv w g l wa al tb, tb.count = s.timebase.count ∧ t = { s with
    scanLists := sl, channels := ch, converters := cv, windows := w, generators := g, lines := l, watches := wa,
    alertLevel := al, timebase := tb }

theorem TableStep.refl (s : State) : TableStep s s := ⟨_, _, _, _, _, _, _, _, s.timebase, rfl, rfl⟩

theorem TableStep.command (h : TableStep s t) : CommandStep s t := by
  obtain ⟨_, _, _, _, _, _, _, _, tb, hc, rfl⟩ := h
  exact ⟨PartStep.of_same rfl rfl rfl rfl rfl rfl rfl, outboxes_of_same rfl rfl rfl rfl rfl rfl,
    by rw [← hc]; exact BitVec.le_refl _⟩

theorem RingStep.command (h : RingStep s t) : CommandStep s t := by
  have part := h.part
  obtain ⟨_, _, rfl⟩ := h.frame
  exact ⟨part, outboxes_of_same rfl rfl rfl rfl rfl rfl, BitVec.le_refl _⟩

theorem AnswerStep.command (h : AnswerStep s t) : CommandStep s t := by
  have part := h.part
  obtain ⟨_, _, _, _, rfl⟩ := h.frame
  exact ⟨part, outboxes_of_same rfl rfl rfl rfl rfl rfl, BitVec.le_refl _⟩

/-- A transition of one stream that keeps its own view in order. -/
theorem StreamStep.command {i : StreamId} (h : StreamStep i s t) (own : (s.view i).Ok 0 → (t.view i).Ok 0) :
    CommandStep s t := by
  refine ⟨h.part, h.outboxes own, ?_⟩
  obtain ⟨_, _, _, _, _, _, _, _, _, _, rfl⟩ := h.frame
  exact BitVec.le_refl _

/-! ### Time -/

/-- The count does not fall as periods pass (R130). -/
theorem le_advanceCount (c : Long) (d : Nat) : c ≤ advanceCount c d := by
  have hc := c.isLt
  rw [BitVec.le_def, advanceCount, BitVec.toNat_ofNat, Nat.mod_eq_of_lt (by omega)]
  omega

theorem passTime_command (d : Nat) (s : State) : CommandStep s (passTime d s) := by
  refine ⟨passTime_part d s, ?_, ?_⟩
  · unfold passTime
    split
    · exact id
    · exact outboxes_of_same rfl rfl rfl rfl rfl rfl
  · unfold passTime
    split
    · exact BitVec.le_refl _
    · exact le_advanceCount _ _

theorem passTo_command (m : Nat) (s : State) : CommandStep s (passTo m s) := passTime_command _ s

/-! ### Streams -/

theorem takeTick_command (i : StreamId) (s : State) : CommandStep s (takeTick i s) :=
  (takeTick_step i s).command takeTick_ok

theorem takeTime_command (i : StreamId) (s : State) : CommandStep s (takeTime i s) :=
  (takeTime_step i s).command takeTime_ok

theorem modReturns_command (i : StreamId) (f : List Return → List Return) (s : State) :
    CommandStep s (s.modReturns i f) :=
  ⟨PartStep.of_same rfl rfl rfl rfl rfl rfl rfl, outboxes_of_same rfl rfl rfl rfl rfl rfl, BitVec.le_refl _⟩

theorem takeOldestReturn_command (i : StreamId) (s : State) : CommandStep s (takeOldestReturn i s) := by
  unfold takeOldestReturn
  split
  · exact .refl s
  · exact (modReturns_command i _ s).trans ((takeReturn_step i _ _).command (takeReturn_ok _))

/-! ### Ticks, edges and times -/

theorem modGenerator_command (g : GeneratorId) (f : Generator → Generator) (s : State) :
    CommandStep s (s.modGenerator g f) := TableStep.command ⟨_, _, _, _, _, _, _, _, s.timebase, rfl, rfl⟩

theorem issueTick_command (g : GeneratorId) (order : List StreamId) (s : State) : CommandStep s (issueTick g order s) :=
  ((modGenerator_command g _ s).trans (.foldl _ (fun s i => takeTick_command i s) _ _)).trans
    (modGenerator_command g _ _)

theorem takeEdgeAt_command (n : LineId) (streams : List StreamId) (r : Fin 12) (s : State) :
    CommandStep s (takeEdgeAt n streams r s) := by
  unfold takeEdgeAt
  split
  · exact (takeEdge_step n _ s).command (takeEdge_ok n)
  · unfold takeSourceEdge
    dsimp only
    split
    · split
      · exact (modGenerator_command _ _ s).trans (issueTick_command _ streams _)
      · exact modGenerator_command _ _ s
    · exact .refl s

theorem handEdge_command (n : LineId) (order : List (Fin 12)) (streams : List StreamId) (s : State) :
    CommandStep s (handEdge n order streams s) := .foldl _ (fun s r => takeEdgeAt_command n streams r s) _ _

theorem handChange_command (n : LineId) (active : Bool) (s : State) : CommandStep s (handChange n active s) :=
  TableStep.command ⟨_, _, _, _, _, _, _, _, s.timebase, rfl, rfl⟩

theorem modLine_command (n : LineId) (f : Line → Line) (s : State) : CommandStep s (s.modLine n f) :=
  TableStep.command ⟨_, _, _, _, _, _, _, _, s.timebase, rfl, rfl⟩

theorem settleLine_command (n : LineId) (s : State) : CommandStep s (settleLine n s) := by
  unfold settleLine
  split
  · exact .refl s
  · exact (modLine_command n _ s).trans (handEdge_command n _ _ _)
  · exact (modLine_command n _ s).trans (handChange_command n _ _)

theorem readyAt_command (m : Nat) (s : State) : CommandStep s (s.readyAt m) := by
  unfold State.readyAt
  split
  · exact .foldl _ (fun s n => settleLine_command n s) _ s
  · exact .refl s

theorem atSample_command (n : LineId) (active : Bool) (s : State) : CommandStep s (s.atSample n active) :=
  (readyAt_command _ s).trans (passTo_command _ _)

theorem takeLineEdge_command (n : LineId) (order : List (Fin 12)) (streams : List StreamId) (s : State) :
    CommandStep s (takeLineEdge n order streams s) := by
  unfold takeLineEdge
  dsimp only
  split
  · exact (modLine_command n _ s).trans (handEdge_command n order streams _)
  · split
    · exact (modLine_command n _ s).trans (handEdge_command n order streams _)
    · exact .refl s

theorem takeLineChange_command (n : LineId) (active : Bool) (s : State) : CommandStep s (takeLineChange n active s) := by
  unfold takeLineChange
  dsimp only
  split
  · split
    · exact (modLine_command n _ s).trans (handChange_command n _ _)
    · exact .refl s
  · exact (modLine_command n _ s).trans (handChange_command n _ _)

theorem completeTick_command (g : GeneratorId) (streams : List StreamId) (s : State) :
    CommandStep s (completeTick g streams s) := by
  unfold completeTick
  dsimp only
  split
  · exact ((passTime_command _ s).trans (modGenerator_command g _ _)).trans (issueTick_command g streams _)
  · exact .refl s

theorem beginPulse_command (s : State) : CommandStep s (beginPulse s) :=
  TableStep.command ⟨_, _, _, _, _, _, _, _, { s.timebase with fire := .driving (s.elapsed + pulsePeriods) }, rfl, rfl⟩

theorem examineFire_command (s : State) : CommandStep s (examineFire s) := by
  unfold examineFire
  split
  · split
    · exact beginPulse_command s
    · exact .refl s
  all_goals exact .refl s

theorem examineTimes_command (order : List StreamId) (s : State) : CommandStep s (examineTimes order s) :=
  (CommandStep.foldl _ (fun s i => takeTime_command i s) _ s).trans (examineFire_command _)

/-! ### Records of the Timebase -/

theorem handTimebaseEvent_command (r : Record) (s : State) : CommandStep s (handTimebaseEvent r s) := by
  unfold handTimebaseEvent
  split
  · exact .refl s
  · split
    · rename_i h
      exact (place_step h).command
    · exact TableStep.command ⟨_, _, _, _, _, _, _, _, { s.timebase with hold := some r }, rfl, rfl⟩

theorem expireArm_command (s : State) : CommandStep s (expireArm s) := by
  unfold expireArm
  split
  · rename_i a _
    split
    · rename_i e _
      refine (passTo_command e s).trans ?_
      refine CommandStep.trans ?_ (handTimebaseEvent_command _ _)
      exact TableStep.command ⟨_, _, _, _, _, _, _, _, { (passTo e s).timebase with arm := none }, rfl, rfl⟩
    · exact .refl s
  · exact .refl s

theorem reofferTimebaseRecord_command (s : State) : CommandStep s (reofferTimebaseRecord s) := by
  unfold reofferTimebaseRecord
  split
  · exact .refl s
  · split
    · split
      · rename_i t h
        exact (place_step h).command.trans (TableStep.command ⟨_, _, _, _, _, _, _, _,
          { t.timebase with hold := none, roomReported := false }, rfl, rfl⟩)
      · exact TableStep.command ⟨_, _, _, _, _, _, _, _, { s.timebase with roomReported := false }, rfl, rfl⟩
    · exact .refl s

/-! ### Watches -/

/-- A change of the watches with the alert level, and of the rings with the output. -/
def WatchStep (s t : State) : Prop :=
  ∃ wa al R B, t = { s with watches := wa, alertLevel := al, rings := R, bus := B }

theorem WatchStep.refl (s : State) : WatchStep s s := ⟨_, _, _, _, rfl⟩

theorem WatchStep.trans (h : WatchStep s t) (k : WatchStep t u) : WatchStep s u := by
  obtain ⟨_, _, _, _, rfl⟩ := h
  obtain ⟨_, _, _, _, rfl⟩ := k
  exact ⟨_, _, _, _, rfl⟩

theorem WatchStep.command (h : WatchStep s t) (part : PartStep s t) : CommandStep s t := by
  obtain ⟨_, _, _, _, rfl⟩ := h
  exact ⟨part, outboxes_of_same rfl rfl rfl rfl rfl rfl, BitVec.le_refl _⟩

theorem modWatch_watch (m : WatchId) (f : Watch → Watch) (s : State) : WatchStep s (s.modWatch m f) := ⟨_, _, _, _, rfl⟩

theorem placeWatchEvent_watch (m : WatchId) (e : WatchEvent) (outcome : ActionOutcome) (replaced : Bool) (s : State) :
    WatchStep s (placeWatchEvent m e outcome replaced s) := by
  unfold placeWatchEvent
  dsimp only
  split
  · rename_i h
    obtain ⟨_, _, rfl⟩ := (place_step h).frame
    exact ⟨_, _, _, _, rfl⟩
  · split
    · exact .refl s
    · exact modWatch_watch m _ s

theorem enterWatch_watch (m : WatchId) (state : WatchState) (o : Offer) (s : State) :
    WatchStep s (enterWatch m state o s) := by
  have entered : WatchStep s (recomputeAlert (s.modWatch m (fun w =>
      { w with state := state, runCount := 0, runSide := .none }))) := ⟨_, _, _, _, rfl⟩
  unfold enterWatch
  dsimp only
  split
  · split
    · exact entered.trans (placeWatchEvent_watch m _ _ _ _)
    · exact entered
  all_goals exact entered.trans (modWatch_watch m _ _)

theorem returnWatch_watch (m : WatchId) (o : Offer) (s : State) : WatchStep s (returnWatch m o s) := by
  have returned : WatchStep s (recomputeAlert (s.modWatch m (fun w =>
      { w with state := .inside, runCount := 0, runSide := .none }))) := ⟨_, _, _, _, rfl⟩
  unfold returnWatch
  dsimp only
  split
  · exact returned.trans (placeWatchEvent_watch m _ _ _ _)
  · exact returned

theorem countRun_watch (m : WatchId) (side : RunSide) (state : WatchState) (o : Offer) (s : State) :
    WatchStep s (countRun m side state o s) := by
  unfold countRun
  dsimp only
  generalize (if (s.watches[m]).runSide = side then (s.watches[m]).runCount + 1 else 1) = run
  split
  · exact enterWatch_watch m state o s
  · exact modWatch_watch m _ s

theorem judge_watch (m : WatchId) (o : Offer) (s : State) : WatchStep s (judge m o s) := by
  unfold judge
  dsimp only
  split
  · split
    · exact countRun_watch m _ _ o s
    · split
      · exact countRun_watch m _ _ o s
      · exact modWatch_watch m _ s
  all_goals
    split
    · exact returnWatch_watch m o s
    · exact .refl s

theorem offerTo_watch (m : WatchId) (o : Offer) (s : State) : WatchStep s (offerTo m o s) := by
  unfold offerTo
  dsimp only
  split
  · split
    · split
      · exact modWatch_watch m _ s
      · exact .refl s
    · exact judge_watch m o s
  · exact .refl s

theorem offerTo_command (m : WatchId) (o : Offer) (s : State) : CommandStep s (offerTo m o s) :=
  (offerTo_watch m o s).command (offerTo_part m o s)

theorem takeOffer_command (which : Nat) (watches : List WatchId) (s : State) :
    CommandStep s (takeOffer which watches s) := by
  unfold takeOffer
  split
  · exact .refl s
  · refine CommandStep.trans (t := { s with offers := s.offers.eraseIdx which }) ?_
      (.foldl _ (fun s m => offerTo_command m _ s) _ _)
    exact ⟨PartStep.of_same rfl rfl rfl rfl rfl rfl rfl, outboxes_of_same rfl rfl rfl rfl rfl rfl, BitVec.le_refl _⟩

theorem modWatch_command (m : WatchId) (f : Watch → Watch) (s : State) : CommandStep s (s.modWatch m f) :=
  (modWatch_watch m f s).command (modWatch_part m f s)

theorem answerStart_command (m : WatchId) (s : State) : CommandStep s (answerStart m s) := by
  unfold answerStart
  split
  · exact ((takeStartRequest_step m _ s).command (takeStartRequest_ok m)).trans (modWatch_command m _ _)
  all_goals exact .refl s

theorem answerHalt_command (m : WatchId) (s : State) : CommandStep s (answerHalt m s) := by
  unfold answerHalt
  split
  · exact ((takeHaltRequest_step _ s).command takeHaltRequest_ok).trans (modWatch_command m _ _)
  all_goals exact .refl s

theorem takeAnswer_command (m : WatchId) (s : State) : CommandStep s (takeAnswer m s) := by
  unfold takeAnswer
  split
  · split
    · unfold endWait
      dsimp only
      refine CommandStep.trans ?_ (.foldl _ (fun s o => offerTo_command m o s) _ _)
      refine CommandStep.trans ?_ (modWatch_command m _ _)
      split
      · exact (placeWatchEvent_watch m _ _ _ s).command (placeWatchEvent_part m _ _ _ s)
      · exact .refl s
    · exact .refl s
  · exact .refl s

/-! ### Conversions and delivery -/

theorem completeStep_command (c : ConverterId) (inputs : Vector Voltage 8) (s : State) :
    CommandStep s (completeStep c inputs s) := by
  unfold completeStep
  split
  · exact .refl s
  · rename_i v _
    dsimp only
    refine (passTo_command v.endsAt s).trans ?_
    refine CommandStep.trans ?_ (TableStep.command ⟨_, _, _, _, _, _, _, _, _, rfl, rfl⟩)
    split
    · exact modReturns_command _ _ _
    · exact .refl _

theorem grantWrite_timebase (i : StreamId) (s : State) : (grantWrite i s).timebase = s.timebase := by
  unfold grantWrite
  split <;> rfl

theorem chooseGrant_timebase (s : State) : (chooseGrant s).timebase = s.timebase := by
  unfold chooseGrant
  split
  · rfl
  · split
    · exact grantWrite_timebase _ s
    · rfl

theorem grantFirst_command (s : State) : CommandStep s (grantFirst s) := by
  have kept : (grantFirst s).timebase = s.timebase := by
    unfold grantFirst
    split
    · rfl
    · split
      · exact grantWrite_timebase _ s
      · exact chooseGrant_timebase s
  exact ⟨grantFirst_part s, grantFirst_outboxes, by rw [kept]; exact BitVec.le_refl _⟩

theorem discardWrite_part (w : BlockWrite) (s : State) : PartStep s (discardWrite w s) :=
  PartStep.of_same rfl rfl rfl rfl rfl rfl rfl

/-- The write in flight ends: what the part makes of the end is a step of its stream (R90, R91), and the arbiter chooses. -/
theorem chooseGrant_after {i : StreamId} {v : State} (h : StreamStep i v t) :
    PartStep v (chooseGrant t) ∧ (chooseGrant t).timebase = v.timebase := by
  refine ⟨h.part.trans (chooseGrant_part t), (chooseGrant_timebase t).trans ?_⟩
  obtain ⟨_, _, _, _, _, _, _, _, _, _, rfl⟩ := h.frame
  rfl

/-- A change of the write in flight alone. -/
theorem endFlight_part (s : State) : PartStep s { s with writeInFlight := none } :=
  PartStep.of_same rfl rfl rfl rfl rfl rfl rfl

theorem recordBlock_step (w : BlockWrite) (s : State) :
    StreamStep w.stream { s with writeInFlight := none } (recordBlock w s) :=
  ((modStaging_step w.stream Staging.dropHead _).trans (modStream_step w.stream StreamContext.countBlock _ rfl rfl)).trans
    (modHead_step w.stream _ _)

theorem endWrite_command (s : State) : CommandStep s (endWrite s) := by
  have h : PartStep s (endWrite s) ∧ (endWrite s).timebase = s.timebase := by
    unfold endWrite
    split
    · exact ⟨PartStep.refl s, rfl⟩
    · rename_i w _
      split
      · exact ⟨PartStep.refl s, rfl⟩
      · split
        · obtain ⟨part, kept⟩ := chooseGrant_after ((((recordBlock_step w s).trans (roomTest_step w.stream _)).trans
            (startFlushTimer_step w.stream (s.firstBlock w.stream) (s.buffers[w.stream]).length _)).trans
            (afterWriteSuccess_step w.stream _))
          exact ⟨(endFlight_part s).trans part, kept⟩
        · exact ⟨discardWrite_part w s, rfl⟩
  exact ⟨h.1, endWrite_outboxes, by rw [h.2]; exact BitVec.le_refl _⟩

theorem failWrite_command (s : State) : CommandStep s (failWrite s) := by
  have h : PartStep s (failWrite s) ∧ (failWrite s).timebase = s.timebase := by
    unfold failWrite
    split
    · exact ⟨PartStep.refl s, rfl⟩
    · rename_i w _
      split
      · obtain ⟨part, kept⟩ := chooseGrant_after (failStream_step w.stream { s with writeInFlight := none })
        exact ⟨(endFlight_part s).trans part, kept⟩
      · exact ⟨discardWrite_part w s, rfl⟩
  exact ⟨h.1, failWrite_outboxes, by rw [h.2]; exact BitVec.le_refl _⟩

theorem StreamView.ahead_mono {v w : StreamView} (hw : v.writing = true → w.writing = true)
    (hb : v.buffers.head?.any (·.inUse) = true → w.buffers.head?.any (·.inUse) = true) : v.ahead ≤ w.ahead := by
  unfold StreamView.ahead
  by_cases c : w.writing = true ∨ w.buffers.head?.any (·.inUse) = true
  · rw [if_pos c]
    split <;> omega
  · rw [if_neg c, if_neg fun x => c (x.imp hw hb)]

/-- A change of the head descriptor that does not bring it into use. -/
theorem modHead_ok {i : StreamId} {k : Nat} {f : Descriptor → Descriptor}
    (hf : ∀ d, (f d).inUse = true → d.inUse = true) (h : (s.view i).Ok k) : ((modHead i f s).view i).Ok k := by
  unfold modHead
  rw [view_modBuffers]
  have hb : (s.view i).buffers = s.buffers[i] := rfl
  refine ⟨?_, ?_, h.head, h.isUp, h.notUp, h.fast⟩
  · have hout := h.outbox
    have hahead := StreamView.ahead_mono (w := s.view i)
      (v := { s.view i with buffers := match s.buffers[i] with | [] => [] | d :: rest => f d :: rest }) id (by
        rw [hb]
        cases s.buffers[i] with
        | nil => exact id
        | cons d rest => exact hf d)
    exact le_trans (Nat.add_le_add_right (Nat.add_le_add_left hahead _) k) hout
  · have hfresh := h.fresh
    rw [hb] at hfresh
    revert hfresh
    cases s.buffers[i] <;> exact id

theorem expireFlush_command (i : StreamId) (s : State) : CommandStep s (expireFlush i s) := by
  unfold expireFlush
  split
  · exact .refl s
  · rename_i e htimer
    dsimp only
    refine (passTo_command e s).trans ?_
    have hq : (passTo e s).buffers = s.buffers := by
      unfold passTo passTime
      split <;> rfl
    split
    · refine (modHead_step i _ _).command (modHead_ok fun d => ?_)
      simp only [Descriptor.inUse, Option.isSome_none, Bool.or_false, Bool.or_eq_true]
      exact Or.inl
    · rename_i hw
      refine (completeBuffer_step i _ _).command fun h => completeBuffer_ok _ h (Bool.eq_false_of_not_eq_true hw) ?_
      show ((passTo e s).buffers[i]).head?.any _ = true
      rw [hq]
      cases hb : s.buffers[i] with
      | nil => rw [hb] at htimer; cases htimer
      | cons d rest =>
        rw [hb] at htimer
        have : d.timer = some e := htimer
        simp [Descriptor.inUse, this]

theorem expireHoldoff_command (n : RingId) (s : State) : CommandStep s (expireHoldoff n s) := by
  unfold expireHoldoff
  split
  · exact .refl s
  · rename_i r hr
    split
    · rename_i e _
      refine (passTo_command e s).trans ?_
      have hq : (passTo e s).rings = s.rings := by
        unfold passTo passTime
        split <;> rfl
      have hr' : (passTo e s).rings[n] = some r := by rw [hq]; exact hr
      exact ((ringStep_setRing hr' _ (fun o => o.notify _ _ _)).trans (examineMessage_step n _)).command
    all_goals exact .refl s

end Sys2Proof.Machine
end

