-- ==== Sys2Proof/Proofs/OrderSteps.lean ====
section
/-!
PROOFS. Proofs/OrderSteps.lean: every order is a `CommandStep`: what its owner leaves is one, and so is what the Order Unit
makes of the answer.
-/

namespace Sys2Proof.Machine

variable {s t : State}

/-! ### Taking and answering -/

/-- A change of the Order Unit's walk and head alone. -/
theorem orders_command {o : OrderUnit} (hg : o.geometry = s.orders.geometry) : CommandStep s { s with orders := o } :=
  ⟨PartStep.of_same rfl rfl rfl rfl rfl rfl hg, outboxes_of_same rfl rfl rfl rfl rfl rfl, BitVec.le_refl _⟩

theorem dropFetch_command (s : State) : CommandStep s (dropFetch s) := orders_command rfl

theorem finishOrder_command (order : OrderInHand) (a : Answer) : CommandStep a.state (finishOrder order a) :=
  (placeLeft_step order _ _).command

theorem takeOrder_command {kind : Half} {h : OrderHeader} {body : OrderInHand → State → State}
    (k : ∀ order v, v.linkUp = true → CommandStep v (body order v)) (s : State) :
    CommandStep s (takeOrder kind h body s) := by
  unfold takeOrder
  split
  · split
    · exact .refl s
    · split
      · rename_i hup
        have taken : CommandStep s (s.taking kind h) := orders_command rfl
        exact taken.trans (k _ (s.taking kind h) hup)
      · exact dropFetch_command s
  all_goals exact .refl s

theorem takeDecided_command {kind : Half} {h : OrderHeader} {owner : State → Answer}
    (k : ∀ v : State, v.linkUp = true → CommandStep v (owner v).state) (s : State) :
    CommandStep s (takeDecided kind h owner s) :=
  takeOrder_command (fun order v hup => (k v hup).trans (finishOrder_command order _)) s

/-! ### Tables, generators, lines, watches and the Timebase -/

theorem setChannelOwner_table (channel range settle : Byte) (v : State) :
    TableStep v (setChannelOwner channel range settle v).state := by
  unfold setChannelOwner
  split
  · split
    · exact .refl v
    · exact ⟨_, _, _, _, _, _, _, _, v.timebase, rfl, rfl⟩
  · exact .refl v

theorem setList_table (l : ListId) (steps : List ScanStep) (v : State) : TableStep v (v.setList l steps) :=
  ⟨_, _, _, _, _, _, _, _, v.timebase, rfl, rfl⟩

theorem loadScanOwner_table (list mode count : Byte) (entries : Vector StepEntry 6) (v : State) :
    TableStep v (loadScanOwner list mode count entries v).state := by
  unfold loadScanOwner
  dsimp only
  split
  · split
    · exact .refl v
    · split
      · exact .refl v
      · rename_i l append n _ _ _ _ _ _ _
        generalize (if append = true then v.scanLists[l] else []) = old
        split
        · exact .refl v
        · exact setList_table _ _ v
  · exact .refl v

theorem clearScanOwner_table (list : Byte) (v : State) : TableStep v (clearScanOwner list v).state := by
  unfold clearScanOwner
  split
  · exact .refl v
  · split
    · exact .refl v
    · exact setList_table _ _ v

theorem modGenerator_table (g : GeneratorId) (f : Generator → Generator) (v : State) : TableStep v (v.modGenerator g f) :=
  ⟨_, _, _, _, _, _, _, _, v.timebase, rfl, rfl⟩

theorem setPaceOwner_table (f : PaceFields) (v : State) : TableStep v (setPaceOwner f v).state := by
  unfold setPaceOwner
  split
  · exact .refl v
  · split
    · exact .refl v
    · split
      · exact .refl v
      · split
        · exact .refl v
        · split
          · exact .refl v
          · exact modGenerator_table _ _ v

theorem runPaceOwner_table (generator : Byte) (v : State) : TableStep v (runPaceOwner generator v).state := by
  unfold runPaceOwner
  split
  · exact .refl v
  · split
    · exact .refl v
    · exact modGenerator_table _ _ v

theorem haltPaceOwner_table (generator : Byte) (v : State) : TableStep v (haltPaceOwner generator v).state := by
  unfold haltPaceOwner
  split
  · exact .refl v
  · exact modGenerator_table _ _ v

theorem setLineOwner_table (line polarity : Byte) (v : State) : TableStep v (setLineOwner line polarity v).state := by
  unfold setLineOwner
  split
  · split
    · exact .refl v
    · exact ⟨_, _, _, _, _, _, _, _, v.timebase, rfl, rfl⟩
  · exact .refl v

theorem setWindowOwner_table (window enabled use : Byte) (base mask : Long) (v : State) :
    TableStep v (setWindowOwner window enabled use base mask v).state := by
  unfold setWindowOwner
  split
  · exact ⟨_, _, _, _, _, _, _, _, v.timebase, rfl, rfl⟩
  · exact .refl v

theorem setWatchOwner_table (f : WatchFields) (v : State) : TableStep v (setWatchOwner f v).state := by
  unfold setWatchOwner
  split
  · exact .refl v
  · split
    · exact .refl v
    · split
      · exact .refl v
      · exact ⟨_, _, _, _, _, _, _, _, v.timebase, rfl, rfl⟩

theorem clearWatchOwner_table (watch : Byte) (v : State) : TableStep v (clearWatchOwner watch v).state := by
  unfold clearWatchOwner
  split
  · exact .refl v
  · exact ⟨_, _, _, _, _, _, _, _, v.timebase, rfl, rfl⟩

theorem modTimebase_table (f : Timebase → Timebase) (v : State) (hf : (f v.timebase).count = v.timebase.count) :
    TableStep v (accept (v.modTimebase f)).state := ⟨_, _, _, _, _, _, _, _, f v.timebase, hf, rfl⟩

theorem setTimebaseOwner_table (role : Byte) (v : State) : TableStep v (setTimebaseOwner role v).state := by
  unfold setTimebaseOwner
  split
  · exact .refl v
  · split
    · exact .refl v
    · split
      · exact .refl v
      · exact modTimebase_table _ v rfl

theorem armSyncOwner_table (preset : Long) (timeout : Word) (v : State) :
    TableStep v (armSyncOwner preset timeout v).state := by
  unfold armSyncOwner
  split
  · exact .refl v
  · split
    · exact .refl v
    · split
      · exact .refl v
      · split
        · exact .refl v
        · exact modTimebase_table _ v rfl

theorem fireSyncOwner_table (mode : Byte) (time : Long) (v : State) : TableStep v (fireSyncOwner mode time v).state := by
  unfold fireSyncOwner
  split
  · exact .refl v
  · split
    · exact .refl v
    · split
      · exact .refl v
      · split
        · exact modTimebase_table (fun x => { x with fire := .driving (v.elapsed + pulsePeriods) }) v rfl
        · exact modTimebase_table _ v rfl

/-! ### Streams: what one order changes beside the transitions -/

/-- A change of one stream keeps the outboxes in order when it keeps that stream's view so. -/
theorem outboxes_of_view {i : StreamId} (others : ∀ j : StreamId, j ≠ i → t.view j = s.view j)
    (hw : t.writeInFlight = s.writeInFlight) (hl : t.link = s.link) (own : (s.view i).Ok 0 → (t.view i).Ok 0)
    (o : s.OutboxesOrdered) : t.OutboxesOrdered := by
  obtain ⟨v, q⟩ := (outboxesOrdered_iff s).mp o
  refine (outboxesOrdered_iff t).mpr ⟨fun j => ?_, by rw [hw, hl]; exact q⟩
  by_cases e : j = i
  · subst e
    exact own (v j)
  · rw [others j e]
    exact v j

/-- The pages of all streams when one stream's holding changes. -/
theorem pagesHeldByAll_upd (v : Vector StreamContext 8) (i : StreamId) (f : StreamContext → StreamContext) :
    pagesHeldByAll (upd v i f) + (v[i]).pagesHeld = pagesHeldByAll v + (f v[i]).pagesHeld := by
  revert i
  simp only [pagesHeldByAll, upd_get, Fin.forall_fin_succ]
  simp
  omega

/-- Pages that a stream takes from the pool or gives back to it stay accounted for (R61, R62). -/
theorem pages_of_holding {i : StreamId} {f : StreamContext → StreamContext} (hs : t.streams = upd s.streams i f)
    (hp : t.freePages + (f s.streams[i]).pagesHeld = s.freePages + (s.streams[i]).pagesHeld) (h : s.PagesAccounted) :
    t.PagesAccounted := by
  have held := pagesHeldByAll_upd s.streams i f
  unfold State.PagesAccounted at *
  rw [hs]
  omega

/-- A view without staged blocks and without a write in flight is in order in a state that is not active, where no more
records stand than before. -/
theorem StreamView.Ok.atRest {v w : StreamView} (h : v.Ok 0) (hv : v.state.active = false) (hw : w.state.active = false)
    (hr : w.records = v.records) (hc : w.closed = v.closed) (hin : w.writing = v.writing) (hu : w.up = v.up)
    (hd : w.buffers.head?.any (·.inUse) = true → v.buffers.head?.any (·.inUse) = true)
    (hf : ∀ d ∈ w.buffers.tail, d.inUse = false) : w.Ok 0 := by
  have none : ∀ {x : StreamState}, x.active = false → x.recordsAhead = 0 ∧ x ≠ .running ∧ x ≠ .draining := by
    intro x hx
    cases x with
    | unconfigured | idle | faulted => decide
    | armed | running | draining => exact absurd hx (by decide)
  have hout := h.outbox
  have hahead := StreamView.ahead_mono (v := w) (w := v) (by rw [hin]; exact id) hd
  have h1 := none hv
  have h2 := none hw
  refine ⟨by omega, hf, by rw [hc, hin]; exact h.head, fun u x => ?_, fun u => ⟨hw, ?_⟩,
    fun e => absurd e h2.2.2⟩
  · rw [hc, hin] at x
    rcases h.isUp (hu ▸ u) x with e | e
    · exact absurd e h1.2.1
    · exact absurd e h1.2.2
  · rw [hr, hc, hin]
    exact (h.notUp (hu ▸ u)).2

theorem configure_command {i : StreamId} {c : StreamConfig} {pages : Nat} (hs : s.configurable i = true)
    (hp : pages ≤ s.freePages + (s.streams[i]).pagesHeld) : CommandStep s (configure i c pages s) := by
  have quietState : (s.streams[i]).state.active = false := by
    unfold State.configurable at hs
    cases e : (s.streams[i]).state <;> simp_all [StreamState.active]
  have part : PartStep s (configure i c pages s) := by
    refine ⟨rfl, rfl, pages_of_holding (f := fun x => x.configure c pages) rfl ?_, id, ⟨[], by simp [configure]⟩,
      fun _ => rfl, id, fun _ _ => rfl⟩
    show s.freePages + (s.streams[i]).pagesHeld - pages + pages = _
    omega
  refine ⟨part, outboxes_of_view (i := i) (fun j hj => ?_) rfl rfl (fun h => ?_), BitVec.le_refl _⟩
  · exact view_congr j (upd_other _ _ hj) rfl rfl rfl rfl rfl
  · have state : ((configure i c pages s).streams[i]).state = .idle := congrArg StreamContext.state (upd_same _ i _)
    refine h.atRest quietState ?_ rfl rfl rfl rfl id h.fresh
    show ((configure i c pages s).streams[i]).state.active = false
    rw [state]
    rfl

theorem configureOwner_command (f : ConfigureFields) (i : StreamId) (v : State) :
    CommandStep v (configureOwner f i v).state := by
  unfold configureOwner
  split
  · exact .refl v
  · rename_i hs
    split
    · exact .refl v
    · split
      · exact .refl v
      · split
        · exact .refl v
        · exact configure_command (by simpa using hs) (by omega)

/-- An IDLE stream with an empty outbox in UP is armed with its outbox in order (R6). -/
theorem arm_ok {i : StreamId} {c : StreamConfig} (h : (s.view i).Ok 0) (hs : (s.view i).state = .idle)
    (hr : (s.view i).records = 0) (hu : (s.view i).up = true) : ((arm i c s).view i).Ok 0 := by
  have clear : (s.modStream i StreamContext.clearRun).view i = { s.view i with aborted := false } := by
    rw [view_modStream]; rfl
  have cleared : ((s.modStream i StreamContext.clearRun).view i).Ok 0 := by
    rw [clear]
    exact ⟨h.outbox, h.fresh, h.head, h.isUp, h.notUp, fun e => by rw [hs] at e; cases e⟩
  have triggered : ∀ source, ((takeTrigger i source (s.modStream i StreamContext.clearRun)).view i).Ok 0 := fun source =>
    takeTrigger_ok source cleared (.inr (by rw [clear]; exact ⟨hs, hr, hu⟩))
  have waiting : (((s.modStream i StreamContext.clearRun).modStream i (fun x => { x with state := .armed })).view i).Ok 0 := by
    obtain ⟨hc, hw⟩ := h.bare hu (by rw [hs]; simp) (by rw [hs]; simp)
    have hahead := (s.view i).ahead_le
    rw [view_modStream, clear]
    refine ⟨?_, h.fresh, h.head, fun _ x => ?_, fun x => absurd (hu.symm.trans x) (by decide),
      fun e => by cases e⟩
    · show (s.view i).records + 3 + (s.view i).ahead + 0 ≤ 6
      omega
    · rcases x with x | x
      · exact absurd hc x
      · exact absurd (hw.symm.trans x) (by decide)
  unfold arm
  dsimp only
  split
  · exact triggered _
  · split
    · exact triggered _
    · exact waiting
  all_goals exact waiting

theorem armOwner_command (i : StreamId) (v : State) (hup : v.linkUp = true) : CommandStep v (armOwner i v).state := by
  unfold armOwner
  split
  · rename_i hs _
    split
    · exact .refl v
    · rename_i ho
      split
      · exact .refl v
      · refine (clearRun_arm_step i _ v).command fun h => arm_ok h hs ?_ hup
        have empty : v.outboxes[i] = [] := by simpa using ho
        show (v.outboxes[i]).length = 0
        rw [empty]
        rfl
  · exact .refl v

theorem startOwner_command (i : StreamId) (v : State) : CommandStep v (startOwner i v).state := by
  unfold startOwner
  split
  · rename_i hs
    exact (takeTrigger_step i _ v).command fun h => takeTrigger_ok _ h (.inl hs)
  · exact .refl v

theorem stopOwner_command (i : StreamId) (v : State) : CommandStep v (stopOwner i v).state := by
  unfold stopOwner
  split
  · rename_i hs
    exact (endArmed_step i _ v).command fun h => endArmed_ok _ h hs
  · rename_i hs
    exact (enterDraining_step i _ v).command fun h => enterDraining_ok _ (by simp) h hs
  all_goals exact .refl v

theorem abortOwner_command (i : StreamId) (v : State) : CommandStep v (abortOwner i v).state := by
  unfold abortOwner
  split
  · rename_i hs
    exact (endArmed_step i _ v).command fun h => endArmed_ok _ h hs
  · rename_i hs
    exact (abortRun_step i v).command fun h => abortRun_ok h (.inl hs)
  · rename_i hs
    exact (abortRun_step i v).command fun h => abortRun_ok h (.inr hs)
  all_goals exact .refl v

theorem resetStream_command {i : StreamId} (hs : (s.streams[i]).state.active = false) : CommandStep s (resetStream i s) := by
  have bounded : s.BuffersBounded → (resetStream i s).BuffersBounded := by
    intro h j
    by_cases e : j = i
    · subst e
      rw [show (resetStream j s).buffers[j] = [] from upd_same _ j _]
      exact Nat.zero_le _
    · rw [show (resetStream i s).buffers[j] = s.buffers[j] from upd_other _ _ e]
      exact h j
  have part : PartStep s (resetStream i s) :=
    ⟨rfl, rfl, pages_of_holding (f := fun _ => StreamContext.reset) rfl rfl, bounded, ⟨[], by simp [resetStream]⟩,
      fun _ => rfl, id, fun _ _ => rfl⟩
  refine ⟨part, outboxes_of_view (i := i) (fun j hj => ?_) rfl rfl (fun h => ?_), BitVec.le_refl _⟩
  · exact view_congr j (upd_other _ _ hj) rfl (upd_other _ _ hj) rfl rfl rfl
  · have state : ((resetStream i s).streams[i]) = StreamContext.reset := upd_same _ i _
    have empty : (resetStream i s).buffers[i] = [] := upd_same _ i _
    refine h.atRest hs ?_ rfl rfl rfl rfl ?_ ?_
    · show ((resetStream i s).streams[i]).state.active = false
      rw [state]
      rfl
    · show ((resetStream i s).buffers[i]).head?.any _ = true → _
      rw [empty]
      exact fun x => by cases x
    · show ∀ d ∈ ((resetStream i s).buffers[i]).tail, _
      rw [empty]
      exact fun d hd => by cases hd

theorem resetOwner_command (i : StreamId) (v : State) : CommandStep v (resetOwner i v).state := by
  have ended : (v.streams[i]).state.active = false →
      CommandStep v (if !(v.outboxes[i]).isEmpty then refuse v .backlog 0
        else { state := resetStream i v, status := .done, returned := v.returnedRecords i }).state := by
    intro hs
    split
    · exact .refl v
    · exact resetStream_command hs
  unfold resetOwner
  split
  · exact .refl v
  · exact .refl v
  · exact .refl v
  · exact .refl v
  all_goals
    rename_i hs
    exact ended (by rw [hs]; rfl)

/-! ### The Delivery Unit -/

/-- Descriptors that join a queue are fresh, and the queue keeps its bound (R82, R83). -/
theorem appendBuffers_command {i : StreamId} {l : List DescriptorEntry} (hl : (s.buffers[i]).length + l.length ≤ bufferLimit) :
    CommandStep s (s.modBuffers i (fun q => q ++ l.map Descriptor.fresh)) := by
  have own : (s.modBuffers i (fun q => q ++ l.map Descriptor.fresh)).buffers[i] = s.buffers[i] ++ l.map Descriptor.fresh :=
    upd_same _ i _
  have notInUse : ∀ d ∈ l.map Descriptor.fresh, d.inUse = false := by
    intro d hd
    obtain ⟨e, _, rfl⟩ := List.mem_map.mp hd
    rfl
  have part : PartStep s (s.modBuffers i (fun q => q ++ l.map Descriptor.fresh)) := by
    refine ⟨rfl, rfl, id, fun h j => ?_, ⟨[], by simp⟩, fun _ => rfl, id, fun _ _ => rfl⟩
    by_cases e : j = i
    · subst e
      rw [own, List.length_append, List.length_map]
      exact hl
    · rw [show (s.modBuffers i _).buffers[j] = s.buffers[j] from upd_other _ _ e]
      exact h j
  refine ⟨part, outboxes_of_view (i := i) (fun j hj => ?_) rfl rfl (fun h => ?_), BitVec.le_refl _⟩
  · exact view_congr j rfl rfl (upd_other _ _ hj) rfl rfl rfl
  · rw [view_modBuffers]
    have hb : (s.view i).buffers = s.buffers[i] := rfl
    have hahead := StreamView.ahead_mono (w := s.view i)
      (v := { s.view i with buffers := s.buffers[i] ++ l.map Descriptor.fresh }) id (by
        rw [hb]
        cases s.buffers[i] with
        | cons d rest => exact id
        | nil =>
          intro x
          rw [Option.any_eq_true] at x
          obtain ⟨d, hd, hx⟩ := x
          have := notInUse d (List.mem_of_head? hd)
          simp [hx] at this)
    refine ⟨le_trans (Nat.add_le_add_right (Nat.add_le_add_left hahead _) 0) h.outbox, fun d hd => ?_, h.head, h.isUp,
      h.notUp, h.fast⟩
    have hfresh := h.fresh
    rw [hb] at hfresh
    revert hd hfresh
    cases s.buffers[i] with
    | nil => exact fun hd _ => notInUse d (List.mem_of_mem_tail hd)
    | cons a rest => exact fun hd hfresh => (List.mem_append.mp hd).elim (hfresh d) (notInUse d)

theorem noteEligible_command (i : StreamId) (s t : State) : CommandStep t (noteEligible i s t) := by
  refine ⟨noteEligible_part i s t, ?_, ?_⟩ <;> rw [noteEligible_eq]
  · exact outboxes_of_same rfl rfl rfl rfl rfl rfl
  · exact BitVec.le_refl _

theorem postBuffersOwner_command (stream count : Byte) (entries : Vector DescriptorEntry 3) (v : State) :
    CommandStep v (postBuffersOwner stream count entries v).state := by
  unfold postBuffersOwner
  split
  · rename_i i n _ hn
    dsimp only
    split
    · exact .refl v
    · split
      · exact .refl v
      · split
        · exact .refl v
        · rename_i hfull
          refine (appendBuffers_command ?_).trans (noteEligible_command i v _)
          have := List.length_take_le n entries.toList
          omega
  · exact .refl v

theorem reclaimOwner_command (stream : Byte) (v : State) : CommandStep v (reclaimOwner stream v).state := by
  have emptied : ∀ i : StreamId, (v.streams[i]).state.active = false →
      CommandStep v (if !(v.outboxes[i]).isEmpty then refuse v .backlog 0 else
        { state := v.modBuffers i (fun _ => []), status := .done, detail := (v.buffers[i]).length,
          returned := v.returnedRecords i }).state := by
    intro i hs
    split
    · exact .refl v
    · refine (modBuffers_step i (fun _ => []) v (Nat.zero_le _)).command fun h => ?_
      rw [view_modBuffers]
      exact h.atRest hs hs rfl rfl rfl rfl (fun x => by cases x) (fun d hd => by cases hd)
  unfold reclaimOwner
  split
  · exact .refl v
  · rename_i i _
    split
    · rename_i hs
      exact emptied i (by rw [hs]; rfl)
    · rename_i hs
      exact emptied i (by rw [hs]; rfl)
    all_goals exact .refl v

/-! ### The Order Unit -/

theorem emit_up_command (item : BusItem) (hup : s.linkUp = true) : CommandStep s (s.emit item) :=
  ⟨PartStep.emit_up item hup, outboxes_of_same rfl rfl rfl rfl rfl rfl, BitVec.le_refl _⟩

theorem takeStatus_command (target stream part : Byte) (address : Long) (order : OrderInHand) (v : State)
    (hup : v.linkUp = true) : CommandStep v (takeStatus target stream part address order v) := by
  unfold takeStatus
  split
  · exact finishOrder_command order (refuse v _ _)
  · exact (emit_up_command _ hup).trans (emit_up_command _ hup)

theorem endStatusWrite_command (ok : Bool) (s : State) : CommandStep s (endStatusWrite ok s) := by
  unfold endStatusWrite
  split
  · split
    · exact .refl s
    · split
      · exact finishOrder_command _ (refuse s _ _)
      · exact dropFetch_command s
  all_goals exact .refl s

theorem endLateFetch_command (s : State) : CommandStep s (endLateFetch s) := by
  unfold endLateFetch
  split
  · split
    · exact .refl s
    · exact dropFetch_command s
  all_goals exact .refl s

theorem reofferOrderRecord_command (s : State) : CommandStep s (reofferOrderRecord s) := by
  unfold reofferOrderRecord
  split
  · split
    · exact (placeLeft_step _ _ s).command
    · exact .refl s
  all_goals exact .refl s

theorem onStream_command {owner : StreamId → State → Answer} {v : State}
    (h : ∀ i, CommandStep v (owner i v).state) (stream : Byte) : CommandStep v (onStream stream owner v).state := by
  unfold onStream
  split
  · exact h _
  · exact .refl v

end Sys2Proof.Machine
end

