-- ==== Sys2Proof/Proofs/LinkSteps.lean ====
section
/-!
PROOFS. Proofs/LinkSteps.lean: what the commands that reach the link's own state can do, and with them every command: the
statements about pages, rings, buffer queues, outboxes, the quiet outside UP and the count that never falls.
-/

namespace Sys2Proof.Machine

variable {s t u : State}

/-! ### Steps that may move the link -/

/-- What any command can do. -/
structure LinkStep (s t : State) : Prop where
  pages : s.PagesAccounted → t.PagesAccounted
  buffers : s.BuffersBounded → t.BuffersBounded
  ordered : s.RingsOrdered → t.RingsOrdered
  outboxes : s.OutboxesOrdered → t.OutboxesOrdered
  quiet : s.QuietOutsideUp → t.QuietOutsideUp
  silent : s.QuietOutsideUp → s.linkUp = false →
    t.bus = s.bus ∨ (t.link.state = .loading ∧ t.bus = s.bus ++ [.read t.link.cbAddress 128])

/-- A step of the part under which the link does not move keeps the quiet outside UP. -/
theorem PartStep.quietOutsideUp (h : PartStep s t) (q : s.QuietOutsideUp) : t.QuietOutsideUp := by
  intro down
  obtain ⟨noRing, noGeometry⟩ := q (h.linkUp ▸ down)
  exact ⟨h.none noRing, h.geometry.trans noGeometry⟩

theorem PartStep.link' (h : PartStep s t) (o : s.OutboxesOrdered → t.OutboxesOrdered) : LinkStep s t :=
  ⟨h.pages, h.buffers, h.ordered, o, h.quietOutsideUp, fun q down => .inl (h.quiet down (q down).1)⟩

theorem CommandStep.move (h : CommandStep s t) : LinkStep s t := h.part.link' h.outboxes

theorem LinkStep.refl (s : State) : LinkStep s s := (CommandStep.refl s).move

/-- A step in UP, where anything may be issued, before one that issues nothing of its own. -/
theorem LinkStep.trans_up (h : LinkStep s t) (k : LinkStep t u) (hup : s.linkUp = true) : LinkStep s u :=
  ⟨fun p => k.pages (h.pages p), fun p => k.buffers (h.buffers p), fun p => k.ordered (h.ordered p),
    fun p => k.outboxes (h.outboxes p), fun p => k.quiet (h.quiet p), fun _ down => by rw [hup] at down; cases down⟩

/-- A step that issues nothing, before any other. -/
theorem LinkStep.trans_silent (h : LinkStep s t) (k : LinkStep t u) (hb : t.bus = s.bus)
    (hl : s.linkUp = false → t.linkUp = false) : LinkStep s u :=
  ⟨fun p => k.pages (h.pages p), fun p => k.buffers (h.buffers p), fun p => k.ordered (h.ordered p),
    fun p => k.outboxes (h.outboxes p), fun p => k.quiet (h.quiet p), fun q down => by
      rw [← hb]; exact k.silent (h.quiet q) (hl down)⟩

/-! ### Teardown -/

theorem teardown_pagesHeld (x : StreamContext) : x.teardown.pagesHeld = x.pagesHeld := by
  unfold StreamContext.teardown
  split <;> rfl

theorem teardown_pages (p : s.PagesAccounted) : (teardown s).PagesAccounted := by
  refine Eq.trans ?_ p
  refine congrArg (s.freePages + ·) (pagesHeldByAll_congr fun i => ?_)
  exact (congrArg StreamContext.pagesHeld (mapAll_get s.streams StreamContext.teardown i.val i.isLt)).trans
    (teardown_pagesHeld _)

/-- After the beginning of a teardown no ring is enabled, no descriptor queued and no record kept (R172). -/
theorem teardown_empties (s : State) : (∀ n : RingId, (teardown s).rings[n] = none) ∧
    (∀ i : StreamId, (teardown s).buffers[i] = []) ∧ (∀ i : StreamId, (teardown s).outboxes[i] = []) ∧
    (teardown s).orders.geometry = none :=
  ⟨fun n => Vector.getElem_replicate n.isLt, fun i => Vector.getElem_replicate i.isLt,
    fun i => Vector.getElem_replicate i.isLt, rfl⟩

theorem teardown_ordered (s : State) : (teardown s).RingsOrdered := by
  intro n r h
  rw [(teardown_empties s).1 n] at h
  cases h

theorem teardown_bounded (s : State) : (teardown s).BuffersBounded := by
  intro i
  rw [(teardown_empties s).2.1 i]
  exact Nat.zero_le _

/-- The view of a stream after the beginning of a teardown. -/
theorem view_teardown (s : State) (i : StreamId) :
    (teardown s).view i = { s.view i with
      state := (s.streams[i]).teardown.state
      aborted := (s.streams[i]).teardown.endReason == some .aborted
      walking := (s.streams[i]).teardown.pass.isSome
      closed := (teardownStaging s.streams[i] s.staging[i]).closed
      forming := (teardownStaging s.streams[i] s.staging[i]).forming
      buffers := []
      records := 0 } := by
  have hs : (teardown s).streams[i] = (s.streams[i]).teardown := mapAll_get _ _ i.val i.isLt
  have hq : (teardown s).staging[i] = teardownStaging s.streams[i] s.staging[i] := by
    simp [teardown, recomputeAlert]
  obtain ⟨_, hb, ho, _⟩ := teardown_empties s
  unfold State.view
  rw [hs, hq, hb, ho]
  rfl

/-- No stream is active after the beginning of a teardown (R26). -/
theorem teardown_not_active (x : StreamContext) : x.teardown.state.active = false := by
  unfold StreamContext.teardown
  split
  · rfl
  · rename_i h
    exact Bool.eq_false_of_not_eq_true h

theorem keepWriting_closed (q : Staging) :
    q.keepWriting.closed = [] ∨ ∃ b rest, q.closed = b :: rest ∧ b.writing = true ∧ q.keepWriting.closed = [b] := by
  unfold Staging.keepWriting
  split
  · rename_i b rest e
    split
    · rename_i h
      exact .inr ⟨b, rest, e, h, rfl⟩
    · exact .inl rfl
  · exact .inl rfl

/-- Every view is in order after the beginning of a teardown in UP, however the link goes on from there. -/
theorem teardown_ok {i : StreamId} {up : Bool} (h : (s.view i).Ok 0) (hup : (s.view i).up = true) (hdown : up = false) :
    ({ (teardown s).view i with up := up } : StreamView).Ok 0 := by
  have inactive := teardown_not_active s.streams[i]
  have closed : (teardownStaging s.streams[i] s.staging[i]).closed = [] ∨
      ∃ b rest, (s.view i).closed = b :: rest ∧ b.writing = true ∧
        (teardownStaging s.streams[i] s.staging[i]).closed = [b] := by
    unfold teardownStaging
    split
    · exact keepWriting_closed _
    · rename_i ha
      refine .inl ((h.bare hup ?_ ?_).1)
      · intro e; rw [show (s.streams[i]).state = .running from e] at ha; exact ha rfl
      · intro e; rw [show (s.streams[i]).state = .draining from e] at ha; exact ha rfl
  have quiet : (s.streams[i]).teardown.state.recordsAhead = 0 ∧ (s.streams[i]).teardown.state ≠ .draining := by
    revert inactive
    cases (s.streams[i]).teardown.state <;> decide
  rw [view_teardown]
  refine ⟨?_, fun d hd => absurd hd List.not_mem_nil, fun b rest e => ?_, fun x => absurd (hdown.symm.trans x) (by decide),
    fun _ => ⟨inactive, rfl, ?_⟩, fun e => absurd e quiet.2⟩
  · refine le_trans (Nat.add_le_add_right (Nat.add_le_add_left (StreamView.ahead_le _) _) 0) ?_
    show 0 + (s.streams[i]).teardown.state.recordsAhead + 1 + 0 ≤ 6
    rw [quiet.1]
    decide
  · rcases closed with e' | ⟨c, l, hc, hw, e'⟩
    · rw [show _ = [] from e'] at e; cases e
    · rw [show _ = [c] from e'] at e
      cases e
      exact ⟨fun _ => (h.head b l hc).1 hw, fun x hx => by cases hx⟩
  · rcases closed with e' | ⟨c, l, hc, hw, e'⟩
    · exact .inl e'
    · exact .inr ⟨by rw [show _ = [c] from e']; rfl, (h.head c l hc).1 hw⟩

/-- A teardown that begins as the link leaves UP for STOPPING or FAULT keeps the part in order (R172). -/
theorem teardown_move {l : HostLink} (hup : s.linkUp = true) (hl : l.state = .stopping ∨ l.state = .fault) :
    LinkStep s (teardown { s with link := l }) := by
  have down : (l.state == LinkState.up) = false := by rcases hl with e | e <;> rw [e] <;> rfl
  refine ⟨fun p => teardown_pages p, fun _ => teardown_bounded _, fun _ => teardown_ordered _, fun o => ?_, fun _ _ =>
    ⟨(teardown_empties _).1, rfl⟩, fun _ x => by rw [hup] at x; cases x⟩
  obtain ⟨v, _⟩ := (outboxesOrdered_iff s).mp o
  refine (outboxesOrdered_iff _).mpr ⟨fun i => ?_, fun e => ?_⟩
  · exact teardown_ok (s := s) (v i) hup down
  · have e' : l.state = .down ∨ l.state = .loading := e
    rcases hl with x | x <;> rw [x] at e' <;> rcases e' with y | y <;> cases y

theorem linkFault_move (cause : FaultCause) (detail : Half) (s : State) : LinkStep s (linkFault cause detail s) := by
  unfold linkFault
  split
  · rename_i hup
    exact teardown_move hup (.inr rfl)
  · exact .refl s

/-! ### Loading, resets and the register window -/

/-- A change of the link's registers and of the read in flight, in which the link stays outside UP or in it, and does not
enter DOWN or LOADING from elsewhere. -/
theorem link_move {l : HostLink} (hu : (l.state == .up) = s.linkUp)
    (hq : l.state = .down ∨ l.state = .loading → s.link.state = .down ∨ s.link.state = .loading ∨ s.writeInFlight = none) :
    LinkStep s { s with link := l } := by
  refine ⟨id, id, id, fun o => ?_, fun q x => q (hu ▸ x), fun _ _ => .inl rfl⟩
  obtain ⟨v, q⟩ := (outboxesOrdered_iff s).mp o
  refine (outboxesOrdered_iff _).mpr ⟨fun i => ?_, fun e => ?_⟩
  · have : ({ s with link := l } : State).view i = s.view i := by
      unfold State.view
      rw [show ({ s with link := l } : State).linkUp = s.linkUp from hu]
      rfl
    rw [this]
    exact v i
  · rcases hq e with x | x | x
    · exact q (.inl x)
    · exact q (.inr x)
    · exact x

/-- The link enters LOADING from where no write is in flight: it issues the Control Block read, or is in FAULT at once
(R170). -/
theorem startLoading_move (hd : s.linkUp = false) (hw : s.OutboxesOrdered → s.writeInFlight = none) :
    LinkStep s (startLoading s) := by
  have moved : ∀ l : HostLink, (l.state == .up) = false → ∀ B, s.OutboxesOrdered →
      ({ s with link := l, bus := B } : State).OutboxesOrdered := by
    intro l hl B o
    obtain ⟨v, _⟩ := (outboxesOrdered_iff s).mp o
    refine (outboxesOrdered_iff _).mpr ⟨fun i => ?_, fun _ => hw o⟩
    have : ({ s with link := l, bus := B } : State).view i = s.view i := by
      unfold State.view
      rw [hd, show ({ s with link := l, bus := B } : State).linkUp = false from hl]
      rfl
    rw [this]
    exact v i
  unfold startLoading
  split
  · exact ⟨id, id, id, moved _ rfl _, fun q _ => q hd, fun _ _ => .inl rfl⟩
  · exact ⟨id, id, id, moved _ rfl _, fun q _ => q hd, fun _ _ => .inr ⟨rfl, rfl⟩⟩

theorem linkUp_eq_false {x : LinkState} (h : s.link.state = x) (hx : x ≠ .up) : s.linkUp = false := by
  unfold State.linkUp
  rw [h]
  cases x with
  | up => exact absurd rfl hx
  | down | loading | stopping | fault => rfl

theorem linkUp_eq_true (h : s.link.state = .up) : s.linkUp = true := by
  unfold State.linkUp
  rw [h]
  rfl

/-- In DOWN and LOADING no write is in flight (R174). -/
theorem noWrite_of (h : s.link.state = .down ∨ s.link.state = .loading) (o : s.OutboxesOrdered) : s.writeInFlight = none :=
  o.quiet h

theorem writeEnable_move (enable : Bool) (s : State) : LinkStep s (writeEnable enable s) := by
  unfold writeEnable
  split
  · exact .refl s
  · have keep : LinkStep s { s with link := { s.link with enable := enable } } :=
      link_move rfl fun e => e.imp id Or.inl
    dsimp only
    split
    · rename_i hs
      refine keep.trans_silent (startLoading_move ?_ ?_) rfl id
      · exact linkUp_eq_false hs (by simp)
      · exact noWrite_of (.inl hs)
    · rename_i hs
      refine link_move ?_ fun e => ?_
      · exact (linkUp_eq_false hs (by simp)).symm
      · rcases e with e | e <;> cases e
    · rename_i hs
      exact teardown_move (linkUp_eq_true hs) (.inl rfl)
    · exact keep

theorem writeReset_move (s : State) : LinkStep s (writeReset s) := by
  unfold writeReset
  split
  · exact .refl s
  · dsimp only
    split
    · rename_i hs
      exact teardown_move (linkUp_eq_true hs) (.inl rfl)
    all_goals exact link_move rfl fun e => e.imp id Or.inl

/-- A part at its reset values is in order: no stream is configured, and nothing is staged, queued or kept (R176, R177). -/
theorem resetValues_outboxes {v : State} (h1 : v.streams = Vector.replicate 8 StreamContext.reset)
    (h2 : v.staging = Vector.replicate 8 Staging.empty) (h3 : v.buffers = Vector.replicate 8 [])
    (h4 : v.outboxes = Vector.replicate 8 []) (h5 : v.writeInFlight = none) (h6 : v.link.state = .down) :
    v.OutboxesOrdered := by
  have hup : v.linkUp = false := linkUp_eq_false h6 (by simp)
  refine (outboxesOrdered_iff v).mpr ⟨fun i => ?_, fun _ => h5⟩
  have view : v.view i = ⟨.unconfigured, false, false, [], [], [], 0, false, false⟩ := by
    unfold State.view State.writing
    rw [h1, h2, h3, h4, h5, hup]
    simp [StreamContext.reset, Staging.empty]
  rw [view]
  exact ⟨by simp [StreamState.recordsAhead, StreamView.ahead], (by simp), (by simp), (by simp), fun _ => ⟨rfl, rfl, .inl rfl⟩,
    (by simp)⟩

/-- The reset values of a part, whatever its clock, queue and output (R176, R177). -/
theorem resetValues_move {v : State} (h1 : v.streams = Vector.replicate 8 StreamContext.reset)
    (h2 : v.staging = Vector.replicate 8 Staging.empty) (h3 : v.buffers = Vector.replicate 8 [])
    (h4 : v.outboxes = Vector.replicate 8 []) (h5 : v.writeInFlight = none) (h6 : v.link.state = .down)
    (h7 : v.freePages = 64) (h8 : v.rings = Vector.replicate 4 none) (h9 : v.orders.geometry = none)
    (h10 : v.bus = s.bus) : LinkStep s v := by
  refine ⟨fun _ => ?_, fun _ i => ?_, fun _ n r hr => ?_, fun _ => resetValues_outboxes h1 h2 h3 h4 h5 h6,
    fun _ _ => ⟨fun n => ?_, h9⟩, fun _ _ => .inl h10⟩
  · unfold State.PagesAccounted
    rw [h1, h7]
    rfl
  · rw [h3, show (Vector.replicate 8 ([] : List Descriptor))[i] = [] from Vector.getElem_replicate i.isLt]
    exact Nat.zero_le _
  · rw [h8, show (Vector.replicate 4 (none : Option Ring))[n] = none from Vector.getElem_replicate n.isLt] at hr
    cases hr
  · rw [h8]
    exact Vector.getElem_replicate n.isLt

theorem resetEffect_move (p : PinLevels) (s : State) : LinkStep s (resetEffect p s) := by
  unfold resetEffect
  split
  · exact resetValues_move rfl rfl rfl rfl rfl rfl rfl rfl rfl rfl
  · exact .refl s

theorem powerOnValues_move (p : PinLevels) (s : State) : LinkStep s (powerOnValues p s) :=
  resetValues_move rfl rfl rfl rfl rfl rfl rfl rfl rfl rfl

/-- Without a host read outstanding no block write is in flight (R174). -/
theorem noWrite_of_noReads (h : s.readsOutstanding = 0) : s.writeInFlight = none := by
  unfold State.readsOutstanding at h
  cases e : s.writeInFlight with
  | none => rfl
  | some w => simp [e] at h

theorem reachDown_move (s : State) : LinkStep s (reachDown s) := by
  unfold reachDown
  split
  · rename_i c
    obtain ⟨hs, hr, _⟩ := c
    have noWrite := noWrite_of_noReads hr
    have down : LinkStep s (s.setLink .down) :=
      link_move (linkUp_eq_false hs (by simp)).symm fun _ => .inr (.inr noWrite)
    dsimp only
    split
    · exact down.trans_silent (startLoading_move rfl fun _ => noWrite) rfl fun _ => rfl
    · exact down
  · exact .refl s

theorem writeTail_move (value : Word) (s : State) : LinkStep s (writeTail value s) := by
  unfold writeTail
  split
  · exact .refl s
  · split
    · exact .refl s
    · split
      · have moved : CommandStep s { s with orders := { s.orders with tail := value.toNat } } := orders_command rfl
        exact (moved.trans (beginFetch_step _).command).move
      · exact linkFault_move _ _ s

/-- A served outbox holds no more records than before, and nothing else of its stream changes (R157 step 2). -/
theorem view_serveOutbox (i : StreamId) (fuel : Nat) (s : State) :
    ∃ n, n ≤ (s.view i).records ∧ (serveOutbox i fuel s).view i = { s.view i with records := n } := by
  induction fuel generalizing s with
  | zero => exact ⟨_, Nat.le_refl _, rfl⟩
  | succ fuel ih =>
    unfold serveOutbox
    split
    · exact ⟨_, Nat.le_refl _, rfl⟩
    · rename_i e rest ho
      split
      · rename_i t h
        obtain ⟨n, hn, hv⟩ := ih (t.modOutbox i (fun _ => rest))
        rw [view_modOutbox, (place_step h).view i] at hn hv
        have records : (s.view i).records = rest.length + 1 := congrArg List.length ho
        refine ⟨n, ?_, hv⟩
        have : n ≤ rest.length := hn
        omega
      · exact ⟨_, Nat.le_refl _, rfl⟩

theorem serveOutbox_command (i : StreamId) (fuel : Nat) (s : State) : CommandStep s (serveOutbox i fuel s) := by
  refine (serveOutbox_step i fuel s).command fun h => ?_
  obtain ⟨n, hn, hv⟩ := view_serveOutbox i fuel s
  rw [hv]
  refine ⟨?_, h.fresh, h.head, h.isUp, fun u => ?_, h.fast⟩
  · have out : (s.view i).records + (s.view i).state.recordsAhead + (s.view i).ahead + 0 ≤ 6 := h.outbox
    show n + (s.view i).state.recordsAhead + (s.view i).ahead + 0 ≤ 6
    omega
  · obtain ⟨inactive, hr, hc⟩ := h.notUp u
    exact ⟨inactive, Nat.le_zero.mp (hr ▸ hn), hc⟩

theorem serveOutboxes_command (s : State) : CommandStep s (serveOutboxes s) :=
  .foldl _ (fun s i => (serveOutbox_command i _ s).trans (noteEligible_command i s _)) _ s

theorem reportRoom_command (n : RingId) (s : State) : CommandStep s (reportRoom n s) := by
  refine ⟨reportRoom_part n s, ?_, ?_⟩
  · unfold reportRoom
    split
    · exact id
    · split
      · exact outboxes_of_same rfl rfl rfl rfl rfl rfl
      · exact id
  · unfold reportRoom
    split
    · exact BitVec.le_refl _
    · split
      · show s.timebase.count ≤ (if _ then _ else _ : Timebase).count
        split <;> exact BitVec.le_refl _
      · exact BitVec.le_refl _

theorem acceptHead_command {n : RingId} {r : Ring} {value : Nat} (hr : s.rings[n] = some r)
    (hb : r.badHead value = false) : CommandStep s (acceptHead n r value s) := by
  unfold acceptHead
  refine CommandStep.trans ?_ (rearm_step n _).command
  refine CommandStep.trans ?_ (reportRoom_command n _)
  refine CommandStep.trans ?_ (serveOutboxes_command _)
  refine CommandStep.trans ?_ (movePending_step n _ _).command
  exact (ringStep_setRing hr _ (fun o => o.acceptHead hb)).command

theorem writeHead_move (n : RingId) (value : Word) (s : State) : LinkStep s (writeHead n value s) := by
  unfold writeHead
  split
  · exact .refl s
  · split
    · exact .refl s
    · rename_i hr
      split
      · exact linkFault_move _ _ s
      · rename_i hb
        exact (acceptHead_command hr (Bool.eq_false_of_not_eq_true hb)).move

theorem writeCbAddress_move (address : Long) (s : State) : LinkStep s (writeCbAddress address s) := by
  unfold writeCbAddress
  split
  · exact link_move rfl fun e => e.imp id Or.inl
  · exact .refl s

theorem writeRegister_move (offset : BitVec 12) (value : Word) (s : State) :
    LinkStep s (writeRegister offset value s) := by
  unfold writeRegister
  split_ifs
  · exact writeReset_move s
  · exact writeEnable_move _ s
  · exact writeCbAddress_move _ s
  · exact writeCbAddress_move _ s
  · exact writeTail_move _ s
  · exact writeHead_move 0 _ s
  · exact writeHead_move 1 _ s
  · exact writeHead_move 2 _ s
  · exact writeHead_move 3 _ s
  · exact .refl s

/-- Outside UP the upper half of an 8-byte write reaches no register but the upper half of the Control Block address, in
DOWN (R167). -/
theorem writeRegister_upper {offset : BitVec 12} (ho : offset.toNat % 8 = 0) (value : Word) {s : State}
    (hd : s.linkUp = false) : writeRegister (offset + 4) value s = s ∨
      (s.link.state = .down ∧ ∃ a, writeRegister (offset + 4) value s = { s with link := { s.link with cbAddress := a } }) := by
  have noHead : ∀ n, writeHead n value s = s := fun n => if_pos (by rw [hd]; rfl)
  have aligned : ∀ r : BitVec 12, r.toNat % 8 ≠ 4 → offset + 4 ≠ r := by
    intro r hr e
    apply hr
    rw [← e, BitVec.toNat_add]
    have := offset.isLt
    have : (4 : BitVec 12).toNat = 4 := rfl
    omega
  unfold writeRegister
  rw [if_neg (aligned 0x000 (by decide)), if_neg (aligned 0x008 (by decide)), if_neg (aligned 0x010 (by decide)),
    if_neg (aligned 0x020 (by decide)), if_neg (aligned 0x028 (by decide)), noHead, noHead]
  split_ifs
  · unfold writeCbAddress
    split
    · rename_i h
      exact .inr ⟨h, _, rfl⟩
    · exact .inl rfl
  all_goals exact .inl rfl

/-- No write of a register brings the link into UP (Table 11-2). -/
theorem writeRegister_stays_down (offset : BitVec 12) (value : Word) {s : State} (hd : s.linkUp = false) :
    (writeRegister offset value s).linkUp = false := by
  have notUp : s.link.state ≠ .up := fun e => by rw [linkUp_eq_true e] at hd; cases hd
  have reset : (writeReset s).linkUp = false := by
    unfold writeReset
    split
    · exact hd
    · dsimp only
      split
      · rename_i hs
        exact absurd hs notUp
      all_goals exact hd
  have loading : ∀ v : State, (startLoading v).linkUp = false := by
    intro v
    unfold startLoading
    split <;> rfl
  have enable : ∀ x, (writeEnable x s).linkUp = false := by
    intro x
    unfold writeEnable
    split
    · exact hd
    · dsimp only
      split
      · exact loading _
      · rfl
      · rename_i hs
        exact absurd hs notUp
      · exact hd
  have address : ∀ a, (writeCbAddress a s).linkUp = false := by
    intro a
    unfold writeCbAddress
    split <;> exact hd
  have head : ∀ n, writeHead n value s = s := fun n => if_pos (by rw [hd]; rfl)
  have tail : writeTail value s = s := if_pos (by rw [hd]; rfl)
  unfold writeRegister
  rw [head, head, head, head, tail]
  split_ifs
  · exact reset
  · exact enable _
  · exact address _
  · exact address _
  all_goals exact hd

theorem writeWindow_move (offset : BitVec 12) (width : AccessWidth) (value : Long) (s : State) :
    LinkStep s (writeWindow offset width value s) := by
  unfold writeWindow
  split
  · exact .refl s
  · exact .refl s
  · exact .refl s
  · split
    · exact writeRegister_move _ _ s
    · exact .refl s
  · split
    · rename_i ho
      have low := writeRegister_move offset (value.extractLsb' 0 32) s
      have high := writeRegister_move (offset + 4) (value.extractLsb' 32 32) (writeRegister offset (value.extractLsb' 0 32) s)
      by_cases hup : s.linkUp = true
      · exact low.trans_up high hup
      · have down : s.linkUp = false := Bool.eq_false_of_not_eq_true hup
        refine ⟨fun p => high.pages (low.pages p), fun p => high.buffers (low.buffers p),
          fun p => high.ordered (low.ordered p), fun p => high.outboxes (low.outboxes p), fun p => high.quiet (low.quiet p),
          fun q _ => ?_⟩
        rcases writeRegister_upper ho (value.extractLsb' 32 32)
          (writeRegister_stays_down offset (value.extractLsb' 0 32) down) with same | ⟨hs, a, moved⟩
        · rw [same]
          exact low.silent q down
        · rw [moved]
          rcases low.silent q down with bus | ⟨loading, _⟩
          · exact .inl bus
          · rw [hs] at loading
            cases loading
    · exact .refl s

/-! ### The ends of reads that reach the link -/

theorem endCbRead_move (s : State) : LinkStep s s.endCbRead := link_move rfl fun e => e.imp id Or.inl

theorem loads_iff (s : State) : s.loads = true ↔ s.link.state = .loading ∧ s.link.resetPending = false := by
  unfold State.loads
  cases s.link.state <;> simp

theorem loadingFault_move (cause : FaultCause) (detail : Half) (hs : s.link.state = .loading) :
    LinkStep s (loadingFault cause detail s) :=
  link_move (linkUp_eq_false hs (by simp)).symm fun e => by rcases e with e | e <;> cases e

theorem failLoading_move (s : State) : LinkStep s (failLoading s) := by
  unfold failLoading
  split
  · exact .refl s
  · dsimp only
    split
    · rename_i h
      exact (endCbRead_move s).trans_silent (loadingFault_move _ _ ((loads_iff _).mp h).1) rfl id
    · exact endCbRead_move s

/-- The sizes of Table 11-3 are not 0. -/
theorem sizeOk_pos {n : Nat} (h : sizeOk n = true) : 0 < n := by
  unfold sizeOk at h
  rw [List.contains_iff_mem] at h
  rcases Nat.eq_zero_or_pos n with e | e
  · subst e
    exact absurd h (by decide)
  · exact e

/-- A Control Block that passes every check has a size for each enabled ring. -/
theorem sizeOk_of_check {cb : ControlBlock} (h : checkControlBlock cb = none) {n : RingId}
    (he : (cb.rings[n]).enable = true) : sizeOk (cb.rings[n]).size.toNat = true := by
  have none : firstFailing cb (fun r => sizeOk r.size.toNat) = none := by
    unfold checkControlBlock at h
    split_ifs at h
    revert h
    cases firstFailing cb (fun r => sizeOk r.size.toNat) with
    | none => exact fun _ => rfl
    | some n => exact fun e => by cases e
  have passes := List.find?_eq_none.mp none n (by simp)
  have : (cb.rings[n]).enable = true → sizeOk (cb.rings[n]).size.toNat = true := by simpa using passes
  exact this he

/-- A ring as loading leaves it is in order (R154). -/
theorem loadRing_ordered {e : RingEntry} {r : Ring} (h : loadRing e = some r) (hs : sizeOk e.size.toNat = true) :
    r.Ordered := by
  have pos := sizeOk_pos hs
  unfold loadRing at h
  split at h
  · cases h
    have empty : ∀ n : Nat, (0 + 2 * n - 0) % (2 * n) = 0 := fun n => by simp
    exact ⟨pos, by show 0 < 2 * e.size.toNat; omega, by show 0 < 2 * e.size.toNat; omega, by
      show (0 + 2 * _ - 0) % (2 * _) ≤ _; rw [empty]; exact Nat.zero_le _, Nat.zero_le _⟩
  · cases h

/-- A loading that succeeds enables the rings of the Control Block, with the part as it is otherwise (R171). -/
theorem loadControlBlock_move {cb : ControlBlock} (h : checkControlBlock cb = none) (hs : s.link.state = .loading) :
    LinkStep s (loadControlBlock cb s) := by
  have down : s.linkUp = false := linkUp_eq_false hs (by simp)
  refine ⟨id, id, fun _ n r hr => ?_, fun o => ?_, fun _ x => absurd x (by simp [loadControlBlock, State.linkUp]),
    fun _ _ => .inl rfl⟩
  · have : loadRing cb.rings[n] = some r := by
      rw [← hr]
      simp [loadControlBlock]
    refine loadRing_ordered this (sizeOk_of_check h ?_)
    by_contra x
    rw [loadRing, if_neg x] at this
    cases this
  · obtain ⟨v, q⟩ := (outboxesOrdered_iff s).mp o
    have noWrite := q (.inr hs)
    refine (outboxesOrdered_iff _).mpr ⟨fun i => ?_, fun _ => noWrite⟩
    have hw : (s.view i).writing = false := by
      show s.writing i = false
      unfold State.writing
      rw [noWrite]
    obtain ⟨inactive, hr, hc⟩ := (v i).notUp down
    have closed : (s.view i).closed = [] := by
      rcases hc with e | ⟨_, e⟩
      · exact e
      · rw [hw] at e; cases e
    show ({ s.view i with up := true } : StreamView).Ok 0
    refine ⟨(v i).outbox, (v i).fresh, (v i).head, fun _ x => ?_, fun x => absurd (show true = false from x) (by decide), (v i).fast⟩
    rcases x with x | x
    · exact absurd closed x
    · rw [show (s.view i).writing = true from x] at hw; cases hw

theorem endLoading_move (cb : ControlBlock) (s : State) : LinkStep s (endLoading cb s) := by
  unfold endLoading
  split
  · exact .refl s
  · split
    · exact .refl s
    · dsimp only
      split
      · rename_i h
        have loading := ((loads_iff _).mp h).1
        split
        · rename_i hc
          exact (endCbRead_move s).trans_silent (loadControlBlock_move hc loading) rfl id
        · exact (endCbRead_move s).trans_silent (loadingFault_move _ _ loading) rfl id
      · exact endCbRead_move s

theorem failFetch_move (s : State) : LinkStep s (failFetch s) := by
  unfold failFetch
  split
  · split
    · rename_i hup
      exact (dropFetch_command s).move.trans_up (linkFault_move _ _ _) hup
    · exact (dropFetch_command s).move
  all_goals exact .refl s

/-! ### SYNC -/

/-- A load of the preset keeps the part in order, whatever it makes of the count (R134). -/
theorem takeLoad_move (a : SyncArm) (streams : List StreamId) (s : State) :
    LinkStep s (takeLoad a streams s) := by
  refine (takeLoad_part a streams s).link' fun o => ?_
  have h := (examineTimes_command streams s).outboxes o
  have loaded : (syncLoad a (examineTimes streams s)).OutboxesOrdered :=
    (handTimebaseEvent_command _ _).outboxes (outboxes_of_same (s := examineTimes streams s) rfl rfl rfl rfl rfl rfl h)
  exact (examineTimes_command streams _).outboxes loaded

theorem handSyncEdge_move (streams : List StreamId) (s : State) : LinkStep s (handSyncEdge streams s) := by
  refine (handSyncEdge_part streams s).link' fun o => ?_
  have fallen : ({ s with syncHigh := false, syncNext := s.elapsed + 1 } : State).OutboxesOrdered :=
    outboxes_of_same (s := s) rfl rfl rfl rfl rfl rfl o
  unfold handSyncEdge
  split
  · exact o
  · dsimp only
    split
    · exact (takeLoad_move _ streams _).outboxes fallen
    · exact (takeLoad_move _ streams _).outboxes fallen
    · exact fallen

theorem atSyncSample_command (s : State) : CommandStep s s.atSyncSample := by
  unfold State.atSyncSample
  split
  · exact (readyAt_command _ s).trans (passTo_command _ _)
  · exact .refl s

theorem endPulse_move (s : State) : LinkStep s (endPulse s) := by
  refine (endPulse_part s).link' fun o => ?_
  unfold endPulse
  split
  · rename_i e _
    have passed := (passTo_command e _).outboxes
      ((handSyncEdge_move (Config.streamOrder s.choices) _).outboxes ((atSyncSample_command s).outboxes o))
    exact outboxes_of_same (s := passTo e _) rfl rfl rfl rfl rfl rfl passed
  all_goals exact o

/-! ### Every command -/

/-- The commands that can move the link, or turn the count back at a SYNC edge (R134). -/
def reachesLinkOrSync : Instr → Bool
  | .orderRead | .linkControlEnable _ | .linkReset | .linkResetEffect _ | .linkDown | .orderTailWrite _ | .crHeadWrite _ _
  | .registerWrite _ _ _ | .controlBlockLoad _ | .controlBlockRead | .powerOnReset _ | .syncFallingEdge _
  | .syncPulseEnd => true
  | _ => false

/-- Every other command is a `CommandStep`. -/
theorem exec_command {c : Instr} (hc : reachesLinkOrSync c = false) (h : exec c s = .next t) : CommandStep s t := by
  cases c with
  | nop hd => cases h; exact takeDecided_command (fun v _ => .refl v) s
  | readStatus hd target stream part address => cases h; exact takeOrder_command (takeStatus_command _ _ _ _) s
  | setChannel hd _ _ _ => cases h; exact takeDecided_command (fun v _ => (setChannelOwner_table _ _ _ v).command) s
  | loadScan hd _ _ _ _ => cases h; exact takeDecided_command (fun v _ => (loadScanOwner_table _ _ _ _ v).command) s
  | clearScan hd _ => cases h; exact takeDecided_command (fun v _ => (clearScanOwner_table _ v).command) s
  | setPace hd _ => cases h; exact takeDecided_command (fun v _ => (setPaceOwner_table _ v).command) s
  | runPace hd _ => cases h; exact takeDecided_command (fun v _ => (runPaceOwner_table _ v).command) s
  | haltPace hd _ => cases h; exact takeDecided_command (fun v _ => (haltPaceOwner_table _ v).command) s
  | setLine hd _ _ => cases h; exact takeDecided_command (fun v _ => (setLineOwner_table _ _ v).command) s
  | configureStream hd f =>
    cases h; exact takeDecided_command (fun v _ => onStream_command (fun i => configureOwner_command f i v) _) s
  | armStream hd _ =>
    cases h; exact takeDecided_command (fun v hup => onStream_command (fun i => armOwner_command i v hup) _) s
  | startStream hd _ => cases h; exact takeDecided_command (fun v _ => onStream_command (fun i => startOwner_command i v) _) s
  | stopStream hd _ => cases h; exact takeDecided_command (fun v _ => onStream_command (fun i => stopOwner_command i v) _) s
  | abortStream hd _ => cases h; exact takeDecided_command (fun v _ => onStream_command (fun i => abortOwner_command i v) _) s
  | resetStream hd _ => cases h; exact takeDecided_command (fun v _ => onStream_command (fun i => resetOwner_command i v) _) s
  | postBuffers hd _ _ _ => cases h; exact takeDecided_command (fun v _ => postBuffersOwner_command _ _ _ v) s
  | reclaimBuffers hd _ => cases h; exact takeDecided_command (fun v _ => reclaimOwner_command _ v) s
  | setWindow hd _ _ _ _ _ => cases h; exact takeDecided_command (fun v _ => (setWindowOwner_table _ _ _ _ _ v).command) s
  | setWatch hd _ => cases h; exact takeDecided_command (fun v _ => (setWatchOwner_table _ v).command) s
  | clearWatch hd _ => cases h; exact takeDecided_command (fun v _ => (clearWatchOwner_table _ v).command) s
  | setTimebase hd _ => cases h; exact takeDecided_command (fun v _ => (setTimebaseOwner_table _ v).command) s
  | armSync hd _ _ => cases h; exact takeDecided_command (fun v _ => (armSyncOwner_table _ _ v).command) s
  | fireSync hd _ _ => cases h; exact takeDecided_command (fun v _ => (fireSyncOwner_table _ _ v).command) s
  | unknownKind hd kind =>
    have harm : exec (.unknownKind hd kind) s = execUnknownKind hd kind s := rfl
    rw [harm] at h
    unfold execUnknownKind at h
    split at h
    · cases h
    · cases h; exact takeDecided_command (owner := fun v => refuse v .unknownKind 0) (fun v _ => .refl v) s
  | statusWriteEnd ok => cases h; exact endStatusWrite_command ok s
  | trigEdge n _ _ => cases h; exact (atSample_command n true s).trans (takeLineEdge_command n _ _ _)
  | gateChange n active => cases h; exact (atSample_command n active s).trans (takeLineChange_command n active _)
  | tick g _ => cases h; exact (readyAt_command _ s).trans (completeTick_command g _ _)
  | timeReached _ streams =>
    cases h; exact ((readyAt_command _ s).trans (passTime_command _ _)).trans (examineTimes_command streams _)
  | armTimeout => cases h; exact (readyAt_command _ s).trans (expireArm_command _)
  | stepCompletion c inputs => cases h; exact (readyAt_command _ s).trans (completeStep_command c inputs _)
  | returnTaken i => cases h; exact takeOldestReturn_command i s
  | watchOffer which _ => cases h; exact takeOffer_command which _ s
  | watchStartRequest m => cases h; exact answerStart_command m s
  | watchHaltRequest m => cases h; exact answerHalt_command m s
  | watchAnswer m => cases h; exact takeAnswer_command m s
  | deliveryGrant => cases h; exact grantFirst_command s
  | blockWriteSuccess => cases h; exact endWrite_command s
  | blockWriteFailure => cases h; exact failWrite_command s
  | flushTimerExpiry i => cases h; exact (readyAt_command _ s).trans (expireFlush_command i _)
  | holdoffExpiry n => cases h; exact (readyAt_command _ s).trans (expireHoldoff_command n _)
  | orderRecordReoffer => cases h; exact reofferOrderRecord_command s
  | timebaseRecordReoffer => cases h; exact reofferTimebaseRecord_command s
  | orderFetchEndAfterTeardown => cases h; exact endLateFetch_command s
  | orderRead | linkControlEnable _ | linkReset | linkResetEffect _ | linkDown | orderTailWrite _ | crHeadWrite _ _
  | registerWrite _ _ _ | controlBlockLoad _ | controlBlockRead | powerOnReset _ | syncFallingEdge _ | syncPulseEnd =>
    cases hc

theorem exec_move {c : Instr} (h : exec c s = .next t) : LinkStep s t := by
  cases hc : reachesLinkOrSync c with
  | false => exact (exec_command hc h).move
  | true =>
    cases c with
    | orderRead => cases h; exact failFetch_move s
    | linkControlEnable enable => cases h; exact writeEnable_move enable s
    | linkReset => cases h; exact writeReset_move s
    | linkResetEffect pins => cases h; exact resetEffect_move pins s
    | linkDown => cases h; exact reachDown_move s
    | orderTailWrite value => cases h; exact writeTail_move value s
    | crHeadWrite n value => cases h; exact writeHead_move n value s
    | registerWrite offset width value => cases h; exact writeWindow_move offset width value s
    | controlBlockLoad cb => cases h; exact endLoading_move cb s
    | controlBlockRead => cases h; exact failLoading_move s
    | powerOnReset pins => cases h; exact powerOnValues_move pins s
    | syncFallingEdge streams =>
      cases h
      have sampled := atSyncSample_part s
      refine ((sampled.trans (handSyncEdge_part streams _))).link' fun o =>
        (handSyncEdge_move streams _).outboxes ((atSyncSample_command s).outboxes o)
    | syncPulseEnd =>
      cases h
      exact ((readyAt_part _ s).trans (endPulse_part _)).link' fun o =>
        (endPulse_move _).outboxes ((readyAt_command _ s).outboxes o)
    | _ => cases hc

/-- A change of the queue and of the number of choices made is none of the part. -/
theorem queue_command (s : State) (l : List Instr) (n : Nat) : CommandStep s { s with pending := l, choices := n } :=
  ⟨PartStep.of_same rfl rfl rfl rfl rfl rfl rfl, outboxes_of_same rfl rfl rfl rfl rfl rfl, BitVec.le_refl _⟩

theorem idle_command (s : State) : CommandStep s (idle s) := by
  unfold idle
  split
  · exact passTime_command 1 s
  · exact queue_command s _ _
  · exact queue_command s _ _

theorem step_move (h : step s = .next t) : LinkStep s t := by
  unfold step at h
  split at h
  · rename_i c rest _
    exact (queue_command s rest s.choices).move.trans_silent (exec_move h) rfl id
  · rw [← Host.Outcome.next.inj h]
    exact (idle_command s).move

/-- Settles O54: every command keeps free and held pages together (`LinkStep.pages`). -/
theorem pagesStayAccounted : Obligations.PagesStayAccounted := fun _ _ p h => (step_move h).pages p

/-- Settles O55: every command keeps the rings in order (`LinkStep.ordered`). -/
theorem ringsStayOrdered : Obligations.RingsStayOrdered := fun _ _ o h => (step_move h).ordered o

/-- Settles O56: the quiet outside UP is kept, and what is issued there is the read of a link that enters LOADING. -/
theorem outsideUpThePartIsQuiet : Obligations.OutsideUpThePartIsQuiet := fun _ _ q h =>
  ⟨(step_move h).quiet q, (step_move h).silent q⟩

/-- Settles O57: every command keeps the bound of the buffer queues (`LinkStep.buffers`). -/
theorem bufferQueuesStayBounded : Obligations.BufferQueuesStayBounded := fun _ _ b h => (step_move h).buffers b

/-- Settles O58: every command keeps the outboxes in order (`LinkStep.outboxes`). -/
theorem outboxesStayBounded : Obligations.OutboxesStayBounded := fun _ _ o h => (step_move h).outboxes o

end Sys2Proof.Machine
end

