-- ==== Sys2Proof/Proofs/CountSteps.lean ====
section
/-!
PROOFS. Proofs/CountSteps.lean: the commands that reach the link keep the timebase count, a SYNC edge that finds no armed
part keeps it, and with `CommandStep.count` the statement that the count never decreases.
-/

namespace Sys2Proof.Machine

variable {s t : State}

/-! ### The link's commands keep the count -/

theorem teardown_count (s : State) : (teardown s).timebase.count = s.timebase.count := rfl

theorem linkFault_count (cause : FaultCause) (detail : Half) (s : State) :
    (linkFault cause detail s).timebase.count = s.timebase.count := by
  unfold linkFault
  split <;> rfl

theorem startLoading_timebase (s : State) : (startLoading s).timebase = s.timebase := by
  unfold startLoading
  split <;> rfl

theorem writeEnable_count (enable : Bool) (s : State) : (writeEnable enable s).timebase.count = s.timebase.count := by
  unfold writeEnable
  split
  · rfl
  · dsimp only
    split
    · rw [startLoading_timebase]
    all_goals rfl

theorem writeReset_count (s : State) : (writeReset s).timebase.count = s.timebase.count := by
  unfold writeReset
  split
  · rfl
  · dsimp only
    split <;> rfl

theorem resetEffect_count (p : PinLevels) (s : State) : (resetEffect p s).timebase.count = s.timebase.count := by
  unfold resetEffect
  split <;> rfl

theorem reachDown_timebase (s : State) : (reachDown s).timebase = s.timebase := by
  unfold reachDown
  split
  · dsimp only
    split
    · exact startLoading_timebase _
    · rfl
  · rfl

theorem AnswerStep.timebase (h : AnswerStep s t) : t.timebase = s.timebase := by
  obtain ⟨_, _, _, _, rfl⟩ := h.frame
  rfl

theorem writeTail_count (value : Word) (s : State) : (writeTail value s).timebase.count = s.timebase.count := by
  unfold writeTail
  split
  · rfl
  · split
    · rfl
    · split
      · rw [(beginFetch_step _).timebase]
      · exact linkFault_count _ _ s

theorem writeHead_count (n : RingId) (value : Word) (s : State) :
    s.timebase.count ≤ (writeHead n value s).timebase.count := by
  unfold writeHead
  split
  · exact BitVec.le_refl _
  · split
    · exact BitVec.le_refl _
    · rename_i hr
      split
      · rw [linkFault_count]; exact BitVec.le_refl _
      · rename_i hb
        exact (acceptHead_command hr (Bool.eq_false_of_not_eq_true hb)).count

theorem writeCbAddress_timebase (a : Long) (s : State) : (writeCbAddress a s).timebase = s.timebase := by
  unfold writeCbAddress
  split <;> rfl

theorem writeRegister_count (offset : BitVec 12) (value : Word) (s : State) :
    s.timebase.count ≤ (writeRegister offset value s).timebase.count := by
  unfold writeRegister
  split_ifs
  · rw [writeReset_count]; exact BitVec.le_refl _
  · rw [writeEnable_count]; exact BitVec.le_refl _
  · rw [writeCbAddress_timebase]; exact BitVec.le_refl _
  · rw [writeCbAddress_timebase]; exact BitVec.le_refl _
  · rw [writeTail_count]; exact BitVec.le_refl _
  · exact writeHead_count 0 value s
  · exact writeHead_count 1 value s
  · exact writeHead_count 2 value s
  · exact writeHead_count 3 value s
  · exact BitVec.le_refl _

theorem writeWindow_count (offset : BitVec 12) (width : AccessWidth) (value : Long) (s : State) :
    s.timebase.count ≤ (writeWindow offset width value s).timebase.count := by
  unfold writeWindow
  split
  · exact BitVec.le_refl _
  · exact BitVec.le_refl _
  · exact BitVec.le_refl _
  · split
    · exact writeRegister_count _ _ s
    · exact BitVec.le_refl _
  · split
    · exact BitVec.le_trans (writeRegister_count _ _ s) (writeRegister_count _ _ _)
    · exact BitVec.le_refl _

theorem endLoading_timebase (cb : ControlBlock) (s : State) : (endLoading cb s).timebase = s.timebase := by
  unfold endLoading
  split
  · rfl
  · split
    · rfl
    · dsimp only
      split
      · split <;> rfl
      · rfl

theorem failLoading_timebase (s : State) : (failLoading s).timebase = s.timebase := by
  unfold failLoading
  split
  · rfl
  · dsimp only
    split <;> rfl

theorem failFetch_count (s : State) : (failFetch s).timebase.count = s.timebase.count := by
  unfold failFetch
  split
  · split
    · exact linkFault_count _ _ _
    · rfl
  all_goals rfl

/-! ### A SYNC edge at a part that is not armed -/

/-- Nothing that the lines hand over before time passes touches SYNC or the Timebase (R110). -/
theorem settleLine_sync (n : LineId) (s : State) :
    (settleLine n s).syncHigh = s.syncHigh ∧ (settleLine n s).timebase = s.timebase := by
  refine ⟨?_, (settleLine_keeps n s).2.2⟩
  unfold settleLine
  split
  · rfl
  · obtain ⟨_, _, _, _, _, _, _, _, _, _, _, h⟩ := handEdge_edge n (Config.receiverOrder s.choices)
      (Config.streamOrder s.choices) (s.modLine n Line.settled)
    rw [h]
    rfl
  · rfl

theorem readyAt_sync (m : Nat) (s : State) :
    (s.readyAt m).syncHigh = s.syncHigh ∧ (s.readyAt m).timebase = s.timebase := by
  unfold State.readyAt
  split
  · exact foldl_keeps (fun s n => settleLine n s) (fun v => v.syncHigh = s.syncHigh ∧ v.timebase = s.timebase) _ s
      (fun v n _ h => ⟨(settleLine_sync n v).1.trans h.1, (settleLine_sync n v).2.trans h.2⟩) ⟨rfl, rfl⟩
  · exact ⟨rfl, rfl⟩

/-- A part that no SYNC edge can load: not armed, in OFF, or with the line low already (R134). -/
def State.noLoad (s : State) : Prop := s.timebase.role = .off ∨ s.timebase.arm = none ∨ s.syncHigh = false

theorem passTime_role_arm (d : Nat) (s : State) :
    (passTime d s).timebase.role = s.timebase.role ∧ (passTime d s).timebase.arm = s.timebase.arm := by
  unfold passTime
  split <;> exact ⟨rfl, rfl⟩

theorem atSyncSample_noLoad (h : s.noLoad) : s.atSyncSample.noLoad := by
  unfold State.atSyncSample
  split
  · rename_i high
    obtain ⟨hrole, harm⟩ := passTime_role_arm (s.syncMoment - (s.readyAt (s.elapsed + 1)).elapsed) (s.readyAt (s.elapsed + 1))
    rw [(readyAt_sync _ s).2] at hrole harm
    rcases h with off | unarmed | low
    · exact .inl (hrole.trans off)
    · exact .inr (.inl (harm.trans unarmed))
    · rw [low] at high; cases high
  · exact h

/-- A part that takes no load keeps its Timebase at a SYNC edge (R134). -/
theorem handSyncEdge_timebase (h : s.noLoad) (streams : List StreamId) :
    (handSyncEdge streams s).timebase = s.timebase := by
  unfold handSyncEdge
  split
  · rfl
  · rename_i high
    dsimp only
    rcases h with off | unarmed | low
    · rw [off]
    · rw [unarmed]
      split
      · rename_i e; cases e
      · rename_i e; cases e
      · rfl
    · exact absurd low high

theorem syncFallingEdge_count (h : s.noLoad) (streams : List StreamId) :
    s.timebase.count ≤ (handSyncEdge streams s.atSyncSample).timebase.count := by
  rw [handSyncEdge_timebase (atSyncSample_noLoad h)]
  exact (atSyncSample_command s).count

theorem endPulse_count (h : s.noLoad) : s.timebase.count ≤ (endPulse s).timebase.count := by
  unfold endPulse
  split
  · exact BitVec.le_trans (syncFallingEdge_count h _) (passTo_command _ _).count
  all_goals exact BitVec.le_refl _

/-- Settles O59: every command that reaches neither the link nor SYNC by `CommandStep.count`, the others one by one. -/
theorem countNeverDecreases : Obligations.CountNeverDecreases := by
  intro c s t h notReset sync
  cases hc : reachesLinkOrSync c with
  | false => exact (exec_command hc h).count
  | true =>
    cases c with
    | orderRead => cases h; rw [failFetch_count]; exact BitVec.le_refl _
    | linkControlEnable enable => cases h; rw [writeEnable_count]; exact BitVec.le_refl _
    | linkReset => cases h; rw [writeReset_count]; exact BitVec.le_refl _
    | linkResetEffect pins => cases h; rw [resetEffect_count]; exact BitVec.le_refl _
    | linkDown => cases h; rw [reachDown_timebase]; exact BitVec.le_refl _
    | orderTailWrite value => cases h; rw [writeTail_count]; exact BitVec.le_refl _
    | crHeadWrite n value => cases h; exact writeHead_count n value s
    | registerWrite offset width value => cases h; exact writeWindow_count offset width value s
    | controlBlockLoad cb => cases h; rw [endLoading_timebase]; exact BitVec.le_refl _
    | controlBlockRead => cases h; rw [failLoading_timebase]; exact BitVec.le_refl _
    | powerOnReset pins => exact absurd rfl (notReset pins)
    | syncFallingEdge streams =>
      cases h
      exact syncFallingEdge_count (sync.resolve_left fun x => x.1 streams rfl) streams
    | syncPulseEnd =>
      cases h
      have noLoad : s.noLoad := sync.resolve_left fun x => x.2 rfl
      obtain ⟨hhigh, htimebase⟩ := readyAt_sync s.pulseMoment s
      have ready : (s.readyAt s.pulseMoment).noLoad := by
        unfold State.noLoad
        rw [hhigh, htimebase]
        exact noLoad
      exact BitVec.le_trans (readyAt_command _ s).count (endPulse_count ready)
    | _ => cases hc

end Sys2Proof.Machine
end

