-- ==== Sys2Proof/Proofs/IdleAndReset.lean ====
section
/-!
PROOFS. Proofs/IdleAndReset.lean: the step at the front of the queue, the idle step with the events that are due, the
arithmetic of a source event, the values after power-on reset, and the four statements about them.
-/

namespace Sys2Proof.Machine

/-- Settles O1: the step's own equation. -/
theorem stepRunsFrontCommand : Obligations.StepRunsFrontCommand := fun _ _ _ => rfl

/-! ### An idle period -/

section
variable {g : Generator}

/-- The events counted in an interval that is not complete are fewer than the interval (R102). -/
theorem counted_lt_interval (hp : g.prescaleCount < g.prescale) (hd : g.divideCount < g.divide) :
    g.counted + (g.prescale - g.prescaleCount) ≤ g.interval := by
  have h : (g.divideCount + 1) * g.prescale ≤ g.divide * g.prescale := Nat.mul_le_mul_right _ hd
  have e : (g.divideCount + 1) * g.prescale = g.divideCount * g.prescale + g.prescale := Nat.succ_mul _ _
  have c : g.prescale * g.divide = g.divide * g.prescale := Nat.mul_comm _ _
  unfold Generator.counted Generator.interval
  omega

/-- An event that does not complete the interval is counted. -/
theorem receive_one_counted (ho : g.owed = 0) (hlt : g.counted + 1 < g.interval) :
    g.receive 1 = g.setCounted (g.counted + 1) := by
  unfold Generator.receive
  simp only [ho, Nat.add_zero]
  rw [if_pos hlt]
  unfold Generator.setCounted
  rw [ho]

/-- The prescale count rises (R102). -/
theorem receive_one_prescale (hd : g.divideCount < g.divide) (ho : g.owed = 0)
    (hp : g.prescaleCount + 1 < g.prescale) : g.receive 1 = { g with prescaleCount := g.prescaleCount + 1 } := by
  have hle := counted_lt_interval (g := g) (by omega) hd
  rw [receive_one_counted ho (by omega)]
  have e : g.counted + 1 = g.prescaleCount + 1 + g.prescale * g.divideCount := by
    unfold Generator.counted
    rw [Nat.mul_comm g.prescale]
    omega
  unfold Generator.setCounted
  rw [e, Nat.add_mul_mod_self_left, Nat.mod_eq_of_lt hp, Nat.add_mul_div_left _ _ (by omega), Nat.div_eq_of_lt hp, Nat.zero_add]

/-- The events counted when the prescale count is about to return to 0. -/
theorem counted_succ (hp : g.prescaleCount + 1 = g.prescale) : g.counted + 1 = (g.divideCount + 1) * g.prescale := by
  have e : (g.divideCount + 1) * g.prescale = g.divideCount * g.prescale + g.prescale := Nat.succ_mul _ _
  unfold Generator.counted
  omega

/-- The prescale count returns to 0 and the divide count rises (R102). -/
theorem receive_one_divide (ho : g.owed = 0) (hp : g.prescaleCount + 1 = g.prescale)
    (hd : g.divideCount + 1 < g.divide) :
    g.receive 1 = { g with prescaleCount := 0, divideCount := g.divideCount + 1 } := by
  have e := counted_succ hp
  have hlt : (g.divideCount + 1) * g.prescale < g.divide * g.prescale := Nat.mul_lt_mul_of_pos_right hd (by omega)
  rw [receive_one_counted ho (by unfold Generator.interval; rw [e, Nat.mul_comm g.prescale]; exact hlt)]
  unfold Generator.setCounted
  rw [e, Nat.mul_mod_left, Nat.mul_div_left _ (by omega)]

/-- The event that completes the interval is owed, and its tick leaves both counts 0 (R102). -/
theorem receive_one_completes (ho : g.owed = 0) (hp : g.prescaleCount + 1 = g.prescale) (hd : g.divideCount + 1 = g.divide) :
    (g.receive 1).owed = 1 ∧
      (g.receive 1).completeInterval = { g with prescaleCount := 0, divideCount := 0, owed := 0 } := by
  have e : g.counted + 1 = g.interval := by
    rw [counted_succ hp, hd, Nat.mul_comm]
    rfl
  have hr : g.receive 1 = { g.setCounted (g.interval - 1) with owed := 1 } := by
    unfold Generator.receive
    simp only [ho, Nat.add_zero]
    rw [if_neg (by omega)]
    congr 1
    omega
  refine ⟨by rw [hr], ?_⟩
  have pos : 0 < g.prescale * g.divide := Nat.mul_pos (by omega) (by omega)
  rw [hr]
  unfold Generator.completeInterval Generator.receive
  simp only [Generator.counted, Generator.interval, Generator.setCounted, Nat.zero_mul, Nat.sub_self, Nat.add_zero]
  rw [if_pos pos, Nat.zero_mod, Nat.zero_div]

end

theorem step_of_idle {s : State} (h : s.pending = []) : step s = .next (idle s) := by
  unfold step
  rw [h]

/-- What one reference period does (R130, R102, R114). -/
theorem passTime_one (s : State) :
    (passTime 1 s).elapsed = s.elapsed + 1 ∧
      (passTime 1 s).timebase.count.toNat = min (s.timebase.count.toNat + 1) (2 ^ 64 - 1) ∧
      (∀ g : GeneratorId, (passTime 1 s).generators[g] =
        if (s.generators[g]).state = .running ∧ (s.generators[g]).source = .reference
        then (s.generators[g]).receive 1 else s.generators[g]) ∧
      (s.syncHigh = true → (passTime 1 s).syncHigh = true) ∧
      (passTime 1 s).syncNext = (if (passTime 1 s).syncHigh = s.syncHigh then s.syncNext else (passTime 1 s).elapsed + 1) ∧
      passTime 1 s = { s with
        elapsed := (passTime 1 s).elapsed, timebase := { s.timebase with count := (passTime 1 s).timebase.count },
        generators := (passTime 1 s).generators, syncHigh := (passTime 1 s).syncHigh,
        syncNext := (passTime 1 s).syncNext } := by
  have hrise : ∀ r, s.syncRise 1 = some r → r = 1 ∧ s.syncHigh = false := by
    intro r h
    unfold State.syncRise at h
    split_ifs at h with hhigh hr
    obtain rfl := Option.some.inj h
    simp only [Bool.or_eq_true, not_or, Bool.not_eq_true] at hhigh
    exact ⟨by omega, hhigh.1⟩
  refine ⟨rfl, ?_, fun g => ?_, fun h => ?_, ?_, rfl⟩
  · have := s.timebase.count.isLt
    show (BitVec.ofNat 64 (min (s.timebase.count.toNat + 1) (2 ^ 64 - 1))).toNat = _
    rw [BitVec.toNat_ofNat, Nat.mod_eq_of_lt (by omega)]
  · have e : (passTime 1 s).generators[g] =
        if (s.generators[g]).countsPeriods then (s.generators[g]).receive 1 else s.generators[g] := by
      simp [passTime]
    rw [e]
    simp [Generator.countsPeriods]
  · show (s.syncHigh || _) = true
    rw [h, Bool.true_or]
  · show (match s.syncRise 1 with | some r => s.elapsed + r + 1 | none => s.syncNext) =
      if (s.syncHigh || (s.syncRise 1).isSome) = s.syncHigh then s.syncNext else s.elapsed + 1 + 1
    cases h : s.syncRise 1 with
    | none => simp
    | some r =>
      obtain ⟨rfl, low⟩ := hrise r h
      simp [low]

/-- Settles O2: with nothing due the idle step is one reference period, and a source event by the three ways of R102. -/
theorem idlePeriodCounts : Obligations.IdlePeriodCounts := by
  refine ⟨fun s hp hd => ⟨passTime 1 s, ?_, passTime_one s⟩, fun g hp hd ho =>
    ⟨receive_one_prescale hd ho, receive_one_divide ho, receive_one_completes ho⟩⟩
  rw [step_of_idle hp]
  unfold idle
  rw [hd]

/-! ### The events that are due -/

section
variable {s : State} {e : Instr}

@[simp] theorem mem_dueTicks : e ∈ dueTicks s ↔ ∃ g : GeneratorId, ((s.generators[g]).state = .running ∧
    (s.generators[g]).source = .reference ∧ 0 < (s.generators[g]).owed) ∧ .tick g (Config.streamOrder s.choices) = e := by
  simp [dueTicks, Generator.countsPeriods, and_assoc]

@[simp] theorem mem_dueLines : e ∈ dueLines s ↔
    ∃ n : LineId, ((s.lines[n]).owed = .edge ∧
      .trigEdge n (Config.receiverOrder s.choices) (Config.streamOrder s.choices) = e) ∨
      ((s.lines[n]).owed = .change ∧ .gateChange n true = e) := by
  simp only [dueLines, List.mem_filterMap, mem_allFours, true_and]
  refine exists_congr fun n => ?_
  cases (s.lines[n]).owed <;> simp

@[simp] theorem mem_dueTimes : e ∈ dueTimes s ↔ ((∃ i : StreamId, (s.streams[i]).timeMet s.timebase.count = true) ∨
    ∃ U, s.timebase.fire = .waiting U ∧ U ≤ s.timebase.count) ∧
    e = .timeReached s.timebase.count (Config.streamOrder s.choices) := by
  unfold dueTimes State.timedStreams
  cases s.timebase.fire <;> simp

@[simp] theorem mem_duePulse : e ∈ duePulse s ↔ ∃ x, s.timebase.fire = .driving x ∧
    (((s.syncHigh = true ∧ s.syncNext ≤ s.elapsed ∧ x - 49 ≤ s.elapsed) ∧
      e = .syncFallingEdge (Config.streamOrder s.choices)) ∨ (x ≤ s.elapsed ∧ e = .syncPulseEnd)) := by
  unfold duePulse State.syncMoment
  cases s.timebase.fire with
  | driving x => simp [State.reached, ownEdge, pulsePeriods]; grind
  | _ => simp

@[simp] theorem mem_dueArm : e ∈ dueArm s ↔ ∃ a x, s.timebase.arm = some a ∧ a.expiry = some x ∧ x ≤ s.elapsed ∧
    e = .armTimeout := by
  unfold dueArm
  cases s.timebase.arm with
  | none => simp
  | some a => cases h : a.expiry <;> simp [State.reached, h]

@[simp] theorem mem_dueSteps : e ∈ dueSteps s ↔ ∃ (c : ConverterId) (v : Conversion), (s.converters[c]).conversion = some v ∧
    v.endsAt ≤ s.elapsed ∧ .stepCompletion c (conversionInputs v) = e := by
  simp only [dueSteps, List.mem_filterMap, mem_allFours, true_and]
  refine exists_congr fun c => ?_
  cases (s.converters[c]).conversion <;> simp [State.reached]

@[simp] theorem mem_dueReturns : e ∈ dueReturns s ↔ ∃ i : StreamId, s.returns[i] ≠ [] ∧ .returnTaken i = e := by
  simp [dueReturns]

@[simp] theorem mem_dueOffers : e ∈ dueOffers s ↔ ∃ k, k < s.offers.length ∧ .watchOffer k (Config.watchOrder s.choices) = e := by
  simp [dueOffers]

@[simp] theorem mem_dueRequests : e ∈ dueRequests s ↔ ∃ (m : WatchId) (w : AnswerWait), (s.watches[m]).wait = some w ∧
    ((∃ a, w.answer = some a ∧ .watchAnswer m = e) ∨
      (∃ i, w.answer = none ∧ w.request = .start i ∧ .watchStartRequest m = e) ∨
      (∃ i, w.answer = none ∧ w.request = .halt i ∧ .watchHaltRequest m = e)) := by
  simp only [dueRequests, List.mem_filterMap, mem_allWatches, true_and]
  refine exists_congr fun m => ?_
  cases (s.watches[m]).wait with
  | none => simp
  | some w =>
    cases ha : w.answer <;> cases hr : w.request <;> simp [ha, hr]

@[simp] theorem mem_dueGrant : e ∈ dueGrant s ↔ (s.writeInFlight = none ∧ ∃ i : StreamId, s.eligible i = true) ∧
    e = .deliveryGrant := by
  simp [dueGrant]

@[simp] theorem mem_dueFlushes : e ∈ dueFlushes s ↔ ∃ (i : StreamId) (d : Descriptor) (rest : List Descriptor) (x : Nat),
    s.buffers[i] = d :: rest ∧ d.timer = some x ∧ x ≤ s.elapsed ∧ .flushTimerExpiry i = e := by
  simp only [dueFlushes, List.mem_map, List.mem_filter, mem_allStreams, true_and]
  refine exists_congr fun i => ?_
  cases s.buffers[i] with
  | nil => simp
  | cons d rest => cases hd : d.timer <;> simp [State.reached, hd]

@[simp] theorem mem_dueHoldoffs : e ∈ dueHoldoffs s ↔ ∃ (n : RingId) (r : Ring) (x : Nat),
    s.rings[n] = some r ∧ r.timer = .running x ∧ x ≤ s.elapsed ∧ .holdoffExpiry n = e := by
  simp only [dueHoldoffs, List.mem_map, List.mem_filter, mem_allFours, true_and]
  refine exists_congr fun n => ?_
  cases s.rings[n] with
  | none => simp
  | some r => cases hr : r.timer <;> simp [State.reached, hr]

theorem timedOut_iff (issued : Nat) : s.timedOut issued = true ↔ issued + 2500000 ≤ s.elapsed :=
  decide_eq_true_iff

@[simp] theorem mem_dueTimeouts : e ∈ dueTimeouts s ↔
    (∃ t, s.orders.work = .fetching t ∧ t + 2500000 ≤ s.elapsed ∧
      ((s.linkUp = true ∧ e = .orderRead) ∨ (s.linkUp = false ∧ e = .orderFetchEndAfterTeardown))) ∨
    (∃ o t, s.orders.work = .executing o t ∧ t + 2500000 ≤ s.elapsed ∧ e = .statusWriteEnd false) ∨
    (∃ w, s.writeInFlight = some w ∧ w.issued + 2500000 ≤ s.elapsed ∧ e = .blockWriteFailure) ∨
    (∃ t, s.link.cbRead = some t ∧ t + 2500000 ≤ s.elapsed ∧ e = .controlBlockRead) := by
  unfold dueTimeouts
  simp only [List.mem_append, or_assoc]
  cases s.orders.work <;> cases s.writeInFlight <;> cases s.link.cbRead <;> cases s.linkUp <;> simp [timedOut_iff]

@[simp] theorem mem_dueReoffers : e ∈ dueReoffers s ↔
    (s.orders.roomReported = true ∧ (∃ o l, s.orders.work = .placing o l) ∧ e = .orderRecordReoffer) ∨
    (s.timebase.roomReported = true ∧ s.timebase.hold ≠ none ∧ e = .timebaseRecordReoffer) := by
  unfold dueReoffers
  rw [List.mem_append]
  cases s.orders.work <;> cases s.timebase.hold <;> simp

@[simp] theorem mem_dueLink : e ∈ dueLink s ↔ s.readsOutstanding = 0 ∧
    ((s.link.resetPending = true ∧ e = .linkResetEffect s.pins) ∨
      (s.link.resetPending = false ∧ s.link.state = .stopping ∧ e = .linkDown)) := by
  unfold dueLink
  cases s.link.resetPending <;> simp

theorem mem_dueEvents : e ∈ dueEvents s ↔ e ∈ dueTicks s ∨ e ∈ dueLines s ∨ e ∈ dueTimes s ∨ e ∈ duePulse s ∨ e ∈ dueArm s ∨
    e ∈ dueSteps s ∨ e ∈ dueReturns s ∨ e ∈ dueOffers s ∨ e ∈ dueRequests s ∨ e ∈ dueGrant s ∨ e ∈ dueFlushes s ∨
    e ∈ dueHoldoffs s ∨ e ∈ dueTimeouts s ∨ e ∈ dueReoffers s ∨ e ∈ dueLink s := by
  simp only [dueEvents, List.mem_append, or_assoc]

end

/-- A due event of the part's own is queued (notes/assumptions/1.md). -/
theorem idle_queues {s : State} (h : dueEvents s ≠ []) :
    ∃ e ∈ dueEvents s, idle s = { s with pending := [e], choices := s.choices + 1 } := by
  unfold idle
  cases hd : dueEvents s with
  | nil => exact absurd hd h
  | cons a l =>
    cases l with
    | nil => exact ⟨a, by simp, rfl⟩
    | cons b rest =>
      refine ⟨_, ?_, rfl⟩
      have hlt : Config.choice s.choices % (a :: b :: rest).length < (a :: b :: rest).length :=
        Nat.mod_lt _ (by simp)
      rw [List.getD_eq_getElem _ _ hlt]
      exact List.getElem_mem hlt

/-- The commands that stand for events of the part's own. -/
def isOwnEvent : Instr → Bool
  | .tick _ _ | .trigEdge _ _ _ | .gateChange _ _ | .timeReached _ _ | .syncFallingEdge _ | .syncPulseEnd | .armTimeout
  | .stepCompletion _ _ | .returnTaken _ | .watchOffer _ _ | .watchAnswer _ | .watchStartRequest _ | .watchHaltRequest _
  | .deliveryGrant | .flushTimerExpiry _ | .holdoffExpiry _ | .orderRead | .orderFetchEndAfterTeardown | .statusWriteEnd _
  | .blockWriteFailure | .controlBlockRead | .orderRecordReoffer | .timebaseRecordReoffer | .linkResetEffect _ | .linkDown =>
    true
  | _ => false

theorem isOwnEvent_of_due {s : State} {e : Instr} (h : e ∈ dueEvents s) : isOwnEvent e = true := by
  rw [mem_dueEvents, mem_dueTicks, mem_dueLines, mem_dueTimes, mem_duePulse, mem_dueArm, mem_dueSteps, mem_dueReturns,
    mem_dueOffers, mem_dueRequests, mem_dueGrant, mem_dueFlushes, mem_dueHoldoffs, mem_dueTimeouts, mem_dueReoffers,
    mem_dueLink] at h
  rcases h with ⟨_, _, rfl⟩ | ⟨_, ⟨_, rfl⟩ | ⟨_, rfl⟩⟩ | ⟨_, rfl⟩ | ⟨_, _, ⟨_, rfl⟩ | ⟨_, rfl⟩⟩ | ⟨_, _, _, _, _, rfl⟩ |
    ⟨_, _, _, _, rfl⟩ | ⟨_, _, rfl⟩ | ⟨_, _, rfl⟩ | ⟨_, _, _, ⟨_, _, rfl⟩ | ⟨_, _, _, rfl⟩ | ⟨_, _, _, rfl⟩⟩ | ⟨_, rfl⟩ |
    ⟨_, _, _, _, _, _, _, rfl⟩ | ⟨_, _, _, _, _, _, rfl⟩ |
    (⟨_, _, _, ⟨_, rfl⟩ | ⟨_, rfl⟩⟩ | ⟨_, _, _, _, rfl⟩ | ⟨_, _, _, rfl⟩ | ⟨_, _, _, rfl⟩) |
    (⟨_, _, rfl⟩ | ⟨_, _, rfl⟩) | ⟨_, ⟨_, rfl⟩ | ⟨_, _, rfl⟩⟩ <;> rfl

/-- No event from outside is ever due. -/
theorem dueEvents_own {s : State} (e : Instr) (h : e ∈ dueEvents s) : e.kindCode = none ∧ e ≠ .blockWriteSuccess ∧
    e ≠ .linkReset ∧ (∀ b, e ≠ .linkControlEnable b) ∧ (∀ v, e ≠ .orderTailWrite v) ∧ (∀ n v, e ≠ .crHeadWrite n v) ∧
    (∀ o w v, e ≠ .registerWrite o w v) ∧ (∀ cb, e ≠ .controlBlockLoad cb) ∧ ∀ p, e ≠ .powerOnReset p := by
  have own := isOwnEvent_of_due h
  refine ⟨?_, ?_, ?_, ?_, ?_, ?_, ?_, ?_, ?_⟩
  · cases hk : e.kindCode with
    | none => rfl
    | some k =>
      exfalso
      cases e <;> simp [Instr.kindCode] at hk <;> cases own
  all_goals
    intros
    rintro rfl
    cases own

/-- Settles O3: which events are due is read off the lists of the idle step, one list for each kind of event. -/
theorem dueEventsAreQueued : Obligations.DueEventsAreQueued := by
  intro s order horder
  subst horder
  refine ⟨fun hp hd => ?_, fun g l => ?_, fun n k l => ?_, fun n a => ?_, fun T l => ?_, fun l => ?_, ?_, ?_, fun c x => ?_,
    fun i => ?_, fun k l => ?_, fun m => ⟨?_, ?_, ?_⟩, ?_, fun i => ?_, fun n => ?_, fun issued hf => ⟨?_, ?_⟩, fun ok => ?_,
    ?_, ?_, ?_, ?_, fun p => ?_, ?_, dueEvents_own⟩
  · obtain ⟨e, he, hidle⟩ := idle_queues hd
    exact ⟨e, he, by rw [step_of_idle hp, hidle]⟩
  all_goals rw [mem_dueEvents]
  · simp
    tauto
  · simp
    tauto
  · simp
    tauto
  · simp
    tauto
  · simp
    tauto
  · simp
  · simp
  · simp
    tauto
  · simp
  · simp
    exact fun _ => eq_comm
  · simp
  · simp
  · simp
  · simp
  · simp
  · simp
  · simp [hf]
    tauto
  · simp [hf]
    tauto
  · simp
    tauto
  · simp
  · simp
  · simp
  · simp
  · simp
    tauto
  · simp
    tauto

/-! ### Power-on reset -/

/-- The state after power-on reset is safe. -/
theorem reset_safe : State.reset.Safe where
  pages := rfl
  rings := fun n r h => by
    rw [show State.reset.rings[n] = none from Vector.getElem_replicate n.isLt] at h
    cases h
  quiet := fun _ => ⟨fun n => Vector.getElem_replicate n.isLt, rfl⟩
  buffers := fun i => by
    rw [show State.reset.buffers[i] = [] from Vector.getElem_replicate i.isLt]
    exact Nat.zero_le _
  outboxes := resetValues_outboxes rfl rfl rfl rfl rfl rfl

/-- Settles O4: each bank of `State.reset` holds one value throughout, and the lines are as their first sample finds
them. -/
theorem resetValues : Obligations.ResetValues := by
  refine ⟨fun p s => ⟨powerOnValues p s, rfl, fun n => ?_, rfl, rfl⟩, reset_safe, rfl, rfl, fun i => ?_, fun l => ?_, fun c => ?_,
    fun c => ?_, fun w => ?_, rfl, rfl, rfl, fun m => ?_, rfl, rfl, rfl, rfl⟩
  · exact Vector.getElem_ofFn n.isLt
  · exact congrArg StreamContext.state (Vector.getElem_replicate i.isLt)
  · exact Vector.getElem_replicate l.isLt
  · exact Vector.getElem_replicate c.isLt
  · rw [show State.reset.converters[c] = Converter.reset from Vector.getElem_replicate c.isLt]
    exact ⟨rfl, rfl⟩
  · exact congrArg Window.enabled (Vector.getElem_replicate w.isLt)
  · exact congrArg Watch.enabled (Vector.getElem_replicate m.isLt)

end Sys2Proof.Machine
end

