-- ==== Sys2Proof/Proofs/OrderUnit.lean ====
section
/-!
PROOFS. Proofs/OrderUnit.lean: the ends of an order fetch, the placement of the records of an answer and of any record, READ
STATUS with the end of its flush read, the second offers, and the five statements about them.
-/

namespace Sys2Proof.Machine

/-! ### The ends of a fetch -/

/-- Every order is taken as the reply of the fetch in flight (R143). -/
theorem exec_takes {c : Instr} {k : Half} (hk : c.kindCode = some k) (hw : c.wellFormed = true) :
    ∃ kind h body, ∀ s, exec c s = .next (takeOrder kind h body s) := by
  cases c with
  | unknownKind h kind =>
    have unnamed : ¬knownKinds.contains kind = true := by
      simpa [Instr.wellFormed] using hw
    exact ⟨kind, h, _, fun s => if_neg unnamed⟩
  | nop h | readStatus h | setChannel h | loadScan h | clearScan h | setPace h | runPace h | haltPace h | setLine h
  | configureStream h | armStream h | startStream h | stopStream h | abortStream h | resetStream h | postBuffers h
  | reclaimBuffers h | setWindow h | setWatch h | clearWatch h | setTimebase h | armSync h | fireSync h =>
    exact ⟨_, h, _, fun _ => rfl⟩
  | _ => cases hk

theorem inTime_iff (s : State) (issued : Nat) : s.inTime issued = true ↔ s.elapsed ≤ issued + 2500000 := decide_eq_true_iff

theorem inTime_eq_false {s : State} {issued : Nat} (h : issued + 2500000 < s.elapsed) : s.inTime issued = false :=
  decide_eq_false (Nat.not_le.mpr h)

/-- A failed fetch in UP faults the link with the head as detail (R144, R173). -/
theorem failFetch_of_up {s : State} (hf : s.orders.work.isFetching = true) (hup : s.linkUp = true) :
    failFetch s = teardown { dropFetch s with
      link := { s.link with state := .fault, cause := .orderRead, detail := BitVec.ofNat 16 s.orders.head } } := by
  unfold failFetch
  cases hw : s.orders.work with
  | fetching issued => exact (if_pos hup).trans (linkFault_of_up (s := dropFetch s) hup _ _)
  | _ => rw [hw] at hf; cases hf

/-- Settles O5: every order command is `takeOrder` of the fetch in flight, and the failure commands end it by the link. -/
theorem orderFetchEnds : Obligations.OrderFetchEnds := by
  refine ⟨fun c k s hk hw => ?_, fun s hf => ⟨fun hup => ?_, fun hdown => ?_⟩⟩
  · obtain ⟨kind, h, body, takes⟩ := exec_takes hk hw
    refine ⟨fun hidle => ?_, fun issued hf hlate => ?_, fun issued hf htime hdown => ?_⟩ <;> rw [takes]
    · rw [takeOrder_idle hidle]
    · rw [takeOrder_overdue hf (inTime_eq_false hlate)]
    · rw [takeOrder_late hf ((inTime_iff s issued).mpr htime) hdown]
      rfl
  · refine ⟨_, congrArg Host.Outcome.next (failFetch_of_up hf hup), rfl, rfl, rfl, rfl, rfl, rfl, ?_⟩
    exact (teardown_empties _).1
  · cases hw : s.orders.work with
    | fetching issued =>
      have fails : failFetch s = dropFetch s := by simp [failFetch, hw, hdown]
      have late : endLateFetch s = dropFetch s := by simp [endLateFetch, hw, hdown]
      exact ⟨congrArg Host.Outcome.next fails, congrArg Host.Outcome.next late⟩
    | _ => rw [hw] at hf; cases hf

/-! ### The records of an answer -/

/-- The ORDER_DONE record of an order, or none for a SILENT one that ended with DONE (R146). -/
theorem orderDone_eq {order : OrderInHand} {status : Status} {detail : Nat} {done : List OutboxEntry}
    (hsilent : order.silent = true → status = .done → done = [])
    (hrecord : order.silent = false ∨ status ≠ .done →
      done = [⟨0, .orderDone order.index order.kind status order.tag (BitVec.ofNat 32 detail)⟩]) :
    orderDone order status detail = done := by
  unfold orderDone
  split
  · rename_i c
    exact (hsilent c.1 c.2).symm
  · rename_i c
    refine (hrecord ?_).symm
    by_contra x
    rw [not_or, not_not, Bool.not_eq_false] at x
    exact c x

/-- The first record that is not placed waits with those behind it (R147). -/
theorem placeLeft_waits {order : OrderInHand} {first last : List OutboxEntry} {e : OutboxEntry} {s t : State}
    (hplaced : first.foldl (fun u r => u.bind (place r.ring r.record)) (some s) = some t)
    (hfull : place e.ring e.record t = none) :
    placeLeft order (first ++ e :: last) s
      = { t with orders := { t.orders with work := .placing order (e :: last), roomReported := false } } := by
  have stuck : ∀ l : List OutboxEntry, l.foldl (fun u r => u.bind (place r.ring r.record)) (none : Option State) = none := by
    intro l
    induction l with
    | nil => rfl
    | cons r l ih => exact ih
  induction first generalizing s with
  | nil =>
    obtain rfl := Option.some.inj hplaced
    simp only [List.nil_append, placeLeft, hfull]
  | cons r first ih =>
    rw [List.foldl_cons, Option.bind_some] at hplaced
    cases hr : place r.ring r.record s with
    | none => rw [hr, stuck] at hplaced; cases hplaced
    | some u =>
      rw [hr] at hplaced
      simp only [List.cons_append, placeLeft, hr]
      exact ih hplaced

/-- Settles O6: what answering touches by `answered_step`, which records by `orderDone`, and the placing by the recursion of
`placeLeft`. -/
theorem orderIsAnswered : Obligations.OrderIsAnswered := by
  have placed : ∀ (order : OrderInHand) (e : OutboxEntry) (rest : List OutboxEntry) (s t : State),
      place e.ring e.record s = some t → placeLeft order (e :: rest) s = placeLeft order rest t := by
    intro order e rest s t h
    simp only [placeLeft, h]
  have waits : ∀ (order : OrderInHand) (e : OutboxEntry) (rest : List OutboxEntry) (s : State),
      place e.ring e.record s = none → placeLeft order (e :: rest) s
        = { s with orders := { s.orders with work := .placing order (e :: rest), roomReported := false } } := by
    intro order e rest s h
    simp only [placeLeft, h]
  have answer : ∀ (s : State) (kind : Half) (h : OrderHeader) (a : State → Answer) (b : Answer) (done : List OutboxEntry),
      a (s.taking kind h) = b → (h.silent = true → b.status = .done → done = []) →
      (h.silent = false ∨ b.status ≠ .done →
        done = [⟨0, .orderDone s.orders.head kind b.status h.tag (BitVec.ofNat 32 b.detail)⟩]) →
      s.answered kind h a = placeLeft ⟨s.orders.head, kind, h.tag, h.silent⟩ (b.returned ++ done) b.state := by
    intro s kind h a b done hb hsilent hrecord
    unfold State.answered finishOrder
    rw [hb, orderDone_eq hsilent hrecord]
    rfl
  refine ⟨fun s kind h a u t hu ht => ?_, answer, fun order s => ⟨rfl, fun e rest => ⟨fun t => placed order e rest s t,
    waits order e rest s⟩⟩, fun order first last e s t => placeLeft_waits, fun s kind h a b hb hnone => ⟨fun hs hd => ?_,
    fun hrec => ⟨fun t hp => ?_, fun hp => ?_⟩⟩⟩
  · subst hu ht
    have step := answered_step s kind h a
    obtain ⟨_, _, _, _, frame⟩ := step.frame
    refine ⟨?_, ?_, ?_, ?_, step.grows⟩ <;> rw [frame]
  · rw [answer s kind h a b [] hb (fun _ _ => rfl) (fun x => absurd x (by simp [hs, hd])), hnone]
    rfl
  · rw [answer s kind h a b _ hb (fun x y => absurd hrec (by simp [x, y])) (fun _ => rfl), hnone, List.nil_append,
      placed _ ⟨0, _⟩ [] b.state t hp]
    rfl
  · rw [answer s kind h a b _ hb (fun x y => absurd hrec (by simp [x, y])) (fun _ => rfl), hnone, List.nil_append,
      waits _ ⟨0, _⟩ [] b.state hp]

/-! ### Placement -/

/-- What a ring reads after one ring is set. -/
theorem setRing_get (s : State) (n m : RingId) (r : Ring) :
    (s.setRing n r).rings[m] = if m = n then some r else s.rings[m] := by
  by_cases e : m = n
  · subst e
    exact (upd_same _ m _).trans (if_pos rfl).symm
  · exact (upd_other _ _ e).trans (if_neg e).symm

theorem messageDue_iff (r : Ring) : r.messageDue = true ↔
    r.armed = true ∧ 1 ≤ r.count ∧ (r.threshold ≤ r.count ∨ r.timer = .expired) := by
  simp [Ring.messageDue, and_assoc]

section
variable {n : RingId} {s : State} {r : Ring}

/-- No message is due: nothing happens. -/
theorem examineMessage_of_not_due (hr : s.rings[n] = some r) (h : r.messageDue = false) : examineMessage n s = s := by
  simp [examineMessage, hr, h]

/-- The message that is due (R162, R175). -/
def State.dueMessage (s : State) (n : RingId) : List BusItem :=
  if s.linkUp = true ∧ Config.messageEnabled s.elapsed = true
    then [.message n (Config.messageAddress s.elapsed n) (Config.messageData s.elapsed n)] else []

/-- A message is due: it is issued as the configuration allows, and the ring is disarmed (R162, R175). -/
theorem examineMessage_of_due (hr : s.rings[n] = some r) (h : r.messageDue = true) :
    examineMessage n s = { s with bus := s.bus ++ s.dueMessage n }.setRing n r.afterMessage := by
  unfold examineMessage issueMessage State.dueMessage
  rw [hr]
  simp only [h, if_true, Bool.and_eq_true]
  split
  · rfl
  · rw [List.append_nil]

end

/-- The state in which a record stands in the next slot of a ring, before the message is examined (R155). -/
def State.written (s : State) (n : RingId) (r : Ring) (record : Record) : State :=
  (s.emit (.write r.slotAddress (record.bytes r.phase))).setRing n (r.afterWrite s.elapsed)

theorem written_get (s : State) (n : RingId) (r : Ring) (record : Record) :
    (s.written n r record).rings[n] = some (r.afterWrite s.elapsed) := upd_same _ n _

section
variable {n : RingId} {s : State} {r : Ring} {record : Record}

theorem writeRecord_of_not_due (h : (r.afterWrite s.elapsed).messageDue = false) :
    writeRecord n r record s = s.written n r record := examineMessage_of_not_due (written_get s n r record) h

theorem writeRecord_of_due (h : (r.afterWrite s.elapsed).messageDue = true) :
    writeRecord n r record s = { s.written n r record with
      bus := (s.written n r record).bus ++ s.dueMessage n }.setRing n (r.afterWrite s.elapsed).afterMessage :=
  examineMessage_of_due (written_get s n r record) h

/-- A record write leaves every other ring, and all but rings and output. -/
theorem writeRecord_frame (n : RingId) (r : Ring) (record : Record) (s : State) :
    (∀ m : RingId, m ≠ n → (writeRecord n r record s).rings[m] = s.rings[m]) ∧
      writeRecord n r record s =
        { s with rings := (writeRecord n r record s).rings, bus := (writeRecord n r record s).bus } := by
  have other : ∀ m : RingId, m ≠ n → (s.written n r record).rings[m] = s.rings[m] := fun m hm => upd_other _ _ hm
  cases h : (r.afterWrite s.elapsed).messageDue with
  | false => rw [writeRecord_of_not_due h]; exact ⟨other, rfl⟩
  | true =>
    rw [writeRecord_of_due h]
    exact ⟨fun m hm => (upd_other _ _ hm).trans (other m hm), rfl⟩

/-- The three outcomes of placement (R158). -/
theorem place_of_ring (hr : s.rings[n] = some r) : place n record s =
    if r.waiting = [] ∧ 0 < r.free then some (writeRecord n r record s)
    else if r.waiting.length < 16 then some (s.setRing n { r with waiting := r.waiting ++ [record] })
    else none := by
  simp only [place, hr]
  rfl

end

/-- Settles O7: placement by the ring's pending list and free slots, and a write by whether its message is due. -/
theorem recordPlacement : Obligations.RecordPlacement := by
  rintro n record s r w hr rfl
  have noRoom : r.waiting ≠ [] ∨ r.free = 0 → ¬(r.waiting = [] ∧ 0 < r.free) := by
    rintro (h | h) ⟨h1, h2⟩
    · exact h h1
    · omega
  refine ⟨fun hw hf => ?_, fun h hl => ?_, fun h hl => ?_⟩
  · refine ⟨_, (place_of_ring hr).trans (if_pos ⟨hw, hf⟩), fun hquiet => ?_, fun harmed hdue => ?_, writeRecord_frame n r record s⟩
    · have notDue : (r.afterWrite s.elapsed).messageDue = false := by
        rw [Bool.eq_false_iff]
        intro due
        obtain ⟨h1, _, h2⟩ := (messageDue_iff _).mp due
        rcases hquiet with x | ⟨x, y⟩
        · exact absurd (x.symm.trans h1) (by decide)
        · exact h2.elim (fun z => absurd z (Nat.not_le.mpr x)) y
      rw [writeRecord_of_not_due notDue]
      exact ⟨written_get s n r record, rfl⟩
    · have due : (r.afterWrite s.elapsed).messageDue = true :=
        (messageDue_iff _).mpr ⟨harmed, Nat.le_add_left 1 r.count, hdue⟩
      rw [writeRecord_of_due due]
      exact ⟨upd_same _ n _, rfl⟩
  · refine ⟨_, (place_of_ring hr).trans ((if_neg (noRoom h)).trans (if_pos hl)), upd_same _ n _, fun m hm => upd_other _ _ hm, rfl⟩
  · exact (place_of_ring hr).trans ((if_neg (noRoom h)).trans (if_neg (Nat.not_lt.mpr hl)))

/-! ### READ STATUS -/

/-- The bytes of a section are 64 (R151). -/
theorem streamSection0_length (s : State) (i : StreamId) : (streamSection0 s i).length = 64 := by
  unfold streamSection0
  refine layout_length 64 _ ?_
  cases (s.streams[i]).config <;> simp [sectionHead, configFields]

theorem streamSection1_length (s : State) (i : StreamId) : (streamSection1 s i).length = 64 := by
  unfold streamSection1
  refine layout_length 64 _ ?_
  simp [sectionHead]

theorem partSection_length (s : State) (n : Fin 9) : (partSection s n).length = 64 := by
  have pace : ∀ a b : Generator, (layout 64 (sectionHead 1 0 n.val s.timebase.count ++ generatorFields a 16
      ++ generatorFields b 40)).length = 64 := fun a b => layout_length 64 _ (by simp [sectionHead, generatorFields])
  have windows : ∀ a b : Window, (layout 64 (sectionHead 1 0 n.val s.timebase.count ++ windowFields a 16
      ++ windowFields b 40)).length = 64 := fun a b => layout_length 64 _ (by simp [sectionHead, windowFields])
  have watches : ∀ a b c d : Watch, (layout 64 (sectionHead 1 0 n.val s.timebase.count ++ watchFields a 16
      ++ watchFields b 28 ++ watchFields c 40 ++ watchFields d 52)).length = 64 :=
    fun a b c d => layout_length 64 _ (by simp [sectionHead, watchFields])
  unfold partSection
  split
  · exact layout_length 64 _ (by simp [sectionHead])
  · exact pace _ _
  · exact pace _ _
  · exact windows _ _
  · exact windows _ _
  all_goals exact watches _ _ _ _

section
variable {target stream part : Byte} {a : Long} {s : State}

theorem byte_eq_zero_iff (b : Byte) : b = 0 ↔ b.toNat = 0 := BitVec.toNat_inj.symm

theorem byte_eq_one_iff (b : Byte) : b = 1 ↔ b.toNat = 1 := BitVec.toNat_inj.symm

/-- Fields that name no section (R149 check 1). -/
theorem statusSection_none (h1 : ¬(target.toNat = 0 ∧ stream.toNat < 8 ∧ part.toNat < 2))
    (h2 : ¬(target.toNat = 1 ∧ part.toNat < 9)) : statusSection target stream part s = none := by
  unfold statusSection
  split
  · rename_i ht
    have ht' := (byte_eq_zero_iff target).mp ht
    split
    · rename_i i hi
      have hlt := toNat_lt_of_index? hi
      have two : ¬part.toNat < 2 := fun hn => h1 ⟨ht', hlt, hn⟩
      rw [if_neg (fun e => two (by rw [(byte_eq_zero_iff part).mp e]; decide)),
        if_neg (fun e => two (by rw [(byte_eq_one_iff part).mp e]; decide))]
    · rfl
  · split
    · rename_i ht
      rw [index?_none (not_lt.mp fun hp => h2 ⟨(byte_eq_one_iff target).mp ht, hp⟩)]
      rfl
    · rfl

/-- Fields that name a section give its 64 bytes (R149, R151). -/
theorem statusSection_some (h : (target.toNat = 0 ∧ stream.toNat < 8 ∧ part.toNat < 2) ∨ (target.toNat = 1 ∧ part.toNat < 9)) :
    ∃ bytes, statusSection target stream part s = some bytes ∧ bytes.length = 64 := by
  unfold statusSection
  rcases h with ⟨ht, hs, hp⟩ | ⟨ht, hp⟩
  · rw [if_pos ((byte_eq_zero_iff target).mpr ht), index?_eq_some (i := ⟨stream.toNat, hs⟩) rfl]
    obtain hp0 | hp1 : part.toNat = 0 ∨ part.toNat = 1 := by omega
    · rw [(byte_eq_zero_iff part).mpr hp0]
      exact ⟨_, rfl, streamSection0_length s _⟩
    · rw [(byte_eq_one_iff part).mpr hp1]
      exact ⟨_, rfl, streamSection1_length s _⟩
  · rw [if_neg (fun e => by rw [(byte_eq_zero_iff target).mp e] at ht; cases ht),
      if_pos ((byte_eq_one_iff target).mpr ht), index?_eq_some (i := ⟨part.toNat, hp⟩) rfl]
    exact ⟨_, rfl, partSection_length s _⟩

/-- A window accepts the area of a status record (R79). -/
theorem accepts_status_iff (first last : Long) : s.accepts WindowUse.allowsStatus first last = true ↔
    ∃ w : WindowId, (s.windows[w]).covers first = true ∧ (s.windows[w]).covers last = true ∧
      (s.windows[w]).use ≠ .buffers := by
  have use : ∀ u : WindowUse, u.allowsStatus = true ↔ u ≠ .buffers := by intro u; cases u <;> decide
  simp only [State.accepts, List.any_eq_true, mem_allFours, true_and, Bool.and_eq_true, and_assoc, use]

/-- READ STATUS as its checks decide in the state in which the order is taken (R149). -/
theorem exec_readStatus (hs : s.takesOrder) (h : OrderHeader) :
    exec (.readStatus h target stream part a) s =
      .next (takeStatus target stream part a (s.inHand 0x0002 h) (s.taking 0x0002 h)) :=
  congrArg Host.Outcome.next (takeOrder_eq hs _ _ _)

theorem exec_readStatus_refused (hs : s.takesOrder) (h : OrderHeader) {status : Status} {detail : Nat}
    (hc : checkStatus target stream part a (s.taking 0x0002 h) = .error (status, detail)) :
    exec (.readStatus h target stream part a) s = .next (s.answered 0x0002 h (fun u => refuse u status detail)) := by
  rw [exec_readStatus hs]
  unfold takeStatus
  rw [hc]
  rfl

end

/-- Settles O9: the checks by what the fields name, the address and the windows; the end by the walk, the link and the
time. -/
theorem readStatusAndItsEnd : Obligations.ReadStatusAndItsEnd := by
  refine ⟨fun h target stream part a s hs => ⟨fun h1 h2 => ?_, fun hn => ?_⟩, fun ok order issued s =>
    ⟨fun hw hlate => ?_, fun hw hup ht => ?_, fun hw hdown ht => ?_, fun hw => ?_⟩⟩
  · refine exec_readStatus_refused hs h ?_
    unfold checkStatus
    rw [statusSection_none h1 h2]
  · obtain ⟨bytes, hsection, hlength⟩ := statusSection_some (s := s.taking 0x0002 h) hn
    have checked : checkStatus target stream part a (s.taking 0x0002 h) =
        if a.toNat % 8 ≠ 0 ∨ 2 ^ 64 - 1 < a.toNat + 63 then .error (.badField, 2)
        else if !s.accepts WindowUse.allowsStatus a (a + 63) then .error (.outsideWindow, 0) else .ok bytes := by
      unfold checkStatus
      rw [hsection]
      rfl
    refine ⟨fun hbad => exec_readStatus_refused hs h (checked.trans (if_pos (hbad.imp id fun x => by omega))),
      fun haligned hinside => ?_⟩
    have inside := checked.trans (if_neg (by omega))
    refine ⟨fun houtside => ?_, fun hwindow => ⟨bytes, hsection, hlength, ?_⟩⟩
    · have : s.accepts WindowUse.allowsStatus a (a + 63) = false := by
        rw [Bool.eq_false_iff]
        exact fun x => houtside ((accepts_status_iff a (a + 63)).mp x)
      exact exec_readStatus_refused hs h (inside.trans (by rw [this]; rfl))
    · rw [exec_readStatus hs]
      unfold takeStatus
      rw [inside, (accepts_status_iff a (a + 63)).mpr hwindow]
      show Host.Outcome.next (((s.taking 0x0002 h).emit _).emit _) = _
      simp only [State.emit, List.append_assoc]
      rfl
  · refine congrArg Host.Outcome.next ?_
    simp only [endStatusWrite, hw, inTime_eq_false hlate]
    rfl
  all_goals refine congrArg Host.Outcome.next ?_
  · have inTime : (ok && !s.inTime issued) = false := by
      cases ok with
      | false => rfl
      | true => rw [(inTime_iff s issued).mpr (ht rfl)]; rfl
    simp only [endStatusWrite, hw, inTime, hup]
    rfl
  · have inTime : (ok && !s.inTime issued) = false := by
      cases ok with
      | false => rfl
      | true => rw [(inTime_iff s issued).mpr (ht rfl)]; rfl
    simp only [endStatusWrite, hw, inTime, hdown]
    rfl
  · unfold endStatusWrite
    split
    · rename_i o i e
      exact absurd e (hw o i)
    all_goals rfl

/-! ### Second offers -/

/-- Settles O10: the second offer of the Order Unit's and of the Timebase's record, by whether it is placed. -/
theorem recordsAreReoffered : Obligations.RecordsAreReoffered := by
  refine fun s => ⟨fun order e rest hw hr => ⟨fun t hp => ?_, fun hp => ?_⟩, fun record hh hr => ⟨fun t hp => ?_, fun hp => ?_⟩⟩ <;>
    refine congrArg Host.Outcome.next ?_
  · simp only [reofferOrderRecord, hw, hr, if_true, placeLeft, hp]
  · simp only [reofferOrderRecord, hw, hr, if_true, placeLeft, hp]
  · simp only [reofferTimebaseRecord, hh, hr, if_true, hp]
  · simp only [reofferTimebaseRecord, hh, hr, if_true, hp]

end Sys2Proof.Machine
end


-- ==== Sys2Proof/Proofs/PaceAndLine.lean ====
section
/-!
PROOFS. Proofs/PaceAndLine.lean: the orders to the Pace Generators and the Line Interface: what their fields name, what
their owners decide, and the obligations about them (section 6.3 and 6.6).
-/

namespace Sys2Proof.Machine

/-- An order that is decided at once is answered as its owner decides in the state in which the order is taken. -/
theorem next_decided {s : State} (hs : s.takesOrder) {kind : Half} {h : OrderHeader} {owner a : State → Answer}
    (e : owner (s.taking kind h) = a (s.taking kind h)) :
    (.next (takeDecided kind h owner s) : Outcome) = .next (s.answered kind h a) :=
  congrArg Host.Outcome.next ((takeDecided_eq hs kind h owner).trans (answered_congr e))

/-- A byte is the byte of its number. -/
theorem eq_byteOf {b : Byte} {n : Nat} (h : b.toNat = n) : b = byteOf n := by
  rw [← h, byteOf, BitVec.ofNat_toNat, BitVec.setWidth_eq]

theorem byteOf_toNat {n : Nat} (h : n < 256) : (byteOf n).toNat = n := by
  rw [byteOf, BitVec.toNat_ofNat, Nat.mod_eq_of_lt h]

/-! ### What the fields of SET PACE name -/

theorem source?_byteOf_code (source : PaceSource) : source? (byteOf source.code) = some source := by
  cases source with
  | reference => rfl
  | trig n => revert n; decide

theorem gate?_byteOf_code (gate : Option LineId) : gate? (byteOf (gateCode gate)) = some gate := by
  cases gate with
  | none => rfl
  | some n => revert n; decide

theorem paceMode?_byteOf_code (mode : PaceMode) : paceMode? (byteOf mode.code) = some mode := by
  cases mode <;> rfl

/-- No code above 4 names a source. -/
theorem toNat_le_of_source? {b : Byte} {source : PaceSource} (h : source? b = some source) : b.toNat ≤ 4 := by
  unfold source? at h
  split_ifs at h with hzero
  · simp [hzero]
  · obtain ⟨n, hn, -⟩ := Option.map_eq_some_iff.mp h
    have := toNat_lt_of_index? hn
    bv_omega

/-- No code above 4 names a gate. -/
theorem toNat_le_of_gate? {b : Byte} {gate : Option LineId} (h : gate? b = some gate) : b.toNat ≤ 4 := by
  unfold gate? at h
  split_ifs at h with hzero
  · simp [hzero]
  · obtain ⟨n, hn, -⟩ := Option.map_eq_some_iff.mp h
    have := toNat_lt_of_index? hn
    bv_omega

/-- No code above 1 names a mode. -/
theorem toNat_lt_of_paceMode? {b : Byte} {mode : PaceMode} (h : paceMode? b = some mode) : b.toNat < 2 := by
  obtain ⟨x, hx, -⟩ := Option.map_eq_some_iff.mp h
  exact toNat_lt_of_flag? hx

section
variable {f : PaceFields}

/-- A field outside its range names no configuration (R105 check 3). -/
theorem pace?_eq_none
    (hout : 4 < f.source.toNat ∨ 4 < f.gate.toNat ∨ 1 < f.mode.toNat ∨ f.prescale.toNat = 0 ∨ 65536 < f.prescale.toNat ∨
      f.divide.toNat = 0 ∨ 65536 < f.divide.toNat ∨ f.burst.toNat = 0 ∨ 65536 < f.burst.toNat) : pace? f = none := by
  by_contra hsome
  obtain ⟨x, hx⟩ := Option.ne_none_iff_exists'.mp hsome
  simp only [pace?, Option.bind_eq_bind, Option.bind_eq_some_iff] at hx
  obtain ⟨_, hsource, _, hgate, _, hmode, _, hprescale, _, hdivide, _, hburst, -⟩ := hx
  have := toNat_le_of_source? hsource
  have := toNat_le_of_gate? hgate
  have := toNat_lt_of_paceMode? hmode
  have := bounds_of_inRange? hprescale
  have := bounds_of_inRange? hdivide
  have := bounds_of_inRange? hburst
  omega

/-- The generator that the fields of SET PACE leave, with the codes of a source, a gate and a mode (R105). -/
def namedGenerator (f : PaceFields) (source : PaceSource) (gate : Option LineId) (mode : PaceMode) : Generator :=
  { source := source, prescale := f.prescale.toNat, divide := f.divide.toNat, gate := gate, mode := mode,
    burst := f.burst.toNat, state := .stopped, prescaleCount := 0, divideCount := 0, ticks := 0, owed := 0 }

theorem pace?_of_codes {source : PaceSource} {gate : Option LineId} {mode : PaceMode} (hsource : f.source.toNat = source.code)
    (hgate : f.gate.toNat = gateCode gate) (hmode : f.mode.toNat = mode.code)
    (hprescale : 1 ≤ f.prescale.toNat ∧ f.prescale.toNat ≤ 65536) (hdivide : 1 ≤ f.divide.toNat ∧ f.divide.toNat ≤ 65536)
    (hburst : 1 ≤ f.burst.toNat ∧ f.burst.toNat ≤ 65536) : pace? f = some (namedGenerator f source gate mode) := by
  unfold pace?
  rw [eq_byteOf hsource, eq_byteOf hgate, eq_byteOf hmode, source?_byteOf_code, gate?_byteOf_code, paceMode?_byteOf_code,
    inRange?_some hprescale, inRange?_some hdivide, inRange?_some hburst]
  rfl

end

/-! ### The owners of the pace orders -/

theorem PaceState.atRest_of_active {x : PaceState} (h : x = .running ∨ x = .gated) : x.atRest = false := by
  obtain rfl | rfl := h <;> rfl

theorem PaceState.atRest_of_rest {x : PaceState} (h : x = .stopped ∨ x = .done) : x.atRest = true := by
  obtain rfl | rfl := h <;> rfl

/-- A gate names the source's line exactly when both are one line (R105 check 5). -/
theorem Generator.gatesSource_iff (g : Generator) : g.gatesSource = true ↔ ∃ n, g.source = .trig n ∧ g.gate = some n := by
  unfold Generator.gatesSource
  split
  next n m hsource hgate => rw [hsource, hgate, beq_iff_eq]; constructor <;> simp_all
  all_goals simp_all

section
variable {f : PaceFields} {g : GeneratorId} {u : State}

/-- SET PACE in the first three checks of R105. -/
theorem setPaceOwner_of_atRest (hg : f.generator = byteOf g) (hrest : (u.generators[g]).state.atRest = true) :
    setPaceOwner f u = match pace? f with
      | none => refuse u .badField 1
      | some x =>
        if x.source = .reference ∧ x.interval < 50 then refuse u .badField 2
        else if x.gatesSource then refuse u .badField 3
        else accept (u.modGenerator g (fun _ => x)) := by
  unfold setPaceOwner
  rw [hg, index?_byteOf (by decide)]
  simp only [hrest, Bool.not_true]
  rfl

/-- SET PACE with fields in their ranges in the last two checks of R105. -/
theorem setPaceOwner_of_named {x : Generator} (hg : f.generator = byteOf g) (hrest : (u.generators[g]).state.atRest = true)
    (hx : pace? f = some x) : setPaceOwner f u =
      if x.source = .reference ∧ x.interval < 50 then refuse u .badField 2
      else if x.gatesSource then refuse u .badField 3
      else accept (u.modGenerator g (fun _ => x)) := by
  rw [setPaceOwner_of_atRest hg hrest, hx]

theorem runPaceOwner_of_active (hrest : (u.generators[g]).state.atRest = false) :
    runPaceOwner (byteOf g) u = refuse u .wrongState 0 := by
  unfold runPaceOwner
  rw [index?_byteOf (by decide)]
  simp only [hrest, Bool.not_false, if_true]

theorem runPaceOwner_of_atRest (hrest : (u.generators[g]).state.atRest = true) :
    runPaceOwner (byteOf g) u = accept (u.modGenerator g (fun x => x.begin (u.gateClosed g))) := by
  unfold runPaceOwner
  rw [index?_byteOf (by decide)]
  simp only [hrest, Bool.not_true]
  rfl

/-- The gate of a generator is closed exactly when it has a gate line and that line is inactive (R106). -/
theorem gateClosed_iff (u : State) (g : GeneratorId) :
    u.gateClosed g = true ↔ ∃ n, (u.generators[g]).gate = some n ∧ (u.lines[n]).active = false := by
  unfold State.gateClosed
  split <;> simp_all

end

/-- Settles O13: each pace order by the checks of its owner. -/
theorem paceOrders : Obligations.PaceOrders := by
  refine ⟨fun h f s hs => ⟨fun hout => ?_, fun g hg => ⟨fun hactive => ?_, fun hrest => ?_⟩⟩,
    fun h s hs => ⟨fun b hb => ?_, fun g => ⟨fun hactive => ?_, fun hrest => ?_, ?_⟩⟩⟩
  · refine next_decided hs ?_
    rw [setPaceOwner, index?_none hout]
  · refine next_decided hs ?_
    rw [setPaceOwner, hg, index?_byteOf (by decide)]
    simp only [taking_generators, PaceState.atRest_of_active hactive, Bool.not_false, if_true]
  · have atRest := PaceState.atRest_of_rest hrest
    refine ⟨fun hout => next_decided hs ?_,
      fun source gate mode hsource hgate hmode hp1 hp2 hd1 hd2 hb1 hb2 => ?_⟩
    · exact (setPaceOwner_of_atRest (u := s.taking 0x0020 h) hg atRest).trans (by rw [pace?_eq_none hout])
    · have named := setPaceOwner_of_named (u := s.taking 0x0020 h) hg atRest
        (pace?_of_codes hsource hgate hmode ⟨hp1, hp2⟩ ⟨hd1, hd2⟩ ⟨hb1, hb2⟩)
      refine ⟨fun href hshort => next_decided hs (named.trans (if_pos ⟨href, hshort⟩)),
        fun n hn hgn => next_decided hs (named.trans ?_), fun hlong hother => next_decided hs (named.trans ?_)⟩
      · rw [if_neg (fun x => by rw [show source = .reference from x.1] at hn; cases hn),
          if_pos ((Generator.gatesSource_iff _).mpr ⟨n, hn, hgn⟩)]
      · rw [if_neg (fun x => absurd x.2 (not_lt.mpr (hlong x.1))),
          if_neg (fun x => by obtain ⟨n, hn, hgn⟩ := (Generator.gatesSource_iff _).mp x; exact hother n hn hgn)]
        rfl
  · refine ⟨next_decided hs ?_, next_decided hs ?_⟩
    · rw [runPaceOwner, index?_none hb]
    · rw [haltPaceOwner, index?_none hb]
  · exact next_decided hs (runPaceOwner_of_active (PaceState.atRest_of_active hactive))
  · have taken := runPaceOwner_of_atRest (g := g) (u := s.taking 0x0021 h) (PaceState.atRest_of_rest hrest)
    refine ⟨fun hclosed => next_decided hs (taken.trans ?_), fun hopen => next_decided hs (taken.trans ?_)⟩
    · rw [(gateClosed_iff (s.taking 0x0021 h) g).mpr hclosed]
      rfl
    · have opened : (s.taking 0x0021 h).gateClosed g = false := by
        refine Bool.eq_false_iff.mpr fun x => ?_
        obtain ⟨n, hn, hinactive⟩ := (gateClosed_iff _ g).mp x
        rw [taking_lines, hopen n hn] at hinactive
        cases hinactive
      rw [opened]
      rfl
  · refine next_decided hs ?_
    rw [haltPaceOwner, index?_byteOf (by decide)]
    rfl

/-! ### SET LINE -/

/-- A stream that uses a line: it is active and starts or stops on it (R112). -/
def State.usesLine (s : State) (n : LineId) (i : StreamId) : Bool :=
  (s.streams[i]).state.active &&
    match (s.streams[i]).config with
    | some c => c.start == .line n || c.stop == .line n
    | none => false

/-- A generator that uses a line: it runs and has it as source or gate (R112). -/
def State.countsLine (s : State) (n : LineId) (g : GeneratorId) : Bool :=
  ((s.generators[g]).state == .running || (s.generators[g]).state == .gated) &&
    ((s.generators[g]).source == .trig n || (s.generators[g]).gate == some n)

theorem usesLine_iff (s : State) (n : LineId) (i : StreamId) : s.usesLine n i = true ↔
    (s.streams[i]).state.active = true ∧ ∃ c, (s.streams[i]).config = some c ∧ (c.start = .line n ∨ c.stop = .line n) := by
  unfold State.usesLine
  cases (s.streams[i]).config <;> simp

theorem countsLine_iff (s : State) (n : LineId) (g : GeneratorId) : s.countsLine n g = true ↔
    ((s.generators[g]).state = .running ∨ (s.generators[g]).state = .gated) ∧
      ((s.generators[g]).source = .trig n ∨ (s.generators[g]).gate = some n) := by
  simp [State.countsLine]

theorem lineUser_eq (s : State) (n : LineId) : s.lineUser n =
    match allStreams.find? (s.usesLine n), allFours.find? (s.countsLine n) with
    | some i, _ => some i.val
    | none, some g => some (8 + g.val)
    | none, none => none := rfl

/-- The polarity byte that the statement of SET LINE writes. -/
theorem polarity?_ofBool (low : Bool) :
    polarity? (if low then 1 else 0) = some (if low then .activeLow else .activeHigh) := by
  cases low <;> rfl

section
variable {n : LineId} {low : Bool} {u : State}

theorem setLineOwner_of_user {user : Nat} (huser : u.lineUser n = some user) :
    setLineOwner (byteOf n) (if low then 1 else 0) u = refuse u .inUse user := by
  unfold setLineOwner
  rw [index?_byteOf (by decide), polarity?_ofBool]
  simp only [huser]

theorem setLineOwner_of_unused (hunused : u.lineUser n = none) :
    setLineOwner (byteOf n) (if low then 1 else 0) u = accept (u.modLine n (fun l =>
      { l with polarity := if low then .activeLow else .activeHigh, owed := .nothing })) := by
  unfold setLineOwner
  rw [index?_byteOf (by decide), polarity?_ofBool]
  simp only [hunused]

end

/-- Settles O14: the fields, and the line's lowest-numbered user. -/
theorem setLineWritesPolarity : Obligations.SetLineWritesPolarity := by
  refine fun h s hs => ⟨fun line polarity hout => next_decided hs ?_, fun n low byStream byGenerator hstream hgenerator => ?_⟩
  · unfold setLineOwner
    obtain hline | hpolarity := hout
    · rw [index?_none hline]
    · rw [polarity?, flag?_none hpolarity]
      cases index? 4 line <;> rfl
  · have uses (i : StreamId) : (s.taking 0x0023 h).usesLine n i = true ↔ byStream i :=
      (usesLine_iff _ n i).trans (hstream i).symm
    have counts (g : GeneratorId) : (s.taking 0x0023 h).countsLine n g = true ↔ byGenerator g :=
      (countsLine_iff _ n g).trans (hgenerator g).symm
    refine ⟨fun i hi hfirst => next_decided hs (setLineOwner_of_user ?_), fun hnone => ?_⟩
    · rw [lineUser_eq, find_streams ((uses i).mpr hi) (fun j hj => Bool.eq_false_iff.mpr (mt (uses j).mp (hfirst j hj)))]
    · have noStream := find_streams_none fun j => Bool.eq_false_iff.mpr (mt (uses j).mp (hnone j))
      refine ⟨fun g hg hfirst => next_decided hs (setLineOwner_of_user ?_),
        fun hfree => next_decided hs (setLineOwner_of_unused ?_)⟩
      · rw [lineUser_eq, noStream,
          find_fours ((counts g).mpr hg) (fun k hk => Bool.eq_false_iff.mpr (mt (counts k).mp (hfirst k hk)))]
      · rw [lineUser_eq, noStream, find_fours_none fun k => Bool.eq_false_iff.mpr (mt (counts k).mp (hfree k))]

end Sys2Proof.Machine
end


-- ==== Sys2Proof/Proofs/StreamSetup.lean ====
section
/-!
PROOFS. Proofs/StreamSetup.lean: what the payload of CONFIGURE STREAM names, and the orders that configure a stream, post
and reclaim its buffers (R3, R4, R82 to R84).
-/

namespace Sys2Proof.Machine

/-! ### What the fields of CONFIGURE STREAM name -/

theorem policy_halts (p : Policy) : policy p.halts = p := by cases p <;> rfl

section
variable {f : ConfigureFields}

theorem start?_of_code {start : StartCondition} (hkind : f.startKind = byteOf start.code)
    (hline : ∀ n, start = .line n → f.startLine = byteOf n) (htime : ∀ t, start = .time t → f.startTime = t) :
    start? f = some start := by
  unfold start?
  rw [hkind]
  cases start with
  | now => rfl
  | external => rfl
  | line n => rw [hline n rfl, index?_byteOf (by decide)]; rfl
  | time t => rw [htime t rfl]; rfl

theorem stop?_of_code {stop : StopCondition} (hkind : f.stopKind = byteOf stop.code)
    (hline : ∀ n, stop = .line n → f.stopLine = byteOf n) (hcount : ∀ n, stop = .count n → f.count.toNat = n ∧ 1 ≤ n)
    (htime : ∀ t, stop = .time t → f.stopTime = t) : stop? f = some stop := by
  unfold stop?
  rw [hkind]
  cases stop with
  | none => rfl
  | count n =>
    obtain ⟨hn, hpos⟩ := hcount n rfl
    have := f.count.isLt
    rw [inRange?_some ⟨by omega, by omega⟩, hn]
    rfl
  | line n => rw [hline n rfl, index?_byteOf (by decide)]; rfl
  | time t => rw [htime t rfl]; rfl

/-- The start kinds of Table 12-8, and the line where the kind uses one. -/
theorem bounds_of_start? {start : StartCondition} (h : start? f = some start) :
    f.startKind.toNat ≤ 3 ∧ (f.startKind.toNat = 2 → f.startLine.toNat < 4) := by
  unfold start? at h
  split_ifs at h with hnow hexternal hline htime
  · simp [hnow]
  · simp [hexternal]
  · obtain ⟨n, hn, -⟩ := Option.map_eq_some_iff.mp h
    exact ⟨by simp [hline], fun _ => toNat_lt_of_index? hn⟩
  · simp [htime]

/-- The stop kinds of Table 12-8, and the count and the line where the kind uses one. -/
theorem bounds_of_stop? {stop : StopCondition} (h : stop? f = some stop) :
    f.stopKind.toNat ≤ 3 ∧ (f.stopKind.toNat = 1 → f.count.toNat ≠ 0) ∧
      (f.stopKind.toNat = 2 → f.stopLine.toNat < 4) := by
  unfold stop? at h
  split_ifs at h with hnone hcount hline htime
  · simp [hnone]
  · obtain ⟨n, hn, -⟩ := Option.map_eq_some_iff.mp h
    have := bounds_of_inRange? hn
    exact ⟨by simp [hcount], fun _ => by omega, by simp [hcount]⟩
  · obtain ⟨n, hn, -⟩ := Option.map_eq_some_iff.mp h
    exact ⟨by simp [hline], by simp [hline], fun _ => toNat_lt_of_index? hn⟩
  · simp [htime]

end

/-- Settles O16: the codes name what they code, and a named configuration bounds every field. -/
theorem configureFieldsName : Obligations.ConfigureFieldsName := by
  refine fun f c pages => ⟨fun hlist hgenerator hring hp hp1 hp2 hpages hpages1 hpages2 hdepth hdepth2 hflush hslip hoverrun
    hstart hstartLine hstartTime hstop hstopLine hcount hstopTime => ?_, fun hout => ?_⟩
  · unfold streamConfig?
    rw [hlist, hgenerator, hring, index?_byteOf (by decide), index?_byteOf (by decide), index?_byteOf (by decide), hp,
      hpages, hdepth, hflush, inRange?_some ⟨hp1, hp2⟩, inRange?_some ⟨hpages1, hpages2⟩,
      inRange?_some ⟨Nat.zero_le _, hdepth2⟩, start?_of_code hstart hstartLine hstartTime,
      stop?_of_code hstop hstopLine hcount hstopTime, hslip, hoverrun, policy_halts, policy_halts]
    rfl
  · by_contra hsome
    obtain ⟨x, hx⟩ := Option.ne_none_iff_exists'.mp hsome
    simp only [streamConfig?, Option.bind_eq_bind, Option.bind_eq_some_iff] at hx
    obtain ⟨_, hlist, _, hgenerator, _, hring, _, hp, _, hpages, _, hdepth, _, hstart, _, hstop, -⟩ := hx
    have := toNat_lt_of_index? hlist
    have := toNat_lt_of_index? hgenerator
    have := toNat_lt_of_index? hring
    have := bounds_of_inRange? hp
    have := bounds_of_inRange? hpages
    have := bounds_of_inRange? hdepth
    obtain ⟨_, _⟩ := bounds_of_start? hstart
    obtain ⟨_, _, _⟩ := bounds_of_stop? hstop
    omega

/-! ### CONFIGURE STREAM -/

section
variable {u : State} {i : StreamId} {c : StreamConfig} {pages : Nat}

/-- The state check of R3. -/
theorem configurable_iff (u : State) (i : StreamId) : u.configurable i = true ↔
    (u.streams[i]).state = .unconfigured ∨ ((u.streams[i]).state = .idle ∧ u.buffers[i] = []) := by
  simp [State.configurable]

/-- The checks of R3 on the list, the ring and the capacity. -/
theorem configFits_iff {S : Nat} (hS : (u.scanLists[c.scanList]).length = S) : u.configFits c pages = true ↔
    1 ≤ S ∧ u.rings[c.ring] ≠ none ∧ c.passesPerBlock * S ≤ 2048 ∧
      max (c.passesPerBlock * S) (c.depth * S) + S ≤ pages * 128 := by
  simp only [State.configFits, hS, Bool.and_eq_true, decide_eq_true_eq, Option.isSome_iff_ne_none, and_assoc, slotsPerPage]

theorem configureOwner_of_wrongState {f : ConfigureFields}
    (h : ¬((u.streams[i]).state = .unconfigured ∨ ((u.streams[i]).state = .idle ∧ u.buffers[i] = []))) :
    configureOwner f i u = refuse u .wrongState 0 := by
  unfold configureOwner
  rw [Bool.eq_false_iff.mpr (mt (configurable_iff u i).mp h)]
  rfl

theorem configureOwner_of_unnamed {f : ConfigureFields} (h : u.configurable i = true) (hnone : streamConfig? f = none) :
    configureOwner f i u = refuse u .badField 0 := by
  unfold configureOwner
  rw [h, hnone]
  rfl

/-- CONFIGURE STREAM of a stream that takes it, with a configuration that its fields name (R3 stages 2 and 3). -/
theorem configureOwner_of_named {f : ConfigureFields} (h : u.configurable i = true)
    (hsome : streamConfig? f = some (c, pages)) : configureOwner f i u =
      if !u.configFits c pages then refuse u .badField 0
      else if u.freePages + (u.streams[i]).pagesHeld < pages then refuse u .noPages 0
      else accept (configure i c pages u) := by
  unfold configureOwner
  rw [h, hsome]
  rfl

end

/-- Settles O15: the three stages of R3, then R4. -/
theorem configureStreamTakesEffect : Obligations.ConfigureStreamTakesEffect := by
  refine fun h f s hs => ⟨fun hb => next_decided hs (by rw [onStream_above hb]), fun i hi => ⟨fun hstate => ?_, fun hstate => ?_⟩⟩
  · refine next_decided hs ?_
    rw [hi, onStream_byteOf]
    exact configureOwner_of_wrongState hstate
  · have ready : (s.taking 0x0030 h).configurable i = true := (configurable_iff _ i).mpr hstate
    refine ⟨fun hnone => next_decided hs ?_, fun c pages S hsome hS => ?_⟩
    · rw [hi, onStream_byteOf]
      exact configureOwner_of_unnamed ready hnone
    · have owner := (congrFun (onStream_byteOf i (configureOwner f)) (s.taking 0x0030 h)).trans
        (configureOwner_of_named ready hsome)
      rw [← hi] at owner
      have fits := configFits_iff (u := s.taking 0x0030 h) (pages := pages) hS
      refine ⟨fun hunfit => next_decided hs (owner.trans ?_), fun h1 h2 h3 h4 => ?_⟩
      · rw [Bool.eq_false_iff.mpr (mt fits.mp hunfit)]
        rfl
      · rw [fits.mpr ⟨h1, h2, h3, h4⟩] at owner
        exact ⟨fun hfew => next_decided hs (owner.trans (if_pos hfew)),
          fun henough => next_decided hs (owner.trans (if_neg (not_lt.mpr henough)))⟩

/-! ### POST BUFFERS -/

section
variable {u : State} {i : StreamId} {bytes : Nat}

/-- A descriptor entry that passes both parts of R82 check 3. -/
def State.entryOk (s : State) (maxBytes : Nat) (e : DescriptorEntry) : Bool :=
  entryFieldsOk e maxBytes && s.accepts WindowUse.allowsBuffers e.address (entryLast e)

theorem entryFieldsOk_iff (e : DescriptorEntry) (maxBytes : Nat) : entryFieldsOk e maxBytes = true ↔
    e.address.toNat % 8 = 0 ∧ e.length.toNat % 8 = 0 ∧ maxBytes ≤ e.length.toNat ∧ e.length.toNat ≤ 4194304 ∧
      e.address.toNat + e.length.toNat ≤ 2 ^ 64 := by
  simp only [entryFieldsOk, Bool.and_eq_true, decide_eq_true_eq]
  unfold maxBufferBytes
  omega

/-- A window accepts the area of a buffer (R79). -/
theorem accepts_buffers_iff (first last : Long) : u.accepts WindowUse.allowsBuffers first last = true ↔
    ∃ w : WindowId, (u.windows[w]).covers first = true ∧ (u.windows[w]).covers last = true ∧
      (u.windows[w]).use ≠ .status := by
  have use : ∀ x : WindowUse, x.allowsBuffers = true ↔ x ≠ .status := by intro x; cases x <;> decide
  simp only [State.accepts, List.any_eq_true, mem_allFours, true_and, Bool.and_eq_true, and_assoc, use]

/-- The entries that pass are walked over. -/
theorem badDescriptor_drop {l : List DescriptorEntry} {k : Nat} (hk : k ≤ l.length)
    (hok : ∀ j, (hj : j < k) → u.entryOk bytes l[j] = true) (n : Nat) :
    u.badDescriptor bytes l n = u.badDescriptor bytes (l.drop k) (n + k) := by
  induction k generalizing l n with
  | zero => rfl
  | succ k ih =>
    cases l with
    | nil => cases hk
    | cons e rest =>
      obtain ⟨hfields, harea⟩ := Bool.and_eq_true_iff.mp (hok 0 (Nat.succ_pos k))
      have head : u.badDescriptor bytes (e :: rest) n = u.badDescriptor bytes rest (n + 1) := by
        simp only [List.getElem_cons_zero] at hfields harea
        simp only [State.badDescriptor, hfields, harea]
        rfl
      rw [head, ih (Nat.le_of_succ_le_succ hk) (fun j hj => hok (j + 1) (Nat.succ_lt_succ hj)), List.drop_succ_cons]
      congr 1
      omega

/-- The entries that POST BUFFERS uses. -/
theorem getElem_take_entries (entries : Vector DescriptorEntry 3) {n j : Nat} (hj : j < 3)
    (hlt : j < (entries.toList.take n).length) : (entries.toList.take n)[j] = entries[j] := by
  rw [List.getElem_take, Vector.getElem_toList]

/-- The first entry that fails decides the refusal (R82 check 3). -/
theorem badDescriptor_entries {entries : Vector DescriptorEntry 3} {n : Nat} (hn : n ≤ 3) {k : Fin 3} (hk : k.val < n)
    (hok : ∀ j : Fin 3, j < k → u.entryOk bytes entries[j] = true) :
    ∃ rest, u.badDescriptor bytes (entries.toList.take n) 1 = u.badDescriptor bytes (entries[k] :: rest) (k.val + 1) := by
  have length : (entries.toList.take n).length = n := by simp; omega
  have before (j : Nat) (hj : j < k.val) :
      u.entryOk bytes ((entries.toList.take n)[j]'(by omega)) = true := by
    rw [getElem_take_entries entries (by omega)]
    exact hok ⟨j, by omega⟩ hj
  rw [badDescriptor_drop (by omega) before, List.drop_eq_getElem_cons (by omega),
    getElem_take_entries entries k.isLt, Nat.add_comm]
  exact ⟨_, rfl⟩

/-- Entries that all pass are accepted (R82 check 3). -/
theorem badDescriptor_none {entries : Vector DescriptorEntry 3} {n : Nat} (hn : n ≤ 3)
    (hok : ∀ k : Fin 3, k.val < n → u.entryOk bytes entries[k] = true) :
    u.badDescriptor bytes (entries.toList.take n) 1 = none := by
  have length : (entries.toList.take n).length = n := by simp; omega
  rw [badDescriptor_drop (k := n) (by omega), List.drop_eq_nil_of_le (by omega)]
  · rfl
  · intro j hj
    rw [getElem_take_entries entries (by omega)]
    exact hok ⟨j, by omega⟩ hj

/-- POST BUFFERS out of range (R82 check 1). -/
theorem postBuffersOwner_out_of_range {b count : Byte} (entries : Vector DescriptorEntry 3)
    (hout : 8 ≤ b.toNat ∨ count.toNat = 0 ∨ 3 < count.toNat) : postBuffersOwner b count entries u = refuse u .badField 0 := by
  unfold postBuffersOwner
  obtain hb | hcount := hout
  · rw [index?_none hb]
  · rw [inRange?_none (by omega)]
    cases index? 8 b <;> rfl

/-- A state that takes POST BUFFERS (R82 check 2). -/
theorem takesBuffers_iff (x : StreamState) : x.takesBuffers = true ↔ x ≠ .unconfigured ∧ x ≠ .faulted := by
  cases x <;> decide

/-- POST BUFFERS with its fields in range (R82 checks 2 to 4, R83). -/
theorem postBuffersOwner_in_range {count : Byte} (entries : Vector DescriptorEntry 3)
    (hcount : 1 ≤ count.toNat ∧ count.toNat ≤ 3) : postBuffersOwner (byteOf i) count entries u =
      if !(u.streams[i]).state.takesBuffers then refuse u .wrongState 0
      else match u.badDescriptor (u.maxBlockBytes i) (entries.toList.take count.toNat) 1 with
        | some (status, detail) => refuse u status detail
        | none =>
          if 32 < (u.buffers[i]).length + count.toNat then refuse u .queueFull (32 - (u.buffers[i]).length)
          else accept (noteEligible i u (u.modBuffers i (fun q =>
            q ++ (entries.toList.take count.toNat).map Descriptor.fresh))) := by
  unfold postBuffersOwner
  rw [index?_byteOf (by decide), inRange?_some hcount]
  rfl

/-- A stream is eligible in UP with a block ready, a buffer to take it and no record waiting (R85). -/
theorem eligible_iff (u : State) (i : StreamId) : u.eligible i = true ↔
    u.linkUp = true ∧ (u.staging[i]).readyBlock ≠ none ∧ u.buffers[i] ≠ [] ∧ u.outboxes[i] = [] := by
  simp [State.eligible, Option.isSome_iff_ne_none, and_assoc]

/-- A transition that makes a stream eligible notes it behind the others. -/
theorem noteEligible_of_new {v : State} (hbefore : u.eligible i = false) (hafter : v.eligible i = true) :
    noteEligible i u v = { v with becameEligible := v.becameEligible.erase i ++ [i] } :=
  if_pos ⟨hbefore, hafter⟩

theorem noteEligible_of_not_new {v : State} (h : u.eligible i = true ∨ v.eligible i = false) : noteEligible i u v = v :=
  if_neg fun x => by
    obtain hbefore | hafter := h
    · rw [x.1] at hbefore; cases hbefore
    · rw [x.2] at hafter; cases hafter

/-- A stream whose queue gets buffers while the link is UP: it becomes eligible by them only when they were missing. -/
theorem noteEligible_modBuffers {f : List Descriptor → List Descriptor} {free : List StreamId} (hup : u.linkUp = true)
    (hf : f (u.buffers[i]) ≠ [])
    (hold : u.eligible i = true ∨ u.buffers[i] ≠ [] ∨ (u.staging[i]).readyBlock = none ∨ u.outboxes[i] ≠ [] →
      free = u.becameEligible)
    (hnew : u.buffers[i] = [] → (u.staging[i]).readyBlock ≠ none → u.outboxes[i] = [] →
      free = u.becameEligible.erase i ++ [i]) :
    noteEligible i u (u.modBuffers i f) = { u.modBuffers i f with becameEligible := free } := by
  have after : (u.modBuffers i f).eligible i = true ↔ (u.staging[i]).readyBlock ≠ none ∧ u.outboxes[i] = [] := by
    rw [eligible_iff]
    have : (upd u.buffers i f)[i] ≠ [] := by
      rw [upd_same]
      exact hf
    exact ⟨fun x => ⟨x.2.1, x.2.2.2⟩, fun x => ⟨hup, x.1, this, x.2⟩⟩
  by_cases hmissing : u.buffers[i] = [] ∧ (u.staging[i]).readyBlock ≠ none ∧ u.outboxes[i] = []
  · obtain ⟨hempty, hready, hout⟩ := hmissing
    rw [noteEligible_of_new (Bool.eq_false_iff.mpr fun x => ((eligible_iff u i).mp x).2.2.1 hempty)
      (after.mpr ⟨hready, hout⟩), hnew hempty hready hout]
    rfl
  · have unchanged : u.eligible i = true ∨ (u.modBuffers i f).eligible i = false := by
      by_cases hafter : (u.staging[i]).readyBlock ≠ none ∧ u.outboxes[i] = []
      · exact Or.inl ((eligible_iff u i).mpr ⟨hup, hafter.1, fun x => hmissing ⟨x, hafter⟩, hafter.2⟩)
      · exact Or.inr (Bool.eq_false_iff.mpr (mt after.mp hafter))
    have kept : free = u.becameEligible := by
      refine hold ?_
      by_cases hbuffers : u.buffers[i] = []
      · by_cases hready : (u.staging[i]).readyBlock = none
        · exact Or.inr (Or.inr (Or.inl hready))
        · exact Or.inr (Or.inr (Or.inr fun x => hmissing ⟨hbuffers, hready, x⟩))
      · exact Or.inr (Or.inl hbuffers)
    rw [noteEligible_of_not_new unchanged, kept]
    rfl

end

/-! ### RECLAIM BUFFERS -/

section
variable {u : State} {i : StreamId}

theorem reclaimOwner_of_wrongState (hidle : (u.streams[i]).state ≠ .idle) (hfaulted : (u.streams[i]).state ≠ .faulted) :
    reclaimOwner (byteOf i) u = refuse u .wrongState 0 := by
  unfold reclaimOwner
  rw [index?_byteOf (by decide)]
  cases hstate : (u.streams[i]).state with
  | idle => exact absurd hstate hidle
  | faulted => exact absurd hstate hfaulted
  | unconfigured | armed | running | draining => simp only [hstate]

/-- An IDLE or FAULTED stream gives its descriptors back once its outbox is empty (R84). -/
theorem reclaimOwner_of_ended (hended : (u.streams[i]).state = .idle ∨ (u.streams[i]).state = .faulted) :
    reclaimOwner (byteOf i) u =
      if u.outboxes[i] ≠ [] then refuse u .backlog 0
      else
        { state := u.modBuffers i (fun _ => []), status := .done, detail := (u.buffers[i]).length,
          returned := u.returnedRecords i } := by
  unfold reclaimOwner
  rw [index?_byteOf (by decide)]
  obtain hstate | hstate := hended <;> simp only [hstate] <;> simp

end

/-- Settles O22: R82's checks in their order with what R83 appends, and R84 by the stream's state and outbox. -/
theorem bufferOrders : Obligations.BufferOrders := by
  refine ⟨fun h count entries s hs => ⟨fun b hout => next_decided hs (postBuffersOwner_out_of_range entries hout),
    fun i fields area h1 h3 hfields harea => ?_⟩, fun h s hs => ⟨fun b hb => next_decided hs ?_, fun i =>
      ⟨fun hidle hfaulted => next_decided hs (reclaimOwner_of_wrongState hidle hfaulted), fun hended => ?_⟩⟩⟩
  · have owner := postBuffersOwner_in_range (u := s.taking 0x0040 h) (i := i) entries ⟨h1, h3⟩
    have passes (k : Fin 3) : entryFieldsOk entries[k] (s.maxBlockBytes i) = true ↔ fields k :=
      (entryFieldsOk_iff _ _).trans (hfields k).symm
    have inside (k : Fin 3) : (s.taking 0x0040 h).accepts WindowUse.allowsBuffers (entries[k]).address
        (entryLast entries[k]) = true ↔ area k := (accepts_buffers_iff _ _).trans (harea k).symm
    have ok (k : Fin 3) (hk : fields k ∧ area k) : (s.taking 0x0040 h).entryOk (s.maxBlockBytes i) entries[k] = true :=
      Bool.and_eq_true_iff.mpr ⟨(passes k).mpr hk.1, (inside k).mpr hk.2⟩
    refine ⟨fun hstate => next_decided hs (owner.trans ?_), fun hconfigured hfaulted => ?_⟩
    · obtain hstate | hstate := hstate <;> simp only [taking_streams, hstate] <;> rfl
    · have takes : ((s.taking 0x0040 h).streams[i]).state.takesBuffers = true :=
        (takesBuffers_iff _).mpr ⟨hconfigured, hfaulted⟩
      rw [takes, show (s.taking 0x0040 h).maxBlockBytes i = s.maxBlockBytes i from rfl] at owner
      refine ⟨fun k hk hbefore => ?_, fun hall => ?_⟩
      · obtain ⟨rest, hrest⟩ := badDescriptor_entries h3 hk (fun j hj => ok j (hbefore j hj))
        rw [hrest] at owner
        refine ⟨fun hbad => next_decided hs (owner.trans ?_), fun hfields houtside => next_decided hs (owner.trans ?_)⟩
        · rw [State.badDescriptor, Bool.eq_false_iff.mpr (mt (passes k).mp hbad)]
          rfl
        · rw [State.badDescriptor, (passes k).mpr hfields, Bool.eq_false_iff.mpr (mt (inside k).mp houtside)]
          rfl
      · rw [badDescriptor_none h3 (fun k hk => ok k (hall k hk))] at owner
        refine ⟨fun hfull => next_decided hs (owner.trans (if_pos hfull)), fun free hroom hold hnew => next_decided hs ?_⟩
        refine owner.trans ((if_neg (not_lt.mpr hroom)).trans (congrArg accept ?_))
        refine noteEligible_modBuffers (u := s.taking 0x0040 h) hs.1 ?_ hold hnew
        have : 0 < (entries.toList.take count.toNat).length := by simp; omega
        exact fun e => by simp_all
  · unfold reclaimOwner
    rw [index?_none hb]
  · have owner := reclaimOwner_of_ended (u := s.taking 0x0041 h) hended
    refine ⟨fun hbacklog => next_decided hs (owner.trans (if_pos hbacklog)), fun c hempty hconfig => next_decided hs ?_⟩
    rw [returnedRecords_of_config (u := s.taking 0x0041 h) hconfig] at owner
    exact owner.trans (if_neg (not_not_intro hempty))

end Sys2Proof.Machine
end


-- ==== Sys2Proof/Proofs/TimebaseOrders.lean ====
section
/-!
PROOFS. Proofs/TimebaseOrders.lean: the orders to the Timebase (R131 to R133).
-/

namespace Sys2Proof.Machine

theorem role?_byteOf_code (r : Role) : role? (byteOf r.code) = some r := by cases r <;> rfl

theorem role?_none {b : Byte} (h : 3 ≤ b.toNat) : role? b = none := by
  unfold role?
  split_ifs with h0 h1 h2
  · rw [h0] at h; exact absurd h (by decide)
  · rw [h1] at h; exact absurd h (by decide)
  · rw [h2] at h; exact absurd h (by decide)
  · rfl

theorem Fire.drives_iff (x : Fire) : x.drives = true ↔ ∃ e, x = .driving e := by cases x <;> simp [Fire.drives]

/-- A fire that is not being driven survives a new role only when that is LEADER (R131). -/
theorem Fire.underRole_of_not_driving {x : Fire} (h : ∀ e, x ≠ .driving e) (r : Role) :
    x.underRole r = if r = .leader then x else .absent := by
  cases x with
  | driving e => exact absurd rfl (h e)
  | absent => cases r <;> rfl
  | waiting t => cases r <;> rfl

section
variable {u : State} {r : Role}

/-- SET TIMEBASE with a role that its byte names (R131). -/
theorem setTimebaseOwner_of_role (u : State) (r : Role) : setTimebaseOwner (byteOf r.code) u =
    if u.timebase.arm.isSome then refuse u .wrongState 1
    else if u.timebase.fire.drives then refuse u .wrongState 2
    else accept (u.modTimebase (fun t => { t with role := r, fire := t.fire.underRole r })) := by
  unfold setTimebaseOwner
  rw [role?_byteOf_code]

/-- FIRE SYNC with a mode that its byte names (R133). -/
theorem fireSyncOwner_of_mode (atTime : Bool) (time : Long) (u : State) : fireSyncOwner (if atTime then 1 else 0) time u =
    if u.timebase.role ≠ .leader then refuse u .wrongState 1
    else if u.timebase.fire ≠ .absent then refuse u .wrongState 2
    else if atTime = false ∨ time ≤ u.timebase.count then accept (beginPulse u)
    else accept (u.modTimebase (fun t => { t with fire := .waiting time })) := by
  unfold fireSyncOwner
  rw [flag?_ofBool]

/-- The moment at which an arm expires, for timeouts in milliseconds; 0 is none (R132). -/
theorem armExpiry_eq (timeout : Word) (now : Nat) :
    (if timeout = 0 then none else some (now + timeout.toNat * periodsPerMs)) =
      if timeout.toNat = 0 then none else some (now + timeout.toNat * 50000) :=
  if_congr ⟨fun h => congrArg BitVec.toNat h, fun h => BitVec.eq_of_toNat_eq h⟩ rfl rfl

end

/-- Settles O25: each order by the checks of its owner, in their order. -/
theorem timebaseOrders : Obligations.TimebaseOrders := by
  refine ⟨fun h s hs => ⟨fun b hb => next_decided hs (by rw [setTimebaseOwner, role?_none hb]), fun r => ?_⟩,
    fun h time s hs => ⟨fun mode hmode => next_decided hs (by rw [fireSyncOwner, flag?_none hmode]), fun atTime => ?_⟩,
    fun h preset timeout s hs => ⟨fun hlong => next_decided hs (if_pos hlong), fun hshort => ?_⟩⟩
  · have owner := setTimebaseOwner_of_role (s.taking 0x0060 h) r
    refine ⟨fun harm => next_decided hs (owner.trans (if_pos (Option.isSome_iff_ne_none.mpr harm))), fun harm hdrives => ?_,
      fun harm hquiet => ?_⟩
    all_goals
      have unarmed : (s.taking 0x0060 h).timebase.arm.isSome ≠ true := by rw [taking_timebase, harm]; decide
      have checked := owner.trans (if_neg unarmed)
    · exact next_decided hs (checked.trans (if_pos ((Fire.drives_iff _).mpr hdrives)))
    · have quiet : ¬(s.taking 0x0060 h).timebase.fire.drives = true := fun x =>
        Exists.elim ((Fire.drives_iff _).mp x) hquiet
      exact next_decided hs ((checked.trans (if_neg quiet)).trans
        (congrArg (fun fire => accept ((s.taking 0x0060 h).modTimebase (fun t => { t with role := r, fire := fire })))
          (Fire.underRole_of_not_driving hquiet r)))
  · have owner := fireSyncOwner_of_mode atTime time (s.taking 0x0062 h)
    refine ⟨fun hrole => next_decided hs (owner.trans (if_pos hrole)), fun hrole hfire => ?_, fun hrole hfire hnow => ?_,
      fun hrole hfire hat hahead => ?_⟩
    all_goals have leads := owner.trans (if_neg (not_not_intro hrole))
    · exact next_decided hs (leads.trans (if_pos hfire))
    · exact next_decided hs ((leads.trans (if_neg (not_not_intro hfire))).trans (if_pos hnow))
    · have waits : ¬(atTime = false ∨ time ≤ (s.taking 0x0062 h).timebase.count) := by
        rintro (hoff | hpast)
        · rw [hat] at hoff; cases hoff
        · exact absurd hpast (BitVec.not_le.mpr hahead)
      exact next_decided hs ((leads.trans (if_neg (not_not_intro hfire))).trans (if_neg waits))
  · have inRange : armSyncOwner preset timeout (s.taking 0x0061 h) = _ := if_neg (not_lt.mpr hshort)
    refine ⟨fun hrole => next_decided hs (inRange.trans (if_pos hrole)), fun hrole harm => ?_, fun hrole harm hhold => ?_,
      fun hrole harm hhold => ?_⟩
    all_goals have on := inRange.trans (if_neg hrole)
    · exact next_decided hs (on.trans (if_pos (Option.isSome_iff_ne_none.mpr harm)))
    all_goals
      have unarmed : ¬(s.taking 0x0061 h).timebase.arm.isSome = true := by rw [taking_timebase, harm]; decide
      have checked := on.trans (if_neg unarmed)
    · exact next_decided hs (checked.trans (if_pos (Option.isSome_iff_ne_none.mpr hhold)))
    · have empty : ¬(s.taking 0x0061 h).timebase.hold.isSome = true := by rw [taking_timebase, hhold]; decide
      refine next_decided hs ((checked.trans (if_neg empty)).trans ?_)
      rw [armExpiry_eq]
      rfl

end Sys2Proof.Machine
end

