-- ==== Sys2Proof/Proofs/LinkChanges.lean ====
section
/-!
PROOFS. Proofs/LinkChanges.lean: what a teardown, a LINK CONTROL write, a link reset, the entry to DOWN and the end of the
Control Block read do to the state (section 11.2 to 11.7).
-/

namespace Sys2Proof.Machine

/-! ### Teardown -/

theorem alertOf_of_inside {watches : Vector Watch 16} (h : ∀ m : WatchId, (watches[m]).state = .inside) :
    alertOf watches = 0 := by
  by_contra hlevel
  obtain ⟨m, -, hout, -⟩ := mem_levelsOutOfBand.mp (alertOf_mem_levelsOutOfBand hlevel)
  exact hout (h m)

theorem teardown_watch (s : State) (m : WatchId) : (teardown s).watches[m] = (s.watches[m]).teardown :=
  mapAll_get _ _ m.val m.isLt

theorem teardown_stream (s : State) (i : StreamId) : (teardown s).streams[i] = (s.streams[i]).teardown :=
  mapAll_get _ _ i.val i.isLt

theorem teardown_staging (s : State) (i : StreamId) :
    (teardown s).staging[i] = teardownStaging s.streams[i] s.staging[i] := by
  simp [teardown, recomputeAlert]

theorem teardown_generator (s : State) (g : GeneratorId) : (teardown s).generators[g] = (s.generators[g]).teardown :=
  mapAll_get _ _ g.val g.isLt

theorem teardown_converter (s : State) (c : ConverterId) : (teardown s).converters[c] = (s.converters[c]).clear :=
  mapAll_get _ _ c.val c.isLt

theorem teardown_alert (s : State) : (teardown s).alertLevel = 0 := by
  have level : (teardown s).alertLevel = alertOf (teardown s).watches := by
    simp only [teardown, recomputeAlert]
  rw [level]
  exact alertOf_of_inside fun m => by rw [teardown_watch]; rfl

/-- Settles O26: block by block, from what each block's teardown is. -/
theorem teardownOfEveryBlock : Obligations.TeardownOfEveryBlock := by
  rintro s _ rfl
  obtain ⟨hrings, hbuffers, houtboxes, -⟩ := teardown_empties s
  refine ⟨fun i => ⟨fun hactive => ⟨?_, ?_⟩, fun hidle => ⟨?_, ?_⟩, hbuffers i, houtboxes i⟩,
    teardown_converter s, hrings, teardown_generator s, teardown_watch s, teardown_alert s, rfl, ?_, fun hwork => ?_,
    fun hwork => ?_, rfl, rfl, rfl, rfl, rfl, by simp only [teardown, recomputeAlert]⟩
  · exact (teardown_stream s i).trans (if_pos hactive)
  · exact (teardown_staging s i).trans (if_pos hactive)
  · exact (teardown_stream s i).trans (if_neg (ne_true_of_eq_false hidle))
  · exact (teardown_staging s i).trans (if_neg (ne_true_of_eq_false hidle))
  · show s.timebase.clear = _
    unfold Timebase.clear
    cases s.timebase.fire <;> rfl
  · show s.orders.teardown.work = _
    unfold OrderUnit.teardown
    cases hw : s.orders.work with
    | placing order left => simp [hw, OrderWork.isFetching] at hwork
    | idle | fetching issued | executing order issued => rfl
  · obtain ⟨order, left, hw⟩ := hwork
    show s.orders.teardown.work = _
    unfold OrderUnit.teardown
    rw [hw]

/-! ### LINK CONTROL writes and the entry to DOWN -/

section
variable {s : State}

theorem startLoading_of_inside (h : s.link.cbAddress.toNat + 127 < 2 ^ 64) : startLoading s = { s with
    link := { s.link with state := .loading, cbRead := some s.elapsed }
    bus := s.bus ++ [.read s.link.cbAddress 128] } := if_neg (by omega)

theorem startLoading_of_past (h : 2 ^ 64 ≤ s.link.cbAddress.toNat + 127) : startLoading s = { s with
    link := { s.link with state := .fault, cause := .controlBlockInvalid, detail := 9 } } := if_pos (by omega)

theorem writeEnable_of_pending (h : s.link.resetPending = true) (e : Bool) : writeEnable e s = s := if_pos h

theorem writeReset_of_pending (h : s.link.resetPending = true) : writeReset s = s := if_pos h

/-- A LINK CONTROL write with ENABLE, by the state of the link (R169). -/
theorem writeEnable_of_not_pending (h : s.link.resetPending = false) (e : Bool) : writeEnable e s =
    match s.link.state, e with
    | .down, true => startLoading { s with link := { s.link with enable := true } }
    | .loading, false => { s with link := { s.link with enable := false, state := .stopping } }
    | .up, false => teardown { s with link := { s.link with enable := false, state := .stopping } }
    | _, e => { s with link := { s.link with enable := e } } := by
  unfold writeEnable
  rw [if_neg (ne_true_of_eq_false h)]
  dsimp only
  cases s.link.state <;> cases e <;> rfl

/-- A LINK CONTROL write with RESET, by the state of the link (R176 step 1). -/
theorem writeReset_of_not_pending (h : s.link.resetPending = false) : writeReset s =
    if s.link.state = .up then teardown { s with link := { s.link with resetPending := true, state := .stopping } }
    else { s with link := { s.link with resetPending := true } } := by
  unfold writeReset
  rw [if_neg (ne_true_of_eq_false h)]
  dsimp only
  cases s.link.state <;> rfl

end

/-- Settles O27: by whether a link reset is pending, and by the state of the link. -/
theorem linkControlWrites : Obligations.LinkControlWrites := by
  refine fun s => ⟨fun hpending => ⟨fun e => ?_, ?_⟩, fun hfree => ?_⟩
  · exact congrArg Host.Outcome.next (writeEnable_of_pending hpending e)
  · exact congrArg Host.Outcome.next (writeReset_of_pending hpending)
  · have enable := writeEnable_of_not_pending hfree
    have reset := writeReset_of_not_pending hfree
    refine ⟨fun hstate hinside => ?_, fun hstate hpast => ?_, fun hstate => ?_, fun hstate => ⟨?_, ?_⟩, fun e hstate => ?_,
      fun hstate => ?_⟩ <;> refine congrArg Host.Outcome.next ?_
    · refine (enable true).trans ?_
      rw [hstate]
      exact startLoading_of_inside (s := { s with link := { s.link with enable := true } }) hinside
    · refine (enable true).trans ?_
      rw [hstate]
      exact startLoading_of_past (s := { s with link := { s.link with enable := true } }) hpast
    · refine (enable false).trans ?_
      rw [hstate]
    · refine (enable false).trans ?_
      rw [hstate]
    · exact reset.trans (if_pos hstate)
    · refine (enable e).trans ?_
      obtain hstate | hstate | ⟨hstate, rfl⟩ | ⟨hstate, rfl⟩ | ⟨hstate, rfl⟩ := hstate <;> rw [hstate]
    · exact reset.trans (if_neg hstate)

theorem reset_converter (c : ConverterId) : State.reset.converters[c] = Converter.reset := Vector.getElem_replicate c.isLt

/-- Settles O28: the link's own transitions where their conditions hold, and nothing where they do not. -/
theorem quietLinkMovesOn : Obligations.QuietLinkMovesOn := by
  refine ⟨fun p s => ⟨fun hwaits => ?_, fun hpending hquiet => ⟨linkResetValues p s, ?_, fun n => ?_, fun c => ?_, ?_, rfl⟩⟩,
    fun s => ⟨fun hwaits => ?_, fun hstate hquiet hfree => ⟨fun hoff => ?_, fun hon hinside => ?_, fun hon hpast => ?_⟩⟩⟩
  · refine congrArg Host.Outcome.next (if_neg fun ⟨hpending, hquiet⟩ => ?_)
    obtain hfree | hbusy := hwaits
    · rw [hpending] at hfree; cases hfree
    · exact hbusy hquiet
  · exact congrArg Host.Outcome.next (if_pos ⟨hpending, hquiet⟩)
  · exact Vector.getElem_ofFn n.isLt
  · rw [reset_converter]
    exact mapAll_get _ _ c.val c.isLt
  · show s.timebase.clear = _
    unfold Timebase.clear
    cases s.timebase.fire <;> rfl
  · refine congrArg Host.Outcome.next (if_neg fun ⟨hstopping, hquiet, hfree⟩ => ?_)
    obtain hstate | hbusy | hpending := hwaits
    · exact hstate hstopping
    · exact hbusy hquiet
    · rw [hpending] at hfree; cases hfree
  all_goals
    have reaches : reachDown s = if s.link.enable then startLoading (s.setLink .down) else s.setLink .down :=
      if_pos ⟨hstate, hquiet, hfree⟩
    refine congrArg Host.Outcome.next (reaches.trans ?_)
  · exact if_neg (ne_true_of_eq_false hoff)
  · exact (if_pos hon).trans (startLoading_of_inside (s := s.setLink .down) hinside)
  · exact (if_pos hon).trans (startLoading_of_past (s := s.setLink .down) hpast)

/-! ### The checks of a Control Block (Table 11-3) -/

theorem sizeOk_iff (n : Nat) : sizeOk n = true ↔ ∃ k, 4 ≤ k ∧ k ≤ 12 ∧ n = 2 ^ k := by
  unfold sizeOk
  rw [List.contains_iff_mem]
  constructor
  · intro h
    fin_cases h
    exacts [⟨4, by decide⟩, ⟨5, by decide⟩, ⟨6, by decide⟩, ⟨7, by decide⟩, ⟨8, by decide⟩, ⟨9, by decide⟩,
      ⟨10, by decide⟩, ⟨11, by decide⟩, ⟨12, by decide⟩]
  · rintro ⟨k, h4, h12, rfl⟩
    interval_cases k <;> decide

theorem baseOk_iff (base size unit : Nat) :
    baseOk base size unit = true ↔ base % unit = 0 ∧ base + unit * size ≤ 2 ^ 64 := by
  rw [baseOk, Bool.and_eq_true, beq_iff_eq, decide_eq_true_eq]
  omega

section
variable {cb : ControlBlock} {ok : RingEntry → Bool}

/-- No ring fails a check that every enabled ring passes. -/
theorem firstFailing_eq_none_iff :
    firstFailing cb ok = none ↔ ∀ n : RingId, (cb.rings[n]).enable = true → ok (cb.rings[n]) = true := by
  unfold firstFailing
  rw [List.find?_eq_none]
  simp

/-- The lowest ring that fails a check. -/
theorem firstFailing_of_lowest {n : RingId} (hn : ¬((cb.rings[n]).enable = true → ok (cb.rings[n]) = true))
    (hbefore : ∀ m, m < n → (cb.rings[m]).enable = true → ok (cb.rings[m]) = true) : firstFailing cb ok = some n := by
  refine find_fours (p := fun n => (cb.rings[n]).enable && !ok (cb.rings[n])) ?_ fun m hm => ?_
  · simpa using hn
  · simpa using hbefore m hm

/-- Checks 5 to 8, by the rings: size, base, threshold and holdoff time. -/
def ringCheck : Nat → RingEntry → Bool
  | 5, r => sizeOk r.size.toNat
  | 6, r => baseOk r.base.toNat r.size.toNat 32
  | 7, r => decide (1 ≤ r.threshold.toNat ∧ r.threshold.toNat ≤ 64)
  | 8, r => decide (r.holdoff.toNat ≤ 65535)
  | _, _ => true

/-- The detail of a ring check that fails. -/
def ringFailure (cb : ControlBlock) (k : Nat) : Option Half :=
  (firstFailing cb (fun r => ringCheck k r)).map (fun n => BitVec.ofNat 16 (k + 256 * n.val))

/-- The detail of the first ring check that fails, in the order of Table 11-3. -/
def ringFailures (cb : ControlBlock) : Option Half :=
  (ringFailure cb 5).or ((ringFailure cb 6).or ((ringFailure cb 7).or (ringFailure cb 8)))

theorem checkControlBlock_eq (cb : ControlBlock) : checkControlBlock cb =
    if cb.format ≠ 1 then some 1
    else if ¬sizeOk cb.orderSize.toNat = true then some 2
    else if ¬baseOk cb.orderBase.toNat cb.orderSize.toNat 64 = true then some 3
    else if ¬(cb.rings[0]).enable = true then some 4
    else ringFailures cb := by
  have rings : ringFailures cb = match firstFailing cb (fun r => sizeOk r.size.toNat) with
      | some n => some (ringDetail 5 n)
      | none => match firstFailing cb (fun r => baseOk r.base.toNat r.size.toNat 32) with
        | some n => some (ringDetail 6 n)
        | none => match firstFailing cb (fun r => decide (1 ≤ r.threshold.toNat ∧ r.threshold.toNat ≤ 64)) with
          | some n => some (ringDetail 7 n)
          | none => match firstFailing cb (fun r => decide (r.holdoff.toNat ≤ 65535)) with
            | some n => some (ringDetail 8 n)
            | none => none := by
    show Option.or (Option.map _ (firstFailing cb (fun r => sizeOk r.size.toNat)))
      (Option.or (Option.map _ (firstFailing cb (fun r => baseOk r.base.toNat r.size.toNat 32)))
        (Option.or (Option.map _ (firstFailing cb (fun r => decide (1 ≤ r.threshold.toNat ∧ r.threshold.toNat ≤ 64))))
          (Option.map _ (firstFailing cb (fun r => decide (r.holdoff.toNat ≤ 65535)))))) = _
    cases firstFailing cb (fun r => sizeOk r.size.toNat) with
    | some n => rfl
    | none =>
      cases firstFailing cb (fun r => baseOk r.base.toNat r.size.toNat 32) with
      | some n => rfl
      | none =>
        cases firstFailing cb (fun r => decide (1 ≤ r.threshold.toNat ∧ r.threshold.toNat ≤ 64)) with
        | some n => rfl
        | none => cases firstFailing cb (fun r => decide (r.holdoff.toNat ≤ 65535)) <;> rfl
  rw [rings]
  unfold checkControlBlock
  simp only [Bool.not_eq_true', Bool.not_eq_true] <;> rfl

theorem ringFailure_eq_none_iff {k : Nat} :
    ringFailure cb k = none ↔ ∀ n : RingId, (cb.rings[n]).enable = true → ringCheck k (cb.rings[n]) = true := by
  rw [ringFailure, Option.map_eq_none_iff, firstFailing_eq_none_iff]

theorem ringFailure_of_lowest {k : Nat} {n : RingId}
    (hn : ¬((cb.rings[n]).enable = true → ringCheck k (cb.rings[n]) = true))
    (hbefore : ∀ m, m < n → (cb.rings[m]).enable = true → ringCheck k (cb.rings[m]) = true) :
    ringFailure cb k = some (BitVec.ofNat 16 (k + 256 * n.val)) := by
  rw [ringFailure, firstFailing_of_lowest (ok := fun r => ringCheck k r) hn hbefore]
  rfl

/-- The ring checks before the first one that fails give nothing. -/
theorem ringFailures_of_first {k : Nat} {d : Half} (h5 : 5 ≤ k) (h8 : k ≤ 8) (hk : ringFailure cb k = some d)
    (hbefore : ∀ j, 5 ≤ j → j < k → ringFailure cb j = none) : ringFailures cb = some d := by
  unfold ringFailures
  obtain rfl | rfl | rfl | rfl : k = 5 ∨ k = 6 ∨ k = 7 ∨ k = 8 := by omega
  · rw [hk]; rfl
  · rw [hbefore 5 (by decide) (by decide), hk]; rfl
  · rw [hbefore 5 (by decide) (by decide), hbefore 6 (by decide) (by decide), hk]; rfl
  · rw [hbefore 5 (by decide) (by decide), hbefore 6 (by decide) (by decide), hbefore 7 (by decide) (by decide), hk]; rfl

theorem checkControlBlock_eq_none_iff : checkControlBlock cb = none ↔
    cb.format = 1 ∧ sizeOk cb.orderSize.toNat = true ∧ baseOk cb.orderBase.toNat cb.orderSize.toNat 64 = true ∧
      (cb.rings[0]).enable = true ∧ ringFailures cb = none := by
  rw [checkControlBlock_eq]
  by_cases h1 : cb.format = 1
  swap
  · rw [if_pos h1]
    exact ⟨nofun, fun x => absurd x.1 h1⟩
  by_cases h2 : sizeOk cb.orderSize.toNat = true
  swap
  · rw [if_neg (not_not_intro h1), if_pos h2]
    exact ⟨nofun, fun x => absurd x.2.1 h2⟩
  by_cases h3 : baseOk cb.orderBase.toNat cb.orderSize.toNat 64 = true
  swap
  · rw [if_neg (not_not_intro h1), if_neg (not_not_intro h2), if_pos h3]
    exact ⟨nofun, fun x => absurd x.2.2.1 h3⟩
  by_cases h4 : (cb.rings[0]).enable = true
  swap
  · rw [if_neg (not_not_intro h1), if_neg (not_not_intro h2), if_neg (not_not_intro h3), if_pos h4]
    exact ⟨nofun, fun x => absurd x.2.2.2.1 h4⟩
  rw [if_neg (not_not_intro h1), if_neg (not_not_intro h2), if_neg (not_not_intro h3), if_neg (not_not_intro h4)]
  exact ⟨fun x => ⟨h1, h2, h3, h4, x⟩, fun x => x.2.2.2.2⟩

end

/-- What ring checks 5 to 8 ask of a ring. -/
theorem check_iff (r : RingEntry) :
    (ringCheck 5 r = true ↔ ∃ k, 4 ≤ k ∧ k ≤ 12 ∧ r.size.toNat = 2 ^ k) ∧
    (ringCheck 6 r = true ↔ r.base.toNat % 32 = 0 ∧ r.base.toNat + 32 * r.size.toNat ≤ 2 ^ 64) ∧
    (ringCheck 7 r = true ↔ 1 ≤ r.threshold.toNat ∧ r.threshold.toNat ≤ 64) ∧
    (ringCheck 8 r = true ↔ r.holdoff.toNat ≤ 65535) :=
  ⟨sizeOk_iff _, baseOk_iff _ _ _, decide_eq_true_iff, decide_eq_true_iff⟩

/-! ### The end of the Control Block read -/

section
variable {s : State} {issued : Nat} {cb : ControlBlock}

theorem endLoading_of_late (hread : s.link.cbRead = some issued) (hlate : issued + 2500000 < s.elapsed) :
    endLoading cb s = s := by
  unfold endLoading
  rw [hread]
  simp only [inTime_eq_false hlate, Bool.not_false, if_true]

theorem endLoading_in_time (hread : s.link.cbRead = some issued) (htime : s.elapsed ≤ issued + 2500000) :
    endLoading cb s = if s.endCbRead.loads then
        match checkControlBlock cb with
        | none => loadControlBlock cb s.endCbRead
        | some detail => loadingFault .controlBlockInvalid detail s.endCbRead
      else s.endCbRead := by
  unfold endLoading
  rw [hread]
  simp only [(inTime_iff s issued).mpr htime, Bool.not_true]
  rfl

theorem failLoading_of_read (hread : s.link.cbRead = some issued) : failLoading s =
    if s.endCbRead.loads then loadingFault .controlBlockRead 0 s.endCbRead else s.endCbRead := by
  unfold failLoading
  rw [hread]

theorem endCbRead_loads_eq_false (h : s.link.state ≠ .loading ∨ s.link.resetPending = true) :
    s.endCbRead.loads = false := by
  refine Bool.eq_false_iff.mpr fun x => ?_
  obtain ⟨hloading, hfree⟩ := (loads_iff s.endCbRead).mp x
  obtain hstate | hpending := h
  · exact hstate hloading
  · rw [show s.link.resetPending = false from hfree] at hpending
    cases hpending

end

/-- Settles O34: the end of the read by the link and the time, and the checks of Table 11-3 one by one. -/
theorem controlBlockReadEnds : Obligations.ControlBlockReadEnds := by
  refine ⟨fun cb s issued hread => ⟨fun hdiscard => ⟨fun htime => ?_, ?_⟩, fun hlate => ?_, fun hloading hfree =>
    ⟨?_, fun d hd htime => ?_, fun hpass htime => ?_⟩⟩, fun s hread => ⟨fun cb => ?_, ?_⟩, fun cb size hsize => ?_,
    fun cb ok ring h1 h2 h3 h4 h5 h6 h7 h8 hring => ?_⟩
  · refine congrArg Host.Outcome.next ((endLoading_in_time hread htime).trans ?_)
    rw [endCbRead_loads_eq_false hdiscard]
    rfl
  · refine congrArg Host.Outcome.next ((failLoading_of_read hread).trans ?_)
    rw [endCbRead_loads_eq_false hdiscard]
    rfl
  · exact congrArg Host.Outcome.next (endLoading_of_late hread hlate)
  · exact congrArg Host.Outcome.next
      ((failLoading_of_read hread).trans (if_pos ((loads_iff s.endCbRead).mpr ⟨hloading, hfree⟩)))
  · refine congrArg Host.Outcome.next
      ((endLoading_in_time hread htime).trans ((if_pos ((loads_iff s.endCbRead).mpr ⟨hloading, hfree⟩)).trans ?_))
    rw [hd]
    rfl
  · refine ⟨loadControlBlock cb s.endCbRead, congrArg Host.Outcome.next
      ((endLoading_in_time hread htime).trans ((if_pos ((loads_iff s.endCbRead).mpr ⟨hloading, hfree⟩)).trans ?_)), rfl,
      fun n => Vector.getElem_ofFn n.isLt⟩
    rw [hpass]
  · refine congrArg Host.Outcome.next ?_
    rw [endLoading, hread]
  · refine congrArg Host.Outcome.next ?_
    rw [failLoading, hread]
  · have size_iff (n : Nat) : sizeOk n = true ↔ size n := (sizeOk_iff n).trans (hsize n).symm
    rw [checkControlBlock_eq_none_iff, size_iff, baseOk_iff]
    simp only [ringFailures, Option.or_eq_none_iff, ringFailure_eq_none_iff]
    have checks (n : RingId) := check_iff cb.rings[n]
    constructor
    · rintro ⟨hformat, hsize, ⟨hbase, hend⟩, henable, r5, r6, r7, r8⟩
      refine ⟨hformat, hsize, hbase, hend, henable, fun n he => ?_⟩
      obtain ⟨-, c6, c7, c8⟩ := checks n
      exact ⟨(size_iff _).mp (r5 n he), (c6.mp (r6 n he)).1, (c6.mp (r6 n he)).2, (c7.mp (r7 n he)).1,
        (c7.mp (r7 n he)).2, c8.mp (r8 n he)⟩
    · rintro ⟨hformat, hsize, hbase, hend, henable, hrings⟩
      refine ⟨hformat, hsize, ⟨hbase, hend⟩, henable, fun n he => ?_, fun n he => ?_, fun n he => ?_, fun n he => ?_⟩ <;>
        obtain ⟨rsize, rbase, rend, rlow, rhigh, rholdoff⟩ := hrings n he <;> obtain ⟨-, c6, c7, c8⟩ := checks n
      exacts [(size_iff _).mpr rsize, c6.mpr ⟨rbase, rend⟩, c7.mpr ⟨rlow, rhigh⟩, c8.mpr rholdoff]
  · have format : ok 1 ↔ cb.format = 1 := h1
    have orderSize : ok 2 ↔ sizeOk cb.orderSize.toNat = true := h2.trans (sizeOk_iff _).symm
    have orderBase : ok 3 ↔ baseOk cb.orderBase.toNat cb.orderSize.toNat 64 = true := h3.trans (baseOk_iff _ _ _).symm
    have rings (k : Nat) (hk5 : 5 ≤ k) (hk8 : k ≤ 8) (n : RingId) :
        ring k n ↔ ((cb.rings[n]).enable = true → ringCheck k (cb.rings[n]) = true) := by
      obtain ⟨c5, c6, c7, c8⟩ := check_iff cb.rings[n]
      obtain rfl | rfl | rfl | rfl : k = 5 ∨ k = 6 ∨ k = 7 ∨ k = 8 := by omega
      · rw [h5, c5]
      · rw [h6, c6]
      · rw [h7, c7]
      · rw [h8, c8]
    refine ⟨fun k hk1 hk4 hbad hbefore => ?_, fun k n hk5 hk8 hbad hbefore hlower => ?_⟩
    · rw [checkControlBlock_eq]
      obtain rfl | rfl | rfl | rfl : k = 1 ∨ k = 2 ∨ k = 3 ∨ k = 4 := by omega
      · rw [if_pos (mt format.mpr hbad)]
        rfl
      · rw [if_neg (not_not_intro (format.mp (hbefore 1 (by decide) (by decide)))), if_pos (mt orderSize.mpr hbad)]
        rfl
      · rw [if_neg (not_not_intro (format.mp (hbefore 1 (by decide) (by decide)))),
          if_neg (not_not_intro (orderSize.mp (hbefore 2 (by decide) (by decide)))), if_pos (mt orderBase.mpr hbad)]
        rfl
      · rw [if_neg (not_not_intro (format.mp (hbefore 1 (by decide) (by decide)))),
          if_neg (not_not_intro (orderSize.mp (hbefore 2 (by decide) (by decide)))),
          if_neg (not_not_intro (orderBase.mp (hbefore 3 (by decide) (by decide)))), if_pos (mt h4.mpr hbad)]
        rfl
    · rw [checkControlBlock_eq, if_neg (not_not_intro (format.mp (hbefore 1 (by decide) (by omega)))),
        if_neg (not_not_intro (orderSize.mp (hbefore 2 (by decide) (by omega)))),
        if_neg (not_not_intro (orderBase.mp (hbefore 3 (by decide) (by omega)))),
        if_neg (not_not_intro (h4.mp (hbefore 4 (by decide) (by omega))))]
      refine ringFailures_of_first hk5 hk8
        (ringFailure_of_lowest (mt (rings k hk5 hk8 n).mpr hbad) fun m hm => (rings k hk5 hk8 m).mp (hlower m hm)) ?_
      intro j hj5 hjk
      exact ringFailure_eq_none_iff.mpr fun m =>
        (rings j hj5 (by omega) m).mp ((hring j hj5 (by omega)).mp (hbefore j (by omega) hjk) m)

end Sys2Proof.Machine
end


-- ==== Sys2Proof/Proofs/HeadWrites.lean ====
section
/-!
PROOFS. Proofs/HeadWrites.lean: what a completion ring keeps through record writes and served outboxes, how pending records
move, and what a CR HEAD write does (R156, R157, R165).
-/

namespace Sys2Proof.Machine

/-! ### Rings that keep their size and their returned position -/

/-- A change of rings, output, outboxes and noted streams in which every enabled ring keeps its size and the position that
the host has returned. -/
structure HeadsKept (s t : State) : Prop where
  frame : ∃ R B O be, t = { s with rings := R, bus := B, outboxes := O, becameEligible := be }
  kept : ∀ (n : RingId) (r : Ring), s.rings[n] = some r → ∃ r', t.rings[n] = some r' ∧ r'.returned = r.returned ∧ r'.size = r.size

section
variable {n : RingId} {s t u : State} {r : Ring}

theorem HeadsKept.refl (s : State) : HeadsKept s s := ⟨⟨_, _, _, _, rfl⟩, fun _ r h => ⟨r, h, rfl, rfl⟩⟩

theorem HeadsKept.trans (h : HeadsKept s t) (k : HeadsKept t u) : HeadsKept s u := by
  constructor
  · obtain ⟨_, _, _, _, e⟩ := h.frame
    obtain ⟨_, _, _, _, f⟩ := k.frame
    rw [f, e]
    exact ⟨_, _, _, _, rfl⟩
  · intro n r hr
    obtain ⟨r', hr', h1, h2⟩ := h.kept n r hr
    obtain ⟨r'', hr'', k1, k2⟩ := k.kept n r' hr'
    exact ⟨r'', hr'', k1.trans h1, k2.trans h2⟩

theorem HeadsKept.of_rings (hrings : t.rings = s.rings)
    (frame : ∃ R B O be, t = { s with rings := R, bus := B, outboxes := O, becameEligible := be }) : HeadsKept s t :=
  ⟨frame, fun _ r h => ⟨r, by rw [hrings]; exact h, rfl, rfl⟩⟩

/-- One ring is replaced by one of the same size and returned position, and something is issued. -/
theorem headsKept_set (hr : s.rings[n] = some r) {r' : Ring} (B : List BusItem) (hreturned : r'.returned = r.returned)
    (hsize : r'.size = r.size) : HeadsKept s ({ s with bus := B }.setRing n r') := by
  refine ⟨⟨_, _, _, _, rfl⟩, fun m q hq => ?_⟩
  rw [setRing_get]
  by_cases e : m = n
  · subst e
    cases hr.symm.trans hq
    exact ⟨r', if_pos rfl, hreturned, hsize⟩
  · exact ⟨q, (if_neg e).trans hq, rfl, rfl⟩

theorem headsKept_setRing (hr : s.rings[n] = some r) {r' : Ring} (hreturned : r'.returned = r.returned)
    (hsize : r'.size = r.size) : HeadsKept s (s.setRing n r') := headsKept_set hr s.bus hreturned hsize

theorem headsKept_examineMessage (hr : s.rings[n] = some r) : HeadsKept s (examineMessage n s) := by
  cases h : r.messageDue with
  | false => rw [examineMessage_of_not_due hr h]; exact .refl s
  | true =>
    rw [examineMessage_of_due hr h]
    exact headsKept_set hr _ rfl rfl

theorem headsKept_writeRecord (hr : s.rings[n] = some r) (record : Record) : HeadsKept s (writeRecord n r record s) := by
  have written : HeadsKept s (s.written n r record) := headsKept_set hr _ rfl rfl
  exact written.trans (headsKept_examineMessage (written_get s n r record))

theorem headsKept_place {record : Record} (h : place n record s = some t) : HeadsKept s t := by
  unfold place at h
  split at h
  · cases h
  next r hr =>
    split_ifs at h
    · cases h; exact headsKept_writeRecord hr record
    · cases h; exact headsKept_setRing hr rfl rfl

end

/-! ### Pending records -/

/-- A ring that is set to what it is. -/
theorem upd_ring_self {s : State} {n : RingId} {r : Ring} (hr : s.rings[n] = some r) :
    upd s.rings n (fun _ => some r) = s.rings := by
  refine bank_ext _ _ fun m => ?_
  by_cases e : m = n
  · subst e; rw [upd_same, hr]
  · rw [upd_other _ _ e]

theorem setRing_setRing (s : State) (n : RingId) (a b : Ring) : (s.setRing n a).setRing n b = s.setRing n b := by
  have : upd (upd s.rings n (fun _ => some a)) n (fun _ => some b) = upd s.rings n (fun _ => some b) := by
    refine bank_ext _ _ fun m => ?_
    by_cases e : m = n
    · subst e; rw [upd_same, upd_same]
    · rw [upd_other _ _ e, upd_other _ _ e, upd_other _ _ e]
  exact congrArg (fun x => { s with rings := x }) this

section
variable {n : RingId} {s : State} {r : Ring} {record : Record} {rest : List Record}

/-- No record pending: nothing moves. -/
theorem movePending_of_none (h : s.rings[n] = none ∨ ∃ r, s.rings[n] = some r ∧ r.waiting = []) (k : Nat) :
    movePending n k s = s := by
  cases k with
  | zero => rfl
  | succ k =>
    unfold movePending
    obtain hr | ⟨r, hr, hw⟩ := h
    · rw [hr]
    · rw [hr]
      simp only [hw]

/-- One move of R157 step 1, when a record is pending. -/
theorem movePending_succ (hr : s.rings[n] = some r) (hw : r.waiting = record :: rest) (k : Nat) :
    movePending n (k + 1) s =
      if 0 < r.free then movePending n k (writeRecord n { r with waiting := rest } record (s.setRing n { r with waiting := rest }))
      else s := by
  rw [movePending, hr]
  simp only [hw]

theorem headsKept_movePending (n : RingId) (k : Nat) : ∀ s : State, HeadsKept s (movePending n k s) := by
  induction k with
  | zero => exact .refl
  | succ k ih =>
    intro s
    cases hr : s.rings[n] with
    | none => rw [movePending_of_none (Or.inl hr)]; exact .refl s
    | some r =>
      cases hw : r.waiting with
      | nil => rw [movePending_of_none (Or.inr ⟨r, hr, hw⟩)]; exact .refl s
      | cons record rest =>
        rw [movePending_succ hr hw]
        split
        · have taken : HeadsKept s (s.setRing n { r with waiting := rest }) := headsKept_setRing hr rfl rfl
          have stands : (s.setRing n { r with waiting := rest }).rings[n] = some { r with waiting := rest } := upd_same _ n _
          exact (taken.trans (headsKept_writeRecord stands record)).trans (ih _)
        · exact .refl s

/-- The state in which the oldest pending record stands in the next slot (R155). -/
theorem written_setRing (s : State) (n : RingId) (r : Ring) (record : Record) :
    (s.setRing n r).written n r record = { s with
      rings := upd s.rings n (fun _ => some (r.afterWrite s.elapsed))
      bus := s.bus ++ [.write r.slotAddress (record.bytes r.phase)] } :=
  setRing_setRing (s.emit (.write r.slotAddress (record.bytes r.phase))) n r (r.afterWrite s.elapsed)

/-- A move after which no message is due. -/
theorem movePending_of_not_due (hr : s.rings[n] = some r) (hw : r.waiting = record :: rest) (hfree : 0 < r.free)
    (hdue : (({ r with waiting := rest } : Ring).afterWrite s.elapsed).messageDue = false) (k : Nat) :
    movePending n (k + 1) s = movePending n k { s with
      rings := upd s.rings n (fun _ => some (({ r with waiting := rest } : Ring).afterWrite s.elapsed))
      bus := s.bus ++ [.write r.slotAddress (record.bytes r.phase)] } := by
  rw [movePending_succ hr hw, if_pos hfree, writeRecord_of_not_due (s := s.setRing n { r with waiting := rest }) hdue,
    written_setRing]
  rfl

/-- A move after which a message is due. -/
theorem movePending_of_due (hr : s.rings[n] = some r) (hw : r.waiting = record :: rest) (hfree : 0 < r.free)
    (hdue : (({ r with waiting := rest } : Ring).afterWrite s.elapsed).messageDue = true) (k : Nat) :
    movePending n (k + 1) s = movePending n k { s with
      rings := upd s.rings n (fun _ => some (({ r with waiting := rest } : Ring).afterWrite s.elapsed).afterMessage)
      bus := s.bus ++ [.write r.slotAddress (record.bytes r.phase)] ++ s.dueMessage n } := by
  rw [movePending_succ hr hw, if_pos hfree, writeRecord_of_due (s := s.setRing n { r with waiting := rest }) hdue,
    written_setRing]
  exact congrArg (movePending n k) (setRing_setRing { s with bus := _ } n _ _)

end

/-! ### All the moves of a ring that sends no message -/

/-- The write of a record into the slot `j` places after the next one, with the phase of that slot (R154). -/
def Ring.slotWrite (r : Ring) (j : Nat) (record : Record) : BusItem :=
  .write (r.base + BitVec.ofNat 64 (32 * (((r.written + j) % (2 * r.size)) % r.size)))
    (record.bytes (decide ((r.written + j) % (2 * r.size) < r.size)))

/-- An unarmed ring after its first `k` pending records have moved. -/
def Ring.moved (r : Ring) (k : Nat) : Ring :=
  { r with written := (r.written + k) % (2 * r.size), count := r.count + k, waiting := r.waiting.drop k }

theorem Ring.slotWrite_succ {r : Ring} (rest : List Record) (j : Nat) (record : Record) :
    Ring.slotWrite { r with written := (r.written + 1) % (2 * r.size), count := r.count + 1, waiting := rest } j record =
      r.slotWrite (j + 1) record := by
  have : ((r.written + 1) % (2 * r.size) + j) % (2 * r.size) = (r.written + (j + 1)) % (2 * r.size) := by
    rw [Nat.mod_add_mod, Nat.add_assoc, Nat.add_comm 1 j]
  unfold Ring.slotWrite
  dsimp only
  rw [this]

theorem Ring.moved_zero {r : Ring} (o : r.Ordered) : r.moved 0 = r := by
  unfold Ring.moved
  rw [Nat.add_zero, Nat.mod_eq_of_lt o.written_lt]
  rfl

/-- The oldest records go into the free slots in order, each with the phase of its slot (R154, R157 step 1). -/
theorem movePending_all (n : RingId) (l : List Record) : ∀ (s : State) (r : Ring), s.rings[n] = some r → r.Ordered →
    r.armed = false → r.holdoffUs = 0 → r.waiting = l →
    movePending n l.length s = { s with
      rings := upd s.rings n (fun _ => some (r.moved (min l.length r.free)))
      bus := s.bus ++ (l.take (min l.length r.free)).zipIdx.map (fun x => r.slotWrite x.2 x.1) } := by
  induction l with
  | nil =>
    intro s r hr o _ _ _
    rw [List.length_nil, Nat.zero_min, Ring.moved_zero o, upd_ring_self hr]
    simp [movePending]
  | cons record rest ih =>
    intro s r hr o harmed hholdoff hw
    by_cases hfree : 0 < r.free
    · have step : ({ r with waiting := rest } : Ring).afterWrite s.elapsed =
          { r with written := (r.written + 1) % (2 * r.size), count := r.count + 1, waiting := rest } := by
        unfold Ring.afterWrite
        dsimp only
        rw [if_neg (fun x => x.2 hholdoff)]
      have quiet : (({ r with waiting := rest } : Ring).afterWrite s.elapsed).messageDue = false := by
        rw [step]
        simp [Ring.messageDue, harmed]
      have less : rest.length ≤ pendingLimit := by
        have := o.waiting_le
        rw [hw, List.length_cons] at this
        omega
      have ordered := (o.withWaiting less).afterWrite s.elapsed hfree
      have free : (({ r with waiting := rest } : Ring).afterWrite s.elapsed).free + 1 = r.free := by
        have := Ring.outstanding_afterWrite ({ r with waiting := rest }) s.elapsed (o.withWaiting less) hfree
        simp only [Ring.free] at hfree ⊢
        rw [this]
        show r.size - (r.outstanding + 1) + 1 = r.size - r.outstanding
        omega
      rw [List.length_cons, movePending_of_not_due hr hw hfree quiet]
      rw [step] at ordered free ⊢
      rw [ih _ _ (upd_same _ n _) ordered harmed hholdoff rfl]
      have more : min (rest.length + 1) r.free = min rest.length
          (Ring.free { r with written := (r.written + 1) % (2 * r.size), count := r.count + 1, waiting := rest }) + 1 := by
        omega
      rw [more]
      generalize min rest.length
        (Ring.free { r with written := (r.written + 1) % (2 * r.size), count := r.count + 1, waiting := rest }) = k
      have rings : upd (upd s.rings n (fun _ => some { r with
            written := (r.written + 1) % (2 * r.size), count := r.count + 1, waiting := rest })) n (fun _ =>
            some (Ring.moved { r with
              written := (r.written + 1) % (2 * r.size), count := r.count + 1, waiting := rest } k)) =
          upd s.rings n (fun _ => some (r.moved (k + 1))) := by
        refine (congrArg State.rings (setRing_setRing s n _ _)).trans (congrArg (fun x => upd s.rings n (fun _ => some x)) ?_)
        unfold Ring.moved
        rw [Nat.mod_add_mod, Nat.add_assoc, Nat.add_comm 1 k, Nat.add_assoc, Nat.add_comm 1 k, hw]
        rfl
      have writes : s.bus ++ [.write r.slotAddress (record.bytes r.phase)] ++ (rest.take k).zipIdx.map (fun x =>
            Ring.slotWrite { r with written := (r.written + 1) % (2 * r.size), count := r.count + 1, waiting := rest }
              x.2 x.1) =
          s.bus ++ ((record :: rest).take (k + 1)).zipIdx.map (fun x => r.slotWrite x.2 x.1) := by
        have first : r.slotWrite 0 record = .write r.slotAddress (record.bytes r.phase) := by
          unfold Ring.slotWrite
          rw [Nat.add_zero, Nat.mod_eq_of_lt o.written_lt]
          rfl
        rw [List.take_succ_cons, List.zipIdx_cons, List.map_cons, first, Nat.zero_add, List.zipIdx_succ, List.map_map,
          List.append_assoc, List.singleton_append]
        simp only [Ring.slotWrite_succ]
        rfl
      exact congrArg₂ (fun R B => { s with rings := R, bus := B }) rings writes
    · have full : r.free = 0 := by omega
      rw [List.length_cons, movePending_succ hr hw, if_neg hfree, full, Nat.min_zero, Ring.moved_zero o, upd_ring_self hr]
      simp

/-- Settles O31: one move by whether its message is due, and all moves by induction on the pending records. -/
theorem pendingRecordsMove : Obligations.PendingRecordsMove := by
  refine ⟨fun n k s r w record rest hr hw => ⟨fun hfull => ?_, fun hfree hnext => ?_⟩, fun n k s hnone => ?_,
    fun n s r k hr o harmed hholdoff hk => ?_⟩
  · rw [movePending_succ hr hw, if_neg (by omega)]
  · have step : ({ r with waiting := rest } : Ring).afterWrite s.elapsed = w := hnext.symm
    have counted : 1 ≤ w.count := by rw [hnext]; exact Nat.le_add_left 1 r.count
    refine ⟨fun hquiet => ?_, fun harmed hdue => ?_⟩
    · have notDue : w.messageDue = false := by
        refine Bool.eq_false_iff.mpr fun x => ?_
        obtain ⟨harmed, -, hdue⟩ := (messageDue_iff w).mp x
        obtain hoff | ⟨hbelow, hruns⟩ := hquiet
        · rw [harmed] at hoff; cases hoff
        · exact hdue.elim (fun y => absurd y (Nat.not_le.mpr hbelow)) hruns
      rw [movePending_of_not_due hr hw hfree (by rw [step]; exact notDue), step]
      rfl
    · have due : w.messageDue = true := (messageDue_iff w).mpr ⟨harmed, counted, hdue⟩
      rw [movePending_of_due hr hw hfree (by rw [step]; exact due), step]
      rfl
  · obtain rfl | hnone := hnone
    · rfl
    · exact movePending_of_none hnone k
  · subst hk
    rw [movePending_all n r.waiting s r hr o harmed hholdoff rfl]
    exact ⟨_, rfl, upd_same _ n _, rfl, fun m hm => upd_other _ _ hm, rfl⟩

/-! ### Outboxes, room and re-arming -/

section
variable {i : StreamId} {n : RingId} {s : State} {r : Ring}

theorem serveOutbox_of_empty (h : s.outboxes[i] = []) (k : Nat) : serveOutbox i k s = s := by
  cases k with
  | zero => rfl
  | succ k => rw [serveOutbox, h]

theorem serveOutbox_of_placed {e : OutboxEntry} {rest : List OutboxEntry} {t : State} (h : s.outboxes[i] = e :: rest)
    (hp : place e.ring e.record s = some t) (k : Nat) :
    serveOutbox i (k + 1) s = serveOutbox i k (t.modOutbox i (fun _ => rest)) := by
  rw [serveOutbox, h]
  simp only [hp]

theorem serveOutbox_of_not_placed {e : OutboxEntry} {rest : List OutboxEntry} (h : s.outboxes[i] = e :: rest)
    (hp : place e.ring e.record s = none) (k : Nat) : serveOutbox i (k + 1) s = s := by
  rw [serveOutbox, h]
  simp only [hp]

theorem headsKept_serveOutbox (i : StreamId) (k : Nat) : ∀ s : State, HeadsKept s (serveOutbox i k s) := by
  induction k with
  | zero => exact .refl
  | succ k ih =>
    intro s
    cases h : s.outboxes[i] with
    | nil => rw [serveOutbox_of_empty h]; exact .refl s
    | cons e rest =>
      cases hp : place e.ring e.record s with
      | none => rw [serveOutbox_of_not_placed h hp]; exact .refl s
      | some t =>
        rw [serveOutbox_of_placed h hp]
        have taken : HeadsKept t (t.modOutbox i (fun _ => rest)) := .of_rings rfl ⟨_, _, _, _, rfl⟩
        exact ((headsKept_place hp).trans taken).trans (ih _)

theorem headsKept_noteEligible (i : StreamId) (s t : State) : HeadsKept t (noteEligible i s t) := by
  rw [noteEligible_eq]
  exact .of_rings rfl ⟨_, _, _, _, rfl⟩

theorem headsKept_serveOutboxes (s : State) : HeadsKept s (serveOutboxes s) := by
  unfold serveOutboxes
  generalize allStreams = l
  induction l generalizing s with
  | nil => exact .refl s
  | cons i l ih => exact ((headsKept_serveOutbox i _ s).trans (headsKept_noteEligible i s _)).trans (ih _)

theorem noteEligible_self (i : StreamId) (s : State) : noteEligible i s s = s :=
  noteEligible_of_not_new (by cases s.eligible i <;> decide)

theorem serveOutboxes_of_empty (h : ∀ i : StreamId, s.outboxes[i] = []) : serveOutboxes s = s := by
  unfold serveOutboxes
  generalize allStreams = l
  induction l with
  | nil => rfl
  | cons i l ih => rw [List.foldl_cons, serveOutbox_of_empty (h i), noteEligible_self, ih]

/-- A ring has room for a record (R157 step 3). -/
theorem hasRoom_iff (r : Ring) : r.hasRoom = true ↔ (r.waiting = [] ∧ 0 < r.free) ∨ r.waiting.length < 16 := by
  simp only [Ring.hasRoom, Bool.or_eq_true, Bool.and_eq_true, List.isEmpty_iff, decide_eq_true_eq]
  rfl

theorem reportRoom_of_full (hr : s.rings[n] = some r) (h : r.hasRoom = false) : reportRoom n s = s := by
  simp [reportRoom, hr, h]

theorem reportRoom_of_room (hr : s.rings[n] = some r) (h : r.hasRoom = true) : reportRoom n s = { s with
    orders := { s.orders with roomReported := s.orders.roomReported || decide (s.orders.waitingOn = some n) }
    timebase := { s.timebase with
      roomReported := s.timebase.roomReported || (decide (n = 0) && s.timebase.hold.isSome) } } := by
  have order : (if s.orders.waitingOn = some n then { s.orders with roomReported := true } else s.orders) =
      { s.orders with roomReported := s.orders.roomReported || decide (s.orders.waitingOn = some n) } := by
    split
    next hwait => rw [decide_eq_true hwait, Bool.or_true]
    next hwait => rw [decide_eq_false hwait, Bool.or_false]
  have time : (if n = 0 ∧ s.timebase.hold.isSome then { s.timebase with roomReported := true } else s.timebase) =
      { s.timebase with
        roomReported := s.timebase.roomReported || (decide (n = 0) && s.timebase.hold.isSome) } := by
    split
    next hwait => rw [decide_eq_true hwait.1, hwait.2, Bool.and_true, Bool.or_true]
    next hwait =>
      have : (decide (n = 0) && s.timebase.hold.isSome) = false := by simpa using hwait
      rw [this, Bool.or_false]
  unfold reportRoom
  rw [hr]
  simp only [h, if_true]
  rw [order, time]

/-- Room is reported to nobody. -/
theorem reportRoom_of_no_wait (horders : s.orders.waitingOn ≠ some n) (htime : n ≠ 0 ∨ s.timebase.hold = none) :
    reportRoom n s = s := by
  cases hr : s.rings[n] with
  | none => rw [reportRoom, hr]
  | some r =>
    cases h : r.hasRoom with
    | false => exact reportRoom_of_full hr h
    | true =>
      have : (decide (n = 0) && s.timebase.hold.isSome) = false := by
        obtain hn | hhold := htime
        · rw [decide_eq_false hn, Bool.false_and]
        · rw [hhold, Option.isSome_none, Bool.and_false]
      rw [reportRoom_of_room hr h, decide_eq_false horders, this, Bool.or_false, Bool.or_false]

theorem reportRoom_frame (n : RingId) (s : State) : ∃ a b, reportRoom n s = { s with
    orders := { s.orders with roomReported := a }, timebase := { s.timebase with roomReported := b } } := by
  cases hr : s.rings[n] with
  | none => exact ⟨_, _, by rw [reportRoom, hr]⟩
  | some r =>
    cases h : r.hasRoom with
    | false => exact ⟨_, _, reportRoom_of_full hr h⟩
    | true => exact ⟨_, _, reportRoom_of_room hr h⟩

/-- A ring is armed, and stays so while no message is due (R165). -/
theorem rearm_of_not_due (hr : s.rings[n] = some r) (hquiet : r.count = 0 ∨ (r.count < r.threshold ∧ r.timer ≠ .expired)) :
    rearm n s = s.setRing n { r with armed := true } := by
  have armed : (s.setRing n { r with armed := true }).rings[n] = some { r with armed := true } := upd_same _ n _
  unfold rearm
  rw [hr]
  refine examineMessage_of_not_due armed (Bool.eq_false_iff.mpr fun x => ?_)
  obtain ⟨-, hcount, hdue⟩ := (messageDue_iff _).mp x
  obtain hzero | ⟨hbelow, hruns⟩ := hquiet
  · exact absurd (hzero ▸ hcount) (by decide)
  · exact hdue.elim (fun y => absurd y (Nat.not_le.mpr hbelow)) hruns

/-- A message that is due at a re-arming is sent at once (R165, R162). -/
theorem rearm_of_due (hr : s.rings[n] = some r) (hcount : 1 ≤ r.count) (hdue : r.threshold ≤ r.count ∨ r.timer = .expired) :
    rearm n s = { s with
      rings := upd s.rings n (fun _ => some { r with count := 0, armed := false, timer := .stopped })
      bus := s.bus ++ s.dueMessage n } := by
  have armed : (s.setRing n { r with armed := true }).rings[n] = some { r with armed := true } := upd_same _ n _
  unfold rearm
  rw [hr]
  refine (examineMessage_of_due armed ((messageDue_iff _).mpr ⟨rfl, hcount, hdue⟩)).trans ?_
  exact setRing_setRing { s with bus := s.bus ++ s.dueMessage n } n _ _

theorem due_cases (r : Ring) : (r.count = 0 ∨ (r.count < r.threshold ∧ r.timer ≠ .expired)) ∨
    (1 ≤ r.count ∧ (r.threshold ≤ r.count ∨ r.timer = .expired)) := by
  by_cases hdue : 1 ≤ r.count ∧ (r.threshold ≤ r.count ∨ r.timer = .expired)
  · exact Or.inr hdue
  · refine Or.inl ((Nat.eq_zero_or_pos r.count).imp id fun hcount => ?_)
    exact ⟨not_le.mp fun x => hdue ⟨hcount, Or.inl x⟩, fun x => hdue ⟨hcount, Or.inr x⟩⟩

end

/-! ### CR HEAD writes -/

section
variable {n : RingId} {value : Word} {s : State} {r : Ring}

theorem writeHead_of_ring (hup : s.linkUp = true) (hr : s.rings[n] = some r) : writeHead n value s =
    if r.badHead value.toNat then linkFault .badHead (badHeadDetail n value) s else acceptHead n r value.toNat s := by
  unfold writeHead
  rw [hup, hr]
  rfl

theorem badHead_iff (r : Ring) (value : Nat) : r.badHead value = true ↔
    2 * r.size ≤ value ∨ r.outstanding < (value + 2 * r.size - r.returned) % (2 * r.size) := by
  simp only [Ring.badHead, Bool.or_eq_true, decide_eq_true_eq]
  rfl

/-- The state of an accepted head write before the ring is re-armed (R156, R157). -/
def State.headTaken (s : State) (n : RingId) (r : Ring) (value : Nat) : State :=
  reportRoom n (serveOutboxes (movePending n r.waiting.length (s.setRing n { r with returned := value })))

theorem headTaken_ring (n : RingId) (s : State) (r : Ring) (value : Nat) :
    (s.headTaken n r value).link = s.link ∧ (s.headTaken n r value).streams = s.streams ∧
      ∃ q, (s.headTaken n r value).rings[n] = some q ∧ q.returned = value ∧ q.size = r.size := by
  have moved := (headsKept_movePending n r.waiting.length (s.setRing n { r with returned := value })).trans
    (headsKept_serveOutboxes _)
  unfold State.headTaken
  generalize serveOutboxes (movePending n r.waiting.length (s.setRing n { r with returned := value })) = u at moved ⊢
  obtain ⟨q, hq, hreturned, hsize⟩ := moved.kept n { r with returned := value } (upd_same _ n _)
  obtain ⟨_, _, _, _, rfl⟩ := moved.frame
  obtain ⟨_, _, reported⟩ := reportRoom_frame n _
  rw [reported]
  exact ⟨rfl, rfl, q, hq, hreturned, hsize⟩

/-- Where nothing waits, only the position changes. -/
theorem headTaken_of_no_wait (hwaiting : r.waiting = []) (hempty : ∀ i : StreamId, s.outboxes[i] = [])
    (horders : s.orders.waitingOn ≠ some n) (htime : n ≠ 0 ∨ s.timebase.hold = none) (value : Nat) :
    s.headTaken n r value = s.setRing n { r with returned := value } := by
  have served : serveOutboxes (s.setRing n { r with returned := value }) = _ := serveOutboxes_of_empty hempty
  have moved : movePending n 0 (s.setRing n { r with returned := value }) = s.setRing n { r with returned := value } := rfl
  rw [State.headTaken, show r.waiting.length = 0 from congrArg List.length hwaiting, moved, served]
  exact reportRoom_of_no_wait (s := s.setRing n { r with returned := value }) horders htime

/-- A re-armed ring, in both cases of R165. -/
theorem rearm_ring (hr : s.rings[n] = some r) : (rearm n s).link = s.link ∧ (rearm n s).streams = s.streams ∧
    ∃ q, (rearm n s).rings[n] = some q ∧ q.returned = r.returned ∧ q.size = r.size ∧
      ((q.armed = true ∧ (q.count = 0 ∨ (q.count < q.threshold ∧ q.timer ≠ .expired))) ∨
        (q.armed = false ∧ q.count = 0 ∧ q.timer = .stopped)) := by
  obtain hquiet | ⟨hcount, hdue⟩ := due_cases r
  · rw [rearm_of_not_due hr hquiet]
    exact ⟨rfl, rfl, _, upd_same _ n _, rfl, rfl, Or.inl ⟨rfl, hquiet⟩⟩
  · rw [rearm_of_due hr hcount hdue]
    exact ⟨rfl, rfl, _, upd_same _ n _, rfl, rfl, Or.inr ⟨rfl, rfl, rfl⟩⟩

end

/-- Settles O30: the value's check, what the steps of an accepted value keep, and each step by itself. -/
theorem crHeadWrites : Obligations.CrHeadWrites := by
  refine fun n value s => ⟨fun hoff => ?_, fun r hup hr => ⟨fun hbad => ?_, fun hlow hreturns => ?_⟩, ?_, fun i k =>
    ⟨fun hempty => serveOutbox_of_empty hempty _, fun e rest h => ⟨fun t hp => serveOutbox_of_placed h hp k,
      fun hp => serveOutbox_of_not_placed h hp k⟩⟩, fun r room hr hroom => ?_⟩
  · refine congrArg Host.Outcome.next ?_
    unfold writeHead
    obtain hdown | hring := hoff
    · rw [hdown]; rfl
    · rw [hring]; split <;> rfl
  · exact congrArg Host.Outcome.next ((writeHead_of_ring hup hr).trans
      ((if_pos ((badHead_iff r _).mpr hbad)).trans (linkFault_of_up hup _ _)))
  · have good : ¬r.badHead value.toNat = true := fun x => ((badHead_iff r _).mp x).elim (by omega) (by omega)
    obtain ⟨hlink, hstreams, q, hq, hreturned, hsize⟩ := headTaken_ring n s r value.toNat
    obtain ⟨klink, kstreams, q', hq', kreturned, ksize, harmed⟩ := rearm_ring hq
    refine ⟨rearm n (s.headTaken n r value.toNat),
      congrArg Host.Outcome.next ((writeHead_of_ring hup hr).trans (if_neg good)), klink.trans hlink, kstreams.trans hstreams,
      ⟨q', hq', kreturned.trans hreturned, ksize.trans hsize, harmed⟩,
      fun hwaiting hempty horders htime hquiet => ?_, rfl⟩
    have stands : (s.setRing n { r with returned := value.toNat }).rings[n] = some { r with returned := value.toNat } :=
      upd_same _ n _
    rw [headTaken_of_no_wait hwaiting hempty horders htime, rearm_of_not_due stands hquiet, setRing_setRing]
    rfl
  · show allStreams.foldl _ s = _
    rw [show allStreams = [0, 1, 2, 3, 4, 5, 6, 7] by decide]
  · refine ⟨fun hfull => reportRoom_of_full hr (Bool.eq_false_iff.mpr (mt ((hasRoom_iff r).mp) (mt hroom.mpr hfull))),
      fun hfree => ⟨_, reportRoom_of_room hr ((hasRoom_iff r).mpr (hroom.mp hfree)), rfl, rfl, rfl⟩,
      rearm_of_due hr, rearm_of_not_due hr⟩

end Sys2Proof.Machine
end


-- ==== Sys2Proof/Proofs/RegisterWindow.lean ====
section
/-!
PROOFS. Proofs/RegisterWindow.lean: writes and reads of the register window (R167, R168, Table 12-1).
-/

namespace Sys2Proof.Machine

/-! ### Halves of a long word -/

theorem low_toNat (v : Long) : (v.extractLsb' 0 32).toNat = v.toNat % 2 ^ 32 := by
  rw [BitVec.extractLsb'_toNat, Nat.shiftRight_zero]

theorem high_toNat (v : Long) : (v.extractLsb' 32 32).toNat = v.toNat / 2 ^ 32 := by
  rw [BitVec.extractLsb'_toNat, Nat.shiftRight_eq_div_pow]
  have := v.isLt
  omega

theorem append_toNat (a b : Word) : (a ++ b : Long).toNat = a.toNat * 2 ^ 32 + b.toNat := by
  rw [BitVec.toNat_append, ← Nat.shiftLeft_add_eq_or_of_lt b.isLt, Nat.shiftLeft_eq]

theorem shifted_low (v : Long) : (v >>> 32).extractLsb' 0 32 = v.extractLsb' 32 32 := by
  refine BitVec.eq_of_toNat_eq ?_
  rw [low_toNat, high_toNat, BitVec.toNat_ushiftRight, Nat.shiftRight_eq_div_pow]
  have := v.isLt
  omega

/-! ### Writes -/

section
variable {s : State}

theorem writeCbAddress_of_down (h : s.link.state = .down) (a : Long) :
    writeCbAddress a s = { s with link := { s.link with cbAddress := a } } := if_pos h

theorem writeCbAddress_of_not_down (h : s.link.state ≠ .down) (a : Long) : writeCbAddress a s = s := if_neg h

theorem writeWindow_four {o : BitVec 12} (h : o.toNat % 4 = 0) (v : Long) :
    writeWindow o .four v s = writeRegister o (v.extractLsb' 0 32) s := if_pos h

theorem writeWindow_eight {o : BitVec 12} (h : o.toNat % 8 = 0) (v : Long) : writeWindow o .eight v s =
    writeRegister (o + 4) (v.extractLsb' 32 32) (writeRegister o (v.extractLsb' 0 32) s) := if_pos h

theorem writeRegister_of_none {o : BitVec 12}
    (h : o ∉ ([0x000, 0x008, 0x00C, 0x010, 0x020, 0x024, 0x028, 0x02C] : List (BitVec 12))) (value : Word) :
    writeRegister o value s = s := by
  simp only [List.mem_cons, List.not_mem_nil, or_false, not_or] at h
  obtain ⟨h0, h8, hC, h10, h20, h24, h28, h2C⟩ := h
  unfold writeRegister
  rw [if_neg h0, if_neg h8, if_neg hC, if_neg h10, if_neg h20, if_neg h24, if_neg h28, if_neg h2C]

/-- The offset of CB ADDRESS LOW. -/
theorem writeRegister_low (value : Word) :
    writeRegister 0x008 value s = writeCbAddress (s.link.cbAddress.extractLsb' 32 32 ++ value) s := rfl

theorem writeRegister_high (value : Word) :
    writeRegister (0x008 + 4) value s = writeCbAddress (value ++ s.link.cbAddress.extractLsb' 0 32) s := rfl

theorem writeWindow_low (v : Long) (s : State) :
    writeWindow 0x008 .four v s = writeCbAddress (s.link.cbAddress.extractLsb' 32 32 ++ v.extractLsb' 0 32) s := rfl

theorem writeWindow_high (v : Long) (s : State) :
    writeWindow 0x00C .four v s = writeCbAddress (v.extractLsb' 0 32 ++ s.link.cbAddress.extractLsb' 0 32) s := rfl

/-- A LINK CONTROL write resets by bit 1 and enables by bit 0. -/
theorem writeControl (v : Long) (s : State) : writeWindow 0x000 .four v s =
    if v.getLsbD 1 = true then writeReset s else writeEnable (v.getLsbD 0) s := by
  have bit (k : Nat) (hk : k < 32) : (v.extractLsb' 0 32).getLsbD k = v.getLsbD k := by simp [hk]
  show (if (v.extractLsb' 0 32).getLsbD 1 = true then writeReset s else writeEnable ((v.extractLsb' 0 32).getLsbD 0) s) = _
  rw [bit 1 (by decide), bit 0 (by decide)]

/-- A write of a ring's head register. -/
theorem writeRegister_head (n : RingId) (value : Word) :
    writeRegister (BitVec.ofNat 12 (32 + 4 * n.val)) value s = writeHead n value s := by
  fin_cases n <;> rfl

end

/-- Settles O32: each offset by its register, and an 8-byte write as its two halves. -/
theorem registerWrites : Obligations.RegisterWrites := by
  refine fun v s => ⟨fun o => ⟨rfl, rfl, rfl⟩, fun o ho => ?_, fun hreset => ?_, fun hset => ?_, rfl, fun n => ?_,
    fun hstate => ⟨?_, ?_, ?_⟩, fun hdown => ⟨?_, ⟨_, rfl, ?_, ?_⟩, ⟨_, rfl, ?_, ?_⟩⟩, fun o ho => ?_, fun o t ho ht => ?_⟩
  · refine congrArg Host.Outcome.next ?_
    by_cases haligned : o.toNat % 4 = 0
    · rw [writeWindow_four haligned, writeRegister_of_none ho]
    · exact if_neg haligned
  · exact congrArg Host.Outcome.next ((writeControl v s).trans (if_pos hreset))
  · exact congrArg Host.Outcome.next ((writeControl v s).trans (if_neg (ne_true_of_eq_false hset)))
  · refine congrArg Host.Outcome.next ((writeWindow_four ?_ v).trans (writeRegister_head n _))
    fin_cases n <;> decide
  · exact congrArg Host.Outcome.next (writeCbAddress_of_not_down hstate _)
  · exact congrArg Host.Outcome.next (writeCbAddress_of_not_down hstate _)
  · refine congrArg Host.Outcome.next ((writeWindow_eight (by decide) v).trans ?_)
    rw [writeRegister_low, writeCbAddress_of_not_down hstate]
    exact writeCbAddress_of_not_down hstate _
  · refine congrArg Host.Outcome.next ((writeWindow_eight (by decide) v).trans ?_)
    rw [writeRegister_low, writeCbAddress_of_down hdown, writeRegister_high]
    refine (writeCbAddress_of_down (s := { s with link := { s.link with
      cbAddress := s.link.cbAddress.extractLsb' 32 32 ++ v.extractLsb' 0 32 } }) hdown _).trans ?_
    have whole : (v.extractLsb' 32 32 ++ (s.link.cbAddress.extractLsb' 32 32 ++ v.extractLsb' 0 32 : Long).extractLsb' 0 32 :
        Long) = v := by
      refine BitVec.eq_of_toNat_eq ?_
      rw [append_toNat, low_toNat, append_toNat, high_toNat, high_toNat, low_toNat]
      omega
    rw [whole]
  · rw [writeWindow_low, writeCbAddress_of_down hdown]
    show (_ ++ _ : Long).toNat = _
    rw [append_toNat, high_toNat, low_toNat]
  · rw [writeWindow_low, writeCbAddress_of_down hdown]
  · rw [writeWindow_high, writeCbAddress_of_down hdown]
    show (_ ++ _ : Long).toNat = _
    rw [append_toNat, low_toNat, low_toNat]
  · rw [writeWindow_high, writeCbAddress_of_down hdown]
  · exact congrArg Host.Outcome.next (if_neg ho)
  · have aligned : o.toNat % 4 = 0 := by omega
    have next : (o + 4).toNat % 4 = 0 := by bv_omega
    rw [← Host.Outcome.next.inj ht]
    refine congrArg Host.Outcome.next ((writeWindow_eight ho v).trans ?_)
    show _ = writeWindow (o + 4) .four (v >>> 32) (writeWindow o .four v s)
    rw [writeWindow_four aligned, writeWindow_four next, shifted_low]

/-! ### Reads -/

section
variable {s : State}

/-- The offsets of Table 12-1. -/
theorem readRegister_of_none {o : BitVec 12}
    (h : o.toNat ∉ [0x000, 0x004, 0x008, 0x00C, 0x010, 0x020, 0x024, 0x028, 0x02C]) : readRegister s o = 0 := by
  have ne (k : BitVec 12) (hk : k.toNat ∈ [0x000, 0x004, 0x008, 0x00C, 0x010, 0x020, 0x024, 0x028, 0x02C]) : ¬o = k :=
    fun e => h (e ▸ hk)
  unfold readRegister
  rw [if_neg (ne 0x000 (by decide)), if_neg (ne 0x004 (by decide)), if_neg (ne 0x008 (by decide)),
    if_neg (ne 0x00C (by decide)), if_neg (ne 0x010 (by decide)), if_neg (ne 0x020 (by decide)),
    if_neg (ne 0x024 (by decide)), if_neg (ne 0x028 (by decide)), if_neg (ne 0x02C (by decide))]

theorem readRegister_head (s : State) (n : RingId) : readRegister s (BitVec.ofNat 12 (32 + 4 * n.val)) =
    match s.rings[n] with
    | some r => BitVec.ofNat 32 r.returned
    | none => 0 := by
  fin_cases n <;> rfl

theorem bit_zero (b : Bool) : bit b 0 = if b = true then 1 else 0 := by cases b <;> rfl

theorem bit_one (b : Bool) : bit b 1 = if b = true then 2 else 0 := by cases b <;> rfl

/-- A field of a register. -/
theorem extract_ofNat {N : Nat} (hN : N < 2 ^ 32) (lo n : Nat) :
    ((BitVec.ofNat 32 N).extractLsb' lo n).toNat = N / 2 ^ lo % 2 ^ n := by
  rw [BitVec.extractLsb'_toNat, BitVec.toNat_ofNat, Nat.mod_eq_of_lt hN, Nat.shiftRight_eq_div_pow]

theorem getLsbD_ofNat {N : Nat} (hN : N < 2 ^ 32) (k : Nat) :
    (BitVec.ofNat 32 N).getLsbD k = decide (N / 2 ^ k % 2 = 1) := by
  rw [BitVec.getLsbD, BitVec.toNat_ofNat, Nat.mod_eq_of_lt hN, Nat.testBit_eq_decide_div_mod_eq]

/-- The mask of an aligned offset. -/
theorem offsetMask : ∀ i : Fin 12, (0xFFC : BitVec 12)[i] = decide (2 ≤ i.val) := by decide

/-- The aligned offset under an offset. -/
theorem aligned_offset (o : BitVec 12) : (o &&& (0xFFC : BitVec 12)).toNat = o.toNat / 4 * 4 := by
  have shifted : o &&& (0xFFC : BitVec 12) = (o >>> 2) <<< 2 := by
    ext i hi
    have here : (0xFFC : BitVec 12)[i] = decide (2 ≤ i) := offsetMask ⟨i, hi⟩
    rw [BitVec.getElem_and, here, BitVec.getElem_shiftLeft]
    by_cases hlow : i < 2
    · simp [hlow]
    · rw [decide_eq_true (by omega : 2 ≤ i), Bool.and_true, BitVec.getElem_ushiftRight]
      simp only [hlow, decide_false, Bool.not_false, Bool.true_and]
      rw [show 2 + (i - 2) = i by omega, BitVec.getLsbD_eq_getElem hi]
  have := o.isLt
  rw [shifted, BitVec.toNat_shiftLeft, BitVec.toNat_ushiftRight, Nat.shiftRight_eq_div_pow, Nat.shiftLeft_eq]
  omega

/-- LINK STATUS as a number (Table 12-1). -/
def State.status (s : State) : Nat :=
  s.link.state.code + 16 * s.link.cause.code + 256 * s.readsOutstanding + 65536 * s.link.detail.toNat

theorem readRegister_status (s : State) : readRegister s 0x004 = BitVec.ofNat 32 s.status := rfl

theorem LinkState.code_lt (x : LinkState) : x.code < 8 := by cases x <;> decide

theorem FaultCause.code_lt (x : FaultCause) : x.code < 8 := by cases x <;> decide

/-- The host reads outstanding: an order's read, a block write's flush read and the Control Block read (R168). -/
theorem readsOutstanding_eq (s : State) : s.readsOutstanding = (match s.orders.work with
      | .fetching _ => 1
      | .executing _ _ => 1
      | _ => 0) + (if s.writeInFlight = none then 0 else 1) + (if s.link.cbRead = none then 0 else 1) := by
  unfold State.readsOutstanding
  cases s.orders.work <;> cases s.writeInFlight <;> cases s.link.cbRead <;> rfl

theorem readsOutstanding_le (s : State) : s.readsOutstanding ≤ 3 := by
  rw [readsOutstanding_eq]
  have : (match s.orders.work with
      | .fetching _ => 1
      | .executing _ _ => 1
      | _ => 0) ≤ 1 := by cases s.orders.work <;> simp
  split_ifs <;> omega

/-- A read of one register, or of a part of it (R167). -/
theorem readWindow_within {o a : BitVec 12} {width : AccessWidth} {k : Nat} (ha : a.toNat % 4 = 0) (ho : o.toNat = a.toNat + k)
    (hk : k + width.bytes ≤ 4) (hwidth : 1 ≤ width.bytes) : readWindow s o width =
      BitVec.ofNat 64 ((readRegister s a).toNat / 2 ^ (8 * k) % 2 ^ (8 * width.bytes)) := by
  have place : o.toNat % 4 = k := by omega
  have aligned : o &&& (0xFFC : BitVec 12) = a := BitVec.eq_of_toNat_eq (by rw [aligned_offset]; omega)
  unfold readWindow
  dsimp only
  rw [place, if_pos hk, aligned]

theorem readWindow_eight {o : BitVec 12} (ho : o.toNat % 8 = 0) : readWindow s o .eight =
    BitVec.ofNat 64 ((readRegister s o).toNat + 2 ^ 32 * (readRegister s (o + 4)).toNat) := by
  unfold readWindow
  dsimp only [AccessWidth.bytes]
  rw [if_neg (by omega), if_pos ⟨rfl, ho⟩]

theorem touchesRegister_eq_false {o n : Nat}
    (h : ∀ a ∈ [0x000, 0x004, 0x008, 0x00C, 0x010, 0x020, 0x024, 0x028, 0x02C], a + 4 ≤ o ∨ o + n ≤ a) :
    touchesRegister o n = false := by
  unfold touchesRegister registerOffsets
  rw [List.any_eq_false]
  intro a ha
  have := h a ha
  simp only [decide_eq_true_eq]
  omega

theorem eq_eight {w : AccessWidth} (h : w.bytes = 8) : w = .eight := by
  cases w with
  | eight => rfl
  | one | two | three | four => cases h

theorem accessWidth_pos (w : AccessWidth) : 1 ≤ w.bytes := by cases w <;> decide

end

/-- Settles O33: register by register, and a read of the window by where it falls. -/
theorem registerReads : Obligations.RegisterReads := by
  refine ⟨⟨rfl, rfl⟩, fun s => ⟨?_, ⟨s.readsOutstanding, readsOutstanding_eq s, ?_⟩, low_toNat _, high_toNat _, rfl,
    fun n => ⟨fun r hr => ?_, fun hr => ?_⟩, fun o ho => readRegister_of_none ho, fun o ho => ?_,
    fun o a width k hwidth ha ho hk => ?_, fun o ho => ?_, fun o width hout => ?_⟩⟩
  · show (BitVec.ofNat 32 (bit s.link.enable 0 + bit s.link.resetPending 1)).toNat = _
    rw [bit_zero, bit_one]
    split_ifs <;> rfl
  · have hstate := s.link.state.code_lt
    have hcause := s.link.cause.code_lt
    have hreads := readsOutstanding_le s
    have hdetail := s.link.detail.isLt
    have bound : s.status < 2 ^ 32 := by unfold State.status; omega
    rw [readRegister_status]
    refine ⟨?_, ?_, ?_, BitVec.eq_of_toNat_eq ?_, ?_, ?_, BitVec.eq_of_toNat_eq ?_⟩
    · rw [extract_ofNat bound, State.status]; omega
    · rw [extract_ofNat bound, State.status]; omega
    · rw [extract_ofNat bound, State.status]; omega
    · rw [extract_ofNat bound, State.status]; omega
    · rw [getLsbD_ofNat bound, State.status, decide_eq_false]; omega
    · rw [getLsbD_ofNat bound, State.status, decide_eq_false]; omega
    · rw [extract_ofNat bound, State.status]
      show _ = 0
      omega
  · rw [readRegister_head, hr]
  · rw [readRegister_head, hr]
  · rw [readWindow_within (k := 0) ho rfl (by decide) (by decide)]
    refine BitVec.eq_of_toNat_eq ?_
    have := (readRegister s o).isLt
    simp only [AccessWidth.bytes, BitVec.toNat_ofNat, BitVec.toNat_setWidth]
    omega
  · rw [readWindow_within ha ho hk (accessWidth_pos width), BitVec.toNat_ofNat]
    refine Nat.mod_eq_of_lt (lt_of_le_of_lt (Nat.mod_le _ _) (lt_of_le_of_lt (Nat.div_le_self _ _) ?_))
    exact lt_trans (readRegister s a).isLt (by decide)
  · rw [readWindow_eight ho, BitVec.toNat_ofNat]
    have := (readRegister s o).isLt
    have := (readRegister s (o + 4)).isLt
    exact Nat.mod_eq_of_lt (by omega)
  · have hpos := (accessWidth_pos width)
    by_cases hwithin : o.toNat % 4 + width.bytes ≤ 4
    · have := o.isLt
      have base : (BitVec.ofNat 12 (o.toNat / 4 * 4)).toNat = o.toNat / 4 * 4 := by rw [BitVec.toNat_ofNat]; omega
      rw [readWindow_within (a := BitVec.ofNat 12 (o.toNat / 4 * 4)) (k := o.toNat % 4) (by omega) (by omega) hwithin hpos,
        readRegister_of_none fun x => ?_]
      · simp
      · rw [base] at x
        have := hout _ x
        omega
    · by_cases height : width.bytes = 8 ∧ o.toNat % 8 = 0
      · obtain ⟨hbytes, halign⟩ := height
        obtain rfl := eq_eight hbytes
        have low : readRegister s o = 0 := readRegister_of_none fun x => by have := hout _ x; omega
        have high : readRegister s (o + 4) = 0 := readRegister_of_none fun x => by
          have next : (o + 4).toNat = o.toNat + 4 := by bv_omega
          rw [next] at x
          have := hout _ x
          omega
        rw [readWindow_eight halign, low, high]
        rfl
      · unfold readWindow
        dsimp only
        rw [if_neg hwithin, if_neg height, touchesRegister_eq_false hout]
        rfl

end Sys2Proof.Machine
end


-- ==== Sys2Proof/Proofs/OrderBytes.lean ====
section
/-!
PROOFS. Proofs/OrderBytes.lean: reading back the bytes of an order (Tables 12-4 and 12-5). A byte of a slot is read back by
the evaluation of its layout; a number of several bytes by `ofLe_le`.
-/

namespace Sys2Proof.Machine

/-! ### Numbers, headers and entries read back -/

theorem half_readBack (x : Half) : BitVec.ofNat 16 (ofLe (le 2 x.toNat)) = x := by
  have := x.isLt
  exact BitVec.eq_of_toNat_eq (by rw [ofLe_le, BitVec.toNat_ofNat]; omega)

theorem word_readBack (x : Word) : BitVec.ofNat 32 (ofLe (le 4 x.toNat)) = x := by
  have := x.isLt
  exact BitVec.eq_of_toNat_eq (by rw [ofLe_le, BitVec.toNat_ofNat]; omega)

theorem long_readBack (x : Long) : BitVec.ofNat 64 (ofLe (le 8 x.toNat)) = x := by
  have := x.isLt
  exact BitVec.eq_of_toNat_eq (by rw [ofLe_le, BitVec.toNat_ofNat]; omega)

theorem flag_readBack : ∀ b : Bool, (if b then 1 else 0 : Byte).getLsbD 0 = b := by decide

theorem vector_three {α : Type} (v : Vector α 3) : #v[v[0], v[1], v[2]] = v := by
  refine Vector.ext fun k hk => ?_
  match k, hk with
  | 0, _ | 1, _ | 2, _ => rfl

theorem vector_six {α : Type} (v : Vector α 6) : #v[v[0], v[1], v[2], v[3], v[4], v[5]] = v := by
  refine Vector.ext fun k hk => ?_
  match k, hk with
  | 0, _ | 1, _ | 2, _ | 3, _ | 4, _ | 5, _ => rfl

/-! ### Fields of bytes read back -/

/-- The fields lie inside `n` bytes and no two of them overlap. -/
def fitsIn (n : Nat) : List (Nat × List Byte) → Bool
  | [] => true
  | f :: fs => decide (f.1 + f.2.length ≤ n) &&
      fs.all (fun g => decide (f.1 + f.2.length ≤ g.1) || decide (g.1 + g.2.length ≤ f.1)) && fitsIn n fs

/-- The bytes hold every field at its place. -/
def Holds (b : List Byte) (fields : List (Nat × List Byte)) : Prop :=
  ∀ f ∈ fields, (b.drop f.1).take f.2.length = f.2

/-- What is written beside a field leaves it. -/
theorem foldl_overwrite_other {n o m : Nat} {fields : List (Nat × List Byte)} (hfit : fitsIn n fields = true)
    (hbeside : ∀ g ∈ fields, o + m ≤ g.1 ∨ g.1 + g.2.length ≤ o) : ∀ b : List Byte, b.length = n →
      ((fields.foldl (fun record f => overwrite record f.1 f.2) b).drop o).take m = (b.drop o).take m := by
  induction fields with
  | nil => exact fun _ _ => rfl
  | cons f fields ih =>
    intro b hb
    simp only [fitsIn, Bool.and_eq_true, decide_eq_true_eq] at hfit
    obtain ⟨⟨hin, -⟩, hrest⟩ := hfit
    rw [List.foldl_cons, ih hrest (fun g hg => hbeside g (by simp [hg])) _ (by rw [overwrite_length (hb ▸ hin), hb])]
    exact overwrite_other (hb ▸ hin) (hbeside f (by simp))

theorem holds_layout {n : Nat} {fields : List (Nat × List Byte)} (hfit : fitsIn n fields = true) :
    Holds (layout n fields) fields := by
  suffices H : ∀ b : List Byte, b.length = n → Holds (fields.foldl (fun record f => overwrite record f.1 f.2) b) fields from
    H _ List.length_replicate
  induction fields with
  | nil => exact fun _ _ => List.forall_mem_nil _
  | cons f fields ih =>
    intro b hb
    simp only [fitsIn, Bool.and_eq_true, decide_eq_true_eq, List.all_eq_true, Bool.or_eq_true] at hfit
    obtain ⟨⟨hin, hapart⟩, hrest⟩ := hfit
    have length : (overwrite b f.1 f.2).length = n := by rw [overwrite_length (hb ▸ hin), hb]
    refine List.forall_mem_cons.mpr ⟨?_, ih hrest _ length⟩
    rw [List.foldl_cons, foldl_overwrite_other hrest hapart _ length]
    exact overwrite_field (hb ▸ hin)

theorem fitsIn_length {n : Nat} {fields : List (Nat × List Byte)} (hfit : fitsIn n fields = true) :
    ∀ f ∈ fields, f.1 + f.2.length ≤ n := by
  induction fields with
  | nil => exact List.forall_mem_nil _
  | cons f fields ih =>
    simp only [fitsIn, Bool.and_eq_true, decide_eq_true_eq] at hfit
    exact List.forall_mem_cons.mpr ⟨hfit.1.1, ih hfit.2⟩

section
variable {b : List Byte} {o : Nat}

theorem byteAt_of_field {k : Nat} {bytes : List Byte} {x : Byte} {n : Nat} (h : (b.drop o).take n = bytes)
    (hk : bytes[k]? = some x) : byteAt (o + k) b = x := by
  subst h
  obtain hlt | hge := Nat.lt_or_ge k n
  · rw [List.getElem?_take_of_lt hlt, List.getElem?_drop] at hk
    rw [byteAt, List.getD_eq_getElem?_getD, hk]
    rfl
  · rw [List.getElem?_eq_none (by simp; omega)] at hk
    cases hk

theorem byte_field {x : Byte} (h : (b.drop o).take 1 = [x]) : byteAt o b = x := byteAt_of_field (k := 0) h rfl

theorem bytes_two {x y : Byte} (h : (b.drop o).take 2 = [x, y]) : byteAt o b = x ∧ byteAt (o + 1) b = y :=
  ⟨byteAt_of_field (k := 0) h rfl, byteAt_of_field (k := 1) h rfl⟩

theorem bytes_three {x y z : Byte} (h : (b.drop o).take 3 = [x, y, z]) :
    byteAt o b = x ∧ byteAt (o + 1) b = y ∧ byteAt (o + 2) b = z :=
  ⟨byteAt_of_field (k := 0) h rfl, byteAt_of_field (k := 1) h rfl, byteAt_of_field (k := 2) h rfl⟩

theorem bytes_four {x y z w : Byte} (h : (b.drop o).take 4 = [x, y, z, w]) :
    byteAt o b = x ∧ byteAt (o + 1) b = y ∧ byteAt (o + 2) b = z ∧ byteAt (o + 3) b = w :=
  ⟨byteAt_of_field (k := 0) h rfl, byteAt_of_field (k := 1) h rfl, byteAt_of_field (k := 2) h rfl,
    byteAt_of_field (k := 3) h rfl⟩

theorem half_field {x : Half} (h : (b.drop o).take (le 2 x.toNat).length = le 2 x.toNat) : halfAt o b = x := by
  rw [le_length] at h
  rw [halfAt, fieldAt, h, half_readBack]

theorem word_field {x : Word} (h : (b.drop o).take (le 4 x.toNat).length = le 4 x.toNat) : wordAt o b = x := by
  rw [le_length] at h
  rw [wordAt, fieldAt, h, word_readBack]

theorem long_field {x : Long} (h : (b.drop o).take (le 8 x.toNat).length = le 8 x.toNat) : longAt o b = x := by
  rw [le_length] at h
  rw [longAt, fieldAt, h, long_readBack]

end

/-! ### The slot of an order -/

/-- A slot of 64 bytes with this header, kind and payload (Tables 12-4 and 12-5). -/
structure Slot (b : List Byte) (h : OrderHeader) (kind : Half) (payload : List (Nat × List Byte)) : Prop where
  length : b.length = 64
  kind : halfAt 0 b = kind
  silent : (byteAt 2 b).getLsbD 0 = h.silent
  tag : wordAt 4 b = h.tag
  fields : Holds b payload

section
variable {b : List Byte} {h : OrderHeader}

theorem slot_of_bytes {kind : Half} {payload : List (Nat × List Byte)} (hb : orderBytes h kind payload = b)
    (hfit : fitsIn 64 (h.fields kind ++ payload) = true) : Slot b h kind payload := by
  have holds := holds_layout hfit
  rw [show layout 64 (h.fields kind ++ payload) = b from hb] at holds
  obtain ⟨header, fields⟩ := List.forall_mem_append.mp holds
  obtain ⟨hkind, hflag, htag⟩ : _ ∧ _ ∧ _ := by simpa only [OrderHeader.fields, List.forall_mem_cons] using header
  refine ⟨hb ▸ layout_length 64 _ (fitsIn_length hfit), half_field hkind, ?_, word_field htag.1, fields⟩
  rw [byte_field hflag, flag_readBack]

theorem slot_of_byte {kind : Half} {x : Byte} (hb : orderBytes h kind [(8, [x])] = b) :
    b.length = 64 ∧ halfAt 0 b = kind ∧ (byteAt 2 b).getLsbD 0 = h.silent ∧ wordAt 4 b = h.tag ∧ byteAt 8 b = x := by
  obtain ⟨length, hkind, silent, tag, fields⟩ := slot_of_bytes hb rfl
  exact ⟨length, hkind, silent, tag, byte_field (fields (8, [x]) (by simp))⟩

theorem readStatus_readBack {target stream part : Byte} {address : Long}
    (hb : orderBytes h 0x0002 [(8, [target, stream, part]), (16, le 8 address.toNat)] = b) :
    decodeOrder b = some (.readStatus h target stream part address) := by
  obtain ⟨length, kind, silent, tag, fields⟩ := slot_of_bytes hb rfl
  simp only [Holds, List.forall_mem_cons] at fields
  obtain ⟨hbytes, haddress, -⟩ := fields
  obtain ⟨btarget, bstream, bpart⟩ := bytes_three hbytes
  simp only [decodeOrder, length, kind, silent, tag, btarget, bstream, bpart, long_field haddress]
  rfl

theorem setChannel_readBack {channel range settle : Byte}
    (hb : orderBytes h 0x0010 [(8, [channel, range, settle])] = b) :
    decodeOrder b = some (.setChannel h channel range settle) := by
  obtain ⟨length, kind, silent, tag, fields⟩ := slot_of_bytes hb rfl
  obtain ⟨bchannel, brange, bsettle⟩ := bytes_three (fields (8, [channel, range, settle]) (by simp))
  simp only [decodeOrder, length, kind, silent, tag, bchannel, brange, bsettle]
  rfl

/-- A step entry of LOAD SCAN (Table 12-5). -/
theorem stepEntry_field {e : StepEntry} {i : Nat}
    (hfield : (b.drop (12 + 2 * i)).take [e.channel, e.averaging].length = [e.channel, e.averaging]) : stepEntryAt b i = e := by
  obtain ⟨channel, averaging⟩ := bytes_two hfield
  rw [stepEntryAt, channel, show 13 + 2 * i = 12 + 2 * i + 1 by omega, averaging]

theorem loadScan_readBack {list mode count : Byte} {e : Vector StepEntry 6}
    (hb : orderBytes h 0x0011 ([(8, [list, mode, count])] ++ e[0].fields 0 ++ e[1].fields 1 ++ e[2].fields 2 ++ e[3].fields 3
      ++ e[4].fields 4 ++ e[5].fields 5) = b) : decodeOrder b = some (.loadScan h list mode count e) := by
  obtain ⟨length, kind, silent, tag, fields⟩ := slot_of_bytes hb rfl
  simp only [Holds, List.forall_mem_append, StepEntry.fields, List.forall_mem_cons, and_assoc] at fields
  obtain ⟨hbytes, -, h0, -, h1, -, h2, -, h3, -, h4, -, h5, -⟩ := fields
  obtain ⟨blist, bmode, bcount⟩ := bytes_three hbytes
  simp only [decodeOrder, length, kind, silent, tag, blist, bmode, bcount, stepEntry_field h0, stepEntry_field h1,
    stepEntry_field h2, stepEntry_field h3, stepEntry_field h4, stepEntry_field h5, vector_six]
  rfl

theorem setPace_readBack {f : PaceFields}
    (hb : orderBytes h 0x0020 [(8, [f.generator, f.source, f.gate, f.mode]), (12, le 4 f.prescale.toNat),
      (16, le 4 f.divide.toNat), (20, le 4 f.burst.toNat)] = b) : decodeOrder b = some (.setPace h f) := by
  obtain ⟨length, kind, silent, tag, fields⟩ := slot_of_bytes hb rfl
  simp only [Holds, List.forall_mem_cons] at fields
  obtain ⟨hbytes, hprescale, hdivide, hburst, -⟩ := fields
  obtain ⟨generator, source, gate, mode⟩ := bytes_four hbytes
  simp only [decodeOrder, length, kind, silent, tag, paceFieldsAt, generator, source, gate, mode, word_field hprescale,
    word_field hdivide, word_field hburst]
  rfl

theorem setLine_readBack {line polarity : Byte} (hb : orderBytes h 0x0023 [(8, [line, polarity])] = b) :
    decodeOrder b = some (.setLine h line polarity) := by
  obtain ⟨length, kind, silent, tag, fields⟩ := slot_of_bytes hb rfl
  obtain ⟨bline, bpolarity⟩ := bytes_two (fields (8, [line, polarity]) (by simp))
  simp only [decodeOrder, length, kind, silent, tag, bline, bpolarity]
  rfl

theorem configureStream_readBack {f : ConfigureFields}
    (hb : orderBytes h 0x0030 [(8, [f.stream, f.scanList, f.generator, f.ring]), (12, le 2 f.passesPerBlock.toNat),
      (14, [f.pages, f.policies]), (16, le 2 f.depth.toNat), (18, le 2 f.flushMs.toNat),
      (20, [f.startKind, f.startLine, f.stopKind, f.stopLine]), (24, le 4 f.count.toNat),
      (32, le 8 f.startTime.toNat), (40, le 8 f.stopTime.toNat)] = b) : decodeOrder b = some (.configureStream h f) := by
  obtain ⟨length, kind, silent, tag, fields⟩ := slot_of_bytes hb rfl
  simp only [Holds, List.forall_mem_cons] at fields
  obtain ⟨hbytes, hp, hpages, hdepth, hflush, hkinds, hcount, hstart, hstop, -⟩ := fields
  obtain ⟨stream, scanList, generator, ring⟩ := bytes_four hbytes
  obtain ⟨pages, policies⟩ := bytes_two hpages
  obtain ⟨startKind, startLine, stopKind, stopLine⟩ := bytes_four hkinds
  simp only [decodeOrder, length, kind, silent, tag, configureFieldsAt, stream, scanList, generator, ring, pages, policies,
    startKind, startLine, stopKind, stopLine, half_field hp, half_field hdepth, half_field hflush, word_field hcount,
    long_field hstart, long_field hstop]
  rfl

/-- A descriptor of POST BUFFERS (Table 12-5). -/
theorem descriptorEntry_field {e : DescriptorEntry} {i : Nat}
    (hfield : (b.drop (16 + 16 * i)).take (le 8 e.address.toNat ++ le 4 e.length.toNat ++ le 4 e.tag.toNat).length =
      le 8 e.address.toNat ++ le 4 e.length.toNat ++ le 4 e.tag.toNat) : descriptorEntryAt b i = e := by
  have part (k n : Nat) (hk : k + n ≤ 16) : (b.drop (16 + 16 * i + k)).take n =
      ((le 8 e.address.toNat ++ le 4 e.length.toNat ++ le 4 e.tag.toNat).drop k).take n := by
    rw [← hfield, List.drop_take, List.take_take, List.drop_drop]
    congr 1
    simp
    omega
  have address : longAt (16 + 16 * i) b = e.address := long_field (part 0 8 (by decide))
  have length : wordAt (24 + 16 * i) b = e.length := by
    rw [show 24 + 16 * i = 16 + 16 * i + 8 by omega]
    exact word_field (part 8 4 (by decide))
  have tag : wordAt (28 + 16 * i) b = e.tag := by
    rw [show 28 + 16 * i = 16 + 16 * i + 12 by omega]
    exact word_field (part 12 4 (by decide))
  rw [descriptorEntryAt, address, length, tag]

theorem postBuffers_readBack {stream count : Byte} {e : Vector DescriptorEntry 3}
    (hb : orderBytes h 0x0040 ([(8, [stream, count])] ++ e[0].fields 0 ++ e[1].fields 1 ++ e[2].fields 2) = b) :
    decodeOrder b = some (.postBuffers h stream count e) := by
  obtain ⟨length, kind, silent, tag, fields⟩ := slot_of_bytes hb rfl
  simp only [Holds, List.forall_mem_append, DescriptorEntry.fields, List.forall_mem_cons, and_assoc] at fields
  obtain ⟨hbytes, -, h0, -, h1, -, h2, -⟩ := fields
  obtain ⟨bstream, bcount⟩ := bytes_two hbytes
  simp only [decodeOrder, length, kind, silent, tag, bstream, bcount, descriptorEntry_field h0, descriptorEntry_field h1,
    descriptorEntry_field h2, vector_three]
  rfl

theorem setWindow_readBack {window enabled use : Byte} {base mask : Long}
    (hb : orderBytes h 0x0042 [(8, [window, enabled, use]), (16, le 8 base.toNat), (24, le 8 mask.toNat)] = b) :
    decodeOrder b = some (.setWindow h window enabled use base mask) := by
  obtain ⟨length, kind, silent, tag, fields⟩ := slot_of_bytes hb rfl
  simp only [Holds, List.forall_mem_cons] at fields
  obtain ⟨hbytes, hbase, hmask, -⟩ := fields
  obtain ⟨bwindow, benabled, buse⟩ := bytes_three hbytes
  simp only [decodeOrder, length, kind, silent, tag, bwindow, benabled, buse, long_field hbase, long_field hmask]
  rfl

theorem setWatch_readBack {f : WatchFields}
    (hb : orderBytes h 0x0050 [(8, [f.watch, f.channel, f.filter, f.action]), (12, le 2 f.low.toNat),
      (14, le 2 f.high.toNat), (16, le 2 f.hysteresis.toNat), (18, [f.persistence, f.alert, f.note, f.ring])] = b) :
    decodeOrder b = some (.setWatch h f) := by
  obtain ⟨length, kind, silent, tag, fields⟩ := slot_of_bytes hb rfl
  simp only [Holds, List.forall_mem_cons] at fields
  obtain ⟨hbytes, hlow, hhigh, hhysteresis, hrest, -⟩ := fields
  obtain ⟨watch, channel, filter, action⟩ := bytes_four hbytes
  obtain ⟨persistence, alert, note, ring⟩ := bytes_four hrest
  simp only [decodeOrder, length, kind, silent, tag, watchFieldsAt, watch, channel, filter, action, persistence, alert, note,
    ring, half_field hlow, half_field hhigh, half_field hhysteresis]
  rfl

theorem armSync_readBack {preset : Long} {timeout : Word}
    (hb : orderBytes h 0x0061 [(8, le 8 preset.toNat), (16, le 4 timeout.toNat)] = b) :
    decodeOrder b = some (.armSync h preset timeout) := by
  obtain ⟨length, kind, silent, tag, fields⟩ := slot_of_bytes hb rfl
  simp only [Holds, List.forall_mem_cons] at fields
  obtain ⟨hpreset, htimeout, -⟩ := fields
  simp only [decodeOrder, length, kind, silent, tag, long_field hpreset, word_field htimeout]
  rfl

theorem fireSync_readBack {mode : Byte} {time : Long}
    (hb : orderBytes h 0x0062 [(8, [mode]), (16, le 8 time.toNat)] = b) :
    decodeOrder b = some (.fireSync h mode time) := by
  obtain ⟨length, kind, silent, tag, fields⟩ := slot_of_bytes hb rfl
  simp only [Holds, List.forall_mem_cons] at fields
  obtain ⟨hmode, htime, -⟩ := fields
  simp only [decodeOrder, length, kind, silent, tag, byte_field hmode, long_field htime]
  rfl

/-- A kind that Table 12-5 does not name (R145). -/
theorem unknownKind_readBack {code : Half} (hcode : knownKinds.contains code = false) (hb : orderBytes h code [] = b) :
    decodeOrder b = some (.unknownKind h code) := by
  obtain ⟨length, kind, silent, tag, -⟩ := slot_of_bytes hb rfl
  have other : ∀ k ∈ knownKinds, code ≠ k := fun k hk e => by
    rw [e, List.contains_iff_mem.mpr hk] at hcode
    cases hcode
  simp only [knownKinds, List.forall_mem_cons, List.not_mem_nil, false_imp_iff, implies_true, and_true] at other
  simp only [decodeOrder, length, kind, silent, tag, other, if_false]
  rfl

end

/-- Settles O60: kind by kind, the bytes of the slot read back as what was written; a command that is no order has no bytes. -/
theorem ordersReadBack : Obligations.OrdersReadBack := by
  intro c b hwell hencode
  cases c with
  | nop h =>
    obtain ⟨length, kind, silent, tag, -⟩ := slot_of_bytes (Option.some.inj hencode) rfl
    exact ⟨length, by simp only [decodeOrder, length, kind, silent, tag]; rfl⟩
  | clearScan h x | runPace h x | haltPace h x | armStream h x | startStream h x | stopStream h x | abortStream h x
  | resetStream h x | reclaimBuffers h x | clearWatch h x | setTimebase h x =>
    obtain ⟨length, kind, silent, tag, byte⟩ := slot_of_byte (Option.some.inj hencode)
    exact ⟨length, by simp only [decodeOrder, length, kind, silent, tag, byte]; rfl⟩
  | readStatus => exact ⟨(slot_of_bytes (Option.some.inj hencode) rfl).length, readStatus_readBack (Option.some.inj hencode)⟩
  | setChannel => exact ⟨(slot_of_bytes (Option.some.inj hencode) rfl).length, setChannel_readBack (Option.some.inj hencode)⟩
  | loadScan => exact ⟨(slot_of_bytes (Option.some.inj hencode) rfl).length, loadScan_readBack (Option.some.inj hencode)⟩
  | setPace => exact ⟨(slot_of_bytes (Option.some.inj hencode) rfl).length, setPace_readBack (Option.some.inj hencode)⟩
  | setLine => exact ⟨(slot_of_bytes (Option.some.inj hencode) rfl).length, setLine_readBack (Option.some.inj hencode)⟩
  | configureStream =>
    exact ⟨(slot_of_bytes (Option.some.inj hencode) rfl).length, configureStream_readBack (Option.some.inj hencode)⟩
  | postBuffers => exact ⟨(slot_of_bytes (Option.some.inj hencode) rfl).length, postBuffers_readBack (Option.some.inj hencode)⟩
  | setWindow => exact ⟨(slot_of_bytes (Option.some.inj hencode) rfl).length, setWindow_readBack (Option.some.inj hencode)⟩
  | setWatch => exact ⟨(slot_of_bytes (Option.some.inj hencode) rfl).length, setWatch_readBack (Option.some.inj hencode)⟩
  | armSync => exact ⟨(slot_of_bytes (Option.some.inj hencode) rfl).length, armSync_readBack (Option.some.inj hencode)⟩
  | fireSync => exact ⟨(slot_of_bytes (Option.some.inj hencode) rfl).length, fireSync_readBack (Option.some.inj hencode)⟩
  | unknownKind h kind =>
    exact ⟨(slot_of_bytes (Option.some.inj hencode) rfl).length,
      unknownKind_readBack (by simpa [Instr.wellFormed] using hwell) (Option.some.inj hencode)⟩
  | _ => cases hencode

end Sys2Proof.Machine
end


-- ==== Sys2Proof/Proofs/WrittenBytes.lean ====
section
/-!
PROOFS. Proofs/WrittenBytes.lean: the byte layouts of what the part writes: completion records, blocks and status sections
(Tables 12-6, 12-7 and 12-9 to 12-12).
-/

namespace Sys2Proof.Machine

/-! ### Layouts -/

theorem fitsIn_pairwise {n : Nat} {fields : List (Nat × List Byte)} (hfit : fitsIn n fields = true) :
    fields.Pairwise (fun f g => f.1 + f.2.length ≤ g.1 ∨ g.1 + g.2.length ≤ f.1) := by
  induction fields with
  | nil => exact .nil
  | cons f fields ih =>
    simp only [fitsIn, Bool.and_eq_true, decide_eq_true_eq, List.all_eq_true, Bool.or_eq_true] at hfit
    obtain ⟨⟨-, hapart⟩, hrest⟩ := hfit
    exact .cons hapart (ih hrest)

/-- The fields of a layout read back (R179). -/
theorem hasLayout_of_fields {n : Nat} {fields : List (Nat × Nat × Nat)} {written : List (Nat × List Byte)}
    (h : fields.map (fun f => (f.1, le f.2.1 f.2.2)) = written) (hfit : fitsIn n written = true) :
    HasLayout n fields (layout n written) := by
  subst h
  refine layout_hasLayout n fields (fun f hf => ?_) ((List.pairwise_map.mp (fitsIn_pairwise hfit)).imp fun hap => ?_)
  · have := fitsIn_length hfit _ (List.mem_map_of_mem hf)
    rwa [le_length] at this
  · simpa only [le_length] using hap

/-- A bit of a flags byte by its weight. -/
theorem bit_eq {one : Bool → Nat} (hone : ∀ b : Bool, one b = if b = true then 1 else 0) :
    (∀ b, bit b 0 = one b) ∧ (∀ b, bit b 1 = 2 * one b) ∧ (∀ b, bit b 2 = 4 * one b) ∧ (∀ b, bit b 3 = 8 * one b) ∧
      (∀ b, bit b 4 = 16 * one b) ∧ (∀ b, bit b 5 = 32 * one b) := by
  obtain rfl : one = fun b => if b = true then 1 else 0 := funext hone
  refine ⟨?_, ?_, ?_, ?_, ?_, ?_⟩ <;> decide

/-! ### Completion records -/

section
variable {one : Bool → Nat} (hone : ∀ b : Bool, one b = if b = true then 1 else 0)
include hone

/-- The bytes of a record: its kind, its phase and its own fields (Table 12-6). -/
theorem record_hasLayout {r : Record} {phase : Bool} {kind : Nat} {fields : List (Nat × Nat × Nat)} (hkind : r.kind = kind)
    (h : fields.map (fun f => (f.1, le f.2.1 f.2.2)) = r.fields)
    (hfit : fitsIn 32 ([(0, le 1 r.kind), (1, le 1 (bit phase 0))] ++ r.fields) = true) :
    HasLayout 32 ((0, 1, kind) :: (1, 1, one phase) :: fields) (r.bytes phase) := by
  subst hkind
  refine hasLayout_of_fields ?_ hfit
  rw [(bit_eq hone).1 phase, ← h]
  rfl

end

/-- Settles O51: kind by kind, the fields of the record and that no two of them overlap. -/
theorem recordLayout : Obligations.RecordLayout := by
  refine ⟨fun phase one hone => ⟨fun index kind status tag detail => record_hasLayout hone rfl rfl rfl,
    fun i f tag bytes blocks first last => record_hasLayout hone rfl ?_ rfl, fun i source k time => ?_,
    fun i reason begun next time => ⟨?_, ?_, ?_⟩, fun e outcome lost number hnone hsome => record_hasLayout hone rfl ?_ rfl,
    fun event role timeout preset count => record_hasLayout hone rfl rfl rfl⟩, rfl, rfl, fun n m => rfl, rfl, fun i => ?_,
    rfl, rfl, rfl⟩
  · obtain ⟨b0, b1, b2, b3, b4, b5⟩ := bit_eq hone
    simp only [Record.fields, BufferFlags.code, b0, b1, b2, b3, b4, b5]
    rfl
  · exact (record_hasLayout hone (r := .streamState i (.triggered source k) time) (fields := [(2, 1, i.val),
      (8, 8, time.toNat), (3, 1, 0), (4, 1, source.code), (5, 1, source.number), (16, 4, k)]) rfl rfl rfl).congr
      fun x => by simp only [List.mem_cons]; tauto
  · exact (record_hasLayout hone (r := .streamState i (.draining reason begun) time) (fields := [(2, 1, i.val),
      (8, 8, time.toNat), (3, 1, 1), (4, 1, reason.code), (20, 4, begun)]) rfl rfl rfl).congr
      fun x => by simp only [List.mem_cons]; tauto
  · exact (record_hasLayout hone (r := .streamState i (.ended reason begun next) time) (fields := [(2, 1, i.val),
      (8, 8, time.toNat), (3, 1, 2), (4, 1, reason.code), (20, 4, begun), (24, 4, next.toNat)]) rfl rfl rfl).congr
      fun x => by simp only [List.mem_cons]; tauto
  · exact (record_hasLayout hone (r := .streamState i (.faulted reason begun next) time) (fields := [(2, 1, i.val),
      (8, 8, time.toNat), (3, 1, 3), (4, 1, reason.code), (20, 4, begun), (24, 4, next.toNat)]) rfl rfl rfl).congr
      fun x => by simp only [List.mem_cons]; tauto
  · obtain ⟨b0, b1, -⟩ := bit_eq hone
    have value : number = (e.offer.number.getD 0).toNat := by
      cases hn : e.offer.number with
      | none => exact hnone hn
      | some n => exact hsome n hn
    simp only [Record.fields, WatchEvent.fields, b0, b1, value]
    rfl
  · simp [WatchAction.code, Nat.add_comm]

/-! ### Blocks -/

section
variable {α β : Type}

/-- Equal parts of a list stand one after another. -/
theorem flatMap_part {f : α → List β} {m : Nat} {l : List α} (hlen : ∀ x ∈ l, (f x).length = m) {k : Nat} {x : α}
    (hx : l[k]? = some x) : ∃ rest, (l.flatMap f).drop (k * m) = f x ++ rest := by
  induction l generalizing k with
  | nil => cases hx
  | cons y l ih =>
    cases k with
    | zero =>
      obtain rfl : y = x := Option.some.inj hx
      exact ⟨l.flatMap f, by simp⟩
    | succ k =>
      obtain ⟨rest, hrest⟩ := ih (fun z hz => hlen z (by simp [hz])) hx
      refine ⟨rest, ?_⟩
      rw [List.flatMap_cons, List.drop_append, hlen y (by simp), List.drop_eq_nil_of_le, List.nil_append, Nat.succ_mul,
        Nat.add_sub_cancel, hrest]
      rw [hlen y (by simp), Nat.succ_mul]
      omega

theorem flatMap_length {f : α → List β} {m : Nat} {l : List α} (hlen : ∀ x ∈ l, (f x).length = m) :
    (l.flatMap f).length = l.length * m := by
  induction l with
  | nil => simp
  | cons y l ih =>
    rw [List.flatMap_cons, List.length_append, hlen y (by simp), ih (fun z hz => hlen z (by simp [hz])), List.length_cons,
      Nat.succ_mul, Nat.add_comm]

end

theorem sampleWord_length (x : Option Sample) (slipped : Bool) : (sampleWord x slipped).length = 4 := by
  simp [sampleWord]

theorem passWords_length (r : PassRecord) : (passWords r).length = 4 * r.slots.length := by
  unfold passWords
  cases r.slots with
  | nil => rfl
  | cons x xs =>
    rw [List.length_append, sampleWord_length, flatMap_length fun y _ => sampleWord_length y false, List.length_cons]
    omega

/-- The word of a slot: SLIPPED only in step 0 of a pass that slipped (R72). -/
theorem passWords_word {r : PassRecord} {j : Nat} {x : Option Sample} (hx : r.slots[j]? = some x) :
    ∃ rest, (passWords r).drop (4 * j) = sampleWord x (decide (j = 0 ∧ 0 < r.slips)) ++ rest := by
  unfold passWords
  cases hslots : r.slots with
  | nil => rw [hslots] at hx; cases hx
  | cons y ys =>
    rw [hslots] at hx
    cases j with
    | zero =>
      obtain rfl : y = x := Option.some.inj hx
      exact ⟨ys.flatMap (fun y => sampleWord y false), by simp⟩
    | succ j =>
      obtain ⟨rest, hrest⟩ := flatMap_part (l := ys) (k := j) (fun z _ => sampleWord_length z false) hx
      refine ⟨rest, ?_⟩
      rw [List.drop_append, sampleWord_length, List.drop_eq_nil_of_le (by rw [sampleWord_length]; omega), List.nil_append,
        show 4 * (j + 1) - 4 = j * 4 by omega, hrest]
      simp

/-- The word of a sample (Table 12-7). -/
theorem sampleWord_hasLayout {one : Bool → Nat} (hone : ∀ b : Bool, one b = if b = true then 1 else 0) (x : Sample)
    (slipped : Bool) :
    HasLayout 4 [(0, 2, x.code.toNat), (2, 1, one x.clip + 2 * one slipped)] (sampleWord (some x) slipped) := by
  obtain ⟨b0, b1, -⟩ := bit_eq hone
  have word : sampleWord (some x) slipped =
      layout 4 [(0, le 2 x.code.toNat), (2, le 1 (bit x.clip 0 + bit slipped 1))] := rfl
  rw [word]
  refine hasLayout_of_fields ?_ rfl
  rw [b0, b1]
  rfl

/-- The header of a block with a first pass (Table 12-7). -/
theorem header_hasLayout {one : Bool → Nat} (hone : ∀ b : Bool, one b = if b = true then 1 else 0) {b : Block} {i : StreamId}
    {S : Nat} {sequence number : Word} {first : PassRecord} (hfirst : b.records.head? = some first)
    (hnumber : first.number = some number) :
    HasLayout 32 [(0, 1, i.val), (1, 1, one (first.droppedBefore != 0) + 2 * one b.short + 4 * one b.final),
      (2, 2, b.records.length), (4, 1, S), (6, 2, 32 + 4 * b.records.length * S), (8, 4, sequence.toNat),
      (12, 4, number.toNat), (16, 8, first.start.toNat), (24, 2, b.slips), (26, 2, first.droppedBefore)]
      (b.header i S sequence) := by
  obtain ⟨b0, b1, b2, -⟩ := bit_eq hone
  have dropped : b.dropped = first.droppedBefore := by rw [Block.dropped, hfirst]; rfl
  unfold Block.header
  simp only [hfirst, Option.bind_some, hnumber, Option.getD_some, Block.flags, dropped, b0, b1, b2, blockSize]
  exact hasLayout_of_fields rfl rfl

theorem header_length (b : Block) (i : StreamId) (S : Nat) (sequence : Word) : (b.header i S sequence).length = 32 :=
  layout_length 32 _ (by simp)

/-- Settles O52: the header, and every sample word at its place among words of equal length. -/
theorem blockLayout : Obligations.BlockLayout := by
  intro b i S sequence number first bytes one hone hfirst hnumber hslots hbytes
  have words : ∀ r ∈ b.records, (passWords r).length = 4 * S := fun r hr => by rw [passWords_length, hslots r hr]
  have length := header_length b i S sequence
  rw [hbytes]
  refine ⟨?_, ?_, fun k j r x hr hx => ?_⟩
  · rw [Block.bytes, List.length_append, length, flatMap_length words]
    ring
  · rw [Block.bytes, List.take_left' length]
    exact header_hasLayout hone hfirst hnumber
  · have inside : j < S := by
      rw [← hslots r (List.mem_of_getElem? hr)]
      exact (List.getElem?_eq_some_iff.mp hx).1
    obtain ⟨rest, hrest⟩ := flatMap_part words hr
    obtain ⟨rest', hrest'⟩ := passWords_word hx
    have place : ((b.bytes i S sequence).drop (32 + 4 * (k * S + j))).take 4 =
        sampleWord (some x) (decide (j = 0 ∧ 0 < r.slips)) := by
      have split : 32 + 4 * (k * S + j) = 32 + (k * (4 * S) + 4 * j) := by ring
      rw [split, Block.bytes, ← List.drop_drop, List.drop_left' length, ← List.drop_drop, hrest,
        List.drop_append_of_le_length (by rw [words r (List.mem_of_getElem? hr)]; omega), hrest', List.append_assoc,
        List.take_left' (sampleWord_length _ _)]
    rw [place]
    exact sampleWord_hasLayout hone x _

end Sys2Proof.Machine
end


-- ==== Sys2Proof/Proofs/StatusBytes.lean ====
section
/-!
PROOFS. Proofs/StatusBytes.lean: the byte layout of every status section (section 12.7, Tables 12-9 to 12-12).
-/

namespace Sys2Proof.Machine

/-! ### Which section is asked for -/

theorem statusSection_config (s : State) (i : StreamId) : statusSection 0 (byteOf i) 0 s = some (streamSection0 s i) := by
  unfold statusSection
  rw [if_pos rfl, index?_byteOf (by decide)]
  rfl

theorem statusSection_run (s : State) (i : StreamId) : statusSection 0 (byteOf i) 1 s = some (streamSection1 s i) := by
  unfold statusSection
  rw [if_pos rfl, index?_byteOf (by decide)]
  rfl

theorem statusSection_part {s : State} (any part : Byte) {n : Fin 9} (h : index? 9 part = some n) :
    statusSection 1 any part s = some (partSection s n) := by
  unfold statusSection
  rw [if_neg (by decide), if_pos rfl, h]
  rfl

/-- A value that is a default where it is absent (R179). -/
def valueOr {α β : Type} (d : β) (f : α → β) (o : Option α) : β :=
  match o with
  | some x => f x
  | none => d

/-! ### Stream sections -/

section
variable {s : State} {i : StreamId} {x : StreamContext}

/-- The code of an end reason, 0 where there is none. -/
def reasonField (x : StreamContext) : Nat :=
  match x.endReason with
  | some r => r.code
  | none => 0

/-- The fields that begin a section (R151). -/
def headFields (s : State) (target stream part : Nat) : List (Nat × Nat × Nat) :=
  [(0, 1, target), (1, 1, stream), (2, 1, part), (8, 8, s.timebase.count.toNat)]

theorem capacity_eq (x : StreamContext) : x.capacity = 128 * x.pagesHeld := Nat.mul_comm _ _

theorem section0_of_unconfigured (hx : s.streams[i] = x) (hconfig : x.config = none) :
    HasLayout 64 (headFields s 0 i.val 0 ++
      [(3, 1, x.state.code), (4, 1, reasonField x), (17, 1, x.pagesHeld), (24, 2, 128 * x.pagesHeld)])
      (streamSection0 s i) := by
  unfold streamSection0
  simp only [hx, hconfig, capacity_eq]
  exact hasLayout_of_fields rfl rfl

theorem section0_of_configured {one : Bool → Nat} (hone : ∀ b : Bool, one b = if b = true then 1 else 0)
    (hx : s.streams[i] = x) {c : StreamConfig} (hconfig : x.config = some c) :
    HasLayout 64 (headFields s 0 i.val 0 ++
      [(3, 1, x.state.code), (4, 1, reasonField x), (5, 1, c.scanList.val), (6, 1, (s.scanLists[c.scanList]).length),
       (7, 1, c.generator.val), (16, 1, c.ring.val), (17, 1, x.pagesHeld),
       (18, 1, one c.slipPolicy.halts + 2 * one c.overrunPolicy.halts), (20, 2, c.passesPerBlock), (22, 2, c.depth),
       (24, 2, 128 * x.pagesHeld), (26, 2, 32 + 4 * c.passesPerBlock * (s.scanLists[c.scanList]).length),
       (28, 2, c.flushMs), (30, 1, c.start.code), (31, 1, c.start.lineField), (32, 1, c.stop.code),
       (33, 1, c.stop.lineField), (36, 4, c.stop.countField), (40, 8, c.start.timeField), (48, 8, c.stop.timeField)])
      (streamSection0 s i) := by
  obtain ⟨b0, b1, -⟩ := bit_eq hone
  have steps : s.stepsOf i = s.scanLists[c.scanList] := by rw [State.stepsOf, hx, hconfig]
  have size : s.maxBlockBytes i = 32 + 4 * c.passesPerBlock * (s.scanLists[c.scanList]).length := by
    rw [State.maxBlockBytes, hx, hconfig, steps]
    rfl
  have written : HasLayout 64 (headFields s 0 i.val 0 ++
      ([(3, 1, x.state.code), (4, 1, reasonField x), (17, 1, x.pagesHeld), (24, 2, 128 * x.pagesHeld)] ++
      [(5, 1, c.scanList.val), (6, 1, (s.scanLists[c.scanList]).length),
       (7, 1, c.generator.val), (16, 1, c.ring.val),
       (18, 1, one c.slipPolicy.halts + 2 * one c.overrunPolicy.halts), (20, 2, c.passesPerBlock), (22, 2, c.depth),
       (26, 2, 32 + 4 * c.passesPerBlock * (s.scanLists[c.scanList]).length),
       (28, 2, c.flushMs), (30, 1, c.start.code), (31, 1, c.start.lineField), (32, 1, c.stop.code),
       (33, 1, c.stop.lineField), (36, 4, c.stop.countField), (40, 8, c.start.timeField), (48, 8, c.stop.timeField)]))
      (streamSection0 s i) := by
    unfold streamSection0
    simp only [hx, hconfig, capacity_eq, configFields, steps, size, b0, b1]
    exact hasLayout_of_fields rfl rfl
  refine written.congr fun y => ?_
  simp only [List.mem_append, List.mem_cons, List.not_mem_nil, or_false]
  tauto

theorem section1_hasLayout {one : Bool → Nat} (hone : ∀ b : Bool, one b = if b = true then 1 else 0)
    (hx : s.streams[i] = x) :
    HasLayout 64 (headFields s 0 i.val 1 ++
      [(3, 1, one x.pass.isSome + 2 * one (s.writing i) + 4 * one (valueOr false (·.timer.isSome) (s.buffers[i]).head?)
         + 8 * one x.nextPass.isSome + 32 * (s.outboxes[i]).length),
       (4, 1, valueOr 0 (fun g => g.source.code + 16 * g.source.number) x.trigger),
       (5, 3, valueOr 0 (·.fill) (s.currentBuffer i)), (16, 8, valueOr 0 (·.time.toNat) x.trigger),
       (24, 4, (x.nextPass.getD 0).toNat), (28, 4, x.begun),
       (32, 4, x.totalCompleted), (36, 4, x.totalSlipped), (40, 4, x.totalDropped), (44, 4, x.nextSequence.toNat),
       (48, 2, x.slippedSince), (50, 2, x.droppedSince),
       (52, 2, (s.stepsOf i).length * (s.staging[i]).records.length), (54, 2, (s.staging[i]).closed.length),
       (56, 4, valueOr 0 (·.tag.toNat) (s.currentBuffer i)), (60, 2, valueOr 0 (fun d => min d.blocks 65535) (s.currentBuffer i)),
       (62, 1, valueOr 0 (·.step) x.pass), (63, 1, (s.buffers[i]).length)]) (streamSection1 s i) := by
  obtain ⟨b0, b1, b2, b3, -⟩ := bit_eq hone
  unfold streamSection1
  dsimp only
  rw [hx, b0, b1, b2, b3]
  refine hasLayout_of_fields ?_ rfl
  cases x.trigger <;> cases x.pass <;> cases s.currentBuffer i <;> cases (s.buffers[i]).head? <;> rfl

theorem currentBuffer_of_empty (h : ∀ d rest, s.buffers[i] = d :: rest → d.blocks = 0) : s.currentBuffer i = none := by
  unfold State.currentBuffer
  cases hb : s.buffers[i] with
  | nil => rfl
  | cons d rest => simp [Descriptor.isCurrent, h d rest hb, Option.filter]

theorem currentBuffer_of_blocks {d : Descriptor} {rest : List Descriptor} (hb : s.buffers[i] = d :: rest)
    (h : 0 < d.blocks) : s.currentBuffer i = some d := by
  simp [State.currentBuffer, hb, Descriptor.isCurrent, h, Option.filter]

end

/-! ### PART sections -/

/-- The time that a waiting fire waits for, 0 where none waits (Table 12-11). -/
def Fire.waitsFor : Fire → Nat
  | .waiting time => time.toNat
  | .absent | .driving _ => 0

section
variable {s : State} {one : Bool → Nat} (hone : ∀ b : Bool, one b = if b = true then 1 else 0)
include hone

theorem lineBits_eq (s : State) (f : Line → Bool) :
    lineBits s f = one (f s.lines[0]) + 2 * one (f s.lines[1]) + 4 * one (f s.lines[2]) + 8 * one (f s.lines[3]) := by
  obtain ⟨b0, b1, b2, b3, -⟩ := bit_eq hone
  rw [lineBits, b0, b1, b2, b3]

theorem part0_hasLayout (s : State) :
    HasLayout 64 (headFields s 1 0 0 ++
      [(3, 1, s.orders.work.code), (4, 1, s.freePages), (5, 1, valueOr 8 (·.stream.val) s.writeInFlight),
       (6, 1, s.grantPointer.val), (7, 1, s.timebase.role.code), (16, 2, s.orders.head), (18, 2, s.orders.tail),
       (20, 1, one s.timebase.arm.isSome), (21, 1, s.timebase.fire.code), (22, 1, holdCode s.timebase.hold),
       (23, 1, one s.syncHigh + 2 * one s.timebase.fire.drives), (24, 4, valueOr 0 (·.timeoutMs) s.timebase.arm),
       (28, 4, valueOr 0 (fun a => msLeft s.elapsed a) s.timebase.arm), (32, 8, valueOr 0 (·.preset.toNat) s.timebase.arm),
       (40, 8, s.timebase.fire.waitsFor), (48, 1, lineBits s (fun l => l.polarity == .activeLow)),
       (49, 1, lineBits s (·.high)), (50, 1, lineBits s (·.active)), (51, 1, s.alertLevel.val)]) (partSection0 s) := by
  obtain ⟨b0, b1, -⟩ := bit_eq hone
  unfold partSection0
  dsimp only
  rw [b0, b0, b1]
  refine hasLayout_of_fields ?_ rfl
  cases s.writeInFlight <;> cases s.timebase.arm <;> cases s.timebase.fire <;> rfl

/-- The fields of a generator entry (Table 12-12). -/
def generatorEntry (g : Generator) (o : Nat) : List (Nat × Nat × Nat) :=
  [(o, 1, g.state.code), (o + 1, 1, g.source.code), (o + 2, 1, gateCode g.gate), (o + 3, 1, g.mode.code),
   (o + 4, 4, g.prescale), (o + 8, 4, g.divide), (o + 12, 4, g.burst), (o + 16, 2, g.prescaleCount),
   (o + 18, 2, g.divideCount), (o + 20, 4, g.ticks)]

/-- The fields of a window entry (Table 12-12). -/
def windowEntry (one : Bool → Nat) (w : Window) (o : Nat) : List (Nat × Nat × Nat) :=
  [(o, 1, one w.enabled), (o + 1, 1, w.use.code), (o + 8, 8, w.base.toNat), (o + 16, 8, w.mask.toNat)]

/-- The fields of a watch entry (Table 12-12). -/
def watchEntry (one : Bool → Nat) (w : Watch) (o : Nat) : List (Nat × Nat × Nat) :=
  [(o, 1, one w.enabled + 2 * one w.note + 4 * one w.wait.isSome + 8 * w.state.code + 32 * w.runSide.code),
   (o + 1, 1, w.channel.val + 32 * w.ring.val), (o + 2, 1, filterCode w.filter + 16 * (w.persistence - 1)),
   (o + 3, 1, w.action.code + 32 * w.alert.val), (o + 4, 2, w.low.toNat), (o + 6, 2, w.high.toNat),
   (o + 8, 2, w.hysteresis + 4096 * w.runCount), (o + 10, 2, w.lost)]

omit hone in
theorem pace_hasLayout (part : Nat) (a b : Generator) :
    HasLayout 64 (headFields s 1 0 part ++ generatorEntry a 16 ++ generatorEntry b 40)
      (layout 64 (sectionHead 1 0 part s.timebase.count ++ generatorFields a 16 ++ generatorFields b 40)) :=
  hasLayout_of_fields rfl rfl

theorem window_hasLayout (part : Nat) (a b : Window) :
    HasLayout 64 (headFields s 1 0 part ++ windowEntry one a 16 ++ windowEntry one b 40)
      (layout 64 (sectionHead 1 0 part s.timebase.count ++ windowFields a 16 ++ windowFields b 40)) := by
  obtain ⟨b0, -⟩ := bit_eq hone
  unfold windowFields
  rw [b0, b0]
  exact hasLayout_of_fields rfl rfl

theorem watch_hasLayout (part : Nat) (a b c d : Watch) :
    HasLayout 64 (headFields s 1 0 part ++ watchEntry one a 16 ++ watchEntry one b 28 ++ watchEntry one c 40 ++
        watchEntry one d 52)
      (layout 64 (sectionHead 1 0 part s.timebase.count ++ watchFields a 16 ++ watchFields b 28 ++ watchFields c 40 ++
        watchFields d 52)) := by
  obtain ⟨b0, b1, b2, -⟩ := bit_eq hone
  unfold watchFields
  simp only [b0, b1, b2]
  exact hasLayout_of_fields rfl rfl

end

/-- Settles O53: section by section, the values where they are present and that no two fields overlap. -/
theorem statusSectionLayout : Obligations.StatusSectionLayout := by
  refine ⟨⟨rfl, rfl, rfl, fun n t => rfl, fun n k t => rfl, fun n m => rfl, fun issued o l => rfl, rfl, fun t e => rfl, rfl,
    fun l => ?_, rfl, fun n => ⟨rfl, rfl⟩, rfl, rfl, rfl, rfl, fun i => ⟨rfl, ?_⟩⟩, fun s one head hone hhead => ⟨?_, ?_, ?_, ?_⟩⟩
  · unfold Line.active
    cases l.polarity <;> simp
  · simp [WatchAction.code, Nat.add_comm]
  all_goals
    obtain rfl : head = headFields s := by funext a b c; exact hhead a b c
  · intro i x reason hx hreason
    have reasonEq : reason = reasonField x := by
      rw [hreason, reasonField]
      cases x.endReason <;> rfl
    rw [reasonEq]
    refine ⟨fun hconfig => ⟨_, statusSection_config s i, section0_of_unconfigured hx hconfig⟩,
      fun c hconfig => ⟨_, statusSection_config s i, section0_of_configured hone hx hconfig⟩,
      fun source fill tag blocks step time next timer htrigger htriggered hnext hnexts hpass hpasses hempty hcurrent htimer =>
        ⟨_, statusSection_run s i, ?_⟩⟩
    have timerRuns : timer = valueOr false (·.timer.isSome) (s.buffers[i]).head? := by
      rw [Bool.eq_iff_iff, htimer]
      cases hb : s.buffers[i] with
      | nil => simp [valueOr]
      | cons d rest => simp [valueOr, Option.isSome_iff_ne_none]
    have trigger : source = valueOr 0 (fun g => g.source.code + 16 * g.source.number) x.trigger ∧
        time.toNat = valueOr 0 (·.time.toNat) x.trigger := by
      cases hg : x.trigger with
      | none => exact ⟨(htrigger hg).1, congrArg BitVec.toNat (htrigger hg).2⟩
      | some g => exact ⟨(htriggered g hg).1, congrArg BitVec.toNat (htriggered g hg).2⟩
    have number : next = x.nextPass.getD 0 := by
      cases hn : x.nextPass with
      | none => exact hnext hn
      | some n => exact hnexts n hn
    have walked : step = valueOr 0 (·.step) x.pass := by
      cases hp : x.pass with
      | none => exact hpass hp
      | some p => exact hpasses p hp
    have current : fill = valueOr 0 (·.fill) (s.currentBuffer i) ∧ tag = valueOr 0 (·.tag.toNat) (s.currentBuffer i) ∧
        blocks = valueOr 0 (fun d => min d.blocks 65535) (s.currentBuffer i) := by
      by_cases h : ∀ d rest, s.buffers[i] = d :: rest → d.blocks = 0
      · rw [currentBuffer_of_empty h]
        exact hempty h
      · push Not at h
        obtain ⟨d, rest, hb, hblocks⟩ := h
        have pos := Nat.pos_of_ne_zero hblocks
        rw [currentBuffer_of_blocks hb pos]
        exact hcurrent d rest hb pos
    obtain ⟨hsource, htime⟩ := trigger
    obtain ⟨hfill, htag, hblocks⟩ := current
    rw [timerRuns, hsource, htime, number, walked, hfill, htag, hblocks]
    exact section1_hasLayout hone hx
  · intro any writing timeout left hold preset fireAt lines hfree hwriting hunarmed harmed hnofire hfire hnohold hhold hlines
      hheld
    refine ⟨_, statusSection_part any 0 rfl, ?_⟩
    have writes : writing = valueOr 8 (·.stream.val) s.writeInFlight := by
      cases hw : s.writeInFlight with
      | none => exact hfree hw
      | some w => exact hwriting w hw
    have arm : timeout = valueOr 0 (·.timeoutMs) s.timebase.arm ∧ left = valueOr 0 (fun a => msLeft s.elapsed a) s.timebase.arm ∧
        preset.toNat = valueOr 0 (·.preset.toNat) s.timebase.arm := by
      cases ha : s.timebase.arm with
      | none =>
        obtain ⟨htimeout, hleft, hpreset⟩ := hunarmed ha
        exact ⟨htimeout, hleft, congrArg BitVec.toNat hpreset⟩
      | some a =>
        obtain ⟨htimeout, hpreset, hnone, hsome⟩ := harmed a ha
        refine ⟨htimeout, ?_, congrArg BitVec.toNat hpreset⟩
        show left = msLeft s.elapsed a
        unfold msLeft
        cases he : a.expiry with
        | none => exact hnone he
        | some e => exact hsome e he
    have fire : fireAt.toNat = s.timebase.fire.waitsFor := by
      cases hf : s.timebase.fire with
      | waiting T => exact congrArg BitVec.toNat (hfire T hf)
      | absent => exact congrArg BitVec.toNat (hnofire fun T h => by rw [hf] at h; cases h)
      | driving e => exact congrArg BitVec.toNat (hnofire fun T h => by rw [hf] at h; cases h)
    have held : hold = holdCode s.timebase.hold := by
      obtain hnone | ⟨e, role, ms, p, count, hrecord⟩ := hheld
      · rw [hnone]
        exact hnohold hnone
      · rw [hrecord]
        exact hhold e role ms p count hrecord
    have bits (f : Line → Bool) : lines (fun n => f s.lines[n]) = lineBits s f :=
      (hlines _).trans (lineBits_eq hone s f).symm
    obtain ⟨htimeout, hleft, hpreset⟩ := arm
    rw [writes, htimeout, hleft, hpreset, fire, held, bits (fun l => l.polarity == .activeLow), bits (·.high), bits (·.active)]
    exact part0_hasLayout hone s
  · intro any pace window hpace hwindow
    obtain rfl : pace = fun n o => generatorEntry s.generators[n] o := by funext n o; exact hpace n o _ rfl
    obtain rfl : window = fun n o => windowEntry one s.windows[n] o := by funext n o; exact hwindow n o _ rfl
    exact ⟨⟨_, statusSection_part any 1 rfl, pace_hasLayout 1 _ _⟩, ⟨_, statusSection_part any 2 rfl, pace_hasLayout 2 _ _⟩,
      ⟨_, statusSection_part any 3 rfl, window_hasLayout hone 3 _ _⟩,
      ⟨_, statusSection_part any 4 rfl, window_hasLayout hone 4 _ _⟩⟩
  · intro any watch hwatch
    obtain rfl : watch = fun n o => watchEntry one s.watches[n] o := by funext n o; exact hwatch n o _ rfl
    exact ⟨⟨_, statusSection_part any 5 rfl, watch_hasLayout hone 5 _ _ _ _⟩,
      ⟨_, statusSection_part any 6 rfl, watch_hasLayout hone 6 _ _ _ _⟩,
      ⟨_, statusSection_part any 7 rfl, watch_hasLayout hone 7 _ _ _ _⟩,
      ⟨_, statusSection_part any 8 rfl, watch_hasLayout hone 8 _ _ _ _⟩⟩

end Sys2Proof.Machine
end


-- ==== Sys2Proof/Proofs/StreamEndings.lean ====
section
/-!
PROOFS. Proofs/StreamEndings.lean: the orders that start, stop and abort a stream (01_streams.md sections 1.5, 1.7 and 1.10)
and what the shared endings of an arming leave. `RecordsOnly s t` says that two states differ in records at most: every
ending is a plain change of the stream's own banks, up to the record that joins.
-/

namespace Sys2Proof.Machine

variable {i : StreamId} {s t u : State}

/-! ### States that differ in records only -/

/-- The rings, the outboxes, the output and the model's list of streams that became eligible may differ. -/
def RecordsOnly (s t : State) : Prop :=
  ∃ R B O be, t = { s with rings := R, bus := B, outboxes := O, becameEligible := be }

theorem RecordsOnly.refl (s : State) : RecordsOnly s s := ⟨_, _, _, _, rfl⟩

theorem RecordsOnly.symm (h : RecordsOnly s t) : RecordsOnly t s := by
  obtain ⟨_, _, _, _, rfl⟩ := h
  exact ⟨s.rings, s.bus, s.outboxes, s.becameEligible, rfl⟩

theorem RecordsOnly.trans (h : RecordsOnly s t) (k : RecordsOnly t u) : RecordsOnly s u := by
  obtain ⟨_, _, _, _, rfl⟩ := h
  obtain ⟨_, _, _, _, rfl⟩ := k
  exact ⟨_, _, _, _, rfl⟩

theorem RecordsOnly.streams (h : RecordsOnly s t) : t.streams = s.streams := by
  obtain ⟨_, _, _, _, rfl⟩ := h
  rfl

theorem RecordsOnly.staging (h : RecordsOnly s t) : t.staging = s.staging := by
  obtain ⟨_, _, _, _, rfl⟩ := h
  rfl

theorem RecordsOnly.buffers (h : RecordsOnly s t) : t.buffers = s.buffers := by
  obtain ⟨_, _, _, _, rfl⟩ := h
  rfl

theorem RecordsOnly.converters (h : RecordsOnly s t) : t.converters = s.converters := by
  obtain ⟨_, _, _, _, rfl⟩ := h
  rfl

theorem RecordsOnly.writing (h : RecordsOnly s t) (i : StreamId) : t.writing i = s.writing i := by
  obtain ⟨_, _, _, _, rfl⟩ := h
  rfl

theorem RecordsOnly.modStream (h : RecordsOnly s t) (i : StreamId) (f : StreamContext → StreamContext) :
    RecordsOnly (s.modStream i f) (t.modStream i f) := by
  obtain ⟨_, _, _, _, rfl⟩ := h
  exact ⟨_, _, _, _, rfl⟩

theorem RecordsOnly.modStaging (h : RecordsOnly s t) (i : StreamId) (f : Staging → Staging) :
    RecordsOnly (s.modStaging i f) (t.modStaging i f) := by
  obtain ⟨_, _, _, _, rfl⟩ := h
  exact ⟨_, _, _, _, rfl⟩

theorem RecordsOnly.modBuffers (h : RecordsOnly s t) (i : StreamId) (f : List Descriptor → List Descriptor) :
    RecordsOnly (s.modBuffers i f) (t.modBuffers i f) := by
  obtain ⟨_, _, _, _, rfl⟩ := h
  exact ⟨_, _, _, _, rfl⟩

theorem joinOutbox_recordsOnly (i : StreamId) (record : Record) (s : State) : RecordsOnly s (joinOutbox i record s) := by
  obtain ⟨R, B, O, e⟩ := joinOutbox_frame i record s
  exact ⟨R, B, O, s.becameEligible, e⟩

theorem streamRecord_recordsOnly (i : StreamId) (event : StreamEvent) (s : State) :
    RecordsOnly s (streamRecord i event s) := joinOutbox_recordsOnly i _ s

theorem noteEligible_recordsOnly (i : StreamId) (s t : State) : RecordsOnly t (noteEligible i s t) := by
  rw [noteEligible_eq]
  exact ⟨_, _, _, _, rfl⟩

/-! ### The endings up to records -/

/-- A buffer queue after its current buffer, if one is open, has left (R81). -/
def dropCurrent : List Descriptor → List Descriptor
  | [] => []
  | d :: rest => if d.blocks = 0 then d :: rest else rest

theorem currentBuffer_of_cons {d : Descriptor} {rest : List Descriptor} (h : s.buffers[i] = d :: rest) :
    s.currentBuffer i = if d.blocks = 0 then none else some d := by
  unfold State.currentBuffer Descriptor.isCurrent
  rw [h]
  by_cases hd : d.blocks = 0 <;> simp [hd, Nat.pos_iff_ne_zero]

theorem upd_congr {α : Type} {n : Nat} {v : Vector α n} {i : Fin n} {f g : α → α} (h : f v[i] = g v[i]) :
    upd v i f = upd v i g := by
  apply bank_ext
  intro j
  by_cases e : j = i
  · subst e
    rw [upd_same, upd_same, h]
  · rw [upd_other _ _ e, upd_other _ _ e]

theorem upd_fixed {α : Type} {n : Nat} {v : Vector α n} {i : Fin n} {f : α → α} (h : f v[i] = v[i]) : upd v i f = v := by
  apply bank_ext
  intro j
  by_cases e : j = i
  · subst e
    rw [upd_same, h]
  · exact upd_other _ _ e

theorem recordsOnly_of_upd_buffers {B : Vector (List Descriptor) 8} (h : s.buffers = B) : RecordsOnly { s with buffers := B } s :=
  ⟨s.rings, s.bus, s.outboxes, s.becameEligible, by rw [← h]⟩

theorem completeBuffer_recordsOnly (i : StreamId) (flags : BufferFlags) (s : State) :
    RecordsOnly (s.modBuffers i List.tail) (completeBuffer i flags s) := by
  unfold completeBuffer
  split
  · next h => exact recordsOnly_of_upd_buffers (upd_fixed (by rw [h]; rfl)).symm
  · next d rest h =>
    rw [State.modBuffers, upd_congr (g := fun _ => rest) (by rw [h]; rfl)]
    exact joinOutbox_recordsOnly i _ _

theorem completeCurrent_recordsOnly (i : StreamId) (flags : BufferFlags) (s : State) :
    RecordsOnly (s.modBuffers i dropCurrent) (completeCurrent i flags s) := by
  unfold completeCurrent
  cases h : s.buffers[i] with
  | nil =>
    have hc : s.currentBuffer i = none := by
      unfold State.currentBuffer
      rw [h]
      rfl
    rw [hc]
    exact recordsOnly_of_upd_buffers (upd_fixed (by rw [h]; rfl)).symm
  | cons d rest =>
    rw [currentBuffer_of_cons h]
    by_cases hd : d.blocks = 0
    · rw [if_pos hd]
      exact recordsOnly_of_upd_buffers (upd_fixed (by rw [h, dropCurrent, if_pos hd])).symm
    · rw [if_neg hd, State.modBuffers, upd_congr (g := List.tail) (by rw [h, dropCurrent, if_neg hd]; rfl)]
      exact completeBuffer_recordsOnly i flags s

theorem endStream_recordsOnly (i : StreamId) (reason : EndReason) (s : State) :
    RecordsOnly (s.modStream i (fun x => { x with state := .idle, endReason := some reason })) (endStream i reason s) :=
  streamRecord_recordsOnly i _ _

/-- Endings that begin alike end alike. -/
theorem RecordsOnly.endStream (h : RecordsOnly s t) (i : StreamId) (reason : EndReason) :
    RecordsOnly (s.modStream i (fun x => { x with state := .idle, endReason := some reason })) (endStream i reason t) :=
  (h.modStream i _).trans (endStream_recordsOnly i reason t)

theorem RecordsOnly.completeCurrent (h : RecordsOnly s t) (i : StreamId) (flags : BufferFlags) :
    RecordsOnly (s.modBuffers i dropCurrent) (completeCurrent i flags t) :=
  (h.modBuffers i _).trans (completeCurrent_recordsOnly i flags t)

/-- The drain-end mark depends on no record (R71). -/
theorem RecordsOnly.drainEndMark (h : RecordsOnly s t) (i : StreamId) :
    RecordsOnly (drainEndMark i s) (drainEndMark i t) := by
  obtain ⟨_, _, _, _, rfl⟩ := h
  unfold Machine.drainEndMark clearSlips
  dsimp only
  split
  · exact ⟨_, _, _, _, rfl⟩
  · exact ⟨_, _, _, _, rfl⟩

/-! ### When a drain completes -/

theorem drainComplete_of_left
    (h : (s.streams[i]).pass ≠ none ∨ s.staging[i] ≠ Staging.empty ∨ s.writing i = true) : drainComplete i s = s := by
  refine if_neg ?_
  rintro ⟨_, _, hpass, hempty, hwriting⟩
  rcases h with h | h | h
  · exact h hpass
  · refine h ?_
    unfold Staging.isEmpty at hempty
    simp only [Bool.and_eq_true, List.isEmpty_iff] at hempty
    cases hq : s.staging[i]
    simp_all [Staging.empty]
  · simp [h] at hwriting

theorem drainComplete_of_nothing_left {reason : EndReason} (hstate : (s.streams[i]).state = .draining)
    (hend : (s.streams[i]).endReason = some reason) (hreason : reason ≠ .aborted) (hpass : (s.streams[i]).pass = none)
    (hempty : s.staging[i] = Staging.empty) (hwriting : s.writing i = false) :
    drainComplete i s = endStream i reason (completeCurrent i { final := true } s) := by
  have hfast : (s.streams[i]).fastDrain = false := by
    unfold StreamContext.fastDrain
    rw [hend]
    simp [hreason]
  unfold drainComplete
  dsimp only
  rw [if_pos ⟨hstate, hfast, hpass, by rw [hempty]; rfl, hwriting⟩, hend]

theorem drainEndMark_of_forming {e : PassRecord} {l : List PassRecord} (h : (s.staging[i]).forming = e :: l) :
    drainEndMark i s = (s.modStaging i (fun _ =>
      ⟨(s.staging[i]).closed ++ [⟨e :: l, (s.streams[i]).slippedSince, true, true, false⟩], []⟩)).modStream i
        (fun x => { x with slippedSince := 0 }) := by
  unfold drainEndMark clearSlips
  rw [h]
  refine congrArg (fun v => State.modStream { s with staging := v } i _) (upd_congr ?_)
  unfold Staging.drainEnd Staging.close
  rw [h]
  rfl

theorem drainEndMark_of_none (h : (s.staging[i]).forming = []) :
    drainEndMark i s = s.modStaging i (fun q => { q with closed := markNewestFinal q.closed }) := by
  unfold drainEndMark clearSlips
  rw [h]
  refine congrArg (fun v => { s with staging := v }) (upd_congr ?_)
  unfold Staging.drainEnd
  rw [h]

theorem markNewestFinal_append (l : List Block) (b : Block) :
    markNewestFinal (l ++ [b]) = l ++ [if b.writing = true then b else { b with final := true }] := by
  induction l with
  | nil => rfl
  | cons c l ih =>
    cases l with
    | nil => rfl
    | cons d l => exact congrArg (c :: ·) ih

/-! ### Draining -/

theorem enterDraining_of_pass (reason : EndReason) (h : (s.streams[i]).pass ≠ none) :
    enterDraining i reason s = noteEligible i s (streamRecord i (.draining reason (s.streams[i]).begun)
      (s.modStream i (fun x => { x with state := .draining, endReason := some reason }))) := by
  unfold enterDraining
  dsimp only
  rw [if_neg (by rwa [Option.isNone_iff_eq_none])]

theorem enterDraining_of_no_pass (reason : EndReason) (h : (s.streams[i]).pass = none) :
    enterDraining i reason s = noteEligible i s (drainComplete i (drainEndMark i
      (streamRecord i (.draining reason (s.streams[i]).begun)
        (s.modStream i (fun x => { x with state := .draining, endReason := some reason }))))) := by
  unfold enterDraining
  dsimp only
  rw [if_pos (by rw [h]; rfl)]

theorem enterDraining_walks (reason : EndReason) (h : (s.streams[i]).pass ≠ none) :
    RecordsOnly (s.modStream i (fun x => { x with state := .draining, endReason := some reason }))
      (enterDraining i reason s) := by
  rw [enterDraining_of_pass reason h]
  exact (streamRecord_recordsOnly i _ _).trans (noteEligible_recordsOnly i s _)

/-- Up to records, a stream without a pass that drains is marked and may be complete (R20, R21, R71). -/
theorem marked_recordsOnly (i : StreamId) (reason : EndReason) (s : State) :
    RecordsOnly (drainEndMark i (s.modStream i (fun x => { x with state := .draining, endReason := some reason })))
      (drainEndMark i (streamRecord i (.draining reason (s.streams[i]).begun)
        (s.modStream i (fun x => { x with state := .draining, endReason := some reason })))) :=
  (streamRecord_recordsOnly i _ _).drainEndMark i

theorem drainEndMark_left (h : s.staging[i] ≠ Staging.empty) : (drainEndMark i s).staging[i] ≠ Staging.empty := by
  cases hf : (s.staging[i]).forming with
  | cons e l =>
    rw [drainEndMark_of_forming hf, State.modStream_staging, State.modStaging_staging, upd_same]
    exact fun hq => by simpa [Staging.empty] using congrArg Staging.closed hq
  | nil =>
    rw [drainEndMark_of_none hf, State.modStaging_staging, upd_same]
    rcases List.eq_nil_or_concat (s.staging[i]).closed with hc | ⟨l, b, hc⟩
    · refine absurd ?_ h
      cases hq : s.staging[i]
      simp_all [Staging.empty]
    · rw [hc, List.concat_eq_append, markNewestFinal_append]
      exact fun hq => by simpa [Staging.empty] using congrArg Staging.closed hq

theorem drainEndMark_writing (i j : StreamId) (s : State) : (drainEndMark i s).writing j = s.writing j := by
  rw [(drainEndMark_aside (i := i) (s := s)).eq]
  rfl

/-- A stream without a pass stays DRAINING while something is staged or in flight (R21). -/
theorem enterDraining_waits (reason : EndReason) (h : (s.streams[i]).pass = none)
    (hleft : s.staging[i] ≠ Staging.empty ∨ s.writing i = true) :
    RecordsOnly (drainEndMark i (s.modStream i (fun x => { x with state := .draining, endReason := some reason })))
      (enterDraining i reason s) := by
  have hm := marked_recordsOnly i reason s
  rw [enterDraining_of_no_pass reason h, drainComplete_of_left (.inr (hleft.imp ?_ ?_))]
  · exact hm.trans (noteEligible_recordsOnly i s _)
  · intro hstaged
    rw [hm.staging]
    exact drainEndMark_left (s := s.modStream i _) hstaged
  · intro hwriting
    rw [hm.writing, drainEndMark_writing]
    exact hwriting

theorem marked_of_empty (reason : EndReason) (hempty : s.staging[i] = Staging.empty) :
    RecordsOnly (s.modStream i (fun x => { x with state := .draining, endReason := some reason }))
      (drainEndMark i (streamRecord i (.draining reason (s.streams[i]).begun)
        (s.modStream i (fun x => { x with state := .draining, endReason := some reason })))) := by
  have hm := marked_recordsOnly i reason s
  rw [drainEndMark_of_none (s := s.modStream i _) (by rw [State.modStream_staging, hempty]; rfl), State.modStaging,
    upd_fixed (by rw [State.modStream_staging, hempty]; rfl)] at hm
  exact hm

theorem enterDraining_of_nothing_left {reason : EndReason} (hpass : (s.streams[i]).pass = none)
    (hempty : s.staging[i] = Staging.empty) (hwriting : s.writing i = false) (hreason : reason ≠ .aborted) :
    enterDraining i reason s = noteEligible i s (endStream i reason (completeCurrent i { final := true }
      (drainEndMark i (streamRecord i (.draining reason (s.streams[i]).begun)
        (s.modStream i (fun x => { x with state := .draining, endReason := some reason })))))) := by
  have hm := marked_of_empty reason hempty
  have hx := congrArg (fun v : Vector StreamContext 8 => v[i]) hm.streams
  simp only [State.modStream_streams, upd_same] at hx
  rw [enterDraining_of_no_pass reason hpass, drainComplete_of_nothing_left (reason := reason) (by rw [hx]) (by rw [hx]) hreason
    (by rw [hx]; exact hpass) (by rw [hm.staging]; exact hempty) (by rw [hm.writing]; exact hwriting)]

/-- A stream with nothing in progress, staged or in flight ends as it drains (R21). -/
theorem enterDraining_ends {reason : EndReason} (hpass : (s.streams[i]).pass = none)
    (hempty : s.staging[i] = Staging.empty) (hwriting : s.writing i = false) (hreason : reason ≠ .aborted) :
    RecordsOnly (((s.modStream i (fun x => { x with state := .draining, endReason := some reason })).modBuffers i
        dropCurrent).modStream i (fun x => { x with state := .idle, endReason := some reason }))
      (enterDraining i reason s) := by
  rw [enterDraining_of_nothing_left hpass hempty hwriting hreason]
  exact (((marked_of_empty reason hempty).completeCurrent i _).endStream i reason).trans (noteEligible_recordsOnly i s _)

/-! ### The two aborts and the end of an ARMED stream -/

theorem endArmed_recordsOnly (i : StreamId) (reason : EndReason) (s : State) :
    RecordsOnly ((withdrawPass i (s.modStaging i (fun _ => Staging.empty))).modStream i
      (fun x => { x with state := .idle, endReason := some reason })) (endArmed i reason s) :=
  endStream_recordsOnly i reason _

theorem abortNow_recordsOnly (i : StreamId) (s : State) :
    RecordsOnly (((withdrawPass i (s.modStaging i (fun _ => Staging.empty))).modBuffers i dropCurrent).modStream i
      (fun x => { x with state := .idle, endReason := some .aborted })) (abortNow i s) :=
  (completeCurrent_recordsOnly i _ _).endStream i .aborted

theorem abortFast_recordsOnly (i : StreamId) (s : State) :
    RecordsOnly ((modHead i (fun d => { d with timer := none, flushDue := false })
      (withdrawPass i (s.modStaging i Staging.keepWriting))).modStream i
        (fun x => { x with state := .draining, endReason := some .aborted })) (abortFast i s) := by
  unfold abortFast
  dsimp only
  split
  · exact streamRecord_recordsOnly i _ _
  · exact RecordsOnly.refl _

theorem keepWriting_records (q : Staging) :
    q.keepWriting.records = ((q.closed.take 1).filter (·.writing)).flatMap (·.records) := by
  unfold Staging.keepWriting
  cases q.closed with
  | nil => rfl
  | cons b l =>
    cases hb : b.writing with
    | true => simp [Staging.records, hb]
    | false => simp [Staging.records, Staging.empty, hb]

theorem dropCurrent_cons (d : Descriptor) (rest : List Descriptor) :
    dropCurrent (d :: rest) = if d.blocks = 0 then d :: rest else rest := rfl

/-- Settles O20. -/
theorem endingsOfAnArming : Obligations.EndingsOfAnArming := by
  refine ⟨fun i reason s t h => ?_, fun i reason s t h hpass => ?_, fun i reason s t h hpass hempty hwriting hreason => ?_,
    fun i reason s t h hpass => ⟨fun e l hforming => ?_, fun l b hforming hclosed => ?_⟩⟩
  · have hr := endArmed_recordsOnly i reason s
    rw [h] at hr
    refine ⟨?_, ?_, fun c => ?_, fun j hj => ⟨?_, ?_⟩⟩
    · rw [hr.streams, State.modStream_streams, upd_same, withdrawPass, State.modStream_streams, upd_same]
      rfl
    · rw [hr.staging]
      exact upd_same _ _ _
    · have hc : t.converters[c] = (s.converters[c]).withdraw i := by
        rw [hr.converters]
        exact mapAll_get _ _ _ _
      rw [hc]
      exact ⟨upd_same _ _ _, fun j hj => upd_other _ _ hj, rfl, rfl, rfl⟩
    · rw [hr.streams]
      exact (upd_other _ _ hj).trans (upd_other _ _ hj)
    · rw [hr.staging]
      exact upd_other _ _ hj
  · have hr := enterDraining_walks reason hpass
    rw [h] at hr
    exact ⟨by rw [hr.streams]; exact upd_same _ _ _, hr.staging, hr.converters⟩
  · have hr := enterDraining_ends hpass hempty hwriting hreason
    rw [h] at hr
    refine ⟨?_, fun d rest hd => ?_⟩
    · rw [hr.streams, State.modStream_streams, upd_same, State.modBuffers_streams, State.modStream_streams, upd_same]
    · rw [hr.buffers]
      refine (upd_same _ _ _).trans ?_
      rw [State.modStream_buffers, hd, dropCurrent_cons]
  · have hr := enterDraining_waits reason hpass (.inl fun hq => by rw [hq] at hforming; cases hforming)
    rw [h, drainEndMark_of_forming (s := s.modStream i _) hforming] at hr
    refine ⟨?_, ?_, hr.buffers⟩
    · rw [hr.streams, State.modStream_streams, upd_same, State.modStaging_streams, State.modStream_streams, upd_same]
    · rw [hr.staging, State.modStream_staging, State.modStaging_staging, upd_same, State.modStream_streams, upd_same]
      rfl
  · have hr := enterDraining_waits reason hpass (.inl fun hq => by rw [hq] at hclosed; simp [Staging.empty] at hclosed)
    rw [h, drainEndMark_of_none (s := s.modStream i _) hforming] at hr
    refine ⟨?_, ?_, hr.buffers⟩
    · rw [hr.streams]
      exact upd_same _ _ _
    · rw [hr.staging, State.modStaging_staging, upd_same, State.modStream_staging, hclosed, markNewestFinal_append, hforming]

/-! ### The orders -/

theorem abortRun_of_run (hstate : (s.streams[i]).state = .running ∨
      ((s.streams[i]).state = .draining ∧ (s.streams[i]).endReason ≠ some .aborted)) :
    abortRun i s = if s.writing i = true then abortFast i s else abortNow i s := by
  have hfast : (s.streams[i]).fastDrain = false := by
    unfold StreamContext.fastDrain
    rcases hstate with h | ⟨_, h⟩
    · rw [h]
      rfl
    · simpa using fun _ => h
  unfold abortRun
  rw [hfast]
  rfl

theorem abortRun_of_fastDrain (hstate : (s.streams[i]).state = .draining)
    (hend : (s.streams[i]).endReason = some .aborted) : abortRun i s = s := by
  unfold abortRun StreamContext.fastDrain
  rw [hstate, hend]
  rfl

theorem abortOwner_of_active (h : (s.streams[i]).state = .running ∨ (s.streams[i]).state = .draining) :
    abortOwner i s = accept (abortRun i s) := by
  unfold abortOwner
  rcases h with h | h <;> rw [h]

theorem abortOwner_of_armed (h : (s.streams[i]).state = .armed) : abortOwner i s = accept (endArmed i .aborted s) := by
  unfold abortOwner
  rw [h]

theorem abortOwner_of_inactive (h : (s.streams[i]).state.active = false) : abortOwner i s = refuse s .wrongState 0 := by
  unfold abortOwner
  cases hs : (s.streams[i]).state with
  | unconfigured | idle | faulted => rfl
  | armed | running | draining =>
    rw [hs] at h
    cases h

theorem stopOwner_of_armed (h : (s.streams[i]).state = .armed) : stopOwner i s = accept (endArmed i .untriggered s) := by
  unfold stopOwner
  rw [h]

theorem stopOwner_of_running (h : (s.streams[i]).state = .running) :
    stopOwner i s = accept (enterDraining i .stopOrder s) := by
  unfold stopOwner
  rw [h]

theorem stopOwner_of_neither (harmed : (s.streams[i]).state ≠ .armed) (hrunning : (s.streams[i]).state ≠ .running) :
    stopOwner i s = refuse s .wrongState 0 := by
  unfold stopOwner
  cases hs : (s.streams[i]).state with
  | unconfigured | idle | draining | faulted => rfl
  | armed => exact absurd hs harmed
  | running => exact absurd hs hrunning

/-- An order to one stream is decided by that stream's owner. -/
theorem onStream_of_owner {owner : StreamId → State → Answer} {x : Answer} (e : owner i s = x) :
    onStream (byteOf i) owner s = x := by
  rw [onStream_byteOf]
  exact e

theorem modHead_cons {d : Descriptor} {rest : List Descriptor} (h : s.buffers[i] = d :: rest)
    (f : Descriptor → Descriptor) : (modHead i f s).buffers[i] = f d :: rest := by
  unfold modHead
  rw [State.modBuffers_buffers, upd_same, h]

/-- Settles O18. -/
theorem startStopAndAbort : Obligations.StartStopAndAbort := by
  refine ⟨fun h s hs => ⟨fun b hb => ⟨?_, ?_⟩, fun i => ⟨fun ha => ?_, fun ha => ?_, fun ha => ?_, fun ha => ?_, fun ha hr => ?_⟩⟩,
    fun h s hs => ⟨fun b hb => ?_, fun i => ⟨fun ha => ?_, fun ha => ?_, fun hd he => ?_, fun ha => ?_⟩⟩,
    fun i s t h => ?_, fun i s t h => ?_⟩
  · exact next_decided hs (by rw [onStream_above hb])
  · exact next_decided hs (by rw [onStream_above hb])
  · exact next_decided hs (onStream_of_owner (if_pos ha))
  · exact next_decided hs (onStream_of_owner (if_neg ha))
  · exact next_decided hs (onStream_of_owner (stopOwner_of_armed ha))
  · exact next_decided hs (onStream_of_owner (stopOwner_of_running ha))
  · exact next_decided hs (onStream_of_owner (stopOwner_of_neither ha hr))
  · exact next_decided hs (by rw [onStream_above hb])
  · exact next_decided hs (onStream_of_owner (abortOwner_of_inactive ha))
  · exact next_decided hs (onStream_of_owner (abortOwner_of_armed ha))
  · refine next_decided hs (onStream_of_owner ((abortOwner_of_active (s := s.taking 0x0034 h) (.inr hd)).trans ?_))
    rw [abortRun_of_fastDrain (s := s.taking 0x0034 h) hd he]
  · refine next_decided hs (onStream_of_owner ((abortOwner_of_active (s := s.taking 0x0034 h) (ha.imp_right And.left)).trans ?_))
    rw [abortRun_of_run (s := s.taking 0x0034 h) ha, taking_writing]
  · have hr := abortNow_recordsOnly i s
    have hc := abortNow_converters (i := i) s
    rw [h] at hr hc
    refine ⟨?_, ?_, fun d rest hd => ?_, fun b => ?_⟩
    · rw [hr.streams, State.modStream_streams, upd_same, State.modBuffers_streams, withdrawPass, State.modStream_streams,
        upd_same]
      rfl
    · rw [hr.staging]
      exact upd_same _ _ _
    · rw [hr.buffers]
      refine (upd_same _ _ _).trans ?_
      rw [← dropCurrent_cons, ← hd]
      rfl
    · rw [hc]
      exact mapAll_get _ _ _ _
  · have hr := abortFast_recordsOnly i s
    have hc := abortFast_converters (i := i) s
    rw [h] at hr hc
    refine ⟨?_, ?_, fun d rest hd => ?_, fun b => ?_⟩
    · rw [hr.streams, State.modStream_streams, upd_same, modHead, State.modBuffers_streams, withdrawPass,
        State.modStream_streams, upd_same]
      rfl
    · rw [hr.staging, ← keepWriting_records]
      exact congrArg Staging.records (upd_same _ _ _)
    · rw [hr.buffers]
      exact modHead_cons (s := withdrawPass i (s.modStaging i Staging.keepWriting)) hd _
    · rw [hc]
      exact mapAll_get _ _ _ _

end Sys2Proof.Machine
end


-- ==== Sys2Proof/Proofs/TriggerTaken.lean ====
section
/-!
PROOFS. Proofs/TriggerTaken.lean: the trigger of a stream (01_streams.md section 1.5, 04_sample_store_and_staging.md
section 4.4): how the history is numbered and forms blocks, and a stop time that the count has reached already.
-/

namespace Sys2Proof.Machine

variable {i : StreamId} {s t u : State}

/-! ### The history -/

theorem numberHistory_length (l : List PassRecord) : (numberHistory l).length = l.length := by
  induction l with
  | nil => rfl
  | cons r l ih => simp [numberHistory, ih]

/-- The record at place `j` of `k` gets the number `j - k` (R68). -/
theorem numberHistory_getElem? (l : List PassRecord) (j : Nat) :
    (numberHistory l)[j]? = l[j]?.map (fun r => { r with number := some (BitVec.ofInt 32 ((j : Int) - l.length)) }) := by
  induction l generalizing j with
  | nil => rfl
  | cons r l ih =>
    cases j with
    | zero =>
      simp only [numberHistory, List.getElem?_cons_zero, Option.map_some, List.length_cons]
      congr 3
    | succ j =>
      simp only [numberHistory, List.getElem?_cons_succ, ih, List.length_cons]
      rw [show ((j + 1 : Nat) : Int) - ((l.length + 1 : Nat) : Int) = (j : Int) - l.length by omega]

/-- The blocks that a trigger closes, and the records that stay, are the history in order (R68 step 4). -/
theorem closeRuns_records (p : Nat) (fuel : Nat) (l : List PassRecord) (slips : Nat) :
    (closeRuns p fuel l slips).1.flatMap (·.records) ++ (closeRuns p fuel l slips).2 = l := by
  induction fuel generalizing l slips with
  | zero => rfl
  | succ fuel ih =>
    unfold closeRuns
    split
    · have := ih (l.drop p) 0
      simp only [List.flatMap_cons, List.append_assoc, this]
      exact List.take_append_drop p l
    · rfl

/-- A block of P complete records, neither SHORT nor FINAL nor WRITING. -/
def Block.IsRun (p : Nat) (b : Block) : Prop :=
  b.records.length = p ∧ (∀ r ∈ b.records, r.complete = true) ∧ b.short = false ∧ b.final = false ∧ b.writing = false

theorem closeRuns_isRun (p : Nat) (fuel : Nat) (l : List PassRecord) (slips : Nat) :
    ∀ b ∈ (closeRuns p fuel l slips).1, b.IsRun p := by
  induction fuel generalizing l slips with
  | zero => exact fun b hb => absurd hb List.not_mem_nil
  | succ fuel ih =>
    unfold closeRuns
    split
    · next h =>
      intro b hb
      rcases List.mem_cons.mp hb with rfl | hb
      · exact ⟨List.length_take_of_le h.2.1, List.all_eq_true.mp h.2.2, rfl, rfl, rfl⟩
      · exact ih _ _ b hb
    · exact fun b hb => absurd hb List.not_mem_nil

/-- No run of P complete records is left at the head (R68 step 4). -/
theorem closeRuns_left (p : Nat) (fuel : Nat) (l : List PassRecord) (slips : Nat) (hfuel : l.length ≤ fuel)
    (hp : 1 ≤ p) (hlen : p ≤ (closeRuns p fuel l slips).2.length) :
    ∃ r ∈ (closeRuns p fuel l slips).2.take p, r.complete = false := by
  induction fuel generalizing l slips with
  | zero =>
    have : l.length = 0 := by omega
    simp [closeRuns, this] at hlen
    omega
  | succ fuel ih =>
    unfold closeRuns at hlen ⊢
    split at hlen
    · next h =>
      rw [if_pos h]
      exact ih _ _ (by rw [List.length_drop]; omega) hlen
    · next h =>
      rw [if_neg h]
      have hall : ¬(l.take p).all (·.complete) = true := fun hall => h ⟨hp, hlen, hall⟩
      simpa using hall

/-- The history at a trigger and its number of records k (R9, R68), by the pass in progress and the depth. -/
theorem fixHistory_of_no_pass (depth : Nat) (q : Staging) :
    fixHistory false depth q = ({ q with forming := numberHistory q.forming }, q.forming.length) := rfl

theorem fixHistory_of_depth {depth : Nat} (h : 1 ≤ depth) (q : Staging) : fixHistory true depth q =
    ({ q with forming := numberHistory (q.trim (depth - 1)).forming }, (q.trim (depth - 1)).forming.length) := if_pos h

theorem fixHistory_of_no_depth (q : Staging) : fixHistory true 0 q = (q, 0) := rfl

/-! ### The trigger -/

/-- The history of a stream as its trigger fixes it, with k. -/
def State.historyOf (s : State) (i : StreamId) (c : StreamConfig) : Staging × Nat :=
  fixHistory (s.streams[i]).pass.isSome c.depth s.staging[i]

/-- The blocks that the trigger of a stream closes, and the records that stay in formation. -/
def State.runsOf (s : State) (i : StreamId) (c : StreamConfig) : List Block × List PassRecord :=
  closeRuns c.passesPerBlock (s.historyOf i c).1.forming.length (s.historyOf i c).1.forming (s.streams[i]).slippedSince

/-- The state with a stream's trigger taken, before its record joins and its stop condition is examined. -/
def State.triggered (s : State) (i : StreamId) (source : TriggerSource) (c : StreamConfig) : State :=
  clearSlips i (!(s.runsOf i c).1.isEmpty)
    ((s.modStaging i (fun _ => ⟨(s.historyOf i c).1.closed ++ (s.runsOf i c).1, (s.runsOf i c).2⟩)).modStream i (fun x =>
      { x with state := .running, trigger := some ⟨s.timebase.count, source⟩, nextPass := some 0, begun := 0 }))

theorem takeTrigger_eq {c : StreamConfig} (hc : (s.streams[i]).config = some c) (source : TriggerSource) :
    takeTrigger i source s = noteEligible i s (examineStopTime i
      (streamRecord i (.triggered source (s.historyOf i c).2) (s.triggered i source c))) := by
  unfold takeTrigger
  rw [hc]
  rfl

theorem triggered_stream (s : State) (i : StreamId) (source : TriggerSource) (c : StreamConfig) :
    (s.triggered i source c).streams[i] = { s.streams[i] with
      state := .running, trigger := some ⟨s.timebase.count, source⟩, nextPass := some 0, begun := 0
      slippedSince := if (s.runsOf i c).1 = [] then (s.streams[i]).slippedSince else 0 } := by
  unfold State.triggered clearSlips
  cases (s.runsOf i c).1 with
  | nil => exact upd_same _ _ _
  | cons b l =>
    refine (upd_same _ _ _).trans ?_
    rw [State.modStream_streams, upd_same]
    rfl

theorem triggered_staging (s : State) (i : StreamId) (source : TriggerSource) (c : StreamConfig) :
    (s.triggered i source c).staging[i] = ⟨(s.staging[i]).closed ++ (s.runsOf i c).1, (s.runsOf i c).2⟩ := by
  unfold State.triggered clearSlips
  rw [State.historyOf, fixHistory_closed]
  split
  · exact upd_same _ _ _
  · exact upd_same _ _ _

theorem triggered_frame (s : State) (i : StreamId) (source : TriggerSource) (c : StreamConfig) : ∃ st sg,
    s.triggered i source c = { s with streams := st, staging := sg } ∧
    ∀ j : StreamId, j ≠ i → st[j] = s.streams[j] ∧ sg[j] = s.staging[j] := by
  unfold State.triggered clearSlips
  split
  · exact ⟨_, _, rfl, fun j hj => ⟨(upd_other _ _ hj).trans (upd_other _ _ hj), upd_other _ _ hj⟩⟩
  · exact ⟨_, _, rfl, fun j hj => ⟨upd_other _ _ hj, upd_other _ _ hj⟩⟩

/-! ### The stop time -/

theorem examineStopTime_of_later {c : StreamConfig} (hc : (s.streams[i]).config = some c)
    (hlater : ∀ T, c.stop = .time T → s.timebase.count < T) : examineStopTime i s = s := by
  unfold examineStopTime
  rw [hc]
  dsimp only
  cases hstop : c.stop with
  | none | count _ | line _ => rfl
  | time T => exact if_neg fun h => BitVec.not_lt.mpr h.2 (hlater T hstop)

theorem examineStopTime_of_reached {c : StreamConfig} {T : Long} (hc : (s.streams[i]).config = some c)
    (hstop : c.stop = .time T) (hstate : (s.streams[i]).state = .running) (hreached : T ≤ s.timebase.count) :
    examineStopTime i s = enterDraining i .stopTime s := by
  unfold examineStopTime
  rw [hc]
  dsimp only
  rw [hstop]
  exact if_pos ⟨hstate, hreached⟩

/-! ### The stream after a drain has begun -/

theorem drainEndMark_stream (i : StreamId) (s : State) :
    ∃ n, (drainEndMark i s).streams[i] = { s.streams[i] with slippedSince := n } := by
  unfold drainEndMark clearSlips
  dsimp only
  split
  · exact ⟨0, upd_same _ _ _⟩
  · exact ⟨(s.streams[i]).slippedSince, rfl⟩

/-- A drain leaves the stream DRAINING, or IDLE when nothing is left (R20, R21). -/
theorem enterDraining_stream {reason : EndReason} (hreason : reason ≠ .aborted) : ∃ state n,
    (state = .draining ∨ state = .idle) ∧
    ((s.streams[i]).pass ≠ none ∨ s.staging[i] ≠ Staging.empty → state = .draining) ∧
    ((s.streams[i]).pass = none → s.staging[i] = Staging.empty → s.writing i = false → state = .idle) ∧
    (enterDraining i reason s).streams[i] =
      { s.streams[i] with state := state, endReason := some reason, slippedSince := n } := by
  by_cases hpass : (s.streams[i]).pass = none
  · by_cases hleft : s.staging[i] ≠ Staging.empty ∨ s.writing i = true
    · obtain ⟨n, hn⟩ := drainEndMark_stream i
        (s.modStream i (fun x => { x with state := .draining, endReason := some reason }))
      refine ⟨.draining, n, .inl rfl, fun _ => rfl, fun _ hempty hwriting => ?_, ?_⟩
      · rcases hleft with h | h
        · exact absurd hempty h
        · rw [hwriting] at h
          cases h
      · rw [(enterDraining_waits reason hpass hleft).streams, hn, State.modStream_streams, upd_same]
    · obtain ⟨hempty, hwriting⟩ := not_or.mp hleft
      have hr := enterDraining_ends hpass (not_not.mp hempty) (Bool.eq_false_iff.mpr hwriting) hreason
      refine ⟨.idle, (s.streams[i]).slippedSince, .inr rfl, fun h => ?_, fun _ _ _ => rfl, ?_⟩
      · exact absurd h (not_or.mpr ⟨not_not.mpr hpass, hempty⟩)
      · rw [hr.streams, State.modStream_streams, upd_same, State.modBuffers_streams, State.modStream_streams, upd_same]
  · refine ⟨.draining, (s.streams[i]).slippedSince, .inl rfl, fun _ => rfl, fun h => absurd h hpass, ?_⟩
    rw [(enterDraining_walks reason hpass).streams, State.modStream_streams, upd_same]

/-! ### States that differ in the model's list of eligible streams only -/

/-- Only the streams noted as having become eligible may differ (notes/assumptions/24.md). -/
def Noted (s t : State) : Prop := ∃ be, t = { s with becameEligible := be }

theorem Noted.refl (s : State) : Noted s s := ⟨_, rfl⟩

theorem Noted.symm (h : Noted s t) : Noted t s := by
  obtain ⟨_, rfl⟩ := h
  exact ⟨s.becameEligible, rfl⟩

theorem Noted.trans (h : Noted s t) (k : Noted t u) : Noted s u := by
  obtain ⟨_, rfl⟩ := h
  obtain ⟨_, rfl⟩ := k
  exact ⟨_, rfl⟩

theorem Noted.eq (h : Noted s t) : t = { s with becameEligible := t.becameEligible } := by
  obtain ⟨_, rfl⟩ := h
  rfl

theorem noteEligible_noted (i : StreamId) (s t : State) : Noted t (noteEligible i s t) := ⟨_, noteEligible_eq i s t⟩

theorem Noted.join (h : Noted s t) (i : StreamId) (record : Record) :
    Noted (joinOutbox i record s) (joinOutbox i record t) := by
  obtain ⟨be, rfl⟩ := h
  have e := joinOutbox_aside (i := i) s.streams s.staging s.buffers s.converters be record s rfl
  obtain ⟨R, B, O, f⟩ := joinOutbox_frame i record s
  exact ⟨be, e.trans (by rw [f]; rfl)⟩

theorem Noted.modStream (h : Noted s t) (i : StreamId) (f : StreamContext → StreamContext) :
    Noted (s.modStream i f) (t.modStream i f) := by
  obtain ⟨_, rfl⟩ := h
  exact ⟨_, rfl⟩

theorem Noted.modBuffers (h : Noted s t) (i : StreamId) (f : List Descriptor → List Descriptor) :
    Noted (s.modBuffers i f) (t.modBuffers i f) := by
  obtain ⟨_, rfl⟩ := h
  exact ⟨_, rfl⟩

theorem Noted.streamRecord (h : Noted s t) (i : StreamId) (event : StreamEvent) :
    Noted (streamRecord i event s) (streamRecord i event t) := by
  have e : s.timebase = t.timebase := by rw [h.eq]
  unfold Machine.streamRecord
  rw [e]
  exact h.join i _

theorem Noted.endStream (h : Noted s t) (i : StreamId) (reason : EndReason) :
    Noted (endStream i reason s) (endStream i reason t) := by
  have e : s.streams = t.streams := by rw [h.eq]
  unfold Machine.endStream
  dsimp only
  rw [e]
  exact (h.modStream i _).streamRecord i _

theorem Noted.completeCurrent (h : Noted s t) (i : StreamId) (flags : BufferFlags) :
    Noted (completeCurrent i flags s) (completeCurrent i flags t) := by
  have e : s.buffers = t.buffers := by rw [h.eq]
  unfold Machine.completeCurrent State.currentBuffer Machine.completeBuffer
  rw [e]
  split
  · exact h
  · split
    · exact h
    · exact (h.modBuffers i _).join i _

theorem Noted.drainEndMark (h : Noted s t) (i : StreamId) : Noted (drainEndMark i s) (drainEndMark i t) := by
  obtain ⟨_, rfl⟩ := h
  unfold Machine.drainEndMark clearSlips
  dsimp only
  split
  · exact ⟨_, rfl⟩
  · exact ⟨_, rfl⟩

theorem Noted.drainComplete (h : Noted s t) (i : StreamId) : Noted (drainComplete i s) (drainComplete i t) := by
  have hstreams : s.streams = t.streams := by rw [h.eq]
  have hstaging : s.staging = t.staging := by rw [h.eq]
  have hwriting : s.writing i = t.writing i := by rw [h.eq]; rfl
  unfold Machine.drainComplete
  dsimp only
  rw [hstreams, hstaging, hwriting]
  split
  · split
    · exact (h.completeCurrent i _).endStream i _
    · exact h
  · exact h

theorem Noted.enterDraining (h : Noted s t) (i : StreamId) (reason : EndReason) :
    Noted (enterDraining i reason s) (enterDraining i reason t) := by
  have hstreams : s.streams = t.streams := by rw [h.eq]
  have hr := (h.modStream i (fun x => { x with state := .draining, endReason := some reason })).streamRecord i
    (.draining reason (t.streams[i]).begun)
  unfold Machine.enterDraining
  dsimp only
  rw [hstreams]
  refine (noteEligible_noted i _ _).symm.trans (Noted.trans ?_ (noteEligible_noted i _ _))
  split
  · exact (hr.drainEndMark i).drainComplete i
  · exact hr

/-! ### The trigger of a stream whose stop time is reached -/

/-- A record joins an outbox whatever else the stream's configuration holds besides its ring. -/
theorem joinOutbox_modStream {c c' : StreamConfig} {f : StreamContext → StreamContext} (record : Record)
    (hc : (s.streams[i]).config = some c) (hf : (f s.streams[i]).config = some c') (hring : c'.ring = c.ring) :
    joinOutbox i record (s.modStream i f) = (joinOutbox i record s).modStream i f := by
  unfold joinOutbox
  rw [State.modStream_streams, upd_same, hc, hf]
  dsimp only
  rw [hring]
  by_cases hup : (!s.linkUp) = true
  · rw [if_pos hup, if_pos (show (!(s.modStream i f).linkUp) = true from hup)]
  · rw [if_neg hup, if_neg (show ¬(!(s.modStream i f).linkUp) = true from hup)]
    by_cases hbox : s.outboxes[i] = []
    · rw [if_pos hbox, if_pos (show (s.modStream i f).outboxes[i] = [] from hbox)]
      have hp := place_aside (upd s.streams i f) s.staging s.buffers s.converters s.becameEligible c.ring record s
      rw [show s.modStream i f = s.aside (upd s.streams i f) s.staging s.buffers s.converters s.becameEligible from rfl, hp]
      cases hplace : place c.ring record s with
      | none => rfl
      | some v =>
        obtain ⟨R, B, e⟩ := (place_step hplace).frame
        rw [Option.map_some]
        dsimp only
        rw [e]
        rfl
    · rw [if_neg hbox, if_neg (show ¬(s.modStream i f).outboxes[i] = [] from hbox)]
      rfl

theorem upd_upd {α : Type} {n : Nat} (v : Vector α n) (i : Fin n) (f g : α → α) :
    upd (upd v i f) i g = upd v i (fun x => g (f x)) := by
  apply bank_ext
  intro j
  by_cases e : j = i
  · subst e
    rw [upd_same, upd_same, upd_same]
  · rw [upd_other _ _ e, upd_other _ _ e, upd_other _ _ e]

theorem modStream_modStream (s : State) (i : StreamId) (f g : StreamContext → StreamContext) :
    (s.modStream i f).modStream i g = s.modStream i (fun x => g (f x)) :=
  congrArg (fun v => { s with streams := v }) (upd_upd s.streams i f g)

theorem modStream_of_fixed {f : StreamContext → StreamContext} (h : f s.streams[i] = s.streams[i]) : s.modStream i f = s :=
  congrArg (fun v => { s with streams := v }) (upd_fixed h)

theorem modStaging_modStream (s : State) (i : StreamId) (f : StreamContext → StreamContext) (g : Staging → Staging) :
    (s.modStream i f).modStaging i g = (s.modStaging i g).modStream i f := rfl

/-- The trigger takes nothing from the stop condition but its examination. -/
theorem triggered_withoutStop (s : State) (i : StreamId) (source : TriggerSource) (c : StreamConfig) (stop : StopCondition) :
    (s.modStream i (fun x => { x with config := some { c with stop := stop } })).triggered i source { c with stop := stop }
      = (s.triggered i source c).modStream i (fun x => { x with config := some { c with stop := stop } }) := by
  have hh : (s.modStream i (fun x => { x with config := some { c with stop := stop } })).historyOf i { c with stop := stop }
      = s.historyOf i c := by
    unfold State.historyOf
    rw [State.modStream_streams, upd_same]
    rfl
  have hr : (s.modStream i (fun x => { x with config := some { c with stop := stop } })).runsOf i { c with stop := stop }
      = s.runsOf i c := by
    unfold State.runsOf
    rw [hh, State.modStream_streams, upd_same]
  unfold State.triggered clearSlips
  rw [hh, hr]
  split
  · rw [modStaging_modStream, modStream_modStream, modStream_modStream, modStream_modStream, modStream_modStream]
    rfl
  · rw [modStaging_modStream, modStream_modStream, modStream_modStream]
    rfl

/-- What the streams' banks and the staging of a triggered stream are once its record has joined. -/
theorem triggered_recordsOnly (i : StreamId) (source : TriggerSource) (c : StreamConfig) (s : State) :
    RecordsOnly (s.triggered i source c)
      (streamRecord i (.triggered source (s.historyOf i c).2) (s.triggered i source c)) := streamRecord_recordsOnly i _ _

theorem joined_stream (i : StreamId) (source : TriggerSource) (c : StreamConfig) (s : State) :
    (streamRecord i (.triggered source (s.historyOf i c).2) (s.triggered i source c)).streams[i]
      = (s.triggered i source c).streams[i] := by
  rw [(triggered_recordsOnly i source c s).streams]

theorem joined_config {c : StreamConfig} (hc : (s.streams[i]).config = some c) (source : TriggerSource) :
    ((streamRecord i (.triggered source (s.historyOf i c).2) (s.triggered i source c)).streams[i]).config = some c := by
  rw [joined_stream, triggered_stream]
  exact hc

theorem joined_timebase (i : StreamId) (source : TriggerSource) (c : StreamConfig) (s : State) :
    (streamRecord i (.triggered source (s.historyOf i c).2) (s.triggered i source c)).timebase = s.timebase := by
  obtain ⟨R, B, O, e⟩ := streamRecord_frame i (.triggered source (s.historyOf i c).2) (s.triggered i source c)
  obtain ⟨st, sg, f, _⟩ := triggered_frame s i source c
  rw [e, f]

theorem takeTrigger_of_later {c : StreamConfig} (hc : (s.streams[i]).config = some c)
    (hlater : ∀ T, c.stop = .time T → s.timebase.count < T) (source : TriggerSource) :
    takeTrigger i source s = noteEligible i s
      (streamRecord i (.triggered source (s.historyOf i c).2) (s.triggered i source c)) := by
  rw [takeTrigger_eq hc, examineStopTime_of_later (joined_config hc source)]
  rw [joined_timebase]
  exact hlater

theorem takeTrigger_of_reached {c : StreamConfig} {T : Long} (hc : (s.streams[i]).config = some c)
    (hstop : c.stop = .time T) (hreached : T ≤ s.timebase.count) (source : TriggerSource) :
    takeTrigger i source s = noteEligible i s (enterDraining i .stopTime
      (streamRecord i (.triggered source (s.historyOf i c).2) (s.triggered i source c))) := by
  rw [takeTrigger_eq hc, examineStopTime_of_reached (joined_config hc source) hstop]
  · rw [joined_stream, triggered_stream]
  · rw [joined_timebase]
    exact hreached

/-- With the stop condition left out the trigger leaves the same state, up to the list of eligible streams, and the
configuration. -/
theorem takeTrigger_withoutStop {c : StreamConfig} (hc : (s.streams[i]).config = some c) (source : TriggerSource)
    {w : State} (hw : w = takeTrigger i source
      { s with streams := upd s.streams i (fun x => { x with config := some { c with stop := .none } }) }) :
    Noted (streamRecord i (.triggered source (s.historyOf i c).2) (s.triggered i source c))
      { w with streams := upd w.streams i (fun x => { x with config := some c }) } := by
  let bare : StreamContext → StreamContext := fun x => { x with config := some { c with stop := .none } }
  have hconfig : ((s.modStream i bare).streams[i]).config = some { c with stop := .none } := by
    rw [State.modStream_streams, upd_same]
  have hhistory : ((s.modStream i bare).historyOf i { c with stop := .none }).2 = (s.historyOf i c).2 := by
    unfold State.historyOf
    rw [State.modStream_streams, upd_same]
    rfl
  have hw' : Noted ((streamRecord i (.triggered source (s.historyOf i c).2) (s.triggered i source c)).modStream i bare) w := by
    have e := takeTrigger_of_later hconfig (fun T h => by cases h) source
    rw [hhistory, triggered_withoutStop] at e
    have j : streamRecord i (.triggered source (s.historyOf i c).2) ((s.triggered i source c).modStream i bare)
        = (streamRecord i (.triggered source (s.historyOf i c).2) (s.triggered i source c)).modStream i bare :=
      joinOutbox_modStream (c := c) (c' := { c with stop := .none }) _ (by rw [triggered_stream]; exact hc) rfl rfl
    rw [hw, show takeTrigger i source { s with streams := upd s.streams i bare } = _ from e, j]
    exact noteEligible_noted i _ _
  obtain ⟨be, e⟩ := hw'.modStream i (fun x => { x with config := some c })
  refine ⟨be, e.trans (congrArg (fun v : State => { v with becameEligible := be })
    ((modStream_modStream _ _ _ _).trans (modStream_of_fixed ?_)))⟩
  have hj := joined_config hc source
  generalize streamRecord i (.triggered source (s.historyOf i c).2) (s.triggered i source c) = v at hj
  dsimp only [bare]
  rw [← hj]

/-! ### What the trigger leaves -/

/-- The records of a stream's history that its trigger keeps (R9 step 4, R68 step 1). -/
def State.keptHistory (s : State) (i : StreamId) (c : StreamConfig) : List PassRecord :=
  if (s.streams[i]).pass = none then (s.staging[i]).forming
  else (s.staging[i]).forming.drop (((s.staging[i]).forming.filter (·.complete)).length - (c.depth - 1))

theorem historyOf_of_numbered {c : StreamConfig} (h : (s.streams[i]).pass = none ∨ 1 ≤ c.depth) :
    s.historyOf i c = ({ s.staging[i] with forming := numberHistory (s.keptHistory i c) }, (s.keptHistory i c).length) := by
  unfold State.historyOf State.keptHistory
  cases hp : (s.streams[i]).pass with
  | none => rfl
  | some p =>
    rw [hp] at h
    rw [if_neg (by simp)]
    exact fixHistory_of_depth (h.resolve_left (by simp)) _

theorem historyOf_of_unnumbered {c : StreamConfig} (hpass : (s.streams[i]).pass ≠ none) (hdepth : c.depth = 0) :
    s.historyOf i c = (s.staging[i], 0) := by
  unfold State.historyOf
  cases hp : (s.streams[i]).pass with
  | none => exact absurd hp hpass
  | some p =>
    rw [hdepth]
    rfl

theorem triggered_records (hclosed : (s.staging[i]).closed = []) (source : TriggerSource) (c : StreamConfig) :
    ((s.triggered i source c).staging[i]).records = (s.historyOf i c).1.forming := by
  rw [triggered_staging, hclosed]
  exact closeRuns_records _ _ _ _

/-- A trigger leaves nothing staged only where nothing was. -/
theorem triggered_staged (source : TriggerSource) {c : StreamConfig}
    (h : (s.streams[i]).pass ≠ none ∨ (s.staging[i]).forming ≠ [] ∨ (s.staging[i]).closed ≠ []) :
    (s.streams[i]).pass ≠ none ∨ (s.triggered i source c).staging[i] ≠ Staging.empty := by
  by_cases hpass : (s.streams[i]).pass = none
  · refine .inr fun hempty => ?_
    rw [triggered_staging] at hempty
    have hclosed := congrArg Staging.closed hempty
    have hforming := congrArg Staging.forming hempty
    simp only [Staging.empty, List.append_eq_nil_iff] at hclosed hforming
    have hrecords := closeRuns_records c.passesPerBlock (s.historyOf i c).1.forming.length (s.historyOf i c).1.forming
      (s.streams[i]).slippedSince
    rw [show closeRuns _ _ _ _ = s.runsOf i c from rfl, hclosed.2, hforming, historyOf_of_numbered (.inl hpass)] at hrecords
    have hlength := numberHistory_length (s.keptHistory i c)
    have hkept : numberHistory (s.keptHistory i c) = [] := hrecords.symm
    rw [hkept, State.keptHistory, if_pos hpass] at hlength
    rcases h with h | h | h
    · exact h hpass
    · exact h (List.length_eq_zero_iff.mp hlength.symm)
    · exact h hclosed.1
  · exact .inl hpass

theorem triggered_empty (source : TriggerSource) {c : StreamConfig} (hpass : (s.streams[i]).pass = none)
    (hempty : s.staging[i] = Staging.empty) : (s.triggered i source c).staging[i] = Staging.empty := by
  have hkept : s.keptHistory i c = [] := by
    unfold State.keptHistory
    rw [if_pos hpass, hempty]
    rfl
  rw [triggered_staging, State.runsOf, historyOf_of_numbered (.inl hpass), hkept, hempty]
  rfl

theorem triggered_others (source : TriggerSource) (c : StreamConfig) {j : StreamId} (hj : j ≠ i) :
    (s.triggered i source c).streams[j] = s.streams[j] ∧ (s.triggered i source c).staging[j] = s.staging[j] := by
  obtain ⟨st, sg, e, hothers⟩ := triggered_frame s i source c
  rw [e]
  exact hothers j hj

/-- Settles O21. -/
theorem triggerNumbersHistory : Obligations.TriggerNumbersHistory := by
  refine ⟨fun i source s t c history hc hclosed hlater h hhistory => ?_, fun i source s t w c T hc hstop hreached h hw => ?_⟩
  · replace hhistory : history = s.keptHistory i c := hhistory
    rw [takeTrigger_of_later hc hlater] at h
    have hr : RecordsOnly (s.triggered i source c) t := by
      rw [← h]
      exact (triggered_recordsOnly i source c s).trans (noteEligible_recordsOnly i s _)
    rw [hr.streams, hr.staging, triggered_stream, triggered_records hclosed]
    refine ⟨rfl, rfl, rfl, rfl, rfl, fun hn j r hj => ?_, fun hn => ?_, fun hp hd => ?_, fun b hb => ?_, fun hp hlen => ?_,
      fun j hj => triggered_others source c hj⟩
    · rw [historyOf_of_numbered hn, ← hhistory, numberHistory_getElem?, hj]
      rfl
    · rw [historyOf_of_numbered hn, ← hhistory, numberHistory_length]
    · rw [historyOf_of_unnumbered hp hd]
    · rw [triggered_staging, hclosed] at hb
      exact closeRuns_isRun _ _ _ _ b hb
    · rw [triggered_staging] at hlen ⊢
      exact closeRuns_left _ _ _ _ (Nat.le_refl _) hp hlen
  · rw [takeTrigger_of_reached hc hstop hreached] at h
    obtain ⟨state, n, hstates, hstays, hends, hx⟩ := enterDraining_stream (i := i) (reason := .stopTime)
      (s := streamRecord i (.triggered source (s.historyOf i c).2) (s.triggered i source c)) (by decide)
    have ht : t.streams[i] = { s.streams[i] with
        state := state, endReason := some .stopTime, trigger := some ⟨s.timebase.count, source⟩, nextPass := some 0,
        begun := 0, slippedSince := n } := by
      rw [← h, (noteEligible_recordsOnly i s _).streams, hx, joined_stream, triggered_stream]
    have hj := triggered_recordsOnly i source c s
    rw [joined_stream, triggered_stream, hj.staging] at hstays hends
    rw [hj.writing] at hends
    refine ⟨?_, by rw [ht], by rw [ht], by rw [ht], by rw [ht], by rw [ht], by rw [ht]; exact hstates,
      fun hleft => ?_, fun hpass hempty hwriting => ?_, fun j hj' => ?_⟩
    · have e := ((takeTrigger_withoutStop hc source hw).enterDraining i .stopTime).symm
      rw [← h]
      exact (e.trans (noteEligible_noted i s _)).eq
    · rw [ht]
      exact hstays (triggered_staged source hleft)
    · rw [ht]
      refine hends hpass (triggered_empty source hpass hempty) ?_
      obtain ⟨st, sg, e, _⟩ := triggered_frame s i source c
      rw [e]
      exact hwriting
    · have hothers := (enterDraining_step i .stopTime
        (streamRecord i (.triggered source (s.historyOf i c).2) (s.triggered i source c))).others j hj'
      rw [← h, (noteEligible_recordsOnly i s _).streams, (noteEligible_recordsOnly i s _).staging, hothers.1, hothers.2.1,
        hj.streams, hj.staging]
      exact triggered_others source c hj'

end Sys2Proof.Machine
end


-- ==== Sys2Proof/Proofs/StreamRecords.lean ====
section
/-!
PROOFS. Proofs/StreamRecords.lean: which records of a stream join its outbox (01_streams.md sections 1.2, 1.5 and 1.6,
05_buffers_and_block_delivery.md section 5.5). The transitions reduce to their records by `Aside`; what they keep besides
says which banks may differ.
-/

namespace Sys2Proof.Machine

variable {i : StreamId} {s t u : State}

/-! ### The current buffer's record -/

/-- The BUFFER_DONE record of the buffer at the head of a queue joins, when a block has been written into it (R93). -/
def joinDone (i : StreamId) (queue : List Descriptor) (flags : BufferFlags) (s : State) : State :=
  match queue with
  | [] => s
  | d :: _ => if d.blocks = 0 then s else
    joinOutbox i (.bufferDone i flags d.tag d.fill d.blocks d.firstSequence d.lastSequence) s

theorem joinDone_cons (d : Descriptor) (rest : List Descriptor) (flags : BufferFlags) :
    joinDone i (d :: rest) flags s = if d.blocks = 0 then s else
      joinOutbox i (.bufferDone i flags d.tag d.fill d.blocks d.firstSequence d.lastSequence) s := rfl

theorem Aside.done (h : Aside i s u) (queue : List Descriptor) (flags : BufferFlags) :
    Aside i (joinDone i queue flags s) (joinDone i queue flags u) := by
  cases queue with
  | nil => exact h
  | cons d rest =>
    rw [joinDone_cons, joinDone_cons]
    by_cases hd : d.blocks = 0
    · rw [if_pos hd, if_pos hd]
      exact h
    · rw [if_neg hd, if_neg hd]
      exact h.join _

theorem completeCurrent_joins (flags : BufferFlags) :
    Aside i (joinDone i s.buffers[i] flags s) (completeCurrent i flags s) := by
  unfold completeCurrent
  cases h : s.buffers[i] with
  | nil =>
    unfold State.currentBuffer
    rw [h]
    exact Aside.refl
  | cons d rest =>
    rw [currentBuffer_of_cons h, joinDone_cons]
    by_cases hd : d.blocks = 0
    · rw [if_pos hd, if_pos hd]
      exact Aside.refl
    · rw [if_neg hd, if_neg hd]
      have hj := completeBuffer_joins h flags
      rw [Descriptor.doneRecord, if_neg hd, if_neg hd] at hj
      exact hj

/-! ### Records of a stream's state -/

theorem Aside.timebase (h : Aside i s u) : u.timebase = s.timebase := by
  rw [h.eq]
  rfl

theorem Aside.streamRecord (h : Aside i s u) (event : StreamEvent) :
    Aside i (streamRecord i event s) (streamRecord i event u) := by
  unfold Machine.streamRecord
  rw [h.timebase]
  exact h.join _

theorem drainEndMark_frame (i : StreamId) (s : State) :
    ∃ st sg, drainEndMark i s = { s with streams := st, staging := sg } := by
  unfold drainEndMark clearSlips
  dsimp only
  split
  · exact ⟨_, _, rfl⟩
  · exact ⟨_, _, rfl⟩

/-- A drain that does not end at once joins DRAINING (R2, R20). -/
theorem enterDraining_joins (reason : EndReason) (hleft : (s.streams[i]).pass ≠ none ∨ s.staging[i] ≠ Staging.empty) :
    Aside i (streamRecord i (.draining reason (s.streams[i]).begun) s) (enterDraining i reason s) ∧
      (enterDraining i reason s).buffers = s.buffers := by
  have hj : Aside i (streamRecord i (.draining reason (s.streams[i]).begun) s)
      (streamRecord i (.draining reason (s.streams[i]).begun)
        (s.modStream i (fun x => { x with state := .draining, endReason := some reason }))) :=
    (modStream_aside _ rfl).streamRecord _
  by_cases hpass : (s.streams[i]).pass = none
  · have hstaged := hleft.resolve_left (not_not.mpr hpass)
    have hm := marked_recordsOnly i reason s
    refine ⟨?_, ?_⟩
    · rw [enterDraining_of_no_pass reason hpass, drainComplete_of_left]
      · exact (hj.trans drainEndMark_aside).trans (noteEligible_aside _)
      · rw [hm.staging]
        exact .inr (.inl (drainEndMark_left (s := s.modStream i _) hstaged))
    · obtain ⟨st, sg, e⟩ := drainEndMark_frame i
        (s.modStream i (fun x => { x with state := .draining, endReason := some reason }))
      rw [(enterDraining_waits reason hpass (.inl hstaged)).buffers, e]
      rfl
  · refine ⟨?_, (enterDraining_walks reason hpass).buffers⟩
    rw [enterDraining_of_pass reason hpass]
    exact hj.trans (noteEligible_aside _)

/-- A drain that ends at once joins DRAINING, the record of the current buffer, which is FINAL, and ENDED (R2, R21). -/
theorem enterDraining_joins_ended {reason : EndReason} (hpass : (s.streams[i]).pass = none)
    (hempty : s.staging[i] = Staging.empty) (hwriting : s.writing i = false) (hreason : reason ≠ .aborted) :
    Aside i (streamRecord i (.ended reason (s.streams[i]).begun (s.streams[i]).nextSequence)
      (joinDone i s.buffers[i] { final := true } (streamRecord i (.draining reason (s.streams[i]).begun) s)))
      (enterDraining i reason s) := by
  have hj : Aside i (streamRecord i (.draining reason (s.streams[i]).begun) s)
      (drainEndMark i (streamRecord i (.draining reason (s.streams[i]).begun)
        (s.modStream i (fun x => { x with state := .draining, endReason := some reason })))) :=
    ((modStream_aside _ rfl).streamRecord _).trans drainEndMark_aside
  have hm := marked_of_empty reason hempty
  rw [enterDraining_of_nothing_left hpass hempty hwriting hreason]
  generalize drainEndMark i (streamRecord i (.draining reason (s.streams[i]).begun)
    (s.modStream i (fun x => { x with state := .draining, endReason := some reason }))) = v at hj hm
  have hdone := (hj.done s.buffers[i] { final := true }).trans (hm.buffers ▸ completeCurrent_joins (i := i) (s := v) _)
  have hstream : (completeCurrent i { final := true } v).streams[i]
      = { s.streams[i] with state := .draining, endReason := some reason } := by
    rw [(completeCurrent_recordsOnly i _ v).streams, State.modBuffers_streams, hm.streams]
    exact upd_same _ _ _
  have hend := endStream_joins (i := i) (s := completeCurrent i { final := true } v) reason
  rw [hstream] at hend
  exact ((hdone.streamRecord _).trans hend).trans (noteEligible_aside _)

/-! ### The banks that a transition leaves alone -/

theorem Aside.eq_of_buffers (h : Aside i s t) (hbuffers : t.buffers = s.buffers) (hconverters : t.converters = s.converters) :
    t = { s with streams := t.streams, staging := t.staging, becameEligible := t.becameEligible } := by
  have e := h.eq
  rw [hbuffers, hconverters] at e
  exact e

theorem Aside.eq_of_converters (h : Aside i s t) (hconverters : t.converters = s.converters) :
    t = { s with
      streams := t.streams, staging := t.staging, buffers := t.buffers, becameEligible := t.becameEligible } := by
  have e := h.eq
  rw [hconverters] at e
  exact e

theorem Aside.eq_of_becameEligible (h : Aside i s t) (hnoted : t.becameEligible = s.becameEligible) :
    t = { s with
      streams := t.streams, staging := t.staging, converters := t.converters, buffers := t.buffers } := by
  have e := h.eq
  rw [hnoted] at e
  exact e

theorem joinOutbox_becameEligible (i : StreamId) (record : Record) (s : State) :
    (joinOutbox i record s).becameEligible = s.becameEligible := by
  obtain ⟨R, B, O, e⟩ := joinOutbox_frame i record s
  rw [e]

theorem streamRecord_becameEligible (i : StreamId) (event : StreamEvent) (s : State) :
    (streamRecord i event s).becameEligible = s.becameEligible := joinOutbox_becameEligible i _ s

theorem endStream_becameEligible (i : StreamId) (reason : EndReason) (s : State) :
    (endStream i reason s).becameEligible = s.becameEligible := joinOutbox_becameEligible i _ _

theorem completeBuffer_becameEligible (i : StreamId) (flags : BufferFlags) (s : State) :
    (completeBuffer i flags s).becameEligible = s.becameEligible := by
  unfold completeBuffer
  split
  · rfl
  · exact joinOutbox_becameEligible i _ _

theorem completeCurrent_becameEligible (i : StreamId) (flags : BufferFlags) (s : State) :
    (completeCurrent i flags s).becameEligible = s.becameEligible := by
  unfold completeCurrent
  split
  · rfl
  · exact completeBuffer_becameEligible i flags s

theorem joinDone_recordsOnly (i : StreamId) (queue : List Descriptor) (flags : BufferFlags) (s : State) :
    RecordsOnly s (joinDone i queue flags s) := by
  cases queue with
  | nil => exact RecordsOnly.refl s
  | cons d rest =>
    rw [joinDone_cons]
    split
    · exact RecordsOnly.refl s
    · exact joinOutbox_recordsOnly i _ s

theorem joinDone_becameEligible (i : StreamId) (queue : List Descriptor) (flags : BufferFlags) (s : State) :
    (joinDone i queue flags s).becameEligible = s.becameEligible := by
  cases queue with
  | nil => rfl
  | cons d rest =>
    rw [joinDone_cons]
    split
    · rfl
    · exact joinOutbox_becameEligible i _ s

/-! ### The trigger's records -/

theorem triggered_aside (source : TriggerSource) (c : StreamConfig) : Aside i s (s.triggered i source c) := by
  have hx := triggered_stream s i source c
  obtain ⟨st, sg, e, _⟩ := triggered_frame s i source c
  exact ⟨by rw [e]; rfl, by rw [hx]⟩

theorem triggered_buffers (source : TriggerSource) (c : StreamConfig) :
    (s.triggered i source c).buffers = s.buffers ∧ (s.triggered i source c).converters = s.converters := by
  obtain ⟨st, sg, e, _⟩ := triggered_frame s i source c
  rw [e]
  exact ⟨rfl, rfl⟩

/-- The k of the TRIGGERED record (R9, R68). -/
theorem historyOf_count (s : State) (i : StreamId) (c : StreamConfig) : (s.historyOf i c).2 =
    if (s.streams[i]).pass = none then (s.staging[i]).forming.length
    else if c.depth = 0 then 0
    else (s.staging[i]).forming.length - (((s.staging[i]).forming.filter (·.complete)).length - (c.depth - 1)) := by
  by_cases hpass : (s.streams[i]).pass = none
  · rw [if_pos hpass, historyOf_of_numbered (.inl hpass), State.keptHistory, if_pos hpass]
  · rw [if_neg hpass]
    by_cases hdepth : c.depth = 0
    · rw [if_pos hdepth, historyOf_of_unnumbered hpass hdepth]
    · rw [if_neg hdepth, historyOf_of_numbered (.inr (Nat.pos_of_ne_zero hdepth)), State.keptHistory, if_neg hpass]
      exact List.length_drop

/-! ### What joining does -/

theorem joinOutbox_of_down (record : Record) (h : s.linkUp = false) : joinOutbox i record s = s := by
  unfold joinOutbox
  rw [h]
  cases (s.streams[i]).config <;> rfl

theorem joinOutbox_of_placed {c : StreamConfig} {record : Record} (hc : (s.streams[i]).config = some c)
    (hup : s.linkUp = true) (hbox : s.outboxes[i] = []) (hp : place c.ring record s = some t) : joinOutbox i record s = t := by
  unfold joinOutbox
  rw [hc, hup]
  dsimp only
  rw [if_neg (by decide), if_pos hbox, hp]

theorem joinOutbox_of_not_placed {c : StreamConfig} {record : Record} (hc : (s.streams[i]).config = some c)
    (hup : s.linkUp = true) (hbox : s.outboxes[i] = []) (hp : place c.ring record s = none) :
    joinOutbox i record s = s.modOutbox i (fun _ => [⟨c.ring, record⟩]) := by
  unfold joinOutbox
  rw [hc, hup]
  dsimp only
  rw [if_neg (by decide), if_pos hbox, hp]

theorem joinOutbox_of_waiting {c : StreamConfig} (record : Record) (hc : (s.streams[i]).config = some c)
    (hup : s.linkUp = true) (hbox : s.outboxes[i] ≠ []) :
    joinOutbox i record s = s.modOutbox i (fun o => o ++ [⟨c.ring, record⟩]) := by
  unfold joinOutbox
  rw [hc, hup]
  dsimp only
  rw [if_neg (by decide), if_neg hbox]

/-! ### The transitions' records -/

theorem takeTrigger_joins {c : StreamConfig} (hc : (s.streams[i]).config = some c)
    (hlater : ∀ T, c.stop = .time T → s.timebase.count < T) (source : TriggerSource) :
    Aside i (streamRecord i (.triggered source (s.historyOf i c).2) s) (takeTrigger i source s) ∧
      (takeTrigger i source s).buffers = s.buffers ∧ (takeTrigger i source s).converters = s.converters := by
  rw [takeTrigger_of_later hc hlater]
  refine ⟨((triggered_aside source c).streamRecord _).trans (noteEligible_aside _), ?_, ?_⟩
  · rw [(noteEligible_recordsOnly i s _).buffers, (triggered_recordsOnly i source c s).buffers]
    exact (triggered_buffers source c).1
  · rw [(noteEligible_recordsOnly i s _).converters, (triggered_recordsOnly i source c s).converters]
    exact (triggered_buffers source c).2

/-- A trigger at a stop time that is reached joins TRIGGERED and then DRAINING (R15). -/
theorem takeTrigger_joins_draining {c : StreamConfig} {T : Long} (hc : (s.streams[i]).config = some c)
    (hstop : c.stop = .time T) (hreached : T ≤ s.timebase.count) (source : TriggerSource)
    (hleft : (s.streams[i]).pass ≠ none ∨ s.staging[i] ≠ Staging.empty) :
    Aside i (streamRecord i (.draining .stopTime 0) (streamRecord i (.triggered source (s.historyOf i c).2) s))
        (takeTrigger i source s) ∧
      (takeTrigger i source s).buffers = s.buffers ∧ (takeTrigger i source s).converters = s.converters := by
  have hstaged : (s.streams[i]).pass ≠ none ∨ (s.triggered i source c).staging[i] ≠ Staging.empty := by
    refine triggered_staged source (hleft.imp_right fun h => ?_)
    by_contra hnone
    obtain ⟨hforming, hclosed⟩ := not_or.mp hnone
    refine h ?_
    cases hq : s.staging[i]
    simp_all [Staging.empty]
  have hjoined := triggered_recordsOnly i source c s
  have hstream := (joined_stream i source c s).trans (triggered_stream s i source c)
  have haside := (triggered_aside (i := i) (s := s) source c).streamRecord (.triggered source (s.historyOf i c).2)
  rw [takeTrigger_of_reached hc hstop hreached]
  generalize streamRecord i (.triggered source (s.historyOf i c).2) (s.triggered i source c) = v at *
  obtain ⟨hd, hb⟩ := enterDraining_joins (i := i) (s := v) .stopTime (by rw [hstream, hjoined.staging]; exact hstaged)
  rw [hstream] at hd
  refine ⟨((haside.streamRecord _).trans hd).trans (noteEligible_aside _), ?_, ?_⟩
  · rw [(noteEligible_recordsOnly i s _).buffers, hb, hjoined.buffers]
    exact (triggered_buffers source c).1
  · rw [noteEligible_converters, enterDraining_converters, hjoined.converters]
    exact (triggered_buffers source c).2

/-- With nothing in progress, staged or in flight, it joins ENDED too (R15, R21). -/
theorem takeTrigger_joins_ended {c : StreamConfig} {T : Long} (hc : (s.streams[i]).config = some c)
    (hstop : c.stop = .time T) (hreached : T ≤ s.timebase.count) (source : TriggerSource)
    (hpass : (s.streams[i]).pass = none) (hempty : s.staging[i] = Staging.empty) (hwriting : s.writing i = false) :
    Aside i (streamRecord i (.ended .stopTime 0 (s.streams[i]).nextSequence) (joinDone i s.buffers[i] { final := true }
        (streamRecord i (.draining .stopTime 0) (streamRecord i (.triggered source (s.historyOf i c).2) s))))
        (takeTrigger i source s) ∧ (takeTrigger i source s).converters = s.converters := by
  have hjoined := triggered_recordsOnly i source c s
  have hstream := (joined_stream i source c s).trans (triggered_stream s i source c)
  have haside := (triggered_aside (i := i) (s := s) source c).streamRecord (.triggered source (s.historyOf i c).2)
  have hw : (s.triggered i source c).writing i = false := by
    obtain ⟨st, sg, e, _⟩ := triggered_frame s i source c
    rw [e]
    exact hwriting
  rw [takeTrigger_of_reached hc hstop hreached]
  generalize streamRecord i (.triggered source (s.historyOf i c).2) (s.triggered i source c) = v at *
  have hd := enterDraining_joins_ended (i := i) (s := v) (reason := .stopTime) (by rw [hstream]; exact hpass)
    (by rw [hjoined.staging]; exact triggered_empty source hpass hempty) (by rw [hjoined.writing]; exact hw) (by decide)
  rw [hstream, hjoined.buffers, (triggered_buffers source c).1] at hd
  refine ⟨((((haside.streamRecord _).done _ _).streamRecord _).trans hd).trans (noteEligible_aside _), ?_⟩
  rw [noteEligible_converters, enterDraining_converters, hjoined.converters]
  exact (triggered_buffers source c).2

theorem withdrawn_streams (f : Staging → Staging) :
    (withdrawPass i (s.modStaging i f)).streams[i] = { s.streams[i] with pass := none } := upd_same _ _ _

theorem endArmed_joins (reason : EndReason) :
    Aside i (streamRecord i (.ended reason (s.streams[i]).begun (s.streams[i]).nextSequence) s) (endArmed i reason s) := by
  have h := endStream_joins (i := i) (s := withdrawPass i (s.modStaging i (fun _ => Staging.empty))) reason
  rw [withdrawn_streams] at h
  exact (((modStaging_aside _).trans withdrawPass_aside).streamRecord _).trans h

theorem abortNow_joins :
    Aside i (streamRecord i (.ended .aborted (s.streams[i]).begun (s.streams[i]).nextSequence)
      (joinDone i s.buffers[i] { aborted := true } s)) (abortNow i s) := by
  have hw : Aside i s (withdrawPass i (s.modStaging i (fun _ => Staging.empty))) := (modStaging_aside _).trans withdrawPass_aside
  have hdone := (hw.done s.buffers[i] { aborted := true }).trans
    (completeCurrent_joins (s := withdrawPass i (s.modStaging i (fun _ => Staging.empty))) _)
  have hend := endStream_joins (i := i)
    (s := completeCurrent i { aborted := true } (withdrawPass i (s.modStaging i (fun _ => Staging.empty)))) .aborted
  rw [(completeCurrent_recordsOnly i _ _).streams, State.modBuffers_streams, withdrawn_streams] at hend
  exact (hdone.streamRecord _).trans hend

theorem abortFast_joins :
    Aside i (if (s.streams[i]).state = .running then streamRecord i (.draining .aborted (s.streams[i]).begun) s else s)
      (abortFast i s) := by
  have h : Aside i s ((modHead i (fun d => { d with timer := none, flushDue := false })
      (withdrawPass i (s.modStaging i Staging.keepWriting))).modStream i
        (fun x => { x with state := .draining, endReason := some .aborted })) :=
    (((modStaging_aside _).trans withdrawPass_aside).trans (modBuffers_aside _)).trans (modStream_aside _ rfl)
  unfold abortFast
  dsimp only
  split
  · exact h.streamRecord _
  · exact h

theorem failStream_joins {d : Descriptor} {rest : List Descriptor} (hd : s.buffers[i] = d :: rest) :
    Aside i (streamRecord i (.faulted .writeError (s.streams[i]).begun (s.streams[i]).nextSequence)
      (joinOutbox i (d.doneRecord i { fault := true }) s)) (failStream i s) := by
  have hw : Aside i s (withdrawPass i (s.modStaging i (fun _ => Staging.empty))) := (modStaging_aside _).trans withdrawPass_aside
  have hdone := (hw.join (d.doneRecord i { fault := true })).trans
    (completeBuffer_joins (s := withdrawPass i (s.modStaging i (fun _ => Staging.empty))) hd _)
  have hstream : (completeBuffer i { fault := true } (withdrawPass i (s.modStaging i (fun _ => Staging.empty)))).streams[i]
      = { s.streams[i] with pass := none } := by
    rw [(completeBuffer_recordsOnly i _ _).streams, State.modBuffers_streams, withdrawn_streams]
  unfold failStream
  dsimp only
  rw [hstream]
  exact (hdone.trans (modStream_aside _ rfl)).streamRecord _

/-- An ARMED stream that ends changes streams, staging and converters besides its record. -/
theorem endArmed_records (reason : EndReason) : endArmed i reason s =
    { streamRecord i (.ended reason (s.streams[i]).begun (s.streams[i]).nextSequence) s with
      streams := (endArmed i reason s).streams, staging := (endArmed i reason s).staging
      converters := (endArmed i reason s).converters } := by
  have hnoted : (endArmed i reason s).becameEligible =
      (streamRecord i (.ended reason (s.streams[i]).begun (s.streams[i]).nextSequence) s).becameEligible := by
    rw [endArmed, endStream_becameEligible, streamRecord_becameEligible]
    rfl
  have hbuffers : (endArmed i reason s).buffers =
      (streamRecord i (.ended reason (s.streams[i]).begun (s.streams[i]).nextSequence) s).buffers := by
    rw [(endArmed_recordsOnly i reason s).buffers, (streamRecord_recordsOnly i _ s).buffers]
    rfl
  have e := (endArmed_joins (i := i) (s := s) reason).eq
  rw [hnoted, hbuffers] at e
  exact e

/-- A stream that enters IDLE changes its bank only besides its record. -/
theorem endStream_records (reason : EndReason) : endStream i reason s =
    { streamRecord i (.ended reason (s.streams[i]).begun (s.streams[i]).nextSequence) s with
      streams := (endStream i reason s).streams } := by
  have hr := endStream_recordsOnly i reason s
  have hu := streamRecord_recordsOnly i (.ended reason (s.streams[i]).begun (s.streams[i]).nextSequence) s
  have hnoted : (endStream i reason s).becameEligible =
      (streamRecord i (.ended reason (s.streams[i]).begun (s.streams[i]).nextSequence) s).becameEligible := by
    rw [endStream_becameEligible, streamRecord_becameEligible]
  have e := (endStream_joins (i := i) (s := s) reason).eq
  rw [hnoted, hr.buffers.trans hu.buffers.symm, hr.staging.trans hu.staging.symm, hr.converters.trans hu.converters.symm] at e
  exact e

/-- A completed current buffer leaves the buffers' bank only changed besides its record. -/
theorem completeCurrent_records (flags : BufferFlags) : completeCurrent i flags s =
    { joinDone i s.buffers[i] flags s with buffers := (completeCurrent i flags s).buffers } := by
  have hr := completeCurrent_recordsOnly i flags s
  have hu := joinDone_recordsOnly i s.buffers[i] flags s
  have hnoted : (completeCurrent i flags s).becameEligible = (joinDone i s.buffers[i] flags s).becameEligible := by
    rw [completeCurrent_becameEligible, joinDone_becameEligible]
  have e := (completeCurrent_joins (i := i) (s := s) flags).eq
  rw [hnoted, hr.streams.trans hu.streams.symm, hr.staging.trans hu.staging.symm, hr.converters.trans hu.converters.symm] at e
  exact e

theorem RecordsOnly.timebase (h : RecordsOnly s t) : t.timebase = s.timebase := by
  obtain ⟨_, _, _, _, rfl⟩ := h
  rfl

/-- What a function that joins the current buffer's record does, by the queue. -/
theorem joinDone_of_cases {done : BufferFlags → State → State}
    (h : ∀ f u, (∀ d rest, s.buffers[i] = d :: rest → 0 < d.blocks →
          done f u = joinOutbox i (.bufferDone i f d.tag d.fill d.blocks d.firstSequence d.lastSequence) u) ∧
        ((∀ d rest, s.buffers[i] = d :: rest → d.blocks = 0) → done f u = u)) (f : BufferFlags) (u : State) :
    done f u = joinDone i s.buffers[i] f u := by
  obtain ⟨hblocks, hnone⟩ := h f u
  cases hq : s.buffers[i] with
  | nil => exact hnone fun d rest e => by rw [hq] at e; cases e
  | cons d rest =>
    rw [joinDone_cons]
    by_cases hd : d.blocks = 0
    · rw [if_pos hd]
      exact hnone fun d' rest' e => by
        rw [hq] at e
        rw [← (List.cons.inj e).1]
        exact hd
    · rw [if_neg hd]
      exact hblocks d rest hq (Nat.pos_of_ne_zero hd)

/-- Settles O49. -/
theorem recordsJoinOutbox : Obligations.RecordsJoinOutbox := by
  intro i s
  refine ⟨fun record c hc hup => ⟨fun t hbox hp => joinOutbox_of_placed hc hup hbox hp,
      fun hbox hp => joinOutbox_of_not_placed hc hup hbox hp, fun hbox => joinOutbox_of_waiting record hc hup hbox⟩,
    fun record hdown => joinOutbox_of_down record hdown, fun send done t hsend hdone => ?_⟩
  have hsend' : ∀ (e : StreamEvent) (u : State), u.timebase = s.timebase → send e u = streamRecord i e u := by
    intro e u hu
    rw [hsend, ← hu]
    rfl
  have hone (e : StreamEvent) := hsend' e s rfl
  have htwo (e e' : StreamEvent) := hsend' e (streamRecord i e' s) (streamRecord_recordsOnly i e' s).timebase
  replace hdone := joinDone_of_cases hdone
  refine ⟨fun source c k hc hlater ht hk => ?_, fun source c T k hc hstop hreached ht hk => ?_, fun reason ht => ?_,
    fun reason ht => ?_, fun reason ht => ?_, fun flags ht => ?_, fun ht => ?_, fun ht => ?_, fun d rest hd ht => ?_⟩
  · obtain ⟨hj, hb, hcv⟩ := takeTrigger_joins hc hlater source
    rw [hk, ← historyOf_count, hone, ← ht]
    refine hj.eq_of_buffers ?_ ?_
    · rw [hb, (streamRecord_recordsOnly i _ s).buffers]
    · rw [hcv, streamRecord_converters]
  · rw [hk, ← historyOf_count, hone, htwo, ← ht]
    refine ⟨fun hleft => ?_, fun hpass hempty hwriting => ?_⟩
    · obtain ⟨hj, hb, hcv⟩ := takeTrigger_joins_draining hc hstop hreached source hleft
      refine hj.eq_of_buffers ?_ ?_
      · rw [hb, (streamRecord_recordsOnly i _ _).buffers, (streamRecord_recordsOnly i _ s).buffers]
      · rw [hcv, streamRecord_converters, streamRecord_converters]
    · obtain ⟨hj, hcv⟩ := takeTrigger_joins_ended hc hstop hreached source hpass hempty hwriting
      rw [hdone, hsend']
      · refine hj.eq_of_converters ?_
        rw [hcv, streamRecord_converters, (joinDone_recordsOnly i _ _ _).converters, streamRecord_converters,
          streamRecord_converters]
      · rw [(joinDone_recordsOnly i _ _ _).timebase, (streamRecord_recordsOnly i _ _).timebase,
          (streamRecord_recordsOnly i _ s).timebase]
  · rw [hone, ← ht]
    refine ⟨fun hleft => ?_, fun hpass hempty hwriting hreason => ?_⟩
    · obtain ⟨hj, hb⟩ := enterDraining_joins reason hleft
      refine hj.eq_of_buffers ?_ ?_
      · rw [hb, (streamRecord_recordsOnly i _ s).buffers]
      · rw [enterDraining_converters, streamRecord_converters]
    · have hj := enterDraining_joins_ended hpass hempty hwriting hreason
      rw [hdone, hsend']
      · refine hj.eq_of_converters ?_
        rw [enterDraining_converters, streamRecord_converters, (joinDone_recordsOnly i _ _ _).converters,
          streamRecord_converters]
      · rw [(joinDone_recordsOnly i _ _ _).timebase, (streamRecord_recordsOnly i _ s).timebase]
  · rw [hone, ← ht]
    exact endArmed_records reason
  · rw [hone, ← ht]
    exact endStream_records reason
  · rw [hdone, ← ht]
    exact completeCurrent_records flags
  · rw [hdone, hsend', ← ht]
    · refine abortNow_joins.eq_of_becameEligible ?_
      rw [abortNow, endStream_becameEligible, completeCurrent_becameEligible, streamRecord_becameEligible,
        joinDone_becameEligible]
      rfl
    · exact (joinDone_recordsOnly i _ _ _).timebase
  · rw [hone, ← ht]
    refine abortFast_joins.eq_of_becameEligible ?_
    unfold abortFast
    dsimp only
    split
    · rw [streamRecord_becameEligible, streamRecord_becameEligible]
      rfl
    · rfl
  · rw [hsend', ← ht]
    · refine (failStream_joins hd).eq_of_becameEligible ?_
      rw [failStream, streamRecord_becameEligible, streamRecord_becameEligible, joinOutbox_becameEligible,
        State.modStream_becameEligible, completeBuffer_becameEligible]
      rfl
    · exact (joinOutbox_recordsOnly i _ s).timebase

end Sys2Proof.Machine
end


-- ==== Sys2Proof/Proofs/TickTaken.lean ====
section
/-!
PROOFS. Proofs/TickTaken.lean: how a stream takes a tick of its generator (06_pacing_and_external_lines.md section 6.4,
01_streams.md section 1.5), and how the request of a pass reaches its converter (03_converters_and_passes.md section 3.2).
-/

namespace Sys2Proof.Machine

variable {i : StreamId} {s t u : State}

/-! ### A request at its converter -/

/-- A converter that has granted a request, written out (R46). -/
theorem grant_eq (x : Converter) (q : Request) (setting : ChannelSetting) (now : Nat) : x.grant q setting now = { x with
    conversion := some
      { owner := some q.stream, pass := q.pass, step := q.step, channel := q.channel, averaging := q.averaging,
        range := setting.range, settle := setting.settle,
        endsAt := now + ((if x.lastChannel = some q.channel then 0 else 1 + setting.settle.val) + 2 * q.averaging) * 50 }
    lastChannel := some q.channel
    grantPointer := q.stream } := by
  unfold Converter.grant stepPeriods periodsPerUs
  by_cases h : x.lastChannel = some q.channel
  · rw [if_pos h, if_neg (by simp [h])]
  · rw [if_neg h, if_pos (by simpa using h)]

/-- What the converters are once the request of a step has been placed: an idle converter of the step's channel grants it,
a busy one keeps it in the stream's slot, and every other converter is left alone (R37, R44, R46). -/
def State.RequestPlaced (s t : State) (i : StreamId) (pass k : Nat) (step : ScanStep) : Prop :=
  (∀ b : ConverterId, b.val = step.channel.val / 8 →
    ((s.converters[b]).conversion = none → t.converters[b] = { s.converters[b] with
      conversion := some
        { owner := some i, pass := pass, step := k, channel := step.channel, averaging := step.averaging,
          range := (s.channels[step.channel]).range, settle := (s.channels[step.channel]).settle,
          endsAt := s.elapsed + ((if (s.converters[b]).lastChannel = some step.channel then 0
            else 1 + (s.channels[step.channel]).settle.val) + 2 * step.averaging) * 50 }
      lastChannel := some step.channel
      grantPointer := i }) ∧
    ((s.converters[b]).conversion ≠ none → t.converters[b] = { s.converters[b] with
      slots := upd (s.converters[b]).slots i (fun _ => some ⟨i, pass, k, step.channel, step.averaging⟩) })) ∧
  (∀ b : ConverterId, b.val ≠ step.channel.val / 8 → t.converters[b] = s.converters[b])

theorem requestPlaced_of_upd {pass k : Nat} {step : ScanStep}
    (h : t.converters = upd s.converters (converterOf step.channel) (fun c =>
      c.takeRequest ⟨i, pass, k, step.channel, step.averaging⟩ s.channels[step.channel] s.elapsed)) :
    s.RequestPlaced t i pass k step := by
  refine ⟨fun b hb => ?_, fun b hb => ?_⟩
  · have e : b = converterOf step.channel := Fin.ext hb
    subst e
    obtain ⟨hidle, hbusy⟩ := takeRequest_cases (s.converters[converterOf step.channel])
      ⟨i, pass, k, step.channel, step.averaging⟩ s.channels[step.channel] s.elapsed
    rw [h, upd_same]
    exact ⟨fun hc => (hidle hc).trans (grant_eq _ _ _ _), hbusy⟩
  · rw [h]
    exact upd_other _ _ fun e => hb (congrArg Fin.val e)

/-! ### A pass begins -/

theorem stepsOf_modStream {f : StreamContext → StreamContext} (hf : (f s.streams[i]).config = (s.streams[i]).config) :
    (s.modStream i f).stepsOf i = s.stepsOf i := by
  unfold State.stepsOf
  rw [State.modStream_streams, upd_same, hf]
  rfl

theorem stepsOf_modStaging (i j : StreamId) (f : Staging → Staging) : (s.modStaging i f).stepsOf j = s.stepsOf j := rfl

theorem placeRequest_frame (i : StreamId) (s : State) : ∃ cv, placeRequest i s = { s with converters := cv } := by
  unfold placeRequest
  split
  · exact ⟨_, rfl⟩
  · split
    · exact ⟨_, rfl⟩
    · exact ⟨_, rfl⟩

theorem beginPass_frame (i : StreamId) (number : Option Word) (dropped : Nat) (s : State) :
    ∃ cv, beginPass i number dropped s = { (s.modStaging i (fun q =>
        q.append (newRecord s.nextPassId number s.timebase.count (s.stepsOf i).length dropped))).modStream i
          (fun x => { x with pass := some ⟨s.nextPassId, 0⟩ }) with
      nextPassId := s.nextPassId + 1, converters := cv } :=
  (placeRequest_frame i _).imp fun _ e => e

/-- What a pass that begins leaves at its stream, in the staging and in the count of passes. -/
theorem beginPass_banks (i : StreamId) (number : Option Word) (dropped : Nat) (s : State) :
    (beginPass i number dropped s).streams[i] = { s.streams[i] with pass := some ⟨s.nextPassId, 0⟩ } ∧
    (beginPass i number dropped s).nextPassId = s.nextPassId + 1 ∧
    (beginPass i number dropped s).staging[i] = ⟨(s.staging[i]).closed, (s.staging[i]).forming ++
      [⟨s.nextPassId, number, s.timebase.count, false, List.replicate (s.stepsOf i).length none, 0, dropped⟩]⟩ := by
  obtain ⟨cv, e⟩ := beginPass_frame i number dropped s
  rw [e]
  exact ⟨upd_same _ _ _, rfl, upd_same _ _ _⟩

/-- With room for a pass no history record is discarded (R64). -/
theorem makeRoom_of_room {q : Staging} {steps capacity : Nat} (hsteps : 1 ≤ steps)
    (h : q.slotsInUse steps + steps ≤ capacity) : q.makeRoom steps capacity = q := by
  unfold Staging.makeRoom
  dsimp only
  rw [Nat.sub_eq_zero_of_le h, Nat.zero_add, Nat.div_eq_of_lt (by omega)]
  rfl

/-! ### The branches of a tick -/

variable {c : StreamConfig} {p : PassInProgress}

theorem takeTick_of_idle (hc : (s.streams[i]).config = some c) (harmed : (s.streams[i]).state ≠ .armed)
    (hrunning : (s.streams[i]).state ≠ .running) : takeTick i s = s := by
  unfold takeTick
  dsimp only
  rw [hc]
  cases h : (s.streams[i]).state with
  | unconfigured | idle | draining | faulted => rfl
  | armed => exact absurd h harmed
  | running => exact absurd h hrunning

theorem takeTick_of_walking (hc : (s.streams[i]).config = some c) (hstate : (s.streams[i]).state = .armed)
    (hp : (s.streams[i]).pass = some p) : takeTick i s = s := by
  unfold takeTick
  dsimp only
  rw [hc, hstate, hp]
  rfl

theorem takeTick_of_armed (hc : (s.streams[i]).config = some c) (hstate : (s.streams[i]).state = .armed)
    (hp : (s.streams[i]).pass = none) : takeTick i s = beginHistory i s := by
  unfold takeTick
  dsimp only
  rw [hc, hstate, hp]
  rfl

theorem takeTick_of_slip (hc : (s.streams[i]).config = some c) (hstate : (s.streams[i]).state = .running)
    (hp : (s.streams[i]).pass = some p) : takeTick i s = takeSlip i c p s := by
  unfold takeTick
  dsimp only
  rw [hc, hstate, hp]

theorem takeTick_of_attempt (hc : (s.streams[i]).config = some c) (hstate : (s.streams[i]).state = .running)
    (hp : (s.streams[i]).pass = none) : takeTick i s = takeAttempt i c s := by
  unfold takeTick
  dsimp only
  rw [hc, hstate, hp]

/-- A stream whose attempt has been counted: the number is used up (R11). -/
def State.attempted (s : State) (i : StreamId) : State :=
  s.modStream i (fun x => { x with nextPass := some ((s.streams[i]).nextPass.getD 0 + 1), begun := satSucc limit32 x.begun })

theorem attempted_stream (s : State) (i : StreamId) : (s.attempted i).streams[i] = { s.streams[i] with
    nextPass := some ((s.streams[i]).nextPass.getD 0 + 1), begun := satSucc limit32 (s.streams[i]).begun } := upd_same _ _ _

theorem attempted_stepsOf (s : State) (i : StreamId) : (s.attempted i).stepsOf i = s.stepsOf i := stepsOf_modStream rfl

theorem takeAttempt_of_room (c : StreamConfig)
    (h : (s.staging[i]).slotsInUse (s.stepsOf i).length + (s.stepsOf i).length ≤ (s.streams[i]).capacity) :
    takeAttempt i c s = beginPass i (some ((s.streams[i]).nextPass.getD 0)) (s.streams[i]).droppedSince
      ((s.attempted i).modStream i (fun x => { x with droppedSince := 0 })) := by
  have hx := attempted_stream s i
  have hsteps := attempted_stepsOf s i
  unfold takeAttempt
  dsimp only
  rw [show s.modStream i _ = s.attempted i from rfl, hx, hsteps]
  exact if_pos h

theorem takeAttempt_of_full (c : StreamConfig)
    (h : (s.streams[i]).capacity < (s.staging[i]).slotsInUse (s.stepsOf i).length + (s.stepsOf i).length) :
    takeAttempt i c s = takeOverrun i c (s.attempted i) := by
  have hx := attempted_stream s i
  have hsteps := attempted_stepsOf s i
  unfold takeAttempt
  dsimp only
  rw [show s.modStream i _ = s.attempted i from rfl, hx, hsteps]
  exact if_neg (Nat.not_le.mpr h)

/-! ### Overruns and slips -/

/-- A stream whose overrun has been counted, the block in formation closed SHORT (R13, R70). -/
def State.overrun (s : State) (i : StreamId) : State :=
  clearSlips i (!(s.staging[i]).forming.isEmpty) ((s.modStream i (fun x =>
    { x with droppedSince := satSucc limit16 x.droppedSince, totalDropped := satSucc limit32 x.totalDropped })).modStaging i
      (fun q => q.close (s.streams[i]).slippedSince true false))

theorem countMet_iff (c : StreamConfig) (begun : Nat) : countMet c begun = true ↔ c.stop = .count begun := by
  unfold countMet
  cases c.stop with
  | none | line _ | time _ => simp
  | count n => simp [eq_comm]

theorem takeOverrun_of_halt (h : c.overrunPolicy = .halt) :
    takeOverrun i c s = noteEligible i s (enterDraining i .overrunHalt (s.overrun i)) := by
  unfold takeOverrun
  dsimp only
  rw [h]
  rfl

theorem takeOverrun_of_mark (h : c.overrunPolicy = .mark) :
    takeOverrun i c s = noteEligible i s (if countMet c ((s.overrun i).streams[i]).begun
      then enterDraining i .countReached (s.overrun i) else s.overrun i) := by
  unfold takeOverrun
  dsimp only
  rw [h]
  rfl

theorem modStream_congr {f g : StreamContext → StreamContext} (h : f s.streams[i] = g s.streams[i]) :
    s.modStream i f = s.modStream i g := congrArg (fun v => { s with streams := v }) (upd_congr h)

theorem close_eq (q : Staging) (slips : Nat) (short final : Bool) : q.close slips short final =
    if q.forming = [] then q else ⟨q.closed ++ [⟨q.forming, slips, short, final, false⟩], []⟩ := by
  unfold Staging.close
  cases q.forming with
  | nil => rfl
  | cons r l => rfl

/-- An attempt that finds no room, written out (R11, R13, R70). -/
theorem attempted_overrun (s : State) (i : StreamId) : (s.attempted i).overrun i = { s with
    streams := upd s.streams i (fun x => { x with
      nextPass := some (x.nextPass.getD 0 + 1), begun := min ((s.streams[i]).begun + 1) 4294967295
      droppedSince := min (x.droppedSince + 1) 65535, totalDropped := min (x.totalDropped + 1) 4294967295
      slippedSince := if (s.staging[i]).forming = [] then x.slippedSince else 0 })
    staging := upd s.staging i (fun q => if q.forming = [] then q
      else ⟨q.closed ++ [⟨q.forming, (s.streams[i]).slippedSince, true, false, false⟩], []⟩) } := by
  have hx := attempted_stream s i
  unfold State.overrun
  rw [hx]
  have hstaging : (fun q : Staging => q.close (s.streams[i]).slippedSince true false) = (fun q => if q.forming = [] then q
      else ⟨q.closed ++ [⟨q.forming, (s.streams[i]).slippedSince, true, false, false⟩], []⟩) :=
    funext fun q => close_eq q _ _ _
  dsimp only
  rw [hstaging, State.attempted, modStream_modStream, modStaging_modStream, State.modStream_staging]
  unfold clearSlips
  cases hf : (s.staging[i]).forming with
  | nil => exact (if_neg Bool.false_ne_true).trans (modStream_congr (s := s.modStaging i _) rfl)
  | cons e l => exact (if_pos rfl).trans ((modStream_modStream (s.modStaging i _) _ _ _).trans (modStream_congr rfl))

/-- A stream whose slip has been counted, in its counters and in the record of the pass that walks (R12, R66). -/
theorem takeSlip_of_mark (h : c.slipPolicy = .mark) : takeSlip i c p s = { s with
    streams := upd s.streams i (fun x => { x with
      slippedSince := min (x.slippedSince + 1) 65535, totalSlipped := min (x.totalSlipped + 1) 4294967295 })
    staging := upd s.staging i (fun q => { q with forming := q.forming.map (fun e =>
      if e.pass = p.pass then { e with slips := min (e.slips + 1) 65535 } else e) }) } := by
  unfold takeSlip
  dsimp only
  rw [h]
  rfl

theorem takeSlip_of_halt (h : c.slipPolicy = .halt) : takeSlip i c p s = enterDraining i .slipHalt { s with
    streams := upd s.streams i (fun x => { x with
      slippedSince := min (x.slippedSince + 1) 65535, totalSlipped := min (x.totalSlipped + 1) 4294967295 })
    staging := upd s.staging i (fun q => { q with forming := q.forming.map (fun e =>
      if e.pass = p.pass then { e with slips := min (e.slips + 1) 65535 } else e) }) } := by
  unfold takeSlip
  dsimp only
  rw [h]
  rfl

/-- A tick at a stream begins no pass unless it can. -/
theorem takeTick_converters (hc : (s.streams[i]).config = some c)
    (h : ¬((s.streams[i]).pass = none ∧ ((s.streams[i]).state = .armed ∨ ((s.streams[i]).state = .running ∧
      (s.staging[i]).slotsInUse (s.stepsOf i).length + (s.stepsOf i).length ≤ (s.streams[i]).capacity)))) :
    (takeTick i s).converters = s.converters := by
  by_cases harmed : (s.streams[i]).state = .armed
  · cases hp : (s.streams[i]).pass with
    | none => exact absurd ⟨hp, .inl harmed⟩ h
    | some p => rw [takeTick_of_walking hc harmed hp]
  · by_cases hrunning : (s.streams[i]).state = .running
    · cases hp : (s.streams[i]).pass with
      | none =>
        have hfull := fun hroom => h ⟨hp, .inr ⟨hrunning, hroom⟩⟩
        rw [takeTick_of_attempt hc hrunning hp, takeAttempt_of_full c (Nat.lt_of_not_le hfull), takeOverrun_converters]
        rfl
      | some p => rw [takeTick_of_slip hc hrunning hp, takeSlip_converters]
    · rw [takeTick_of_idle hc harmed hrunning]

/-- The request of a pass that a tick begins (R7, R11, R49). -/
theorem takeTick_requests (hc : (s.streams[i]).config = some c) {step : ScanStep} (hstep : (s.stepsOf i)[0]? = some step)
    (hp : (s.streams[i]).pass = none)
    (h : (s.streams[i]).state = .armed ∨ ((s.streams[i]).state = .running ∧
      (s.staging[i]).slotsInUse (s.stepsOf i).length + (s.stepsOf i).length ≤ (s.streams[i]).capacity)) :
    s.RequestPlaced (takeTick i s) i s.nextPassId 0 step := by
  refine requestPlaced_of_upd ?_
  rcases h with harmed | ⟨hrunning, hroom⟩
  · rw [takeTick_of_armed hc harmed hp]
    exact beginPass_converters (s := s.modStaging i _) _ _ hstep
  · rw [takeTick_of_attempt hc hrunning hp, takeAttempt_of_room c hroom]
    refine beginPass_converters (s := (s.attempted i).modStream i _) _ _ ?_
    rw [stepsOf_modStream rfl, attempted_stepsOf]
    exact hstep

/-- A drain that only the model's list keeps apart from what was drained. -/
theorem Noted.drained {v w : State} {reason : EndReason} (h : Noted v w) (i : StreamId) (r : State) :
    noteEligible i r (Machine.enterDraining i reason v) = { Machine.enterDraining i reason w with
      becameEligible := (noteEligible i r (Machine.enterDraining i reason v)).becameEligible } :=
  ((h.symm.enterDraining i reason).trans (noteEligible_noted i r _)).eq

theorem overrun_stream (s : State) (i : StreamId) : ((s.attempted i).overrun i).streams[i] = { s.streams[i] with
    nextPass := some ((s.streams[i]).nextPass.getD 0 + 1), begun := min ((s.streams[i]).begun + 1) 4294967295
    droppedSince := min ((s.streams[i]).droppedSince + 1) 65535
    totalDropped := min ((s.streams[i]).totalDropped + 1) 4294967295
    slippedSince := if (s.staging[i]).forming = [] then (s.streams[i]).slippedSince else 0 } := by
  rw [attempted_overrun]
  exact upd_same _ _ _

theorem overrun_staged (h : (s.staging[i]).forming ≠ [] ∨ (s.staging[i]).closed ≠ []) :
    ((s.attempted i).overrun i).staging[i] ≠ Staging.empty := by
  rw [attempted_overrun]
  dsimp only
  rw [upd_same]
  split
  · next hf => exact fun hq => (h.resolve_left (not_not.mpr hf)) (congrArg Staging.closed hq)
  · exact fun hq => by simpa [Staging.empty] using congrArg Staging.closed hq

/-- An overrun that drains its stream (R13, R14). -/
theorem takeOverrun_drains {reason : EndReason} {begun : Nat} (hbegun : begun = min ((s.streams[i]).begun + 1) 4294967295)
    (h : (c.overrunPolicy = .halt ∧ reason = .overrunHalt) ∨
      (c.overrunPolicy = .mark ∧ c.stop = .count begun ∧ reason = .countReached)) :
    takeOverrun i c (s.attempted i)
      = noteEligible i (s.attempted i) (enterDraining i reason ((s.attempted i).overrun i)) := by
  rcases h with ⟨hpolicy, hr⟩ | ⟨hpolicy, hstop, hr⟩
  · rw [takeOverrun_of_halt hpolicy, hr]
  · rw [takeOverrun_of_mark hpolicy, if_pos, hr]
    rw [countMet_iff, overrun_stream, hstop, hbegun]

/-- Settles O39. -/
theorem tickAtAStream : Obligations.TickAtAStream := by
  intro i s t c p S ht hc hS
  refine ⟨fun harmed hrunning => ?_, fun hstate hp => ?_, fun hstate hp hS1 hclosed hroom => ?_, fun hstate hp hroom => ?_,
    fun hstate hp hfull begun u hbegun hu => ?_, fun hstate hp hmark => ?_, fun hstate hp u hu => ⟨fun hmark => ?_, fun hhalt => ?_⟩,
    fun step hstep hp h => ?_, fun h => ?_⟩
  · rw [← ht, takeTick_of_idle hc harmed hrunning]
  · rw [← ht, takeTick_of_walking hc hstate hp]
  · have hmakeRoom : s.modStaging i (fun q => q.makeRoom (s.stepsOf i).length (s.streams[i]).capacity) = s :=
      congrArg (fun v => { s with staging := v }) (upd_fixed (by rw [hS]; exact makeRoom_of_room hS1 hroom))
    obtain ⟨hx, hn, hq⟩ := beginPass_banks i none 0 s
    rw [takeTick_of_armed hc hstate hp, beginHistory, hmakeRoom] at ht
    rw [hS, hclosed] at hq
    rw [← ht]
    exact ⟨hx, hn, hq⟩
  · rw [takeTick_of_attempt hc hstate hp, takeAttempt_of_room c (by rw [hS]; exact hroom)] at ht
    obtain ⟨hx, hn, hq⟩ := beginPass_banks i (some ((s.streams[i]).nextPass.getD 0)) (s.streams[i]).droppedSince
      ((s.attempted i).modStream i (fun x => { x with droppedSince := 0 }))
    rw [stepsOf_modStream rfl, attempted_stepsOf, hS] at hq
    rw [← ht]
    refine ⟨hx.trans ?_, hn, hq⟩
    rw [State.modStream_streams, upd_same, attempted_stream]
    rfl
  · rw [takeTick_of_attempt hc hstate hp, takeAttempt_of_full c (by rw [hS]; exact hfull)] at ht
    have hnoted : Noted ((s.attempted i).overrun i) u := ⟨t.becameEligible, by rw [hu, attempted_overrun, hbegun]⟩
    refine ⟨fun hpolicy hstop => ?_, fun reason h => ?_⟩
    · rw [takeOverrun_of_mark hpolicy, if_neg] at ht
      · rw [← ht, (noteEligible_noted i (s.attempted i) _).eq, ht, hu, attempted_overrun, hbegun]
      · rw [countMet_iff, overrun_stream]
        exact fun hs => hstop (by rw [hs, hbegun])
    · rw [takeOverrun_drains hbegun h] at ht
      have hreason : reason ≠ .aborted := by
        rcases h with ⟨_, rfl⟩ | ⟨_, _, rfl⟩ <;> decide
      obtain ⟨state, n, hstates, hstays, _, hx⟩ := enterDraining_stream (i := i) (s := (s.attempted i).overrun i) hreason
      have htx : t.streams[i] = (enterDraining i reason ((s.attempted i).overrun i)).streams[i] := by
        rw [← ht, (noteEligible_recordsOnly i _ _).streams]
      rw [hx, overrun_stream] at htx
      refine ⟨?_, by rw [htx], by rw [htx, hbegun], by rw [htx]; exact hstates, fun hstaged => ?_⟩
      · rw [← ht]
        exact hnoted.drained i _
      · rw [htx]
        exact hstays (.inr (overrun_staged hstaged))
  · rw [takeTick_of_slip hc hstate hp, takeSlip_of_mark hmark] at ht
    rw [← ht]
    exact ⟨upd_same _ _ _, upd_same _ _ _⟩
  · rw [takeTick_of_slip hc hstate hp, takeSlip_of_mark hmark] at ht
    rw [hu, ← ht]
  · rw [takeTick_of_slip hc hstate hp, takeSlip_of_halt hhalt, ← hu] at ht
    have hpass : (u.streams[i]).pass = some p := by
      rw [hu]
      exact (congrArg StreamContext.pass (upd_same _ _ _)).trans hp
    have hr := enterDraining_walks (i := i) (s := u) .slipHalt (by rw [hpass]; exact Option.some_ne_none p)
    rw [ht] at hr
    have hx : t.streams[i] = { u.streams[i] with state := .draining, endReason := some .slipHalt } := by
      rw [hr.streams]
      exact upd_same _ _ _
    exact ⟨ht.symm, hr.staging, hx, by rw [hx]; exact hpass⟩
  · rw [← ht]
    exact takeTick_requests hc hstep hp (by rw [hS]; exact h)
  · rw [← ht]
    exact takeTick_converters hc (by rw [hS]; exact h)

end Sys2Proof.Machine
end


-- ==== Sys2Proof/Proofs/ReturnTaken.lean ====
section
/-!
PROOFS. Proofs/ReturnTaken.lean: how a stream takes a return (03_converters_and_passes.md section 3.5): the next step and
its request, or the completion of the pass by the stream's state (04_sample_store_and_staging.md sections 4.4 and 4.5).
-/

namespace Sys2Proof.Machine

variable {i : StreamId} {s t u v : State} {c : StreamConfig} {p : PassInProgress} {r : Return} {step : ScanStep}

/-! ### What a completion leaves alone -/

/-- Of the banks only the streams', the staging's, the buffers' and those of the records may differ. -/
def PassBanksOnly (s t : State) : Prop :=
  ∃ st sg bf R B O be, t = { s with
    streams := st, staging := sg, buffers := bf, rings := R, bus := B, outboxes := O, becameEligible := be }

theorem PassBanksOnly.refl (s : State) : PassBanksOnly s s := ⟨_, _, _, _, _, _, _, rfl⟩

theorem PassBanksOnly.trans (h : PassBanksOnly s t) (k : PassBanksOnly t u) : PassBanksOnly s u := by
  obtain ⟨_, _, _, _, _, _, _, rfl⟩ := h
  obtain ⟨_, _, _, _, _, _, _, rfl⟩ := k
  exact ⟨_, _, _, _, _, _, _, rfl⟩

theorem RecordsOnly.banks (h : RecordsOnly s t) : PassBanksOnly s t := by
  obtain ⟨_, _, _, _, rfl⟩ := h
  exact ⟨_, _, _, _, _, _, _, rfl⟩

theorem modStream_banks (f : StreamContext → StreamContext) : PassBanksOnly s (s.modStream i f) :=
  ⟨_, _, _, _, _, _, _, rfl⟩

theorem modStaging_banks (f : Staging → Staging) : PassBanksOnly s (s.modStaging i f) := ⟨_, _, _, _, _, _, _, rfl⟩

theorem modBuffers_banks (f : List Descriptor → List Descriptor) : PassBanksOnly s (s.modBuffers i f) :=
  ⟨_, _, _, _, _, _, _, rfl⟩

theorem noteEligible_banks (i : StreamId) (s t : State) : PassBanksOnly t (noteEligible i s t) :=
  (noteEligible_recordsOnly i s t).banks

theorem endStream_banks (i : StreamId) (reason : EndReason) (s : State) : PassBanksOnly s (endStream i reason s) :=
  (modStream_banks _).trans (endStream_recordsOnly i reason s).banks

theorem completeCurrent_banks (i : StreamId) (flags : BufferFlags) (s : State) :
    PassBanksOnly s (completeCurrent i flags s) :=
  (modBuffers_banks _).trans (completeCurrent_recordsOnly i flags s).banks

theorem drainEndMark_banks (i : StreamId) (s : State) : PassBanksOnly s (drainEndMark i s) := by
  obtain ⟨st, sg, e⟩ := drainEndMark_frame i s
  exact ⟨st, sg, _, _, _, _, _, e⟩

theorem clearSlips_banks (i : StreamId) (closes : Bool) (s : State) : PassBanksOnly s (clearSlips i closes s) := by
  unfold clearSlips
  split
  · exact modStream_banks _
  · exact PassBanksOnly.refl s

theorem drainComplete_banks (i : StreamId) (s : State) : PassBanksOnly s (drainComplete i s) := by
  unfold drainComplete
  dsimp only
  split
  · split
    · exact (completeCurrent_banks i _ s).trans (endStream_banks i _ _)
    · exact PassBanksOnly.refl s
  · exact PassBanksOnly.refl s

theorem enterDraining_banks (i : StreamId) (reason : EndReason) (s : State) :
    PassBanksOnly s (enterDraining i reason s) := by
  have h : PassBanksOnly s (streamRecord i (.draining reason (s.streams[i]).begun)
      (s.modStream i (fun x => { x with state := .draining, endReason := some reason }))) :=
    (modStream_banks _).trans (streamRecord_recordsOnly i _ _).banks
  unfold enterDraining
  dsimp only
  refine PassBanksOnly.trans ?_ (noteEligible_banks i _ _)
  split
  · exact (h.trans (drainEndMark_banks i _)).trans (drainComplete_banks i _)
  · exact h

theorem countPass_banks (i : StreamId) (c : StreamConfig) (s : State) : PassBanksOnly s (countPass i c s) :=
  ((modStream_banks _).trans (modStaging_banks _)).trans (clearSlips_banks i _ _)

theorem completePass_banks (i : StreamId) (c : StreamConfig) (p : PassInProgress) (s : State) :
    PassBanksOnly s (completePass i c p s) := by
  have h : PassBanksOnly s ((s.modStaging i (fun q => q.modRecord p.pass (fun r => { r with complete := true }))).modStream i
      (fun x => { x with pass := none })) := (modStaging_banks _).trans (modStream_banks _)
  unfold completePass
  dsimp only
  refine PassBanksOnly.trans ?_ (noteEligible_banks i _ _)
  split
  · exact h.trans (modStaging_banks _)
  · split
    · split
      · exact (h.trans (countPass_banks i c _)).trans (enterDraining_banks i _ _)
      · exact h.trans (countPass_banks i c _)
    · exact h.trans (modStaging_banks _)
  · refine PassBanksOnly.trans (PassBanksOnly.trans (h.trans ?_) (drainEndMark_banks i _)) (drainComplete_banks i _)
    split
    · exact countPass_banks i c _
    · exact modStaging_banks _
  all_goals exact h

/-! ### The slot of a return, and what comes next -/

/-- A return has filled its slot and has been offered by an active stream (R50, R52). -/
def State.filledBy (s : State) (i : StreamId) (p : PassInProgress) (r : Return) (step : ScanStep) : State :=
  { s.modStaging i (fun q => q.modRecord p.pass (fun e => e.writeSlot p.step r.sample)) with
    offers := if (s.streams[i]).state.active = true
      then s.offers ++ [⟨i, step.channel, r.sample, r.time, ((s.staging[i]).findRecord p.pass).bind (·.number)⟩]
      else s.offers }

theorem takeReturn_of_other (h : ∀ p, (s.streams[i]).pass = some p → r.pass ≠ p.pass ∨ r.step ≠ p.step) :
    takeReturn i r s = s := by
  unfold takeReturn
  dsimp only
  cases (s.streams[i]).config with
  | none => rfl
  | some c =>
    cases hp : (s.streams[i]).pass with
    | none => rfl
    | some p => exact if_pos (h p hp)

/-- A return of the step that a pass walks: the next step is requested, or the pass completes (R50, R51). -/
theorem takeReturn_of_match (hc : (s.streams[i]).config = some c) (hp : (s.streams[i]).pass = some p)
    (hpass : r.pass = p.pass) (hat : r.step = p.step) (hstep : (s.stepsOf i)[p.step]? = some step) :
    takeReturn i r s = if p.step + 1 < (s.stepsOf i).length
      then placeRequest i ((s.filledBy i p r step).modStream i (fun x => { x with pass := some { p with step := p.step + 1 } }))
      else completePass i c p (s.filledBy i p r step) := by
  unfold takeReturn State.filledBy
  dsimp only
  rw [hc, hp]
  dsimp only
  rw [if_neg (by rw [hpass, hat]; simp), hstep]
  dsimp only
  by_cases hactive : (s.streams[i]).state.active = true
  · rw [if_pos hactive, if_pos hactive]
    rfl
  · rw [if_neg hactive, if_neg hactive]
    rfl

/-- A staging queue in which the last step of a pass has filled its slot (R50, R51). -/
def completed (p : PassInProgress) (sample : Sample) (forming : List PassRecord) : List PassRecord :=
  forming.map (fun e => if e.pass = p.pass then { e with slots := e.slots.set p.step (some sample), complete := true } else e)

theorem modRecord_completed (q : Staging) (p : PassInProgress) (sample : Sample) :
    (q.modRecord p.pass (fun e => e.writeSlot p.step sample)).modRecord p.pass (fun e => { e with complete := true })
      = { q with forming := completed p sample q.forming } := by
  unfold Staging.modRecord completed
  rw [List.map_map]
  refine congrArg (fun l => { q with forming := l }) (List.map_congr_left fun e _ => ?_)
  by_cases h : e.pass = p.pass
  · simp [Function.comp, PassRecord.writeSlot, h]
  · simp [Function.comp, h]

theorem find_completed (p : PassInProgress) (sample : Sample) (l : List PassRecord) :
    ((completed p sample l).find? (fun e => e.pass == p.pass)).bind (·.number)
      = (l.find? (fun e => e.pass == p.pass)).bind (·.number) := by
  induction l with
  | nil => rfl
  | cons e l ih =>
    unfold completed at ih ⊢
    by_cases h : e.pass = p.pass
    · simp [h]
    · rw [List.map_cons, if_neg h, List.find?_cons_of_neg (by simpa using h), List.find?_cons_of_neg (by simpa using h), ih]

/-! ### The completion of a pass -/

/-- The pass in progress has ended: its record is complete, and the stream has none in progress (R51). -/
def State.passEnded (v : State) (i : StreamId) (p : PassInProgress) : State :=
  (v.modStaging i (fun q => q.modRecord p.pass (fun r => { r with complete := true }))).modStream i
    (fun x => { x with pass := none })

theorem passEnded_state (v : State) (i : StreamId) (p : PassInProgress) :
    ((v.passEnded i p).streams[i]).state = (v.streams[i]).state := by
  unfold State.passEnded
  rw [State.modStream_streams, upd_same]
  rfl

/-- Whether the pass that has ended has a number. -/
def State.numbered (w : State) (i : StreamId) (p : PassInProgress) : Bool :=
  (((w.staging[i]).findRecord p.pass).bind (·.number)).isSome

/-- A pass that has ended counts when it has a number, and is discarded when it has none (R11, R68, R69). -/
def State.settled (w : State) (i : StreamId) (c : StreamConfig) (p : PassInProgress) : State :=
  if w.numbered i p = true then countPass i c w else w.modStaging i (fun q => q.dropRecord p.pass)

theorem completePass_of_armed (h : (v.streams[i]).state = .armed) :
    completePass i c p v = noteEligible i v ((v.passEnded i p).modStaging i (fun q => q.trim c.depth)) := by
  have hstate : ((v.passEnded i p).streams[i]).state = .armed := (passEnded_state v i p).trans h
  unfold completePass
  dsimp only
  rw [show (v.modStaging i _).modStream i _ = v.passEnded i p from rfl, hstate]

theorem completePass_of_running (h : (v.streams[i]).state = .running) :
    completePass i c p v = noteEligible i v
      (if (v.passEnded i p).numbered i p = true ∧
          countMet c (((v.passEnded i p).settled i c p).streams[i]).begun = true
        then enterDraining i .countReached ((v.passEnded i p).settled i c p) else (v.passEnded i p).settled i c p) := by
  have hstate : ((v.passEnded i p).streams[i]).state = .running := (passEnded_state v i p).trans h
  unfold completePass
  dsimp only
  rw [show (v.modStaging i _).modStream i _ = v.passEnded i p from rfl, hstate]
  dsimp only
  rw [show (((v.passEnded i p).staging[i]).findRecord p.pass).bind (·.number) = _ from rfl]
  by_cases hn : (v.passEnded i p).numbered i p = true
  · have hs : (v.passEnded i p).settled i c p = countPass i c (v.passEnded i p) := if_pos hn
    rw [hs]
    by_cases hm : countMet c ((countPass i c (v.passEnded i p)).streams[i]).begun = true
    · exact congrArg _ ((if_pos hn).trans ((if_pos hm).trans (if_pos ⟨hn, hm⟩).symm))
    · exact congrArg _ ((if_pos hn).trans ((if_neg hm).trans (if_neg (not_and_of_not_right _ hm)).symm))
  · have hs : (v.passEnded i p).settled i c p = (v.passEnded i p).modStaging i (fun q => q.dropRecord p.pass) := if_neg hn
    rw [hs]
    exact congrArg _ ((if_neg hn).trans (if_neg (not_and_of_not_left _ hn)).symm)

theorem completePass_of_draining (h : (v.streams[i]).state = .draining) :
    completePass i c p v = noteEligible i v (drainComplete i (drainEndMark i ((v.passEnded i p).settled i c p))) := by
  have hstate : ((v.passEnded i p).streams[i]).state = .draining := (passEnded_state v i p).trans h
  unfold completePass
  dsimp only
  rw [show (v.modStaging i _).modStream i _ = v.passEnded i p from rfl, hstate]
  rfl

theorem completePass_of_others (harmed : (v.streams[i]).state ≠ .armed) (hrunning : (v.streams[i]).state ≠ .running)
    (hdraining : (v.streams[i]).state ≠ .draining) : completePass i c p v = noteEligible i v (v.passEnded i p) := by
  unfold completePass
  dsimp only
  rw [show (v.modStaging i _).modStream i _ = v.passEnded i p from rfl, passEnded_state]
  cases hs : (v.streams[i]).state with
  | unconfigured | idle | faulted => rfl
  | armed => exact absurd hs harmed
  | running => exact absurd hs hrunning
  | draining => exact absurd hs hdraining

/-! ### The banks after the last step -/

theorem modStaging_modStaging (s : State) (i : StreamId) (f g : Staging → Staging) :
    (s.modStaging i f).modStaging i g = s.modStaging i (fun x => g (f x)) :=
  congrArg (fun v => { s with staging := v }) (upd_upd s.staging i f g)

theorem modStaging_congr {f g : Staging → Staging} (h : f s.staging[i] = g s.staging[i]) :
    s.modStaging i f = s.modStaging i g := congrArg (fun v => { s with staging := v }) (upd_congr h)

/-- The last return of a pass has filled its slot, and the pass has ended. -/
theorem filledBy_passEnded (s : State) (i : StreamId) (p : PassInProgress) (r : Return) (step : ScanStep) :
    (s.filledBy i p r step).passEnded i p = { s with
      offers := (s.filledBy i p r step).offers
      streams := upd s.streams i (fun x => { x with pass := none })
      staging := upd s.staging i (fun q => { q with forming := completed p r.sample q.forming }) } := by
  have e : (s.modStaging i (fun q => q.modRecord p.pass (fun e => e.writeSlot p.step r.sample))).modStaging i
      (fun q => q.modRecord p.pass (fun r => { r with complete := true }))
      = s.modStaging i (fun q => { q with forming := completed p r.sample q.forming }) :=
    (modStaging_modStaging _ _ _ _).trans (modStaging_congr (modRecord_completed _ _ _))
  exact congrArg (fun w : State => { w with
    offers := (s.filledBy i p r step).offers, streams := upd s.streams i (fun x => { x with pass := none }) }) e

theorem filledBy_numbered (s : State) (i : StreamId) (p : PassInProgress) (r : Return) (step : ScanStep) :
    ((s.filledBy i p r step).passEnded i p).numbered i p = (((s.staging[i]).findRecord p.pass).bind (·.number)).isSome := by
  rw [filledBy_passEnded]
  unfold State.numbered Staging.findRecord
  dsimp only
  rw [upd_same]
  exact congrArg Option.isSome (find_completed p r.sample _)

/-- The stream's bank after a pass has ended and has been counted or discarded (R11, R69). -/
def StreamContext.afterPass (x : StreamContext) (numbered closes : Bool) : StreamContext :=
  { x with
    pass := none
    totalCompleted := if numbered = true then min (x.totalCompleted + 1) 4294967295 else x.totalCompleted
    slippedSince := if closes = true then 0 else x.slippedSince }

/-- The staging queue then: an unnumbered pass is discarded, P complete records close the block (R68, R69). -/
def afterPass (p : PassInProgress) (numbered closes : Bool) (slips : Nat) (closed : List Block) (filled : List PassRecord) :
    Staging :=
  if numbered = false then ⟨closed, filled.filter (fun e => e.pass != p.pass)⟩
  else if closes = true then ⟨closed ++ [⟨filled, slips, false, false, false⟩], []⟩
  else ⟨closed, filled⟩

theorem countPass_eq (w : State) (i : StreamId) (c : StreamConfig) : countPass i c w =
    clearSlips i ((w.staging[i]).full c.passesPerBlock) ((w.modStream i (fun x =>
      { x with totalCompleted := min (x.totalCompleted + 1) 4294967295 })).modStaging i (fun q =>
        if (w.staging[i]).full c.passesPerBlock then q.close (w.streams[i]).slippedSince false false else q)) := by
  have hx : ((w.modStream i (fun x => { x with totalCompleted := satSucc limit32 x.totalCompleted })).streams[i]).slippedSince
      = (w.streams[i]).slippedSince := by
    rw [State.modStream_streams, upd_same]
  unfold countPass
  dsimp only
  rw [hx]
  rfl

theorem modBanks_congr {w : State} {f f' : StreamContext → StreamContext} {g g' : Staging → Staging}
    (hf : f w.streams[i] = f' w.streams[i]) (hg : g w.staging[i] = g' w.staging[i]) :
    (w.modStream i f).modStaging i g = { w with streams := upd w.streams i f', staging := upd w.staging i g' } := by
  rw [modStream_congr hf, modStaging_modStream, modStaging_congr hg]
  rfl

theorem clearSlips_true (i : StreamId) (s : State) :
    clearSlips i true s = s.modStream i (fun x => { x with slippedSince := 0 }) := rfl

theorem clearSlips_false (i : StreamId) (s : State) : clearSlips i false s = s := rfl

/-- A numbered pass that ends, written out. -/
theorem countPass_after (w : State) (hP : 1 ≤ c.passesPerBlock) (hx : (w.streams[i]).pass = none) :
    countPass i c w = { w with
      streams := upd w.streams i (fun x => x.afterPass true ((w.staging[i]).full c.passesPerBlock))
      staging := upd w.staging i (fun q => afterPass p true ((w.staging[i]).full c.passesPerBlock)
        (w.streams[i]).slippedSince q.closed q.forming) } := by
  have hpass : (w.streams[i]) = { w.streams[i] with pass := none } := by rw [← hx]
  rw [countPass_eq]
  cases hfull : (w.staging[i]).full c.passesPerBlock with
  | false =>
    rw [clearSlips_false]
    refine modBanks_congr ?_ rfl
    unfold StreamContext.afterPass
    rw [hpass]
    rfl
  | true =>
    have hforming : (w.staging[i]).forming ≠ [] := by
      intro hf
      unfold Staging.full Staging.completeCount at hfull
      rw [hf] at hfull
      simp at hfull
      omega
    rw [clearSlips_true, modStaging_modStream, modStream_modStream, ← modStaging_modStream]
    refine modBanks_congr ?_ ?_
    · unfold StreamContext.afterPass
      rw [hpass]
      rfl
    · rw [if_pos rfl, close_eq, if_neg hforming]
      rfl

theorem settled_after (w : State) (hP : 1 ≤ c.passesPerBlock) (hx : (w.streams[i]).pass = none) {numbered closes : Bool}
    (hn : w.numbered i p = numbered) (hcl : closes = (numbered && (w.staging[i]).full c.passesPerBlock)) :
    w.settled i c p = { w with
      streams := upd w.streams i (fun x => x.afterPass numbered closes)
      staging := upd w.staging i (fun q => afterPass p numbered closes (w.streams[i]).slippedSince q.closed q.forming) } := by
  cases numbered with
  | true =>
    rw [State.settled, if_pos hn, hcl, countPass_after w hP hx]
    rfl
  | false =>
    have hpass : (w.streams[i]).afterPass false closes = w.streams[i] := by
      unfold StreamContext.afterPass
      rw [hcl, ← hx]
      rfl
    rw [State.settled, if_neg (by rw [hn]; decide), upd_fixed hpass]
    rfl

/-! ### No pass is in progress afterwards -/

theorem drainComplete_cases (i : StreamId) (s : State) : drainComplete i s = s ∨
    ∃ reason, drainComplete i s = endStream i reason (completeCurrent i { final := true } s) := by
  unfold drainComplete
  dsimp only
  split
  · split
    · exact .inr ⟨_, rfl⟩
    · exact .inl rfl
  · exact .inl rfl

theorem drainComplete_pass (i : StreamId) (s : State) :
    ((drainComplete i s).streams[i]).pass = (s.streams[i]).pass := by
  rcases drainComplete_cases i s with h | ⟨reason, h⟩
  · rw [h]
  · rw [h, (endStream_recordsOnly i _ _).streams, State.modStream_streams, upd_same, (completeCurrent_recordsOnly i _ s).streams]
    rfl

theorem drainEndMark_pass (i : StreamId) (s : State) : ((drainEndMark i s).streams[i]).pass = (s.streams[i]).pass := by
  obtain ⟨n, e⟩ := drainEndMark_stream i s
  rw [e]

theorem passEnded_pass (v : State) (i : StreamId) (p : PassInProgress) : ((v.passEnded i p).streams[i]).pass = none := by
  unfold State.passEnded
  rw [State.modStream_streams, upd_same]

theorem settled_pass (w : State) (i : StreamId) (c : StreamConfig) (p : PassInProgress) :
    ((w.settled i c p).streams[i]).pass = (w.streams[i]).pass := by
  cases hn : w.numbered i p with
  | true =>
    rw [State.settled, if_pos hn, countPass_eq]
    cases (w.staging[i]).full c.passesPerBlock with
    | true =>
      rw [clearSlips_true, State.modStream_streams, upd_same, State.modStaging_streams, State.modStream_streams, upd_same]
    | false => rw [clearSlips_false, State.modStaging_streams, State.modStream_streams, upd_same]
  | false =>
    rw [State.settled, if_neg (by rw [hn]; decide)]
    rfl

theorem completePass_pass (i : StreamId) (c : StreamConfig) (p : PassInProgress) (v : State) :
    ((completePass i c p v).streams[i]).pass = none := by
  by_cases harmed : (v.streams[i]).state = .armed
  · rw [completePass_of_armed harmed, (noteEligible_recordsOnly i v _).streams]
    exact passEnded_pass v i p
  · by_cases hrunning : (v.streams[i]).state = .running
    · rw [completePass_of_running hrunning, (noteEligible_recordsOnly i v _).streams]
      split
      · obtain ⟨_, _, _, _, _, e⟩ := enterDraining_stream (i := i) (s := (v.passEnded i p).settled i c p)
          (reason := .countReached) (by decide)
        rw [e]
        exact (settled_pass _ i c p).trans (passEnded_pass v i p)
      · exact (settled_pass _ i c p).trans (passEnded_pass v i p)
    · by_cases hdraining : (v.streams[i]).state = .draining
      · rw [completePass_of_draining hdraining, (noteEligible_recordsOnly i v _).streams, drainComplete_pass, drainEndMark_pass,
          settled_pass]
        exact passEnded_pass v i p
      · rw [completePass_of_others harmed hrunning hdraining, (noteEligible_recordsOnly i v _).streams]
        exact passEnded_pass v i p

/-! ### An ARMED stream -/

theorem completed_all {sample : Sample} {l : List PassRecord} (h : ∀ e ∈ l, e.pass = p.pass ∨ e.complete = true) :
    (completed p sample l).filter (·.complete) = completed p sample l := by
  rw [List.filter_eq_self]
  intro e he
  obtain ⟨d, hd, rfl⟩ := List.mem_map.mp he
  by_cases hp : d.pass = p.pass
  · rw [if_pos hp]
  · rw [if_neg hp]
    exact (h d hd).resolve_left hp

theorem completePass_armed_banks (h : (s.streams[i]).state = .armed) :
    (completePass i c p (s.filledBy i p r step)).streams[i] = { s.streams[i] with pass := none } ∧
    (completePass i c p (s.filledBy i p r step)).staging[i] = ⟨(s.staging[i]).closed,
      (completed p r.sample (s.staging[i]).forming).drop
        (((completed p r.sample (s.staging[i]).forming).filter (·.complete)).length - c.depth)⟩ := by
  rw [completePass_of_armed (v := s.filledBy i p r step) h, (noteEligible_recordsOnly i _ _).streams,
    (noteEligible_recordsOnly i _ _).staging, filledBy_passEnded]
  refine ⟨upd_same _ _ _, ?_⟩
  rw [State.modStaging_staging, upd_same, upd_same]
  rfl

/-- The stream and its staging once its last step is settled. -/
theorem filledBy_settled (s : State) (r : Return) (step : ScanStep) (hP : 1 ≤ c.passesPerBlock) {number : Option Word}
    {filled : List PassRecord} {closes : Bool} (hnumber : number = ((s.staging[i]).findRecord p.pass).bind (·.number))
    (hfilled : filled = completed p r.sample (s.staging[i]).forming)
    (hcloses : closes = (number.isSome && decide (c.passesPerBlock ≤ (filled.filter (·.complete)).length))) :
    ((s.filledBy i p r step).passEnded i p).settled i c p = { s with
      offers := (s.filledBy i p r step).offers
      streams := upd s.streams i (fun x => x.afterPass number.isSome closes)
      staging := upd s.staging i (fun q => afterPass p number.isSome closes (s.streams[i]).slippedSince q.closed filled) } := by
  have hstaging : (((s.filledBy i p r step).passEnded i p).staging[i]) =
      { s.staging[i] with forming := completed p r.sample (s.staging[i]).forming } := by
    rw [filledBy_passEnded]
    exact upd_same _ _ _
  have hstream : (((s.filledBy i p r step).passEnded i p).streams[i]) = { s.streams[i] with pass := none } := by
    rw [filledBy_passEnded]
    exact upd_same _ _ _
  rw [settled_after (c := c) (p := p) (closes := closes) (numbered := number.isSome) _ hP (passEnded_pass _ i p)
    (by rw [filledBy_numbered, hnumber]) (by rw [hcloses, hstaging, hfilled]; rfl), hstream]
  rw [filledBy_passEnded]
  dsimp only
  rw [upd_upd, upd_upd, hfilled]
  refine congrArg₂ (fun a b => { s with offers := (s.filledBy i p r step).offers, streams := a, staging := b }) ?_ ?_
  · exact upd_congr rfl
  · exact upd_congr rfl

/-- What a completed pass leaves to be settled, up to the list of eligible streams (R14, R21, R51, R71). -/
theorem completePass_settles {begun : Nat} {number : Option Word} {w : State}
    (hnumber : number.isSome = (v.passEnded i p).numbered i p) (hw : Noted ((v.passEnded i p).settled i c p) w)
    (hbegun : (w.streams[i]).begun = begun) :
    ((v.streams[i]).state = .running → (number = none ∨ c.stop ≠ .count begun) → Noted w (completePass i c p v)) ∧
    ((v.streams[i]).state = .running → number ≠ none → c.stop = .count begun →
      Noted (enterDraining i .countReached w) (completePass i c p v)) ∧
    ((v.streams[i]).state = .draining →
      Noted (drainComplete i (drainEndMark i w)) (completePass i c p v)) := by
  have hb : (((v.passEnded i p).settled i c p).streams[i]).begun = begun := by
    rw [← hbegun, hw.eq]
  refine ⟨fun hstate h => ?_, fun hstate hn hstop => ?_, fun hstate => ?_⟩
  · rw [completePass_of_running hstate, if_neg]
    · exact hw.symm.trans (noteEligible_noted i v _)
    · rw [← hnumber, hb, countMet_iff]
      rintro ⟨hsome, hstop⟩
      rcases h with h | h
      · rw [h] at hsome
        cases hsome
      · exact h hstop
  · rw [completePass_of_running hstate, if_pos]
    · exact (hw.symm.enterDraining i _).trans (noteEligible_noted i v _)
    · rw [← hnumber, hb, countMet_iff]
      exact ⟨Option.isSome_iff_ne_none.mpr hn, hstop⟩
  · rw [completePass_of_draining hstate]
    exact ((hw.symm.drainEndMark i).drainComplete i).trans (noteEligible_noted i v _)

theorem drainEndMark_of_empty (h : s.staging[i] = Staging.empty) : drainEndMark i s = s := by
  rw [drainEndMark_of_none (by rw [h]; rfl)]
  exact congrArg (fun v => { s with staging := v })
    (upd_fixed (f := fun q => { q with closed := markNewestFinal q.closed }) (by rw [h]; rfl))

/-- The drain-end mark on a state whose stream has a block in formation (R71). -/
theorem marked_of_forming {e : PassRecord} {l : List PassRecord} (h : (s.staging[i]).forming = e :: l) :
    drainComplete i (drainEndMark i s) = { s with
      streams := upd s.streams i (fun y => { y with slippedSince := 0 })
      staging := upd s.staging i (fun _ =>
        ⟨(s.staging[i]).closed ++ [⟨e :: l, (s.streams[i]).slippedSince, true, true, false⟩], []⟩) } := by
  rw [drainComplete_of_left (.inr (.inl (drainEndMark_left fun hq => by rw [hq] at h; cases h))), drainEndMark_of_forming h]
  rfl

theorem marked_of_closed {b : Block} {l : List Block} (hforming : (s.staging[i]).forming = [])
    (hclosed : (s.staging[i]).closed = l ++ [b]) : drainComplete i (drainEndMark i s) = { s with
      staging := upd s.staging i (fun _ => ⟨l ++ [if b.writing = true then b else { b with final := true }], []⟩) } := by
  rw [drainComplete_of_left (.inr (.inl (drainEndMark_left fun hq => by rw [hq] at hclosed; simp [Staging.empty] at hclosed))),
    drainEndMark_of_none hforming]
  refine modStaging_congr ?_
  rw [hclosed, markNewestFinal_append, hforming]

theorem exec_returnTaken {rest : List Return} (h : s.returns[i] = r :: rest) :
    exec (.returnTaken i) s = .next (takeReturn i r (s.modReturns i (fun _ => rest))) := by
  show Host.Outcome.next (takeOldestReturn i s) = _
  unfold takeOldestReturn
  rw [h]

theorem Noted.eq_of_same (h : Noted s t) (hnoted : s.becameEligible = t.becameEligible) : t = s := by
  rw [h.eq, ← hnoted]

theorem filledBy_offers (s : State) (i : StreamId) (p : PassInProgress) (r : Return) (step : ScanStep) :
    ((s.streams[i]).state.active = true → (s.filledBy i p r step).offers = s.offers ++
      [⟨i, step.channel, r.sample, r.time, ((s.staging[i]).findRecord p.pass).bind (·.number)⟩]) ∧
    ((s.streams[i]).state.active = false → (s.filledBy i p r step).offers = s.offers) :=
  ⟨fun h => if_pos h, fun h => if_neg (by rw [h]; decide)⟩

/-- The next step of a pass (R49, R50): the banks, and the request at its converter. -/
theorem nextStep_banks (s : State) (i : StreamId) (p : PassInProgress) (r : Return) (step : ScanStep) {t : State}
    (ht : t = placeRequest i ((s.filledBy i p r step).modStream i (fun x => { x with pass := some { p with step := p.step + 1 } }))) :
    t.offers = (s.filledBy i p r step).offers ∧
    t.streams[i] = { s.streams[i] with pass := some ⟨p.pass, p.step + 1⟩ } ∧
    t.staging[i] = { s.staging[i] with forming := (s.staging[i]).forming.map (fun e =>
      if e.pass = p.pass then { e with slots := e.slots.set p.step (some r.sample) } else e) } ∧
    (∀ next : ScanStep, (s.stepsOf i)[p.step + 1]? = some next → s.RequestPlaced t i p.pass (p.step + 1) next) := by
  have hx : (((s.filledBy i p r step).modStream i (fun x => { x with pass := some { p with step := p.step + 1 } })).streams[i])
      = { s.streams[i] with pass := some ⟨p.pass, p.step + 1⟩ } := by
    rw [State.modStream_streams, upd_same]
    rfl
  obtain ⟨cv, e⟩ := placeRequest_frame i
    ((s.filledBy i p r step).modStream i (fun x => { x with pass := some { p with step := p.step + 1 } }))
  refine ⟨by rw [ht, e]; rfl, by rw [ht, e]; exact hx, by rw [ht, e]; exact upd_same _ _ _, fun next hnext => ?_⟩
  refine requestPlaced_of_upd ?_
  rw [ht]
  refine placeRequest_converters (p := ⟨p.pass, p.step + 1⟩) (by rw [hx]) ?_
  rw [stepsOf_modStream (s := s.filledBy i p r step) rfl]
  exact hnext

/-- Settles O44. -/
theorem returnIsTaken : Obligations.ReturnIsTaken := by
  intro i r rest s hreturns
  refine ⟨fun hother => ?_, fun c p step hc hp hpass hat hstep => ?_⟩
  · rw [exec_returnTaken hreturns, takeReturn_of_other (s := s.modReturns i (fun _ => rest)) hother]
    rfl
  · have htake := takeReturn_of_match (s := s.modReturns i (fun _ => rest)) hc hp hpass hat hstep
    have hframe := takeReturn_step i r (s.modReturns i (fun _ => rest))
    obtain ⟨hactive, hinactive⟩ := filledBy_offers (s.modReturns i (fun _ => rest)) i p r step
    refine ⟨_, exec_returnTaken hreturns, ?_⟩
    generalize takeReturn i r (s.modReturns i (fun _ => rest)) = t at htake hframe
    have hbanks : t.returns = upd s.returns i (fun _ => rest) ∧ t.watches = s.watches ∧ t.timebase = s.timebase := by
      obtain ⟨_, _, _, _, _, _, _, _, _, _, e⟩ := hframe.frame
      rw [e]
      exact ⟨rfl, rfl, rfl⟩
    have hothers (j : StreamId) (hj : j ≠ i) := hframe.others j hj
    by_cases hnext : p.step + 1 < (s.stepsOf i).length
    · rw [if_pos (show p.step + 1 < ((s.modReturns i (fun _ => rest)).stepsOf i).length from hnext)] at htake
      obtain ⟨hoffers, hx, hq, hrequest⟩ := nextStep_banks _ i p r step htake
      exact ⟨hbanks.1, fun h => hoffers.trans (hactive h), fun h => hoffers.trans (hinactive h), fun _ => ⟨hx, hq⟩, hrequest,
        fun h => absurd hnext (Nat.not_lt.mpr h), fun h => absurd hnext (Nat.not_lt.mpr h),
        fun h => absurd hnext (Nat.not_lt.mpr h), fun j hj => ⟨(hothers j hj).1, (hothers j hj).2.1⟩, hbanks.2⟩
    · rw [if_neg (show ¬p.step + 1 < ((s.modReturns i (fun _ => rest)).stepsOf i).length from hnext)] at htake
      have hkept := completePass_banks i c p ((s.modReturns i (fun _ => rest)).filledBy i p r step)
      have hpassless := completePass_pass i c p ((s.modReturns i (fun _ => rest)).filledBy i p r step)
      have harmed := completePass_armed_banks (s := s.modReturns i (fun _ => rest)) (i := i) (c := c) (p := p) (r := r) (step := step)
      rw [← htake] at hkept hpassless harmed
      have hoffers : t.offers = ((s.modReturns i (fun _ => rest)).filledBy i p r step).offers := by
        obtain ⟨_, _, _, _, _, _, _, e⟩ := hkept
        rw [e]
      have hconverters : t.converters = s.converters := by
        obtain ⟨_, _, _, _, _, _, _, e⟩ := hkept
        rw [e]
        rfl
      refine ⟨hbanks.1, fun h => hoffers.trans (hactive h), fun h => hoffers.trans (hinactive h), fun h => absurd h hnext,
        fun next hs => ?_, fun _ => hconverters, fun _ => ⟨hpassless, fun hstate => ⟨(harmed hstate).1, fun hall => ?_,
          fun filled hfilled => ?_⟩⟩, fun _ hP number filled closes x q u hnumber hfilled hcloses hx hq hu => ?_,
        fun j hj => ⟨(hothers j hj).1, (hothers j hj).2.1⟩, hbanks.2⟩
      · exact absurd (List.getElem?_eq_some_iff.mp hs).1 hnext
      · rw [(harmed hstate).2]
        dsimp only
        rw [show (s.modReturns i (fun _ => rest)).staging = s.staging from rfl, completed_all hall, List.length_drop]
        unfold completed
        rw [List.length_map]
        omega
      · replace hfilled : filled = completed p r.sample (s.staging[i]).forming := hfilled
        refine ⟨by rw [hfilled]; exact (harmed hstate).2, fun hall => ?_⟩
        have h := (harmed hstate).2
        rw [show (s.modReturns i (fun _ => rest)).staging = s.staging from rfl, completed_all hall] at h
        rw [h, hfilled]
      · replace hfilled : filled = completed p r.sample (s.staging[i]).forming := hfilled
        have hsettled := filledBy_settled (s.modReturns i (fun _ => rest)) (i := i) r step hP hnumber hfilled hcloses
        have hnoted : Noted ((((s.modReturns i (fun _ => rest)).filledBy i p r step).passEnded i p).settled i c p) u := by
          refine ⟨t.becameEligible, ?_⟩
          rw [hu, hsettled, hbanks.1, hoffers, hx, hq]
          rfl
        have hux : u.streams[i] = x := by
          rw [hu]
          exact upd_same _ _ _
        have huq : u.staging[i] = q := by
          rw [hu]
          exact upd_same _ _ _
        have hub : u.becameEligible = t.becameEligible := by rw [hu]
        obtain ⟨hrun, hcount, hdrain⟩ := completePass_settles (v := (s.modReturns i (fun _ => rest)).filledBy i p r step)
          (c := c) (begun := (s.streams[i]).begun) (number := number) (by rw [hnumber, filledBy_numbered]; rfl) hnoted
          (by rw [hux, hx])
        rw [← htake] at hrun hcount hdrain
        refine ⟨fun hstate => ⟨fun hn => (hrun hstate hn).eq_of_same hub, fun hn hstop => (hcount hstate hn hstop).eq⟩,
          fun hstate => ⟨fun e l hforming => ?_, fun l b hforming hclosed => ?_, fun reason hempty hwriting hend hreason => ?_⟩⟩
        · have h := hdrain hstate
          rw [marked_of_forming (by rw [huq]; exact hforming), huq, hux] at h
          exact h.eq_of_same hub
        · have h := hdrain hstate
          rw [marked_of_closed (by rw [huq]; exact hforming) (by rw [huq]; exact hclosed)] at h
          exact h.eq_of_same hub
        · have h := hdrain hstate
          rw [drainEndMark_of_empty (by rw [huq]; exact hempty), drainComplete_of_nothing_left (reason := reason)
            (by rw [hux, hx]; exact hstate) (by rw [hux, hx]; exact hend) hreason (by rw [hux, hx]) (by rw [huq]; exact hempty)
            (by rw [hu]; exact hwriting)] at h
          exact h.eq

end Sys2Proof.Machine
end


-- ==== Sys2Proof/Proofs/BlockWrites.lean ====
section
/-!
PROOFS. Proofs/BlockWrites.lean: the arbiter's grants (05_buffers_and_block_delivery.md sections 5.3 and 5.4) and the ends of
a block write (sections 5.5 and 5.8).
-/

namespace Sys2Proof.Machine

variable {i : StreamId} {s t u v : State}

/-! ### Grants -/

theorem readyBlock_of_closed {q : Staging} {b : Block} {blocks : List Block} (h : q.closed = b :: blocks)
    (hb : b.writing = false) : q.readyBlock = some b := by
  unfold Staging.readyBlock
  rw [h]
  dsimp only
  rw [hb]
  rfl

theorem readyBlock_ne_none_iff (q : Staging) : q.readyBlock ≠ none ↔ ∃ b l, q.closed = b :: l ∧ b.writing = false := by
  constructor
  · intro h
    unfold Staging.readyBlock at h
    cases hq : q.closed with
    | nil => exact absurd (by rw [hq]) h
    | cons b l =>
      refine ⟨b, l, rfl, ?_⟩
      rw [hq] at h
      dsimp only at h
      cases hb : b.writing with
      | false => rfl
      | true => exact absurd (if_pos hb) h
  · rintro ⟨b, l, hq, hb⟩
    rw [readyBlock_of_closed hq hb]
    exact Option.some_ne_none b

/-- A grant, written out (R87, R88). -/
theorem grantWrite_eq {b : Block} {blocks : List Block} {d : Descriptor} {rest : List Descriptor}
    (hclosed : (s.staging[i]).closed = b :: blocks) (hb : b.writing = false) (hd : s.buffers[i] = d :: rest) :
    grantWrite i s = { s with
      staging := upd s.staging i (fun q => { q with closed := { b with writing := true } :: blocks })
      bus := s.bus ++
        [.write (d.address + BitVec.ofNat 64 d.fill) (b.bytes i (s.stepsOf i).length (s.streams[i]).nextSequence),
          .read (d.address + BitVec.ofNat 64 d.fill +
            BitVec.ofNat 64 (32 + 4 * b.records.length * (s.stepsOf i).length - 4)) 0]
      writeInFlight := some ⟨i, d.address, d.tag, 32 + 4 * b.records.length * (s.stepsOf i).length,
        (s.streams[i]).nextSequence, s.elapsed⟩
      grantPointer := i
      becameEligible := [] } := by
  have hstart : s.modStaging i Staging.startWrite
      = s.modStaging i (fun q => { q with closed := { b with writing := true } :: blocks }) := by
    refine modStaging_congr ?_
    unfold Staging.startWrite
    rw [hclosed]
  unfold grantWrite
  rw [readyBlock_of_closed hclosed hb, hd]
  dsimp only [List.head?_cons]
  rw [hstart]
  unfold State.emit
  dsimp only
  rw [List.append_assoc]
  rfl

theorem chooseGrant_of_none (h : ∀ j : StreamId, s.eligible j = false) : chooseGrant s = s := by
  unfold chooseGrant
  split
  · rfl
  · rw [List.find?_eq_none.mpr fun j _ => by rw [h j]; decide]

theorem chooseGrant_of_writing (h : s.writeInFlight ≠ none) : chooseGrant s = s :=
  if_pos (Option.isSome_iff_ne_none.mpr h)

theorem grantFirst_of_writing (h : s.writeInFlight ≠ none) : grantFirst s = s :=
  if_pos (Option.isSome_iff_ne_none.mpr h)

/-- Where no stream noted is eligible the free arbiter chooses as at the end of a write (R86). -/
theorem grantFirst_of_none_noted (h : ∀ j ∈ s.becameEligible, s.eligible j = false) : grantFirst s = chooseGrant s := by
  unfold grantFirst
  split
  · next hw => exact (if_pos hw).symm
  · rw [List.find?_eq_none.mpr fun j hj => by rw [h j hj]; decide]

theorem grantFirst_of_noted (hfree : s.writeInFlight = none) (hi : s.eligible i = true) {earlier later : List StreamId}
    (hnoted : s.becameEligible = earlier ++ i :: later) (hearlier : ∀ j ∈ earlier, s.eligible j = false) :
    grantFirst s = grantWrite i s := by
  unfold grantFirst
  rw [hfree, if_neg (by decide), hnoted, List.find?_append, List.find?_eq_none.mpr fun j hj => by rw [hearlier j hj]; decide,
    List.find?_cons_of_pos hi]
  rfl

theorem chooseGrant_of_first (hfree : s.writeInFlight = none) (hi : s.eligible i = true)
    (hfirst : ∀ j : StreamId, (s.grantPointer + 1 ≤ i → s.grantPointer + 1 ≤ j → j < i → s.eligible j = false) ∧
      (i < s.grantPointer + 1 → (s.grantPointer + 1 ≤ j ∨ j < i) → s.eligible j = false)) :
    chooseGrant s = grantWrite i s := by
  unfold chooseGrant
  rw [hfree, if_neg (by decide), roundRobin_find hi hfirst]

/-- Settles O47. -/
theorem grantIssuesBlock : Obligations.GrantIssuesBlock := by
  refine ⟨fun s => ⟨fun h => ?_, fun i b blocks d rest S size t hfree hup hclosed hb hd hbox hS hsize ht => ?_⟩,
    fun i s t => ⟨?_, fun hbefore hafter => noteEligible_of_new hbefore hafter, fun h => noteEligible_of_not_new h⟩⟩
  · have hchoose : chooseGrant s = s := h.elim chooseGrant_of_writing chooseGrant_of_none
    refine ⟨congrArg Host.Outcome.next ?_, hchoose⟩
    rcases h with h | h
    · exact grantFirst_of_writing h
    · exact (grantFirst_of_none_noted fun j _ => h j).trans hchoose
  · have hi : s.eligible i = true := (eligible_iff s i).mpr
      ⟨hup, (readyBlock_ne_none_iff _).mpr ⟨b, blocks, hclosed, hb⟩, by rw [hd]; exact List.cons_ne_nil d rest, hbox⟩
    have hgrant : grantWrite i s = t := by
      rw [grantWrite_eq hclosed hb hd, ht, hsize, hS]
    refine ⟨fun earlier later hnoted hearlier => congrArg Host.Outcome.next ?_, fun hfirst => ?_⟩
    · exact (grantFirst_of_noted hfree hi hnoted hearlier).trans hgrant
    · have hchoose : chooseGrant s = t := (chooseGrant_of_first hfree hi hfirst).trans hgrant
      exact ⟨hchoose, fun hnone => congrArg Host.Outcome.next ((grantFirst_of_none_noted hnone).trans hchoose)⟩
  · rw [eligible_iff, readyBlock_ne_none_iff]

/-! ### The end of a write -/

theorem drainComplete_of_not_draining (h : (s.streams[i]).state ≠ .draining) : drainComplete i s = s :=
  if_neg fun x => h x.1

/-- The end of an arming after a successful write, by the stream's state (R90 step 6). -/
theorem afterWriteSuccess_of_not_draining (h : (s.streams[i]).state ≠ .draining) : afterWriteSuccess i s = s := by
  unfold afterWriteSuccess StreamContext.fastDrain
  rw [if_neg (by simpa using fun x => absurd x h), drainComplete_of_not_draining h]

theorem afterWriteSuccess_of_fastDrain (hstate : (s.streams[i]).state = .draining)
    (hend : (s.streams[i]).endReason = some .aborted) :
    afterWriteSuccess i s = endStream i .aborted (completeCurrent i { aborted := true } s) := by
  unfold afterWriteSuccess StreamContext.fastDrain
  rw [hstate, hend, if_pos (by decide)]

theorem afterWriteSuccess_of_draining {reason : EndReason} (hend : (s.streams[i]).endReason = some reason)
    (hreason : reason ≠ .aborted) : afterWriteSuccess i s = drainComplete i s := by
  unfold afterWriteSuccess StreamContext.fastDrain
  rw [hend, if_neg (by simp [hreason])]

theorem roomTest_of_full {d : Descriptor} {rest : List Descriptor} (hd : s.buffers[i] = d :: rest)
    (h : d.length - d.fill < s.maxBlockBytes i) :
    roomTest i s = completeBuffer i { full := true, flushed := d.flushDue } s := by
  unfold roomTest
  rw [hd]
  exact if_pos h

theorem roomTest_of_flushDue {d : Descriptor} {rest : List Descriptor} (hd : s.buffers[i] = d :: rest)
    (h : s.maxBlockBytes i ≤ d.length - d.fill) (hdue : d.flushDue = true) :
    roomTest i s = completeBuffer i { flushed := true } s := by
  unfold roomTest
  rw [hd]
  exact (if_neg (Nat.not_lt.mpr h)).trans (if_pos hdue)

theorem roomTest_of_open {d : Descriptor} {rest : List Descriptor} (hd : s.buffers[i] = d :: rest)
    (h : s.maxBlockBytes i ≤ d.length - d.fill) (hdue : d.flushDue = false) : roomTest i s = s := by
  unfold roomTest
  rw [hd]
  exact (if_neg (Nat.not_lt.mpr h)).trans (if_neg (by rw [hdue]; decide))

/-- No flush timer starts where the target has left the queue (R95). -/
theorem startFlushTimer_of_left {first : Bool} {depth : Nat} (h : (s.buffers[i]).length ≠ depth) :
    startFlushTimer i first depth s = s := by
  unfold startFlushTimer
  cases (s.streams[i]).config with
  | none => rfl
  | some c =>
    refine if_neg fun hx => ?_
    simp only [Bool.and_eq_true, decide_eq_true_eq] at hx
    exact h hx.1.2

theorem startFlushTimer_of_open {c : StreamConfig} {first : Bool} {depth : Nat} {d : Descriptor} {rest : List Descriptor}
    (hc : (s.streams[i]).config = some c) (hd : s.buffers[i] = d :: rest) (hdepth : (s.buffers[i]).length = depth) :
    startFlushTimer i first depth s = s.modBuffers i (fun _ => { d with
      timer := if first = true ∧ c.flushMs ≠ 0 then some (s.elapsed + c.flushMs * 50000) else d.timer } :: rest) := by
  unfold startFlushTimer
  rw [hc]
  dsimp only
  by_cases h : first = true ∧ c.flushMs ≠ 0
  · rw [if_pos h, if_pos (by simp only [h.1, hdepth, h.2, Bool.and_self, decide_true, ne_eq, not_false_eq_true])]
    refine congrArg (fun v => { s with buffers := v }) (upd_congr ?_)
    rw [hd]
    rfl
  · rw [if_neg h, if_neg]
    · exact congrArg (fun v => { s with buffers := v }) (upd_fixed (f := fun _ => d :: rest) hd.symm).symm
    · intro hx
      simp only [Bool.and_eq_true, decide_eq_true_eq] at hx
      exact h ⟨hx.1.1, hx.2⟩

theorem firstBlock_of_cons {d : Descriptor} {rest : List Descriptor} (hd : s.buffers[i] = d :: rest) :
    s.firstBlock i = decide (d.blocks = 0) := by
  unfold State.firstBlock
  rw [hd]

theorem recordBlock_buffers {w : BlockWrite} {d : Descriptor} {rest : List Descriptor}
    (hd : s.buffers[w.stream] = d :: rest) : (recordBlock w s).buffers[w.stream] = d.addBlock w :: rest :=
  modHead_cons (s := ({ s with writeInFlight := none }.modStaging w.stream Staging.dropHead).modStream w.stream
    StreamContext.countBlock) hd _

theorem modBuffers_modBuffers (s : State) (i : StreamId) (f g : List Descriptor → List Descriptor) :
    (s.modBuffers i f).modBuffers i g = s.modBuffers i (fun x => g (f x)) :=
  congrArg (fun v => { s with buffers := v }) (upd_upd s.buffers i f g)

/-- A successful block write with the target taken out of the queue (R90 steps 1 and 2). -/
def State.blockFreed (s : State) (w : BlockWrite) (rest : List Descriptor) : State :=
  { s with
    writeInFlight := none
    staging := upd s.staging w.stream (fun q => { q with closed := q.closed.tail })
    streams := upd s.streams w.stream (fun x =>
      { x with nextSequence := x.nextSequence + 1, totalBlocks := x.totalBlocks + 1 })
    buffers := upd s.buffers w.stream (fun _ => rest) }

theorem recordBlock_modBuffers (s : State) (w : BlockWrite) (queue : List Descriptor) :
    (recordBlock w s).modBuffers w.stream (fun _ => queue) = s.blockFreed w queue := by
  unfold recordBlock modHead
  exact modBuffers_modBuffers _ _ _ _

theorem completeBuffer_of_cons {d : Descriptor} {rest : List Descriptor} (hd : s.buffers[i] = d :: rest)
    (flags : BufferFlags) :
    completeBuffer i flags s = joinOutbox i (d.doneRecord i flags) (s.modBuffers i (fun _ => rest)) := by
  unfold completeBuffer
  rw [hd]

/-! ### A successful write -/

section
variable {w : BlockWrite} {d e : Descriptor} {rest : List Descriptor} {c : StreamConfig}

theorem addBlock_doneRecord (d : Descriptor) (w : BlockWrite) (i : StreamId) (flags : BufferFlags) :
    (d.addBlock w).doneRecord i flags = .bufferDone i flags d.tag (d.addBlock w).fill (d.addBlock w).blocks
      (d.addBlock w).firstSequence (d.addBlock w).lastSequence := rfl

theorem recordBlock_maxBlockBytes (w : BlockWrite) (s : State) :
    (recordBlock w s).maxBlockBytes w.stream = s.maxBlockBytes w.stream := by
  unfold State.maxBlockBytes State.stepsOf
  rw [show (recordBlock w s).streams = upd s.streams w.stream StreamContext.countBlock from rfl, upd_same]
  rfl

/-- The state in which the end of the arming is considered (R90 steps 4 and 5). -/
def State.writeSettled (s : State) (w : BlockWrite) : State :=
  startFlushTimer w.stream (s.firstBlock w.stream) (s.buffers[w.stream]).length (roomTest w.stream (recordBlock w s))

/-- A target that leaves the queue starts no flush timer. -/
theorem writeSettled_of_completed (hd : s.buffers[w.stream] = d :: rest) {flags : BufferFlags}
    (h : roomTest w.stream (recordBlock w s) = completeBuffer w.stream flags (recordBlock w s)) :
    s.writeSettled w = joinOutbox w.stream (.bufferDone w.stream flags d.tag (d.addBlock w).fill (d.addBlock w).blocks
      (d.addBlock w).firstSequence (d.addBlock w).lastSequence) (s.blockFreed w rest) := by
  unfold State.writeSettled
  rw [h, completeBuffer_of_cons (recordBlock_buffers hd), recordBlock_modBuffers, addBlock_doneRecord]
  refine startFlushTimer_of_left ?_
  rw [(joinOutbox_recordsOnly w.stream _ _).buffers, hd, State.blockFreed]
  dsimp only
  rw [upd_same, List.length_cons]
  omega

theorem writeSettled_of_full (hd : s.buffers[w.stream] = d :: rest)
    (hroom : d.length - (d.addBlock w).fill < s.maxBlockBytes w.stream) :
    s.writeSettled w = joinOutbox w.stream (.bufferDone w.stream { full := true, flushed := d.flushDue } d.tag
      (d.addBlock w).fill (d.addBlock w).blocks (d.addBlock w).firstSequence (d.addBlock w).lastSequence)
      (s.blockFreed w rest) :=
  writeSettled_of_completed hd
    (roomTest_of_full (d := d.addBlock w) (recordBlock_buffers hd) (by rw [recordBlock_maxBlockBytes]; exact hroom))

theorem writeSettled_of_flushDue (hd : s.buffers[w.stream] = d :: rest)
    (hroom : s.maxBlockBytes w.stream ≤ d.length - (d.addBlock w).fill) (hdue : d.flushDue = true) :
    s.writeSettled w = joinOutbox w.stream (.bufferDone w.stream { flushed := true } d.tag (d.addBlock w).fill
      (d.addBlock w).blocks (d.addBlock w).firstSequence (d.addBlock w).lastSequence) (s.blockFreed w rest) :=
  writeSettled_of_completed hd
    (roomTest_of_flushDue (d := d.addBlock w) (recordBlock_buffers hd) (by rw [recordBlock_maxBlockBytes]; exact hroom) hdue)

theorem writeSettled_of_open (hc : (s.streams[w.stream]).config = some c) (hd : s.buffers[w.stream] = d :: rest)
    (hroom : s.maxBlockBytes w.stream ≤ d.length - (d.addBlock w).fill) (hdue : d.flushDue = false) :
    s.writeSettled w = s.blockFreed w ({ d.addBlock w with
      timer := if d.blocks = 0 ∧ c.flushMs ≠ 0 then some (s.elapsed + c.flushMs * 50000) else d.timer } :: rest) := by
  have hconfig : ((recordBlock w s).streams[w.stream]).config = some c := by
    rw [show (recordBlock w s).streams = upd s.streams w.stream StreamContext.countBlock from rfl, upd_same]
    exact hc
  unfold State.writeSettled
  rw [roomTest_of_open (recordBlock_buffers hd) (by rw [recordBlock_maxBlockBytes]; exact hroom) hdue,
    startFlushTimer_of_open hconfig (recordBlock_buffers hd) (by rw [recordBlock_buffers hd, hd]; rfl),
    recordBlock_modBuffers, firstBlock_of_cons hd]
  simp only [decide_eq_true_eq]
  rfl

/-- Whatever becomes of the target, the stream's other banks are those of a freed block. -/
theorem writeSettled_recordsOnly (hc : (s.streams[w.stream]).config = some c) (hd : s.buffers[w.stream] = d :: rest) :
    ∃ queue, RecordsOnly (s.blockFreed w queue) (s.writeSettled w) := by
  by_cases hroom : d.length - (d.addBlock w).fill < s.maxBlockBytes w.stream
  · rw [writeSettled_of_full hd hroom]
    exact ⟨_, joinOutbox_recordsOnly _ _ _⟩
  · cases hdue : d.flushDue with
    | true =>
      rw [writeSettled_of_flushDue hd (Nat.le_of_not_lt hroom) hdue]
      exact ⟨_, joinOutbox_recordsOnly _ _ _⟩
    | false =>
      rw [writeSettled_of_open hc hd (Nat.le_of_not_lt hroom) hdue]
      exact ⟨_, RecordsOnly.refl _⟩

end

theorem endWrite_of_late {w : BlockWrite} (hw : s.writeInFlight = some w) (hlate : w.issued + 2500000 < s.elapsed) :
    endWrite s = s := by
  unfold endWrite
  rw [hw]
  dsimp only
  rw [inTime_eq_false hlate]
  rfl

theorem endWrite_of_down {w : BlockWrite} (hw : s.writeInFlight = some w) (htime : s.elapsed ≤ w.issued + 2500000)
    (hdown : s.linkUp = false) : endWrite s = discardWrite w s := by
  unfold endWrite
  rw [hw]
  dsimp only
  rw [(inTime_iff s w.issued).mpr htime, hdown]
  rfl

theorem endWrite_of_up {w : BlockWrite} (hw : s.writeInFlight = some w) (htime : s.elapsed ≤ w.issued + 2500000)
    (hup : s.linkUp = true) : endWrite s = chooseGrant (afterWriteSuccess w.stream (s.writeSettled w)) := by
  unfold endWrite
  rw [hw]
  dsimp only
  rw [(inTime_iff s w.issued).mpr htime, hup]
  rfl

theorem failWrite_of_down {w : BlockWrite} (hw : s.writeInFlight = some w) (hdown : s.linkUp = false) :
    failWrite s = discardWrite w s := by
  unfold failWrite
  rw [hw]
  dsimp only
  rw [hdown]
  rfl

theorem failWrite_of_up {w : BlockWrite} (hw : s.writeInFlight = some w) (hup : s.linkUp = true) :
    failWrite s = chooseGrant (failStream w.stream { s with writeInFlight := none }) := by
  unfold failWrite
  rw [hw]
  dsimp only
  rw [hup]
  rfl

/-! ### A failed write -/

theorem failStream_recordsOnly (i : StreamId) (s : State) :
    RecordsOnly (((withdrawPass i (s.modStaging i (fun _ => Staging.empty))).modBuffers i List.tail).modStream i
      (fun x => { x with state := .faulted, endReason := some .writeError })) (failStream i s) :=
  ((completeBuffer_recordsOnly i _ _).modStream i _).trans (streamRecord_recordsOnly i _ _)

/-- The choice of the arbiter changes a staging queue that has a READY block, and its own fields. -/
theorem chooseGrant_frame (s : State) : ∃ sg B w p be, chooseGrant s = { s with
    staging := sg, bus := B, writeInFlight := w, grantPointer := p, becameEligible := be } ∧
    ∀ j : StreamId, s.staging[j] = Staging.empty → sg[j] = Staging.empty := by
  unfold chooseGrant
  split
  · exact ⟨_, _, _, _, _, rfl, fun _ h => h⟩
  · split
    · next i hi =>
      have hready := ((eligible_iff s i).mp (List.find?_some hi)).2.1
      unfold grantWrite
      split
      · refine ⟨_, _, _, _, _, rfl, fun j hj => ?_⟩
        have hji : j ≠ i := fun e => hready (by rw [← e, hj]; rfl)
        exact (upd_other _ _ hji).trans hj
      · exact ⟨_, _, _, _, _, rfl, fun _ h => h⟩
    · exact ⟨_, _, _, _, _, rfl, fun _ h => h⟩

theorem failStream_link (i : StreamId) (s : State) : (failStream i s).link = s.link := by
  obtain ⟨_, _, _, _, e⟩ := failStream_recordsOnly i s
  rw [e]
  rfl

theorem dropHead_empty {q : Staging} : q.dropHead = Staging.empty ↔ q.closed.tail = [] ∧ q.forming = [] := by
  unfold Staging.dropHead Staging.empty
  rw [Staging.mk.injEq]

/-- Settles O48. -/
theorem blockWriteEnds : Obligations.BlockWriteEnds := by
  refine ⟨fun w s hw => ⟨fun hlate => congrArg Host.Outcome.next (endWrite_of_late hw hlate),
      fun htime hdown => congrArg Host.Outcome.next (endWrite_of_down hw htime hdown),
      fun i d e rest c v u htime hup hi hd hc he hv hfull hflush hopen => ?_⟩,
    fun w s hw => ⟨fun hdown => congrArg Host.Outcome.next (failWrite_of_down hw hdown), fun hup => ?_⟩,
    fun s hw => ⟨congrArg Host.Outcome.next ?_, congrArg Host.Outcome.next ?_⟩⟩
  · subst hi
    have he' : e = d.addBlock w := he
    have hv' : v = s.blockFreed w rest := hv
    have hu : u = s.writeSettled w := by
      by_cases hroom : d.length - e.fill < s.maxBlockBytes w.stream
      · rw [hfull hroom, hv', he', writeSettled_of_full hd (by rw [← he']; exact hroom)]
      · cases hdue : d.flushDue with
        | true =>
          rw [hflush (Nat.le_of_not_lt hroom) hdue, hv', he',
            writeSettled_of_flushDue hd (by rw [← he']; exact Nat.le_of_not_lt hroom) hdue]
        | false =>
          rw [hopen (Nat.le_of_not_lt hroom) hdue, hv', he',
            writeSettled_of_open hc hd (by rw [← he']; exact Nat.le_of_not_lt hroom) hdue]
          rfl
    obtain ⟨queue, hr⟩ := writeSettled_recordsOnly hc hd
    rw [← hu] at hr
    have hx : u.streams[w.stream] = { s.streams[w.stream] with
        nextSequence := (s.streams[w.stream]).nextSequence + 1, totalBlocks := (s.streams[w.stream]).totalBlocks + 1 } := by
      rw [hr.streams]
      exact upd_same _ _ _
    have hq : u.staging[w.stream] = (s.staging[w.stream]).dropHead := by
      rw [hr.staging]
      exact upd_same _ _ _
    have hwriting : u.writing w.stream = false := by
      rw [hr.writing]
      rfl
    have hexec : exec .blockWriteSuccess s = .next (chooseGrant (afterWriteSuccess w.stream u)) := by
      rw [hu]
      exact congrArg Host.Outcome.next (endWrite_of_up hw htime hup)
    rw [hexec]
    refine ⟨fun hstate => ?_, fun hstate hend => ?_, fun reason hstate hend hreason => ⟨fun hleft => ?_, fun hpass hcl hf => ?_⟩⟩
    · rw [afterWriteSuccess_of_not_draining (by rw [hx]; exact hstate)]
    · rw [afterWriteSuccess_of_fastDrain (by rw [hx]; exact hstate) (by rw [hx]; exact hend)]
    · rw [afterWriteSuccess_of_draining (by rw [hx]; exact hend) hreason, drainComplete_of_left]
      rcases hleft with h | h | h
      · exact .inl (by rw [hx]; exact h)
      · exact .inr (.inl (by rw [hq]; exact fun hempty => h (dropHead_empty.mp hempty).1))
      · exact .inr (.inl (by rw [hq]; exact fun hempty => h (dropHead_empty.mp hempty).2))
    · rw [afterWriteSuccess_of_draining (by rw [hx]; exact hend) hreason, drainComplete_of_nothing_left (reason := reason)
        (by rw [hx]; exact hstate) (by rw [hx]; exact hend) hreason (by rw [hx]; exact hpass)
        (by rw [hq]; exact dropHead_empty.mpr ⟨hcl, hf⟩) hwriting]
  · have hexec : exec .blockWriteFailure s = .next (chooseGrant (failStream w.stream { s with writeInFlight := none })) :=
      congrArg Host.Outcome.next (failWrite_of_up hw hup)
    refine ⟨hexec, _, hexec, ?_⟩
    have hr := failStream_recordsOnly w.stream { s with writeInFlight := none }
    have hc := failStream_converters (i := w.stream) { s with writeInFlight := none }
    have hl := failStream_link w.stream { s with writeInFlight := none }
    have hothers (j : StreamId) (hj : j ≠ w.stream) := (failStream_step w.stream { s with writeInFlight := none }).others j hj
    generalize failStream w.stream { s with writeInFlight := none } = v at hr hc hl hothers
    obtain ⟨sg, B, x, p, be, e, hkept⟩ := chooseGrant_frame v
    rw [e]
    refine ⟨?_, hkept w.stream ?_, ?_, fun b => ?_, fun j hj => ⟨(hothers j hj).1, (hothers j hj).2.2.1⟩, hl⟩
    · dsimp only
      rw [hr.streams, State.modStream_streams, upd_same, State.modBuffers_streams, withdrawn_streams]
    · rw [hr.staging]
      exact upd_same _ _ _
    · dsimp only
      rw [hr.buffers]
      exact upd_same _ _ _
    · dsimp only
      rw [hc]
      exact mapAll_get _ _ _ _
  · unfold endWrite
    rw [hw]
  · unfold failWrite
    rw [hw]

end Sys2Proof.Machine
end


-- ==== Sys2Proof/Proofs/MomentsReached.lean ====
section
/-!
PROOFS. Proofs/MomentsReached.lean: the ends that come at a moment of elapsed time: a conversion
(03_converters_and_passes.md sections 3.2 to 3.4), a flush timer (05_buffers_and_block_delivery.md section 5.6) and a holdoff
timer (10_completion_rings_and_notification.md section 10.6).
-/

namespace Sys2Proof.Machine

variable {i : StreamId} {s t u : State}

/-! ### Time passes up to a moment -/

/-- Time that passes touches the clock, the count, the generators and SYNC only. -/
theorem passTime_frame (d : Nat) (s : State) : ∃ G high next, passTime d s = { s with
    elapsed := s.elapsed + d, timebase := { s.timebase with count := advanceCount s.timebase.count d }
    generators := G, syncHigh := high, syncNext := next } := by
  unfold passTime
  split
  · next h =>
    refine ⟨s.generators, s.syncHigh, s.syncNext, ?_⟩
    have hcount : advanceCount s.timebase.count 0 = s.timebase.count := by
      unfold advanceCount
      rw [Nat.add_zero, Nat.min_eq_left (by have := s.timebase.count.isLt; omega), BitVec.ofNat_toNat, BitVec.setWidth_eq]
    rw [h, hcount, Nat.add_zero]
  · exact ⟨_, _, _, rfl⟩

theorem passTime_elapsed (d : Nat) (s : State) : (passTime d s).elapsed = s.elapsed + d := by
  obtain ⟨_, _, _, e⟩ := passTime_frame d s
  rw [e]

theorem passTo_elapsed (m : Nat) (s : State) : (passTo m s).elapsed = max s.elapsed m := by
  unfold passTo
  rw [passTime_elapsed]
  omega

theorem passTo_frame (m : Nat) (s : State) : ∃ x tb G high next, passTo m s = { s with
    elapsed := x, timebase := tb, generators := G, syncHigh := high, syncNext := next } := by
  obtain ⟨_, _, _, e⟩ := passTime_frame (m - s.elapsed) s
  exact ⟨_, _, _, _, _, e⟩

/-! ### A conversion ends -/

/-- The returns once a conversion has ended: an owner's return is sent, an orphan's sample is discarded (R48). -/
def State.returnedBy (s : State) (v : Conversion) (sample : Sample) : Vector (List Return) 8 :=
  match v.owner with
  | some i => upd s.returns i (fun l => l ++ [⟨v.pass, v.step, sample, s.timebase.count⟩])
  | none => s.returns

theorem completeStep_of_conversion {c : ConverterId} {v : Conversion} (hv : (s.converters[c]).conversion = some v)
    (inputs : Vector Voltage 8) : completeStep c inputs s =
      { passTo v.endsAt s with
        returns := (passTo v.endsAt s).returnedBy v (formSample v.averaging v.range inputs)
        converters := upd (passTo v.endsAt s).converters c (fun x =>
          { x with conversion := none }.grantNext (passTo v.endsAt s).channels (passTo v.endsAt s).elapsed) } := by
  unfold completeStep State.returnedBy
  rw [hv]
  dsimp only
  cases v.owner with
  | none => rfl
  | some i => rfl

theorem grantNext_of_empty {x : Converter} (h : ∀ i : StreamId, x.slots[i] = none) (channels : Vector ChannelSetting 32)
    (now : Nat) : x.grantNext channels now = x := by
  have hn : x.nextWaiting = none := List.findSome?_eq_none_iff.mpr fun i _ => h i
  unfold Converter.grantNext
  rw [hn]

/-- The first filled slot after the grant pointer is granted (R45). -/
theorem grantNext_of_first {x : Converter} {q : Request} (hi : x.slots[i] = some q) (hq : q.stream = i)
    (hfirst : ∀ j : StreamId, (x.grantPointer + 1 ≤ i → x.grantPointer + 1 ≤ j → j < i → x.slots[j] = none) ∧
      (i < x.grantPointer + 1 → (x.grantPointer + 1 ≤ j ∨ j < i) → x.slots[j] = none))
    (channels : Vector ChannelSetting 32) (now : Nat) : x.grantNext channels now = { x with
      slots := upd x.slots i (fun _ => none)
      conversion := some
        { owner := some i, pass := q.pass, step := q.step, channel := q.channel, averaging := q.averaging,
          range := (channels[q.channel]).range, settle := (channels[q.channel]).settle,
          endsAt := now + ((if x.lastChannel = some q.channel then 0 else 1 + (channels[q.channel]).settle.val)
            + 2 * q.averaging) * 50 }
      lastChannel := some q.channel
      grantPointer := i } := by
  have hn : x.nextWaiting = some q := roundRobin_findSome hi hfirst
  unfold Converter.grantNext
  rw [hn]
  dsimp only
  rw [grant_eq, hq]

/-- Settles O43. -/
theorem stepCompletes : Obligations.StepCompletes := by
  intro c inputs s₀ s hs
  have hexec : exec (.stepCompletion c inputs) s₀ = .next (completeStep c inputs s) := by
    rw [hs]
    rfl
  refine ⟨fun hidle => ?_, fun v hv => ⟨_, hexec, ?_⟩⟩
  · rw [hexec]
    unfold completeStep
    rw [hidle]
  · rw [completeStep_of_conversion hv]
    obtain ⟨x, tb, G, high, next, e⟩ := passTo_frame v.endsAt s
    have hconverters : (passTo v.endsAt s).converters = s.converters := by rw [e]
    have hreturns : (passTo v.endsAt s).returns = s.returns := by rw [e]
    have hchannels : (passTo v.endsAt s).channels = s.channels := by rw [e]
    have hstreams : (passTo v.endsAt s).streams = s.streams := by rw [e]
    have helapsed := passTo_elapsed v.endsAt s
    generalize passTo v.endsAt s = u at *
    dsimp only
    rw [hconverters, hchannels, hstreams]
    refine ⟨helapsed, fun i howner => ⟨?_, fun j hj => ?_⟩, fun howner => ?_, fun hempty => ?_, fun i q hi hq hfirst => ?_,
      fun b hb => upd_other _ _ hb, rfl⟩
    · rw [State.returnedBy, howner, ← hreturns]
      exact upd_same _ _ _
    · rw [State.returnedBy, howner, ← hreturns]
      exact upd_other _ _ hj
    · rw [State.returnedBy, howner, hreturns]
    · rw [upd_same]
      exact grantNext_of_empty (x := { s.converters[c] with conversion := none }) hempty _ _
    · rw [upd_same]
      exact grantNext_of_first (x := { s.converters[c] with conversion := none }) hi hq hfirst _ _

/-! ### A flush timer expires -/

theorem expireFlush_of_stopped (h : ∀ d rest, s.buffers[i] = d :: rest → d.timer = none) : expireFlush i s = s := by
  unfold expireFlush
  cases hq : s.buffers[i] with
  | nil => rfl
  | cons d rest =>
    rw [List.head?_cons, Option.bind_some, h d rest hq]

theorem expireFlush_of_running {d : Descriptor} {rest : List Descriptor} {e : Nat} (hd : s.buffers[i] = d :: rest)
    (he : d.timer = some e) : expireFlush i s = if (passTo e s).writing i = true
      then modHead i (fun d => { d with timer := none, flushDue := true }) (passTo e s)
      else completeBuffer i { flushed := true } (passTo e s) := by
  unfold expireFlush
  rw [hd, List.head?_cons, Option.bind_some, he]

theorem RecordsOnly.elapsed (h : RecordsOnly s t) : t.elapsed = s.elapsed := by
  obtain ⟨_, _, _, _, rfl⟩ := h
  rfl

/-! ### A holdoff timer expires -/

theorem expireHoldoff_of_stopped {n : RingId}
    (h : ∀ r, s.rings[n] = some r → r.timer = .stopped ∨ r.timer = .expired) : expireHoldoff n s = s := by
  unfold expireHoldoff
  cases hr : s.rings[n] with
  | none => rfl
  | some r =>
    dsimp only
    rcases h r hr with ht | ht <;> rw [ht]

theorem expireHoldoff_of_running {n : RingId} {r : Ring} {e : Nat} (hr : s.rings[n] = some r) (he : r.timer = .running e) :
    expireHoldoff n s = examineMessage n ((passTo e s).setRing n { r with timer := .expired }) := by
  unfold expireHoldoff
  rw [hr]
  dsimp only
  rw [he]

/-- Settles O50. -/
theorem timersExpire : Obligations.TimersExpire := by
  refine ⟨fun i s₀ s d rest e hs hd he => ?_, fun i s₀ s hs hnone => ?_, fun n s₀ s r e hs hr he => ?_, fun n s₀ s hs hnone => ?_⟩
  · have hexec : exec (.flushTimerExpiry i) s₀ = .next (expireFlush i s) := by
      rw [hs]
      rfl
    refine ⟨_, hexec, ?_⟩
    have helapsed := passTo_elapsed e s
    obtain ⟨x, tb, G, high, next, h⟩ := passTo_frame e s
    have hbuffers : (passTo e s).buffers = s.buffers := by rw [h]
    have hstreams : (passTo e s).streams = s.streams := by rw [h]
    have hstaging : (passTo e s).staging = s.staging := by rw [h]
    have hbus : (passTo e s).bus = s.bus := by rw [h]
    have hboxes : (passTo e s).outboxes = s.outboxes := by rw [h]
    have hwriting : (passTo e s).writing i = s.writing i := by rw [h]; rfl
    rw [expireFlush_of_running hd he, hwriting]
    cases hw : s.writing i with
    | true =>
      rw [if_pos rfl]
      refine ⟨helapsed, hstreams, hstaging, fun _ => ⟨?_, hbus, hboxes⟩, (fun h => by cases h)⟩
      exact modHead_cons (by rw [hbuffers]; exact hd) _
    | false =>
      rw [if_neg (by decide), completeBuffer_of_cons (by rw [hbuffers]; exact hd)]
      have hr := joinOutbox_recordsOnly i (d.doneRecord i { flushed := true })
        ((passTo e s).modBuffers i (fun _ => rest))
      refine ⟨hr.elapsed.trans helapsed, hr.streams.trans hstreams, hr.staging.trans hstaging, (fun h => by cases h),
        fun _ => ⟨?_, ?_⟩⟩
      · rw [hr.buffers]
        exact upd_same _ _ _
      · rw [State.modBuffers, hbuffers]
        rfl
  · have hexec : exec (.flushTimerExpiry i) s₀ = .next (expireFlush i s) := by
      rw [hs]
      rfl
    rw [hexec, expireFlush_of_stopped hnone]
  · have hexec : exec (.holdoffExpiry n) s₀ = .next (expireHoldoff n s) := by
      rw [hs]
      rfl
    refine ⟨_, hexec, ?_⟩
    have helapsed := passTo_elapsed e s
    obtain ⟨x, tb, G, high, next, h⟩ := passTo_frame e s
    have hstreams : (passTo e s).streams = s.streams := by rw [h]
    have hbus : (passTo e s).bus = s.bus := by rw [h]
    have hup : (passTo e s).linkUp = s.linkUp := by rw [h]; rfl
    rw [expireHoldoff_of_running hr he]
    generalize passTo e s = u at *
    have hring : (u.setRing n { r with timer := .expired }).rings[n] = some { r with timer := .expired } := upd_same _ _ _
    by_cases hdue : r.armed = true ∧ 1 ≤ r.count
    · have hmessage : ({ r with timer := .expired } : Ring).messageDue = true :=
        (messageDue_iff _).mpr ⟨hdue.1, hdue.2, .inr rfl⟩
      rw [examineMessage_of_due hring hmessage]
      refine ⟨helapsed, hstreams, fun _ _ => ⟨upd_same _ _ _, ?_⟩, fun hnot => ?_⟩
      · rw [← hup, ← hbus]
        rfl
      · rcases hnot with hnot | hnot
        · rw [hnot] at hdue
          cases hdue.1
        · omega
    · have hmessage : ({ r with timer := .expired } : Ring).messageDue = false :=
        Bool.eq_false_iff.mpr fun hm => hdue ⟨((messageDue_iff _).mp hm).1, ((messageDue_iff _).mp hm).2.1⟩
      rw [examineMessage_of_not_due hring hmessage]
      exact ⟨helapsed, hstreams, fun harmed hcount => absurd ⟨harmed, hcount⟩ hdue, fun _ => ⟨hring, hbus⟩⟩
  · have hexec : exec (.holdoffExpiry n) s₀ = .next (expireHoldoff n s) := by
      rw [hs]
      rfl
    rw [hexec, expireHoldoff_of_stopped hnone]

end Sys2Proof.Machine
end


-- ==== Sys2Proof/Proofs/TimesReached.lean ====
section
/-!
PROOFS. Proofs/TimesReached.lean: streams that take one event after another, each in a state that it cannot tell from the one
before the event (`SeesAlike`), and the timed conditions of streams and fire (08_timebase_and_synchronization.md sections 8.4
and 8.8).
-/

namespace Sys2Proof.Machine

variable {i j : StreamId} {s t u v : State}

/-! ### What a stream can tell apart -/

theorem State.SeesAlike.refl (i : StreamId) (s : State) : s.SeesAlike i s :=
  ⟨rfl, rfl, rfl, rfl, rfl, rfl, rfl, rfl, rfl, rfl⟩

theorem State.SeesAlike.trans (h : s.SeesAlike i t) (k : t.SeesAlike i u) : s.SeesAlike i u :=
  ⟨h.stream.trans k.stream, h.staging.trans k.staging, h.buffers.trans k.buffers, h.outbox.trans k.outbox,
    h.scanLists.trans k.scanLists, h.channels.trans k.channels, h.count.trans k.count, h.elapsed.trans k.elapsed,
    h.link.trans k.link, h.writeInFlight.trans k.writeInFlight⟩

theorem State.SeesAlike.writing (h : s.SeesAlike i t) : s.writing i = t.writing i := by
  unfold State.writing
  rw [h.writeInFlight]

/-- A stream cannot tell what another one does. -/
theorem StreamStep.seen (h : StreamStep j s t) (hij : i ≠ j) : t.SeesAlike i s := by
  obtain ⟨h1, h2, h3, h4⟩ := h.others i hij
  obtain ⟨_, _, _, _, _, _, _, _, _, _, e⟩ := h.frame
  exact ⟨h1, h2, h3, h4, by rw [e], by rw [e], by rw [e], by rw [e], by rw [e], by rw [e]⟩

/-- A stream that is no receiver cannot tell that the others took an event. -/
theorem unreached_seen {f : StreamId → State → State} (hf : ∀ j v, StreamStep j v (f j v)) {l : List StreamId}
    (hi : i ∉ l) (s : State) : (l.foldl (fun v j => f j v) s).SeesAlike i s :=
  foldl_keeps (fun v j => f j v) (fun v => v.SeesAlike i s) l s
    (fun v j hj h => ((hf j v).seen (fun e : i = j => hi (by rw [e]; exact hj))).trans h) (.refl i s)

/-- A receiver takes an event in a state that it cannot tell from the one before it. -/
theorem reached_seen {f : StreamId → State → State} (hf : ∀ j v, StreamStep j v (f j v)) {l : List StreamId}
    (hl : l.Nodup) (hi : i ∈ l) (s : State) :
    ∃ u, u.SeesAlike i s ∧ (l.foldl (fun v j => f j v) s).SeesAlike i (f i u) :=
  foldl_reaches (fun v j => f j v) i (fun v => v.SeesAlike i s) (fun v => ∃ u, u.SeesAlike i s ∧ v.SeesAlike i (f i u))
    (fun v j hj h => ((hf j v).seen (Ne.symm hj)).trans h)
    (fun v j hj ⟨u, hu, h⟩ => ⟨u, hu, ((hf j v).seen (Ne.symm hj)).trans h⟩)
    (fun v h => ⟨v, h, .refl i _⟩) l s hl hi (.refl i s)

/-! ### Endings that a stream cannot tell apart -/

theorem drainEndMark_stream_congr (hx : s.streams[i] = t.streams[i]) (hq : s.staging[i] = t.staging[i]) :
    (drainEndMark i s).streams[i] = (drainEndMark i t).streams[i] := by
  cases hf : (t.staging[i]).forming with
  | nil => rw [drainEndMark_of_none (by rw [hq]; exact hf), drainEndMark_of_none hf]; exact hx
  | cons e l =>
    rw [drainEndMark_of_forming (by rw [hq]; exact hf), drainEndMark_of_forming hf]
    simp only [State.modStream_streams, upd_same, State.modStaging_streams, hx]

/-- What a drain leaves of its stream depends on the stream, its staging and the write in flight (R20, R21). -/
theorem enterDraining_stream_congr {reason : EndReason} (hreason : reason ≠ .aborted) (hx : s.streams[i] = t.streams[i])
    (hq : s.staging[i] = t.staging[i]) (hw : s.writing i = t.writing i) :
    (enterDraining i reason s).streams[i] = (enterDraining i reason t).streams[i] := by
  have hd : (s.modStream i (fun x => { x with state := .draining, endReason := some reason })).streams[i]
      = (t.modStream i (fun x => { x with state := .draining, endReason := some reason })).streams[i] := by
    rw [State.modStream_streams, State.modStream_streams, upd_same, upd_same, hx]
  by_cases hpass : (t.streams[i]).pass = none
  · by_cases hleft : t.staging[i] ≠ Staging.empty ∨ t.writing i = true
    · rw [(enterDraining_waits reason (by rw [hx]; exact hpass) (by rw [hq, hw]; exact hleft)).streams,
        (enterDraining_waits reason hpass hleft).streams]
      exact drainEndMark_stream_congr hd hq
    · obtain ⟨hempty, hwriting⟩ := not_or.mp hleft
      rw [not_not] at hempty
      rw [Bool.not_eq_true] at hwriting
      rw [(enterDraining_ends (by rw [hx]; exact hpass) (by rw [hq]; exact hempty) (by rw [hw]; exact hwriting) hreason).streams,
        (enterDraining_ends hpass hempty hwriting hreason).streams]
      simp only [State.modStream_streams, State.modBuffers_streams, upd_same, hx]
  · rw [(enterDraining_walks reason (by rw [hx]; exact hpass)).streams, (enterDraining_walks reason hpass).streams]
    exact hd

theorem historyOf_congr (c : StreamConfig) (hx : s.streams[i] = t.streams[i]) (hq : s.staging[i] = t.staging[i]) :
    s.historyOf i c = t.historyOf i c := by
  unfold State.historyOf
  rw [hx, hq]

theorem runsOf_congr (c : StreamConfig) (hx : s.streams[i] = t.streams[i]) (hq : s.staging[i] = t.staging[i]) :
    s.runsOf i c = t.runsOf i c := by
  unfold State.runsOf
  rw [historyOf_congr c hx hq, hx]

/-- A trigger whose stop time is reached leaves of its stream what the stream can see of it. -/
theorem takeTrigger_stream_congr {c : StreamConfig} {T : Long} (h : s.SeesAlike i t)
    (hc : (t.streams[i]).config = some c) (hstop : c.stop = .time T) (hreached : T ≤ t.timebase.count)
    (source : TriggerSource) : (takeTrigger i source s).streams[i] = (takeTrigger i source t).streams[i] := by
  rw [takeTrigger_of_reached (by rw [h.stream]; exact hc) hstop (by rw [h.count]; exact hreached),
    takeTrigger_of_reached hc hstop hreached, (noteEligible_recordsOnly i s _).streams,
    (noteEligible_recordsOnly i t _).streams]
  have hs := triggered_recordsOnly i source c s
  have ht := triggered_recordsOnly i source c t
  refine enterDraining_stream_congr (by decide) ?_ ?_ ?_
  · rw [joined_stream, joined_stream, triggered_stream, triggered_stream, runsOf_congr c h.stream h.staging, h.stream, h.count]
  · rw [hs.staging, ht.staging, triggered_staging, triggered_staging, runsOf_congr c h.stream h.staging, h.staging]
  · rw [hs.writing, ht.writing]
    obtain ⟨_, _, e, _⟩ := triggered_frame s i source c
    obtain ⟨_, _, e', _⟩ := triggered_frame t i source c
    rw [e, e']
    exact h.writing

/-- What a trigger before its stop time leaves of its stream (R9). -/
theorem takeTrigger_later_stream {c : StreamConfig} (hc : (s.streams[i]).config = some c)
    (hlater : ∀ T, c.stop = .time T → s.timebase.count < T) (source : TriggerSource) :
    (takeTrigger i source s).streams[i] = (s.triggered i source c).streams[i] := by
  rw [takeTrigger_of_later hc hlater, (noteEligible_recordsOnly i s _).streams, (triggered_recordsOnly i source c s).streams]

/-- What a trigger at or after its stop time leaves of its stream (R15). -/
theorem takeTrigger_reached_stream {c : StreamConfig} {T : Long} (hc : (s.streams[i]).config = some c)
    (hstop : c.stop = .time T) (hreached : T ≤ s.timebase.count) (source : TriggerSource) :
    ((takeTrigger i source s).streams[i]).trigger = some ⟨s.timebase.count, source⟩ ∧
      ((takeTrigger i source s).streams[i]).endReason = some .stopTime := by
  rw [takeTrigger_of_reached hc hstop hreached, (noteEligible_recordsOnly i s _).streams]
  obtain ⟨_, _, _, _, _, e⟩ := enterDraining_stream (i := i) (reason := .stopTime)
    (s := streamRecord i (.triggered source (s.historyOf i c).2) (s.triggered i source c)) (by decide)
  rw [e, joined_stream, triggered_stream]
  exact ⟨rfl, rfl⟩

/-! ### The timed conditions -/

theorem takeTime_of_start {c : StreamConfig} {T : Long} (hc : (s.streams[i]).config = some c)
    (hstate : (s.streams[i]).state = .armed) (hstart : c.start = .time T) (hT : T ≤ s.timebase.count) :
    takeTime i s = takeTrigger i .time s := by
  unfold takeTime
  dsimp only
  rw [hc, hstate]
  dsimp only
  rw [hstart]
  exact if_pos hT

theorem takeTime_of_stop {c : StreamConfig} {T : Long} (hc : (s.streams[i]).config = some c)
    (hstate : (s.streams[i]).state = .running) (hstop : c.stop = .time T) (hT : T ≤ s.timebase.count) :
    takeTime i s = enterDraining i .stopTime s := by
  unfold takeTime
  dsimp only
  rw [hc, hstate]
  exact examineStopTime_of_reached hc hstop hstate hT

theorem timeMet_of_start {c : StreamConfig} {T count : Long} {x : StreamContext} (hc : x.config = some c)
    (hstate : x.state = .armed) (hstart : c.start = .time T) (hT : T ≤ count) : x.timeMet count = true := by
  unfold StreamContext.timeMet
  rw [hc]
  dsimp only
  rw [hstate, hstart]
  exact decide_eq_true hT

theorem timeMet_of_stop {c : StreamConfig} {T count : Long} {x : StreamContext} (hc : x.config = some c)
    (hstate : x.state = .running) (hstop : c.stop = .time T) (hT : T ≤ count) : x.timeMet count = true := by
  unfold StreamContext.timeMet
  rw [hc]
  dsimp only
  rw [hstate, hstop]
  exact decide_eq_true hT

theorem nodup_allStreams : allStreams.Nodup := by decide

/-- The streams that an examination of the times reaches. -/
theorem mem_timed (order : List StreamId) (s : State) (i : StreamId) :
    i ∈ arrange order s.timedStreams ↔ (s.streams[i]).timeMet s.timebase.count = true := by
  rw [mem_arrange, State.timedStreams, List.mem_filter]
  simp

theorem nodup_timed (order : List StreamId) (s : State) : (arrange order s.timedStreams).Nodup :=
  nodup_arrange _ (nodup_allStreams.filter _)

/-- The streams take the times that are reached, before the fire is examined. -/
def timesTaken (order : List StreamId) (s : State) : State :=
  (arrange order s.timedStreams).foldl (fun v j => takeTime j v) s

theorem examineTimes_eq (order : List StreamId) (s : State) : examineTimes order s = examineFire (timesTaken order s) := rfl

theorem timesTaken_edge (order : List StreamId) (s : State) : EdgeStep s (timesTaken order s) :=
  .foldl _ (fun s i => .of_stream (takeTime_step i s)) _ _

theorem examineFire_frame (s : State) : examineFire s = { s with timebase := { s.timebase with
    fire := (examineFire s).timebase.fire } } := by
  unfold examineFire
  split
  · split
    · rfl
    · rfl
  all_goals rfl

theorem examineFire_streams (s : State) : (examineFire s).streams = s.streams := by
  rw [examineFire_frame]

/-- The fire field after an examination (R133, R137). -/
theorem examineFire_fire (s : State) :
    (∀ T, s.timebase.fire = .waiting T → (examineFire s).timebase.fire =
      if T ≤ s.timebase.count then .driving (s.elapsed + 50) else .waiting T) ∧
    ((∀ T, s.timebase.fire ≠ .waiting T) → (examineFire s).timebase.fire = s.timebase.fire) := by
  refine ⟨fun T hT => ?_, fun h => ?_⟩
  · unfold examineFire
    rw [hT]
    dsimp only
    by_cases hreached : T ≤ s.timebase.count
    · rw [if_pos hreached, if_pos hreached]
      rfl
    · rw [if_neg hreached, if_neg hreached]
      exact hT
  · unfold examineFire
    cases hf : s.timebase.fire with
    | waiting T => exact absurd hf (h T)
    | absent => exact hf
    | driving e => exact hf

/-- What an examination of the times changes: streams that are met, and a fire whose time is reached. -/
theorem examineTimes_timebase (order : List StreamId) (s : State) :
    (examineTimes order s).timebase = { s.timebase with fire := (examineTimes order s).timebase.fire } ∧
    (examineTimes order s).elapsed = s.elapsed ∧ (examineTimes order s).lines = s.lines ∧
    (∀ T, s.timebase.fire = .waiting T → (examineTimes order s).timebase.fire =
      if T ≤ s.timebase.count then .driving (s.elapsed + 50) else .waiting T) ∧
    ((∀ T, s.timebase.fire ≠ .waiting T) → (examineTimes order s).timebase.fire = s.timebase.fire) := by
  have h := timesTaken_edge order s
  obtain ⟨hwaiting, hother⟩ := examineFire_fire (timesTaken order s)
  rw [h.timebase, h.elapsed] at hwaiting
  rw [h.timebase] at hother
  refine ⟨?_, ?_, ?_, hwaiting, hother⟩
  · rw [examineTimes_eq, examineFire_frame, h.timebase]
  · rw [examineTimes_eq, examineFire_frame]
    exact h.elapsed
  · rw [examineTimes_eq, examineFire_frame]
    exact h.lines

/-- With no condition met nothing changes. -/
theorem examineTimes_of_none (order : List StreamId) (hstreams : ∀ i : StreamId, (s.streams[i]).timeMet s.timebase.count = false)
    (hfire : ∀ T, s.timebase.fire = .waiting T → s.timebase.count < T) : examineTimes order s = s := by
  have hnone : s.timedStreams = [] := List.filter_eq_nil_iff.mpr fun i _ => by rw [hstreams i]; decide
  have hsame : timesTaken order s = s := by
    unfold timesTaken
    rw [hnone]
    rfl
  rw [examineTimes_eq, hsame, examineFire]
  split
  · next T hT => exact if_neg (BitVec.not_le.mpr (hfire T hT))
  all_goals rfl

/-- Time that brings the count to a moment. -/
theorem passTime_count {time : Long} (h : s.timebase.count ≤ time) :
    (passTime (time.toNat - s.timebase.count.toNat) s).timebase = { s.timebase with count := time } := by
  obtain ⟨_, _, _, e⟩ := passTime_frame (time.toNat - s.timebase.count.toNat) s
  have hle : s.timebase.count.toNat ≤ time.toNat := h
  have hcount : advanceCount s.timebase.count (time.toNat - s.timebase.count.toNat) = time := by
    unfold advanceCount
    rw [Nat.add_sub_cancel' hle, Nat.min_eq_left (by have := time.isLt; omega), BitVec.ofNat_toNat, BitVec.setWidth_eq]
  rw [e, hcount]

theorem passTime_zero (s : State) : passTime 0 s = s := if_pos rfl

/-- For a time that is past no time passes. -/
theorem reachTime_of_past (streams : List StreamId) {time : Long} (h : time ≤ s.timebase.count) :
    exec (.timeReached time streams) s = .next (examineTimes streams s) := by
  have hle : time.toNat ≤ s.timebase.count.toNat := h
  have hmoment : s.timeMoment time = s.elapsed := by
    unfold State.timeMoment
    rw [Nat.sub_eq_zero_of_le hle]
    rfl
  show Host.Outcome.next (reachTime time streams (s.readyAt (s.timeMoment time))) = _
  rw [hmoment, readyAt_same (.inl (Nat.le_refl _)), reachTime, Nat.sub_eq_zero_of_le hle, passTime_zero]

/-- Settles O40. -/
theorem timeIsReached : Obligations.TimeIsReached := by
  intro time streams s₀ s hs hle
  have hexec : exec (.timeReached time streams) s₀ = .next (examineTimes streams
      (passTime (time.toNat - s.timebase.count.toNat) s)) := by
    rw [hs]
    rfl
  refine ⟨_, hexec, ?_⟩
  obtain ⟨_, _, _, hframe⟩ := passTime_frame (time.toNat - s.timebase.count.toNat) s
  have hstreams : (passTime (time.toNat - s.timebase.count.toNat) s).streams = s.streams := by rw [hframe]
  have htimebase := passTime_count hle
  have helapsed := passTime_elapsed (time.toNat - s.timebase.count.toNat) s
  generalize passTime (time.toNat - s.timebase.count.toNat) s = v at *
  have hcount : v.timebase.count = time := by rw [htimebase]
  have hfire : v.timebase.fire = s.timebase.fire := by rw [htimebase]
  obtain ⟨htb, helapsed', _, hwaiting, hother⟩ := examineTimes_timebase streams v
  have htaken : (examineTimes streams v).streams = (timesTaken streams v).streams := examineFire_streams _
  have hreached : ∀ i : StreamId, (s.streams[i]).timeMet time = true →
      ∃ u, u.SeesAlike i v ∧ (examineTimes streams v).streams[i] = (takeTime i u).streams[i] := by
    intro i hi
    obtain ⟨u, hu, ht⟩ := reached_seen (i := i) takeTime_step (nodup_timed streams v)
      ((mem_timed streams v i).mpr (by rw [hcount, hstreams]; exact hi)) v
    refine ⟨u, hu, ?_⟩
    rw [htaken]
    exact ht.stream
  refine ⟨by rw [htb]; exact hcount, helapsed'.trans helapsed, fun i c T hc => ⟨fun hstate hstart hT hlater => ?_,
      fun U hstate hstart hT hstop hU => ?_, fun hstate hstop hT => ?_, fun hmet => ?_⟩, fun T hT => ?_, fun hnot => ?_,
    by rw [htb, htimebase], fun hnone hnofire => ?_, fun earlier hearlier => ?_⟩
  · obtain ⟨u, hu, ht⟩ := hreached i (timeMet_of_start hc hstate hstart hT)
    rw [← hstreams, ← hu.stream] at hc hstate
    rw [← hcount, ← hu.count] at hT
    have hlater' : ∀ T, c.stop = .time T → u.timebase.count < T := by
      rw [hu.count, hcount]
      exact hlater
    rw [ht, takeTime_of_start hc hstate hstart hT, takeTrigger_later_stream hc hlater', triggered_stream, hu.count, hcount]
    exact ⟨rfl, rfl⟩
  · obtain ⟨u, hu, ht⟩ := hreached i (timeMet_of_start hc hstate hstart hT)
    rw [← hstreams] at hc hstate
    rw [← hcount] at hT hU
    have hc' : (u.streams[i]).config = some c := by
      rw [hu.stream]
      exact hc
    rw [ht, takeTime_of_start hc' (by rw [hu.stream]; exact hstate) hstart (by rw [hu.count]; exact hT),
      takeTrigger_stream_congr hu hc hstop hU, ← hcount]
    exact ⟨rfl, takeTrigger_reached_stream hc hstop hU .time⟩
  · obtain ⟨u, hu, ht⟩ := hreached i (timeMet_of_stop hc hstate hstop hT)
    rw [← hstreams, ← hu.stream] at hc hstate
    rw [← hcount, ← hu.count] at hT
    obtain ⟨state, _, hstates, _, _, e⟩ := enterDraining_stream (i := i) (s := u) (reason := .stopTime) (by decide)
    rw [ht, takeTime_of_stop hc hstate hstop hT, e]
    exact ⟨hstates, rfl⟩
  · have hi : i ∉ arrange streams v.timedStreams := by
      rw [mem_timed, hcount, hstreams, hmet]
      decide
    rw [htaken, ← hstreams]
    exact (unreached_seen takeTime_step hi v).stream
  · rw [hwaiting T (by rw [hfire]; exact hT), hcount, helapsed']
  · rw [hother (by rw [hfire]; exact hnot), hfire]
  · refine examineTimes_of_none streams (fun i => ?_) fun T hT => ?_
    · rw [hstreams, hcount]
      exact hnone i
    · rw [hcount]
      exact hnofire T (by rw [← hfire]; exact hT)
  · rw [reachTime_of_past streams hearlier, reachTime_of_past streams (BitVec.le_refl _)]

end Sys2Proof.Machine
end


-- ==== Sys2Proof/Proofs/SyncEdges.lean ====
section
/-!
PROOFS. Proofs/SyncEdges.lean: falling edges of SYNC, the load of a preset, the end of a pulse and the expiry of the arm
(08_timebase_and_synchronization.md sections 8.4 to 8.8).
-/

namespace Sys2Proof.Machine

variable {s t u v w : State}

/-! ### What the Timebase hands to placement -/

theorem handTimebaseEvent_of_placed {r : Record} (hup : s.linkUp = true) (h : place 0 r s = some t) :
    handTimebaseEvent r s = t := by
  unfold handTimebaseEvent
  rw [hup, h]
  rfl

theorem handTimebaseEvent_of_not_placed {r : Record} (hup : s.linkUp = true) (h : place 0 r s = none) :
    handTimebaseEvent r s = { s with timebase := { s.timebase with hold := some r } } := by
  unfold handTimebaseEvent
  rw [hup, h]
  rfl

theorem handTimebaseEvent_of_down {r : Record} (hdown : s.linkUp = false) : handTimebaseEvent r s = s := by
  unfold handTimebaseEvent
  rw [hdown]
  rfl

theorem handTimebaseEvent_frame (r : Record) (s : State) : ∃ R B hold, handTimebaseEvent r s = { s with
    rings := R, bus := B, timebase := { s.timebase with hold := hold } } := by
  cases hup : s.linkUp with
  | false => exact ⟨_, _, _, handTimebaseEvent_of_down hup⟩
  | true =>
    cases hplace : place 0 r s with
    | none => exact ⟨_, _, _, handTimebaseEvent_of_not_placed hup hplace⟩
    | some t =>
      obtain ⟨R, B, e⟩ := (place_step hplace).frame
      exact ⟨R, B, s.timebase.hold, (handTimebaseEvent_of_placed hup hplace).trans e⟩

/-- What a load changes: rings and output by its record, and the Timebase's count, arm and hold slot (R134). -/
theorem syncLoad_frame (a : SyncArm) (s : State) : ∃ R B hold, syncLoad a s = { s with
    rings := R, bus := B, timebase := { s.timebase with count := a.preset, arm := none, hold := hold } } := by
  obtain ⟨R, B, hold, e⟩ := handTimebaseEvent_frame
    (.timebaseEvent .syncTaken s.timebase.role a.timeoutMs a.preset s.timebase.count)
    { s with timebase := { s.timebase with count := a.preset, arm := none } }
  exact ⟨R, B, hold, e⟩

/-! ### The sample of an edge -/

theorem EdgeStep.sync (h : EdgeStep s t) : t.syncHigh = s.syncHigh ∧ t.syncNext = s.syncNext := by
  obtain ⟨_, _, _, _, _, _, _, _, _, _, _, rfl⟩ := h
  exact ⟨rfl, rfl⟩

theorem settleLine_syncNext (n : LineId) (s : State) : (settleLine n s).syncNext = s.syncNext := by
  unfold settleLine
  split
  · rfl
  · exact (handEdge_edge n _ _ _).sync.2
  · rfl

theorem readyAt_syncNext (m : Nat) (s : State) : (s.readyAt m).syncNext = s.syncNext := by
  unfold State.readyAt
  split
  · exact foldl_keeps (fun s n => settleLine n s) (fun v => v.syncNext = s.syncNext) _ s
      (fun v n _ h => (settleLine_syncNext n v).trans h) rfl
  · rfl

theorem readyAt_elapsed (m : Nat) (s : State) : (s.readyAt m).elapsed = s.elapsed := by
  by_cases h : s.elapsed < m
  · exact (readyAt_keeps h).2.1
  · rw [readyAt_same (.inl (Nat.le_of_not_lt h))]

/-- Samples that pass find a high SYNC line as it was. -/
theorem passTime_high (h : s.syncHigh = true) (d : Nat) : (passTime d s).syncHigh = true := by
  unfold passTime
  split
  · exact h
  · dsimp only
    rw [h]
    rfl

theorem atSyncSample_of_low (h : s.syncHigh = false) : s.atSyncSample = s := by
  unfold State.atSyncSample
  rw [h]
  rfl

theorem atSyncSample_of_high (h : s.syncHigh = true) : s.atSyncSample = passTo s.syncMoment (s.readyAt (s.elapsed + 1)) :=
  if_pos h

theorem atSyncSample_high (s : State) : s.atSyncSample.syncHigh = s.syncHigh := by
  cases h : s.syncHigh with
  | false => rw [atSyncSample_of_low h, h]
  | true =>
    rw [atSyncSample_of_high h]
    exact passTime_high ((readyAt_sync _ s).1.trans h) _

theorem atSyncSample_elapsed (h : s.syncHigh = true) : s.atSyncSample.elapsed = max s.elapsed s.syncMoment := by
  rw [atSyncSample_of_high h, passTo_elapsed, readyAt_elapsed]

theorem atSyncSample_fire (s : State) : s.atSyncSample.timebase.fire = s.timebase.fire := by
  cases h : s.syncHigh with
  | false => rw [atSyncSample_of_low h]
  | true =>
    obtain ⟨_, _, _, e⟩ := passTime_frame (s.syncMoment - (s.readyAt (s.elapsed + 1)).elapsed) (s.readyAt (s.elapsed + 1))
    rw [atSyncSample_of_high h, passTo, e, (readyAt_sync _ s).2]

theorem syncNext_le_syncMoment (s : State) : s.syncNext ≤ s.syncMoment := by
  unfold State.syncMoment
  split
  · exact Nat.le_max_right _ _
  all_goals exact Nat.le_refl _

theorem syncMoment_congr (hfire : s.timebase.fire = t.timebase.fire) (hnext : s.syncNext = t.syncNext) :
    s.syncMoment = t.syncMoment := by
  unfold State.syncMoment
  rw [hfire, hnext]

/-- What the lines hand over at the sample may be handed over before (R110). -/
theorem atSyncSample_readyAt (h : s.syncHigh = true) : (s.readyAt (s.elapsed + 1)).atSyncSample = s.atSyncSample := by
  obtain ⟨hhigh, htimebase⟩ := readyAt_sync (s.elapsed + 1) s
  rw [atSyncSample_of_high h, atSyncSample_of_high (hhigh.trans h), readyAt_elapsed, readyAt_readyAt (Nat.le_refl _),
    syncMoment_congr (congrArg Timebase.fire htimebase) (readyAt_syncNext _ s)]

/-! ### An edge at the Timebase -/

/-- The state once a sample has found SYNC low (R114). -/
def State.fallen (s : State) : State := { s with syncHigh := false, syncNext := s.elapsed + 1 }

theorem handSyncEdge_of_low (h : s.syncHigh = false) (streams : List StreamId) : handSyncEdge streams s = s := if_pos h

theorem handSyncEdge_of_unarmed (hhigh : s.syncHigh = true) (h : s.timebase.role = .off ∨ s.timebase.arm = none)
    (streams : List StreamId) : handSyncEdge streams s = s.fallen := by
  unfold handSyncEdge
  rw [if_neg (by rw [hhigh]; decide)]
  dsimp only
  rcases h with h | h
  · rw [h]
    rfl
  · rw [h]
    cases s.timebase.role <;> rfl

theorem handSyncEdge_of_armed (hhigh : s.syncHigh = true) {a : SyncArm} (hrole : s.timebase.role ≠ .off)
    (harm : s.timebase.arm = some a) (streams : List StreamId) : handSyncEdge streams s = takeLoad a streams s.fallen := by
  unfold handSyncEdge
  rw [if_neg (by rw [hhigh]; decide)]
  dsimp only
  rw [harm]
  cases h : s.timebase.role with
  | off => exact absurd h hrole
  | leader => rfl
  | follower => rfl

theorem examineTimes_sync (streams : List StreamId) (s : State) :
    (examineTimes streams s).syncHigh = s.syncHigh ∧ (examineTimes streams s).syncNext = s.syncNext := by
  rw [examineTimes_eq, examineFire_frame]
  exact (timesTaken_edge streams s).sync

theorem examineTimes_linkUp (streams : List StreamId) (s : State) : (examineTimes streams s).linkUp = s.linkUp := by
  obtain ⟨_, _, _, _, _, _, _, _, _, _, _, e⟩ := timesTaken_edge streams s
  rw [examineTimes_eq, examineFire_frame, e]
  rfl

/-- What a load keeps: SYNC, the moments and the lines. -/
theorem takeLoad_keeps (a : SyncArm) (streams : List StreamId) (s : State) :
    (takeLoad a streams s).syncHigh = s.syncHigh ∧ (takeLoad a streams s).syncNext = s.syncNext ∧
      (takeLoad a streams s).elapsed = s.elapsed ∧ (takeLoad a streams s).lines = s.lines := by
  obtain ⟨hhigh, hnext⟩ := examineTimes_sync streams s
  obtain ⟨_, helapsed, hlines, _, _⟩ := examineTimes_timebase streams s
  obtain ⟨_, _, _, e⟩ := syncLoad_frame a (examineTimes streams s)
  obtain ⟨hhigh', hnext'⟩ := examineTimes_sync streams (syncLoad a (examineTimes streams s))
  obtain ⟨_, helapsed', hlines', _, _⟩ := examineTimes_timebase streams (syncLoad a (examineTimes streams s))
  unfold takeLoad
  rw [hhigh', hnext', helapsed', hlines', e]
  exact ⟨hhigh, hnext, helapsed, hlines⟩

/-- What a load leaves of the Timebase (R134, R137). -/
theorem takeLoad_timebase (a : SyncArm) (streams : List StreamId) (s : State) :
    (takeLoad a streams s).timebase.count = a.preset ∧ (takeLoad a streams s).timebase.arm = none ∧
      (takeLoad a streams s).timebase.role = s.timebase.role ∧
      (∀ T, s.timebase.fire = .waiting T → (takeLoad a streams s).timebase.fire =
        if T ≤ s.timebase.count ∨ T ≤ a.preset then .driving (s.elapsed + 50) else .waiting T) ∧
      ((∀ T, s.timebase.fire ≠ .waiting T) → (takeLoad a streams s).timebase.fire = s.timebase.fire) := by
  obtain ⟨htb, helapsed, _, hwaiting, hother⟩ := examineTimes_timebase streams s
  obtain ⟨R, B, hold, e⟩ := syncLoad_frame a (examineTimes streams s)
  obtain ⟨htb', _, _, hwaiting', hother'⟩ := examineTimes_timebase streams (syncLoad a (examineTimes streams s))
  have hload : (syncLoad a (examineTimes streams s)).timebase
      = { (examineTimes streams s).timebase with count := a.preset, arm := none, hold := hold } := by rw [e]
  have hat : (syncLoad a (examineTimes streams s)).elapsed = s.elapsed := by rw [e]; exact helapsed
  rw [hat, hload] at hwaiting'
  rw [hload] at htb' hother'
  unfold takeLoad
  refine ⟨by rw [htb'], by rw [htb'], by rw [htb', htb], fun T hT => ?_, fun hno => ?_⟩
  · by_cases hreached : T ≤ s.timebase.count
    · have hfire := (hwaiting T hT).trans (if_pos hreached)
      rw [if_pos (.inl hreached), hother' (fun U hU => by rw [hfire] at hU; cases hU)]
      exact hfire
    · rw [hwaiting' T ((hwaiting T hT).trans (if_neg hreached))]
      exact if_congr (or_iff_right hreached).symm rfl rfl
  · have hfire := hother hno
    rw [hother' (fun U hU => hno U (hfire.symm.trans hU))]
    exact hfire

/-- What an edge of a high line leaves: SYNC low, the next sample a period later, and the lines as they were. -/
theorem handSyncEdge_keeps (hhigh : s.syncHigh = true) (streams : List StreamId) :
    (handSyncEdge streams s).syncHigh = false ∧ (handSyncEdge streams s).syncNext = s.elapsed + 1 ∧
      (handSyncEdge streams s).elapsed = s.elapsed ∧ (handSyncEdge streams s).lines = s.lines := by
  by_cases hunarmed : s.timebase.role = .off ∨ s.timebase.arm = none
  · rw [handSyncEdge_of_unarmed hhigh hunarmed]
    exact ⟨rfl, rfl, rfl, rfl⟩
  · obtain ⟨hrole, harm⟩ := not_or.mp hunarmed
    obtain ⟨a, ha⟩ := Option.ne_none_iff_exists'.mp harm
    rw [handSyncEdge_of_armed hhigh hrole ha]
    exact takeLoad_keeps a streams s.fallen

theorem handSyncEdge_driving {e : Nat} (hfire : s.timebase.fire = .driving e) (streams : List StreamId) :
    (handSyncEdge streams s).timebase.fire = .driving e := by
  cases hhigh : s.syncHigh with
  | false =>
    rw [handSyncEdge_of_low hhigh]
    exact hfire
  | true =>
    by_cases hunarmed : s.timebase.role = .off ∨ s.timebase.arm = none
    · rw [handSyncEdge_of_unarmed hhigh hunarmed]
      exact hfire
    · obtain ⟨hrole, harm⟩ := not_or.mp hunarmed
      obtain ⟨a, ha⟩ := Option.ne_none_iff_exists'.mp harm
      rw [handSyncEdge_of_armed hhigh hrole ha]
      have hfallen : s.fallen.timebase.fire = .driving e := hfire
      rw [(takeLoad_timebase a streams s.fallen).2.2.2.2 (fun T hT => by rw [hfallen] at hT; cases hT)]
      exact hfallen

/-! ### What one line owes -/

theorem passTo_zero (s : State) : passTo 0 s = s := by
  unfold passTo
  rw [Nat.zero_sub, passTime_zero]

/-- A sample that finds its line as it was is no moment to come. -/
theorem atSample_of_same {n : LineId} {active : Bool} (h : (s.lines[n]).active = active) : s.atSample n active = s := by
  have hmoment : s.sampleMoment n active = 0 := if_pos h
  unfold State.atSample
  dsimp only
  rw [hmoment, readyAt_same (.inl (Nat.zero_le _)), passTo_zero]

/-- Where one line owes, time passes once that line has handed over what it owes. -/
theorem readyAt_of_one {n : LineId} {m : Nat} (howed : (s.lines[n]).owed ≠ .nothing)
    (hothers : ∀ k : LineId, k ≠ n → (s.lines[k]).owed = .nothing) (hm : s.elapsed < m) :
    s.readyAt m = settleLine n s := by
  unfold State.readyAt
  rw [if_pos (by rw [(linesOwe_iff s).mpr ⟨n, howed⟩, decide_eq_true hm]; rfl)]
  exact settleLines_one hothers

/-- The command that takes the edge a line owes does what the line does itself before time passes. -/
theorem trigEdge_of_owed {n : LineId} (hactive : (s.lines[n]).active = true) (howed : (s.lines[n]).owed = .edge) :
    exec (.trigEdge n (Config.receiverOrder s.choices) (Config.streamOrder s.choices)) s = .next (settleLine n s) := by
  show Host.Outcome.next (takeLineEdge n _ _ (s.atSample n true)) = _
  rw [atSample_of_same hactive]
  unfold takeLineEdge settleLine
  dsimp only
  rw [if_neg (by rw [hactive]; decide), if_pos howed, howed]

/-- The command that takes the change a line owes does what the line does itself before time passes. -/
theorem gateChange_of_owed {n : LineId} (hactive : (s.lines[n]).active = true) (howed : (s.lines[n]).owed = .change) :
    exec (.gateChange n true) s = .next (settleLine n s) := by
  show Host.Outcome.next (takeLineChange n true (s.atSample n true)) = _
  rw [atSample_of_same hactive]
  unfold takeLineChange settleLine
  dsimp only
  rw [if_pos hactive, if_pos ⟨rfl, howed⟩, howed]

/-! ### The edge -/

/-- A low line that time finds high was found so by a sample one period later at least (R114). -/
theorem syncNext_of_rise {d : Nat} (hlow : s.syncHigh = false) (hhigh : (passTime d s).syncHigh = true) :
    s.elapsed + 2 ≤ (passTime d s).syncNext := by
  unfold passTime at hhigh ⊢
  by_cases hd : d = 0
  · rw [if_pos hd, hlow] at hhigh
    cases hhigh
  · rw [if_neg hd] at hhigh ⊢
    dsimp only at hhigh ⊢
    rw [hlow, Bool.false_or, Option.isSome_iff_exists] at hhigh
    obtain ⟨r, hr⟩ := hhigh
    have hpos : 1 ≤ r := by
      unfold State.syncRise at hr
      split_ifs at hr with _ hrange
      obtain rfl := Option.some.inj hr
      exact hrange.1
    rw [hr]
    dsimp only
    omega

/-- A load with its record in the three ways of the hold slot (R134, R136). -/
theorem takeLoad_record (a : SyncArm) (streams : List StreamId) {record : Record}
    (hw : w = examineTimes streams v) (hu : u = { w with timebase := { w.timebase with count := a.preset, arm := none } })
    (hrecord : record = .timebaseEvent .syncTaken v.timebase.role a.timeoutMs a.preset v.timebase.count) :
    takeLoad a streams v = examineTimes streams (handTimebaseEvent record u) := by
  have htimebase := (examineTimes_timebase streams v).1
  have hload : syncLoad a w = handTimebaseEvent record u := by
    rw [hu, hrecord, hw]
    unfold syncLoad
    dsimp only
    rw [htimebase]
  unfold takeLoad
  rw [← hw, hload]

/-- Settles O37. -/
theorem syncEdgeLoadsPreset : Obligations.SyncEdgeLoadsPreset := by
  have hexec : ∀ (streams : List StreamId) (s : State),
      exec (.syncFallingEdge streams) s = .next (handSyncEdge streams s.atSyncSample) := fun _ _ => rfl
  refine ⟨fun streams s₀ s hs => ?_, fun s u hu => ?_, fun n streams s u hhigh hactive howed hothers hu => ?_,
    fun k l d s t hhigh ht => ?_⟩
  · have hexec' := hexec streams s₀
    have hat := atSyncSample_high s₀
    rw [← hs] at hexec' hat
    refine ⟨fun hlow => ?_, fun v hhigh hv => ⟨fun hunarmed => ?_, fun a w u record hrole harm hw hu hrecord => ?_⟩,
      fun a hhigh hrole harm => ?_⟩
    · rw [hexec', handSyncEdge_of_low hlow, hs, atSyncSample_of_low (by rw [← hat]; exact hlow)]
    · rw [hexec', handSyncEdge_of_unarmed hhigh hunarmed, hv]
      rfl
    · have hv' : v = s.fallen := hv
      have hw' : w = examineTimes streams v := by
        have hpast := reachTime_of_past streams (BitVec.le_refl v.timebase.count)
        rw [hpast] at hw
        cases hw
        rfl
      have hup : u.linkUp = s.linkUp := by
        have h := examineTimes_linkUp streams v
        rw [← hw', hv'] at h
        rw [hu]
        exact h
      have hload : exec (.syncFallingEdge streams) s₀ = .next (examineTimes streams (handTimebaseEvent record u)) := by
        rw [hexec', handSyncEdge_of_armed hhigh hrole harm, ← hv', takeLoad_record a streams hw' hu]
        rw [hrecord, hv']
        rfl
      have hcount : u.timebase.count = a.preset := by rw [hu]
      refine ⟨fun t hlink hplace => ?_, fun hlink hplace => ?_, fun hlink => ?_⟩
      · have ht : t.timebase.count = a.preset := by
          obtain ⟨_, _, e⟩ := (place_step hplace).frame
          rw [e]
          exact hcount
        rw [hload, handTimebaseEvent_of_placed (hup.trans hlink) hplace,
          reachTime_of_past streams (by rw [ht]; exact BitVec.le_refl _)]
      · rw [hload, handTimebaseEvent_of_not_placed (hup.trans hlink) hplace,
          reachTime_of_past streams (by rw [← hcount]; exact BitVec.le_refl _)]
      · rw [hload, handTimebaseEvent_of_down (hup.trans hlink),
          reachTime_of_past streams (by rw [hcount]; exact BitVec.le_refl _)]
    · obtain ⟨klow, knext, kelapsed, _⟩ := takeLoad_keeps a streams s.fallen
      obtain ⟨kcount, karm, krole, kwaiting, kother⟩ := takeLoad_timebase a streams s.fallen
      refine ⟨_, hexec'.trans (congrArg Host.Outcome.next (handSyncEdge_of_armed hhigh hrole harm streams)), klow, kcount,
        karm, krole, kelapsed, knext, kwaiting, fun e he => ?_, fun habsent => ?_⟩
      · exact (kother fun T hT => by cases he.symm.trans hT).trans he
      · exact (kother fun T hT => by cases habsent.symm.trans hT).trans habsent
  · have helapsed := readyAt_elapsed (s.elapsed + 1) s
    refine ⟨atSyncSample_of_low, fun e hhigh hfire => ?_, fun hhigh hno => ?_⟩
    · rw [atSyncSample_of_high hhigh, passTo, helapsed, hu, State.syncMoment, hfire]
      rfl
    · rw [atSyncSample_of_high hhigh, passTo, helapsed, hu, State.syncMoment]
      split
      · next e he => exact absurd he (hno e)
      all_goals rfl
  · rw [trigEdge_of_owed hactive howed] at hu
    cases hu
    have howes : (s.lines[n]).owed ≠ .nothing := by rw [howed]; decide
    refine ⟨by rw [(settleLine_sync n s).2], ?_⟩
    rw [hexec, hexec, ← readyAt_of_one howes hothers (Nat.lt_succ_self s.elapsed), atSyncSample_readyAt hhigh]
  · rw [hexec] at ht
    cases ht
    obtain ⟨klow, _, _, _⟩ := handSyncEdge_keeps ((atSyncSample_high s).trans hhigh) k
    refine ⟨klow, ?_⟩
    cases hrise : (passTime d (handSyncEdge k s.atSyncSample)).syncHigh with
    | false => exact .inl rfl
    | true =>
      refine .inr ⟨_, hexec l _, ?_⟩
      have hmoment := syncNext_le_syncMoment (passTime d (handSyncEdge k s.atSyncSample))
      have hnext := syncNext_of_rise klow hrise
      rw [(handSyncEdge_keeps ((atSyncSample_high _).trans hrise) l).2.2.1, atSyncSample_elapsed hrise]
      omega

/-! ### The end of a pulse and the expiry of the arm -/

/-- A pulse ends once the edge of its line is taken (R133). -/
theorem endPulse_of_driving {e : Nat} (hfire : s.timebase.fire = .driving e)
    (hu : u = handSyncEdge (Config.streamOrder s.choices) s.atSyncSample) :
    endPulse s = { passTo e u with timebase := { (passTo e u).timebase with fire := .absent } } := by
  unfold endPulse
  rw [hfire, hu]

theorem endPulse_of_low {e : Nat} (hfire : s.timebase.fire = .driving e) (hlow : s.syncHigh = false) :
    endPulse s = { passTo e s with timebase := { (passTo e s).timebase with fire := .absent } } :=
  endPulse_of_driving hfire (by rw [atSyncSample_of_low hlow, handSyncEdge_of_low hlow])

theorem endPulse_of_none (hno : ∀ e, s.timebase.fire ≠ .driving e) : endPulse s = s := by
  unfold endPulse
  split
  · next e he => exact absurd he (hno e)
  all_goals rfl

/-- Where the lines are ready for the end of a pulse, they are ready for it after its edge. -/
theorem handSyncEdge_ready {m : Nat} (hready : m ≤ s.elapsed ∨ ∀ k : LineId, (s.lines[k]).owed = .nothing)
    (hhigh : s.syncHigh = true) (streams : List StreamId) :
    (handSyncEdge streams s.atSyncSample).readyAt m = handSyncEdge streams s.atSyncSample := by
  obtain ⟨_, _, kelapsed, klines⟩ := handSyncEdge_keeps ((atSyncSample_high s).trans hhigh) streams
  refine readyAt_same ?_
  rcases hready with hpast | hsettled
  · rw [kelapsed, atSyncSample_elapsed hhigh]
    exact .inl (Nat.le_trans hpast (Nat.le_max_left _ _))
  · rw [klines, atSyncSample_of_high hhigh, readyAt_same (.inr hsettled)]
    obtain ⟨_, _, _, _, _, e⟩ := passTo_frame s.syncMoment s
    rw [e]
    exact .inr hsettled

theorem readyAt_ready (m : Nat) (s : State) :
    m ≤ (s.readyAt m).elapsed ∨ ∀ k : LineId, ((s.readyAt m).lines[k]).owed = .nothing := by
  rw [readyAt_elapsed]
  by_cases h : s.elapsed < m
  · rw [(readyAt_keeps h).1]
    exact .inr fun k => congrArg Line.owed (mapAll_get s.lines Line.settled k.val k.isLt)
  · exact .inl (Nat.le_of_not_lt h)

theorem pulseMoment_of_driving {e : Nat} (hfire : s.timebase.fire = .driving e) : s.pulseMoment = e := by
  unfold State.pulseMoment
  rw [hfire]

theorem expireArm_of_expiry {a : SyncArm} {e : Nat} (harm : s.timebase.arm = some a) (hexpiry : a.expiry = some e) :
    expireArm s = syncExpire a (passTo e s) := by
  unfold expireArm
  rw [harm]
  dsimp only
  rw [hexpiry]

theorem expireArm_of_none (hno : ∀ a, s.timebase.arm = some a → a.expiry = none) : expireArm s = s := by
  unfold expireArm
  split
  · next a ha => rw [hno a ha]
  · rfl

/-- Settles O41. -/
theorem pulseEndsAndArmExpires : Obligations.PulseEndsAndArmExpires := by
  have hpulse : ∀ s : State, exec .syncPulseEnd s = .next (endPulse (s.readyAt s.pulseMoment)) := fun _ => rfl
  refine ⟨fun s₀ s hs => ?_, fun s₀ s hs => ?_⟩
  · have hexec := hpulse s₀
    rw [← hs] at hexec
    refine ⟨fun e hfire => ⟨fun hlow => ?_, fun u hhigh hu => ?_⟩, fun hno => ?_⟩
    · rw [hexec, endPulse_of_low hfire hlow]
      rfl
    · have hu' : u = handSyncEdge (Config.streamOrder s.choices) s.atSyncSample := (Host.Outcome.next.inj hu).symm
      have hmoment : s₀.pulseMoment = e := pulseMoment_of_driving (by rw [← (readyAt_sync s₀.pulseMoment s₀).2, ← hs]; exact hfire)
      have hready := readyAt_ready s₀.pulseMoment s₀
      rw [← hs, hmoment] at hready
      have kfire : u.timebase.fire = .driving e := by
        rw [hu']
        exact handSyncEdge_driving ((atSyncSample_fire s).trans hfire) _
      have klow : u.syncHigh = false := by
        rw [hu']
        exact (handSyncEdge_keeps ((atSyncSample_high s).trans hhigh) _).1
      have kready : u.readyAt u.pulseMoment = u := by
        rw [pulseMoment_of_driving kfire, hu']
        exact handSyncEdge_ready hready hhigh _
      refine ⟨kfire, klow, ?_⟩
      rw [hexec, hpulse, kready, endPulse_of_low kfire klow, endPulse_of_driving hfire hu']
    · rw [hexec, endPulse_of_none hno]
  · have hexec : exec .armTimeout s₀ = .next (expireArm s) := by
      rw [hs]
      rfl
    refine ⟨fun a e u record harm hexpiry hu hrecord => ?_, fun hno => ?_⟩
    · have hexpire : exec .armTimeout s₀ = .next (handTimebaseEvent record u) := by
        rw [hexec, expireArm_of_expiry harm hexpiry, hrecord, hu, ← (passTime_role_arm (e - s.elapsed) s).1]
        rfl
      have hup : u.linkUp = s.linkUp := by
        obtain ⟨_, _, _, h⟩ := passTime_frame (e - s.elapsed) s
        rw [hu, h]
        rfl
      refine ⟨by rw [hu]; exact passTo_elapsed e s, fun t hlink hplace => ?_, fun hlink hplace => ?_, fun hlink => ?_⟩
      · rw [hexpire, handTimebaseEvent_of_placed (hup.trans hlink) hplace]
      · rw [hexpire, handTimebaseEvent_of_not_placed (hup.trans hlink) hplace]
      · rw [hexpire, handTimebaseEvent_of_down (hup.trans hlink)]
    · rw [hexec, expireArm_of_none hno]

end Sys2Proof.Machine
end


-- ==== Sys2Proof/Proofs/LineChanges.lean ====
section
/-!
PROOFS. Proofs/LineChanges.lean: samples of a trigger line that find it changed, and the generators that follow their gate line
(06_pacing_and_external_lines.md sections 6.2 and 6.5).
-/

namespace Sys2Proof.Machine

variable {n : LineId} {active : Bool} {s t u v : State}

/-! ### A sample of a line -/

theorem sampled_active (l : Line) (moment : Nat) (active : Bool) (owed : LineOwed) :
    (l.sampled moment active owed).active = active := by
  unfold Line.sampled Line.setActive Line.active
  cases l.polarity with
  | activeHigh => rfl
  | activeLow => exact Bool.not_not active

theorem sampled_polarity (l : Line) (moment : Nat) (active : Bool) (owed : LineOwed) :
    (l.sampled moment active owed).polarity = l.polarity := by
  unfold Line.sampled Line.setActive
  cases l.polarity <;> rfl

theorem settled_line (k : LineId) (s : State) : (mapAll s.lines Line.settled)[k] = { s.lines[k] with owed := .nothing } :=
  mapAll_get s.lines Line.settled k.val k.isLt

/-- What lines hand over, and time that passes, leave the level of a line as it was. -/
theorem atSample_active (n k : LineId) (active : Bool) (s : State) :
    ((s.atSample n active).lines[k]).active = (s.lines[k]).active := by
  obtain ⟨_, _, _, _, _, e⟩ := passTo_frame (s.sampleMoment n active) (s.readyAt (s.sampleMoment n active))
  unfold State.atSample
  dsimp only
  rw [e]
  by_cases h : s.elapsed < s.sampleMoment n active
  · dsimp only
    rw [(readyAt_keeps h).1]
    exact (congrArg Line.active (settled_line k s)).trans rfl
  · rw [readyAt_same (.inl (Nat.le_of_not_lt h))]

theorem sampleMoment_of_changed (h : (s.lines[n]).active ≠ active) : s.sampleMoment n active = (s.lines[n]).nextSample := if_neg h

theorem atSample_of_changed (h : (s.lines[n]).active ≠ active) :
    s.atSample n active = passTime ((s.lines[n]).nextSample - s.elapsed) (s.readyAt (s.lines[n]).nextSample) := by
  unfold State.atSample passTo
  dsimp only
  rw [sampleMoment_of_changed h, readyAt_elapsed]

theorem atSample_elapsed (h : (s.lines[n]).active ≠ active) :
    (s.atSample n active).elapsed = max s.elapsed (s.lines[n]).nextSample := by
  rw [atSample_of_changed h, passTime_elapsed, readyAt_elapsed]
  omega

/-- What the lines hand over at the sample may be handed over before (R110). -/
theorem atSample_readyAt (hn : (s.lines[n]).active ≠ active) :
    (s.readyAt (s.lines[n]).nextSample).atSample n active = s.atSample n active := by
  by_cases h : s.elapsed < (s.lines[n]).nextSample
  · have hline : (s.readyAt (s.lines[n]).nextSample).lines[n] = { s.lines[n] with owed := .nothing } := by
      rw [(readyAt_keeps h).1]
      exact settled_line n s
    have hn' : ((s.readyAt (s.lines[n]).nextSample).lines[n]).active ≠ active := by
      rw [hline]
      exact hn
    have hnext : ((s.readyAt (s.lines[n]).nextSample).lines[n]).nextSample = (s.lines[n]).nextSample := by rw [hline]
    rw [atSample_of_changed hn', hnext, readyAt_readyAt (Nat.le_refl _), readyAt_elapsed, atSample_of_changed hn]
  · rw [readyAt_same (.inl (Nat.le_of_not_lt h))]

/-! ### Edges and changes -/

theorem takeLineEdge_of_inactive (h : (s.lines[n]).active = false) (order : List (Fin 12)) (streams : List StreamId) :
    takeLineEdge n order streams s = handEdge n order streams (s.modLine n (fun l => l.sampled s.elapsed true .change)) :=
  if_pos h

theorem takeLineEdge_of_owed (hactive : (s.lines[n]).active = true) (howed : (s.lines[n]).owed = .edge)
    (order : List (Fin 12)) (streams : List StreamId) :
    takeLineEdge n order streams s = handEdge n order streams (s.modLine n Line.settled) :=
  (if_neg (by rw [hactive]; decide)).trans (if_pos howed)

theorem takeLineEdge_of_none (hactive : (s.lines[n]).active = true) (howed : (s.lines[n]).owed ≠ .edge)
    (order : List (Fin 12)) (streams : List StreamId) : takeLineEdge n order streams s = s :=
  (if_neg (by rw [hactive]; decide)).trans (if_neg howed)

theorem takeLineChange_of_changed (h : (s.lines[n]).active ≠ active) :
    takeLineChange n active s = handChange n active
      (s.modLine n (fun l => l.sampled s.elapsed active (if active then .edge else .nothing))) := if_neg h

theorem takeLineChange_of_owed (hactive : (s.lines[n]).active = active) (htrue : active = true)
    (howed : (s.lines[n]).owed = .change) :
    takeLineChange n active s = handChange n true (s.modLine n Line.settled) :=
  (if_pos hactive).trans (if_pos ⟨htrue, howed⟩)

theorem takeLineChange_of_none (hactive : (s.lines[n]).active = active)
    (hnone : active = false ∨ (s.lines[n]).owed ≠ .change) : takeLineChange n active s = s := by
  refine (if_pos hactive).trans (if_neg fun h => ?_)
  rcases hnone with hfalse | howed
  · rw [hfalse] at h
    cases h.1
  · exact howed h.2

/-- After a sample that finds a line changed, the line has the state found, and its next sample comes a period later. -/
theorem takeLineEdge_line (h : (s.lines[n]).active = false) (order : List (Fin 12)) (streams : List StreamId) :
    (takeLineEdge n order streams s).lines = upd s.lines n (fun l => l.sampled s.elapsed true .change) ∧
      (takeLineEdge n order streams s).elapsed = s.elapsed := by
  rw [takeLineEdge_of_inactive h]
  exact ⟨(handEdge_edge n order streams _).lines, (handEdge_edge n order streams _).elapsed⟩

theorem takeLineChange_line (h : (s.lines[n]).active ≠ active) :
    (takeLineChange n active s).lines = upd s.lines n (fun l => l.sampled s.elapsed active (if active then .edge else .nothing)) ∧
      (takeLineChange n active s).elapsed = s.elapsed := by
  rw [takeLineChange_of_changed h]
  exact ⟨rfl, rfl⟩

/-! ### Gates -/

theorem handChange_generator (n : LineId) (active : Bool) (s : State) (g : GeneratorId) :
    (handChange n active s).generators[g] = (s.generators[g]).followGate n active :=
  mapAll_get s.generators (fun g => g.followGate n active) g.val g.isLt

theorem followGate_of_other {g : Generator} (h : g.gate ≠ some n ∨ (g.state ≠ .running ∧ g.state ≠ .gated)) :
    g.followGate n active = g := by
  unfold Generator.followGate
  rcases h with hgate | ⟨hrunning, hgated⟩
  · exact if_neg hgate
  · split
    · split
      · next hs => exact absurd hs hrunning
      · next hs => exact absurd hs hgated
      · rfl
    · rfl

theorem followGate_of_gate {g : Generator} (h : g.gate = some n) :
    (g.state = .running → active = false → g.followGate n active = { g with state := .gated, owed := 0 }) ∧
    (g.state = .gated → active = true → g.followGate n active = { g with state := .running }) ∧
    (g.state = .running → active = true → g.followGate n active = g) ∧
    (g.state = .gated → active = false → g.followGate n active = g) := by
  unfold Generator.followGate
  rw [if_pos h]
  refine ⟨fun hs ha => ?_, fun hs ha => ?_, fun hs ha => ?_, fun hs ha => ?_⟩ <;> rw [hs, ha]

/-- Settles O36. -/
theorem gateFollowsItsLine : Obligations.GateFollowsItsLine := by
  intro n active s₀ s hs
  have hexec : exec (.gateChange n active) s₀ = .next (takeLineChange n active s) := by
    rw [hs]
    rfl
  refine ⟨fun hsame hnone => ?_, fun h => ⟨_, hexec, ?_⟩, fun hactive howed hnext hothers => ?_⟩
  · have hsame₀ : (s₀.lines[n]).active = active := by
      rw [← atSample_active n n active s₀, ← hs]
      exact hsame
    rw [hexec, takeLineChange_of_none hsame hnone, hs, atSample_of_same hsame₀]
  · obtain ⟨f, hchange, hline⟩ : ∃ f : Line → Line, takeLineChange n active s = handChange n active (s.modLine n f) ∧
        (f s.lines[n]).active = active ∧ (f s.lines[n]).polarity = (s.lines[n]).polarity ∧
        (f s.lines[n]).nextSample = (if (s.lines[n]).active = active then (s.lines[n]).nextSample else s.elapsed + 1) ∧
        (f s.lines[n]).owed = (if (s.lines[n]).active = false ∧ active = true then .edge else .nothing) := by
      by_cases hsame : (s.lines[n]).active = active
      · obtain ⟨htrue, howed⟩ := h.resolve_left (not_not_intro hsame)
        refine ⟨Line.settled, ?_, hsame, rfl, (if_pos hsame).symm, ?_⟩
        · rw [takeLineChange_of_owed hsame htrue howed, htrue]
        · rw [if_neg fun h => by rw [h.1, h.2] at hsame; cases hsame]
          rfl
      · refine ⟨_, takeLineChange_of_changed hsame, sampled_active _ _ _ _, sampled_polarity _ _ _ _, (if_neg hsame).symm, ?_⟩
        cases active with
        | false => exact (if_neg fun h => Bool.false_ne_true h.2).symm
        | true => exact (if_pos ⟨Bool.eq_false_of_not_eq_true hsame, rfl⟩).symm
    obtain ⟨hl1, hl2, hl3, hl4⟩ := hline
    rw [← upd_same s.lines n f] at hl1 hl2 hl3 hl4
    rw [hchange]
    refine ⟨hl1, hl2, hl3, hl4, fun m hm => upd_other s.lines f hm, fun g => ?_, rfl⟩
    rw [handChange_generator]
    exact ⟨fun hg => (followGate_of_gate hg).1, fun hg => (followGate_of_gate hg).2.1, fun hg => (followGate_of_gate hg).2.2.1,
      fun hg => (followGate_of_gate hg).2.2.2, followGate_of_other⟩
  · have hready : s₀.readyAt (s₀.lines[n]).nextSample = settleLine n s₀ := readyAt_of_one howed hothers hnext
    obtain ⟨hlines, _, htimebase⟩ := settleLine_keeps n s₀
    have hline : (settleLine n s₀).lines[n] = (s₀.lines[n]).settled := by
      rw [hlines]
      exact upd_same _ _ _
    have hfalse : (s₀.lines[n]).active ≠ false := by
      rw [hactive]
      decide
    have hsample : (settleLine n s₀).atSample n false = s₀.atSample n false := by rw [← hready, atSample_readyAt hfalse]
    refine ⟨settleLine n s₀, takeLineChange n false (s₀.atSample n false), ?_, ?_, ?_, ?_, ?_, rfl, ?_⟩
    · by_cases hedge : (s₀.lines[n]).owed = .edge
      · rw [if_pos hedge]
        exact trigEdge_of_owed hactive hedge
      · rw [if_neg hedge]
        refine gateChange_of_owed hactive ?_
        cases ho : (s₀.lines[n]).owed with
        | nothing => exact absurd ho howed
        | edge => exact absurd ho hedge
        | change => rfl
    · rw [hline]
      exact hactive
    · rw [hline]
      rfl
    · rw [htimebase]
    · rw [← hsample]
      rfl
    · rw [(takeLineChange_line (by rw [atSample_active]; exact hfalse)).2, atSample_elapsed hfalse]
      omega

end Sys2Proof.Machine
end


-- ==== Sys2Proof/Proofs/TicksIssued.lean ====
section
/-!
PROOFS. Proofs/TicksIssued.lean: the tick of a generator on the reference clock (06_pacing_and_external_lines.md sections 6.2 and
6.4).
-/

namespace Sys2Proof.Machine

variable {i : StreamId} {g : GeneratorId} {s t u v : State} {x : Generator}

/-! ### Generators -/

/-- Generators that differ in their counts and in what they owe only. -/
def Generator.CountsOnly (x y : Generator) : Prop :=
  ∃ p d o, y = { x with prescaleCount := p, divideCount := d, owed := o }

theorem receive_countsOnly (x : Generator) (n : Nat) : x.CountsOnly (x.receive n) := by
  unfold Generator.receive
  dsimp only
  split <;> exact ⟨_, _, _, rfl⟩

theorem completeInterval_countsOnly (x : Generator) : x.CountsOnly x.completeInterval := by
  obtain ⟨p, d, o, e⟩ := receive_countsOnly { x with prescaleCount := 0, divideCount := 0, owed := x.owed - 1 } 0
  exact ⟨p, d, o, e⟩

theorem Generator.CountsOnly.trans {y z : Generator} (h : x.CountsOnly y) (k : y.CountsOnly z) : x.CountsOnly z := by
  obtain ⟨_, _, _, rfl⟩ := h
  obtain ⟨p, d, o, rfl⟩ := k
  exact ⟨p, d, o, rfl⟩

theorem passTime_generator (d : Nat) (s : State) (g : GeneratorId) : (passTime d s).generators[g] =
    if d = 0 then s.generators[g]
    else if (s.generators[g]).countsPeriods then (s.generators[g]).receive d else s.generators[g] := by
  unfold passTime
  by_cases h : d = 0
  · rw [if_pos h, if_pos h]
  · rw [if_neg h, if_neg h]
    exact mapAll_get s.generators (fun g => if g.countsPeriods then g.receive d else g) g.val g.isLt

/-- The one interval that is owed is taken: the counts return to 0 (R102). -/
theorem completeInterval_of_one (howed : x.owed = 1) (hinterval : 0 < x.interval) :
    x.completeInterval = { x with prescaleCount := 0, divideCount := 0, owed := 0 } := by
  unfold Generator.completeInterval Generator.receive Generator.counted Generator.interval
  dsimp only
  unfold Generator.interval at hinterval
  rw [howed, if_pos (by omega)]
  unfold Generator.setCounted
  dsimp only
  rw [Nat.zero_mul]
  simp only [Nat.add_zero, Nat.sub_self, Nat.zero_mod, Nat.zero_div]

/-- The source events up to the one that completes an interval leave one tick owed (R102). -/
theorem receive_remaining (howed : x.owed = 0) (hcounted : x.counted < x.interval) :
    (x.receive (x.interval - x.counted)).owed = 1 := by
  unfold Generator.receive
  dsimp only
  rw [howed, if_neg (by omega)]
  dsimp only
  omega

/-- A generator after the interval it is in has been completed and its tick counted (R102, R104). -/
def Generator.ticked (x : Generator) : Generator := { x with ticks := satSucc limit32 x.ticks }.endBurst

theorem ticked_of_continuous (h : x.mode = .continuous) : x.ticked = { x with ticks := min (x.ticks + 1) 4294967295 } :=
  if_neg fun k => by rw [show x.mode = .burst from k.1] at h; cases h

theorem ticked_of_more (h : min (x.ticks + 1) 4294967295 < x.burst) :
    x.ticked = { x with ticks := min (x.ticks + 1) 4294967295 } :=
  if_neg fun k => absurd (show x.burst ≤ min (x.ticks + 1) 4294967295 from k.2) (Nat.not_le_of_lt h)

theorem ticked_of_last (hmode : x.mode = .burst) (h : x.burst ≤ min (x.ticks + 1) 4294967295) :
    x.ticked = { x with
      ticks := min (x.ticks + 1) 4294967295, state := .done, prescaleCount := 0, divideCount := 0, owed := 0 } :=
  if_pos ⟨hmode, h⟩

/-- A tick is either counted only, or ends the burst. -/
theorem ticked_cases (x : Generator) : x.ticked = { x with ticks := min (x.ticks + 1) 4294967295 } ∨
    x.ticked = { x with
      ticks := min (x.ticks + 1) 4294967295, state := .done, prescaleCount := 0, divideCount := 0, owed := 0 } := by
  by_cases hmode : x.mode = .continuous
  · exact .inl (ticked_of_continuous hmode)
  · by_cases hmore : min (x.ticks + 1) 4294967295 < x.burst
    · exact .inl (ticked_of_more hmore)
    · refine .inr (ticked_of_last ?_ (Nat.le_of_not_lt hmore))
      cases h : x.mode with
      | continuous => exact absurd h hmode
      | burst => rfl

/-! ### A tick at the bound streams -/

theorem mem_boundTo (s : State) (g : GeneratorId) (i : StreamId) : i ∈ s.boundTo g ↔
    (s.streams[i]).state ≠ .unconfigured ∧ ∃ c, (s.streams[i]).config = some c ∧ c.generator = g := by
  rw [State.boundTo, List.mem_filter, Bool.and_eq_true]
  have hconfigured : (s.streams[i]).state.configured = true ↔ (s.streams[i]).state ≠ .unconfigured := by
    cases (s.streams[i]).state <;> simp [StreamState.configured]
  rw [hconfigured]
  refine ⟨fun ⟨_, hstate, hbound⟩ => ⟨hstate, ?_⟩, fun ⟨hstate, c, hc, hg⟩ => ⟨?_, hstate, ?_⟩⟩
  · split at hbound
    · next c hc => exact ⟨c, hc, eq_of_beq hbound⟩
    · cases hbound
  · simp
  · rw [hc]
    exact beq_iff_eq.mpr hg

theorem nodup_boundTo (s : State) (g : GeneratorId) (order : List StreamId) : (arrange order (s.boundTo g)).Nodup :=
  nodup_arrange _ (nodup_allStreams.filter _)

theorem boundTo_congr (h : s.streams = t.streams) (g : GeneratorId) : s.boundTo g = t.boundTo g := by
  unfold State.boundTo
  rw [h]

/-- The streams bound to a generator take its tick. -/
def tickTaken (g : GeneratorId) (order : List StreamId) (s : State) : State :=
  (arrange order (s.boundTo g)).foldl (fun v j => takeTick j v) s

theorem StreamStep.generators (h : StreamStep i s t) : t.generators = s.generators := by
  obtain ⟨_, _, _, _, _, _, _, _, _, _, e⟩ := h.frame
  rw [e]

theorem tickTaken_generators (g : GeneratorId) (order : List StreamId) (s : State) :
    (tickTaken g order s).generators = s.generators :=
  foldl_keeps _ (fun v => v.generators = s.generators) _ s (fun v j _ h => (takeTick_step j v).generators.trans h) rfl

/-- An issued tick: the generator counts it, and the bound streams take it (R102, R104, R108). -/
theorem issueTick_eq (g : GeneratorId) (order : List StreamId) (s : State) : issueTick g order s =
    { tickTaken g order (s.modGenerator g (fun x => { x with ticks := satSucc limit32 x.ticks })) with
      generators := upd s.generators g Generator.ticked } := by
  have h := tickTaken_generators g order (s.modGenerator g (fun x => { x with ticks := satSucc limit32 x.ticks }))
  show ({ tickTaken g order _ with generators := upd (tickTaken g order _).generators g Generator.endBurst } : State) = _
  rw [h]
  exact congrArg (fun G => ({ tickTaken g order _ with generators := G } : State)) (upd_upd _ _ _ _)

/-- The streams that take an issued tick, one after another (R108). -/
theorem issueTick_receivers (g : GeneratorId) (order : List StreamId) (s : State) : issueTick g order s =
    { (arrange order (s.boundTo g)).foldl (fun u i => takeTick i u)
        (s.modGenerator g (fun x => { x with ticks := satSucc limit32 x.ticks })) with
      generators := (issueTick g order s).generators } := by
  rw [issueTick_eq]
  rfl

/-- A stream that is not bound to a generator cannot tell that its tick was issued. -/
theorem issueTick_unseen (order : List StreamId) (h : i ∉ s.boundTo g) : (issueTick g order s).SeesAlike i s := by
  rw [issueTick_eq]
  have hi : i ∉ arrange order (s.boundTo g) := by rwa [mem_arrange]
  obtain ⟨h1, h2, h3, h4, h5, h6, h7, h8, h9, h10⟩ := unreached_seen takeTick_step hi
    (s.modGenerator g (fun x => { x with ticks := satSucc limit32 x.ticks }))
  exact ⟨h1, h2, h3, h4, h5, h6, h7, h8, h9, h10⟩

/-- A bound stream takes a tick in a state that it cannot tell from the one before. -/
theorem issueTick_seen (order : List StreamId) (h : i ∈ s.boundTo g) :
    ∃ u, u.SeesAlike i s ∧ (issueTick g order s).SeesAlike i (takeTick i u) := by
  rw [issueTick_eq]
  obtain ⟨u, ⟨h1, h2, h3, h4, h5, h6, h7, h8, h9, h10⟩, k1, k2, k3, k4, k5, k6, k7, k8, k9, k10⟩ :=
    reached_seen takeTick_step (nodup_boundTo s g order) ((mem_arrange order _ i).mpr h)
      (s.modGenerator g (fun x => { x with ticks := satSucc limit32 x.ticks }))
  exact ⟨u, ⟨h1, h2, h3, h4, h5, h6, h7, h8, h9, h10⟩, k1, k2, k3, k4, k5, k6, k7, k8, k9, k10⟩

theorem takeTick_of_no_config (hc : (s.streams[i]).config = none) : takeTick i s = s := by
  unfold takeTick
  dsimp only
  rw [hc]

theorem takeTick_of_inactive (harmed : (s.streams[i]).state ≠ .armed) (hrunning : (s.streams[i]).state ≠ .running) :
    takeTick i s = s := by
  cases hc : (s.streams[i]).config with
  | none => exact takeTick_of_no_config hc
  | some c => exact takeTick_of_idle hc harmed hrunning

/-- A stream that is in no state to take a tick, or not bound, is left alone. -/
theorem issueTick_alone (order : List StreamId) (h : (s.streams[i]).state = .unconfigured ∨ (s.streams[i]).state = .idle ∨
    (s.streams[i]).state = .draining ∨ (s.streams[i]).state = .faulted ∨
    (∀ c, (s.streams[i]).config = some c → c.generator ≠ g)) : (issueTick g order s).SeesAlike i s := by
  by_cases hi : i ∈ s.boundTo g
  · obtain ⟨_, c, hc, hg⟩ := (mem_boundTo s g i).mp hi
    obtain ⟨u, hu, ht⟩ := issueTick_seen order hi
    have hstate : (u.streams[i]).state ≠ .armed ∧ (u.streams[i]).state ≠ .running := by
      rw [hu.stream]
      rcases h with h | h | h | h | h
      · rw [h]; decide
      · rw [h]; decide
      · rw [h]; decide
      · rw [h]; decide
      · exact absurd hg (h c hc)
    rw [takeTick_of_inactive hstate.1 hstate.2] at ht
    exact ht.trans hu
  · exact issueTick_unseen order hi

/-! ### The tick of the reference clock -/

theorem countsPeriods_iff (x : Generator) : x.countsPeriods = true ↔ x.state = .running ∧ x.source = .reference := by
  unfold Generator.countsPeriods
  rw [Bool.and_eq_true, beq_iff_eq, beq_iff_eq]

theorem completeTick_of_counting (h : (s.generators[g]).countsPeriods = true) (streams : List StreamId) :
    completeTick g streams s = issueTick g streams
      ((passTime (s.generators[g]).remaining s).modGenerator g Generator.completeInterval) := if_pos h

theorem completeTick_of_other (h : (s.generators[g]).countsPeriods = false) (streams : List StreamId) :
    completeTick g streams s = s := if_neg (by rw [h]; decide)

/-- The generator at its tick: the interval is complete, and what is owed after it is received. -/
def Generator.completed (x : Generator) : Generator :=
  (if x.remaining = 0 then x else x.receive x.remaining).completeInterval

theorem completed_countsOnly (x : Generator) : x.CountsOnly x.completed := by
  unfold Generator.completed
  split
  · exact completeInterval_countsOnly x
  · exact (receive_countsOnly x _).trans (completeInterval_countsOnly _)

theorem completed_of_range (hp : 1 ≤ x.prescale) (hd : 1 ≤ x.divide) (howed : x.owed ≤ 1) (hcounted : x.counted < x.interval) :
    x.completed = { x with prescaleCount := 0, divideCount := 0, owed := 0 } := by
  have hinterval : 0 < x.interval := Nat.mul_pos hp hd
  unfold Generator.completed
  by_cases h0 : x.owed = 0
  · have hremaining : x.remaining = x.interval - x.counted := if_pos h0
    obtain ⟨p, d, o, e⟩ := receive_countsOnly x (x.interval - x.counted)
    have howes := receive_remaining h0 hcounted
    rw [hremaining, if_neg (by omega), completeInterval_of_one howes (by rw [e]; exact hinterval), e]
  · have hremaining : x.remaining = 0 := if_neg h0
    rw [if_pos hremaining, completeInterval_of_one (by omega) hinterval]

/-- Settles O38. -/
theorem tickIsIssued : Obligations.TickIsIssued := by
  intro g streams s₀ s hs
  have hexec : exec (.tick g streams) s₀ = .next (completeTick g streams s) := by
    rw [hs]
    rfl
  refine ⟨fun h => ?_, fun hstate hsource => ⟨_, hexec, ?_⟩⟩
  · rw [hexec, completeTick_of_other]
    rw [← Bool.not_eq_true, countsPeriods_iff]
    exact fun k => h.elim (fun h => h k.1) (fun h => h k.2)
  · have hcounts := (countsPeriods_iff s.generators[g]).mpr ⟨hstate, hsource⟩
    rw [completeTick_of_counting hcounts]
    have hgenerator : ((passTime (s.generators[g]).remaining s).modGenerator g Generator.completeInterval).generators[g]
        = (s.generators[g]).completed := by
      refine (upd_same _ _ _).trans (congrArg Generator.completeInterval ?_)
      rw [passTime_generator, if_pos hcounts]
    obtain ⟨_, _, _, hframe⟩ := passTime_frame (s.generators[g]).remaining s
    generalize hv : passTime (s.generators[g]).remaining s = v at *
    have htick := issueTick_edge g streams (v.modGenerator g Generator.completeInterval)
    have hafter : (issueTick g streams (v.modGenerator g Generator.completeInterval)).generators[g]
        = (s.generators[g]).completed.ticked := by
      rw [issueTick_eq, ← hgenerator]
      exact upd_same _ _ _
    have helapsed : (issueTick g streams (v.modGenerator g Generator.completeInterval)).elapsed
        = s.elapsed + (s.generators[g]).remaining := by
      rw [htick.elapsed]
      exact (congrArg State.elapsed hframe).trans rfl
    have hpassed : passTime ((issueTick g streams (v.modGenerator g Generator.completeInterval)).elapsed - s.elapsed) s = v := by
      rw [helapsed, Nat.add_sub_cancel_left, hv]
    have hseen : ∀ i : StreamId, (v.modGenerator g Generator.completeInterval).streams[i] = s.streams[i] ∧
        (v.modGenerator g Generator.completeInterval).staging[i] = s.staging[i] ∧
        (v.modGenerator g Generator.completeInterval).buffers[i] = s.buffers[i] := by
      intro i
      rw [hframe]
      exact ⟨rfl, rfl, rfl⟩
    have hbound : ∀ i : StreamId, i ∈ (v.modGenerator g Generator.completeInterval).boundTo g ↔
        (s.streams[i]).state ≠ .unconfigured ∧ ∃ c, (s.streams[i]).config = some c ∧ c.generator = g := by
      intro i
      rw [mem_boundTo, (hseen i).1]
    obtain ⟨p, d, o, hcompleted⟩ := completed_countsOnly s.generators[g]
    have hfields : (s.generators[g]).completed.ticks = (s.generators[g]).ticks ∧
        (s.generators[g]).completed.mode = (s.generators[g]).mode ∧
        (s.generators[g]).completed.burst = (s.generators[g]).burst ∧
        (s.generators[g]).completed.state = .running := by
      rw [hcompleted]
      exact ⟨rfl, rfl, rfl, hstate⟩
    obtain ⟨hticks, hmode, hburst, hrunning⟩ := hfields
    rw [hafter]
    refine ⟨helapsed, ?_, fun hcontinuous => ?_, fun hp hd howed hcounted => ?_, fun hm hb => ?_, fun hm hb => ?_,
      fun i hi => ?_, fun i c hc hg hi => ?_, ?_, ?_⟩
    · rw [← hticks]
      rcases ticked_cases (s.generators[g]).completed with e | e <;> rw [e]
    · rw [ticked_of_continuous (hmode.trans hcontinuous)]
      exact hrunning
    · rcases ticked_cases (s.generators[g]).completed with e | e
      · rw [e, completed_of_range hp hd howed hcounted]
        exact ⟨rfl, rfl, rfl⟩
      · rw [e]
        exact ⟨rfl, rfl, rfl⟩
    · rw [ticked_of_last (hmode.trans hm) (by rw [hburst, hticks]; exact hb)]
      exact ⟨rfl, rfl, rfl⟩
    · rw [ticked_of_more (by rw [hburst, hticks]; exact hb)]
      exact hrunning
    · obtain ⟨h1, h2, h3⟩ := hseen i
      rw [← h1] at hi
      have h := issueTick_alone streams hi
      exact ⟨h.stream.trans h1, h.staging.trans h2, h.buffers.trans h3⟩
    · have hconfigured : (s.streams[i]).state ≠ .unconfigured := by
        rcases hi with hi | hi
        · rw [hi]; decide
        · rw [hi]; decide
      obtain ⟨u, hu, ht⟩ := issueTick_seen streams ((hbound i).mpr ⟨hconfigured, c, hc, hg⟩)
      refine ⟨u, ?_, ht.stream, ht.staging, ht.buffers⟩
      rw [hpassed]
      exact hu.trans ⟨rfl, rfl, rfl, rfl, rfl, rfl, rfl, rfl, rfl, rfl⟩
    · rw [hpassed]
      refine ⟨arrange streams ((v.modGenerator g Generator.completeInterval).boundTo g),
        (v.modGenerator g Generator.completeInterval).modGenerator g (fun x => { x with ticks := satSucc limit32 x.ticks }),
        nodup_boundTo _ g streams, fun i => ?_, rfl, issueTick_receivers g streams _⟩
      rw [mem_arrange]
      exact hbound i
    · obtain ⟨_, _, _, _, _, _, _, _, _, _, _, e⟩ := htick
      rw [e, hframe]
      exact ⟨rfl, rfl, rfl⟩

end Sys2Proof.Machine
end


-- ==== Sys2Proof/Proofs/StreamsAlike.lean ====
section
/-!
PROOFS. Proofs/StreamsAlike.lean: a stream acts by what it sees. `State.ActsAs s i t` says that what decides the actions of stream
`i` is the same in two states; ticks and edges then leave the same of it in both.
-/

namespace Sys2Proof.Machine

variable {i : StreamId} {s t u v : State} {c : StreamConfig}

/-- What decides the actions of a stream is the same in two states. -/
structure State.ActsAs (s : State) (i : StreamId) (t : State) : Prop where
  stream : s.streams[i] = t.streams[i]
  staging : s.staging[i] = t.staging[i]
  buffers : s.buffers[i] = t.buffers[i]
  scanLists : s.scanLists = t.scanLists
  count : s.timebase.count = t.timebase.count
  writing : s.writing i = t.writing i

namespace State.ActsAs

theorem trans (h : s.ActsAs i t) (k : t.ActsAs i u) : s.ActsAs i u :=
  ⟨h.stream.trans k.stream, h.staging.trans k.staging, h.buffers.trans k.buffers, h.scanLists.trans k.scanLists,
    h.count.trans k.count, h.writing.trans k.writing⟩

theorem symm (h : s.ActsAs i t) : t.ActsAs i s :=
  ⟨h.stream.symm, h.staging.symm, h.buffers.symm, h.scanLists.symm, h.count.symm, h.writing.symm⟩

theorem of_seen (h : s.SeesAlike i t) : s.ActsAs i t :=
  ⟨h.stream, h.staging, h.buffers, h.scanLists, h.count, h.writing⟩

theorem of_records (h : RecordsOnly s t) : t.ActsAs i s := by
  obtain ⟨_, _, _, _, rfl⟩ := h
  exact ⟨rfl, rfl, rfl, rfl, rfl, rfl⟩

/-- Two states act alike when they come from such states by the same records. -/
theorem records (h : s.ActsAs i t) (hs : RecordsOnly s u) (ht : RecordsOnly t v) : u.ActsAs i v :=
  ((of_records hs).trans h).trans (of_records ht).symm

theorem modStream (h : s.ActsAs i t) {f g : StreamContext → StreamContext} (hf : f s.streams[i] = g t.streams[i]) :
    (s.modStream i f).ActsAs i (t.modStream i g) :=
  ⟨(upd_same _ _ _).trans (hf.trans (upd_same _ _ _).symm), h.staging, h.buffers, h.scanLists, h.count, h.writing⟩

theorem modStaging (h : s.ActsAs i t) {f g : Staging → Staging} (hf : f s.staging[i] = g t.staging[i]) :
    (s.modStaging i f).ActsAs i (t.modStaging i g) :=
  ⟨h.stream, (upd_same _ _ _).trans (hf.trans (upd_same _ _ _).symm), h.buffers, h.scanLists, h.count, h.writing⟩

theorem modBuffers (h : s.ActsAs i t) (f : List Descriptor → List Descriptor) :
    (s.modBuffers i f).ActsAs i (t.modBuffers i f) :=
  ⟨h.stream, h.staging, (upd_same _ _ _).trans ((congrArg f h.buffers).trans (upd_same _ _ _).symm), h.scanLists, h.count,
    h.writing⟩

/-- The same plain change of every stream. -/
theorem mapStream (h : s.ActsAs i t) (f : StreamContext → StreamContext) :
    (s.modStream i f).ActsAs i (t.modStream i f) := h.modStream (congrArg f h.stream)

theorem mapStaging (h : s.ActsAs i t) (f : Staging → Staging) :
    (s.modStaging i f).ActsAs i (t.modStaging i f) := h.modStaging (congrArg f h.staging)

theorem clearSlips (h : s.ActsAs i t) (closes : Bool) : (clearSlips i closes s).ActsAs i (clearSlips i closes t) := by
  cases closes with
  | true => exact h.mapStream _
  | false => exact h

theorem drainEndMark (h : s.ActsAs i t) : (drainEndMark i s).ActsAs i (drainEndMark i t) := by
  unfold Machine.drainEndMark
  dsimp only
  rw [h.stream, h.staging]
  exact (h.mapStaging _).clearSlips _

theorem enterDraining (h : s.ActsAs i t) {reason : EndReason} (hreason : reason ≠ .aborted) :
    (enterDraining i reason s).ActsAs i (enterDraining i reason t) := by
  have hd := h.mapStream (fun x => { x with state := .draining, endReason := some reason })
  by_cases hpass : (t.streams[i]).pass = none
  · by_cases hleft : t.staging[i] ≠ Staging.empty ∨ t.writing i = true
    · exact hd.drainEndMark.records
        (enterDraining_waits reason (by rw [h.stream]; exact hpass) (by rw [h.staging, h.writing]; exact hleft))
        (enterDraining_waits reason hpass hleft)
    · obtain ⟨hempty, hwriting⟩ := not_or.mp hleft
      rw [not_not] at hempty
      rw [Bool.not_eq_true] at hwriting
      exact ((hd.modBuffers dropCurrent).mapStream _).records
        (enterDraining_ends (by rw [h.stream]; exact hpass) (by rw [h.staging]; exact hempty)
          (by rw [h.writing]; exact hwriting) hreason)
        (enterDraining_ends hpass hempty hwriting hreason)
  · exact hd.records (enterDraining_walks reason (by rw [h.stream]; exact hpass)) (enterDraining_walks reason hpass)

theorem triggered (h : s.ActsAs i t) (source : TriggerSource) (c : StreamConfig) :
    (s.triggered i source c).ActsAs i (t.triggered i source c) := by
  unfold State.triggered
  rw [historyOf_congr c h.stream h.staging, runsOf_congr c h.stream h.staging, h.count]
  exact ((h.modStaging rfl).mapStream _).clearSlips _

theorem takeTrigger (h : s.ActsAs i t) (hc : (t.streams[i]).config = some c) (source : TriggerSource) :
    (takeTrigger i source s).ActsAs i (takeTrigger i source t) := by
  have hc' : (s.streams[i]).config = some c := by rw [h.stream]; exact hc
  have joined : (streamRecord i (.triggered source (s.historyOf i c).2) (s.triggered i source c)).ActsAs i
      (streamRecord i (.triggered source (t.historyOf i c).2) (t.triggered i source c)) :=
    (h.triggered source c).records (triggered_recordsOnly i source c s) (triggered_recordsOnly i source c t)
  by_cases hreached : ∃ T, c.stop = .time T ∧ T ≤ t.timebase.count
  · obtain ⟨T, hstop, hT⟩ := hreached
    rw [takeTrigger_of_reached hc' hstop (by rw [h.count]; exact hT), takeTrigger_of_reached hc hstop hT]
    exact (joined.enterDraining (by decide)).records (noteEligible_recordsOnly i s _) (noteEligible_recordsOnly i t _)
  · have hlater : ∀ T, c.stop = .time T → t.timebase.count < T := fun T hstop =>
      BitVec.not_le.mp fun hT => hreached ⟨T, hstop, hT⟩
    rw [takeTrigger_of_later hc' (by rw [h.count]; exact hlater), takeTrigger_of_later hc hlater]
    exact joined.records (noteEligible_recordsOnly i s _) (noteEligible_recordsOnly i t _)

end State.ActsAs

/-! ### An edge at a stream -/

theorem takeEdge_of_start {n : LineId} (hc : (s.streams[i]).config = some c) (hstate : (s.streams[i]).state = .armed)
    (hstart : c.start = .line n) : takeEdge n i s = takeTrigger i (.line n) s := by
  unfold takeEdge
  dsimp only
  rw [hc, hstate]
  exact if_pos hstart

theorem takeEdge_of_stop {n : LineId} (hc : (s.streams[i]).config = some c) (hstate : (s.streams[i]).state = .running)
    (hstop : c.stop = .line n) : takeEdge n i s = enterDraining i .stopLine s := by
  unfold takeEdge
  dsimp only
  rw [hc, hstate]
  exact if_pos hstop

/-- An edge that a stream minds triggers or drains it. -/
theorem minds_iff (x : StreamContext) (n : LineId) : x.minds n = true ↔ ∃ c, x.config = some c ∧
    ((x.state = .armed ∧ c.start = .line n) ∨ (x.state = .running ∧ c.stop = .line n)) := by
  unfold StreamContext.minds
  cases hc : x.config with
  | none => exact ⟨(nomatch ·), (fun ⟨_, h, _⟩ => nomatch h)⟩
  | some c =>
    dsimp only
    rw [Bool.or_eq_true, Bool.and_eq_true, Bool.and_eq_true, beq_iff_eq, beq_iff_eq, beq_iff_eq, beq_iff_eq]
    exact ⟨fun h => ⟨c, rfl, h⟩, fun ⟨_, hc', h⟩ => by cases hc'; exact h⟩

theorem takeEdge_of_unminded {n : LineId} (h : (s.streams[i]).minds n = false) : takeEdge n i s = s := by
  unfold takeEdge
  dsimp only
  cases hc : (s.streams[i]).config with
  | none => rfl
  | some c =>
    have hno : ¬(((s.streams[i]).state = .armed ∧ c.start = .line n) ∨ ((s.streams[i]).state = .running ∧ c.stop = .line n)) :=
      fun k => Bool.false_ne_true (h.symm.trans ((minds_iff _ n).mpr ⟨c, hc, k⟩))
    obtain ⟨harmed, hrunning⟩ := not_or.mp hno
    cases hstate : (s.streams[i]).state with
    | armed => exact if_neg fun k => harmed ⟨hstate, k⟩
    | running => exact if_neg fun k => hrunning ⟨hstate, k⟩
    | unconfigured | idle | draining | faulted => rfl

theorem State.ActsAs.takeEdge (h : s.ActsAs i t) (n : LineId) : (takeEdge n i s).ActsAs i (takeEdge n i t) := by
  cases hminds : (t.streams[i]).minds n with
  | false => rwa [takeEdge_of_unminded hminds, takeEdge_of_unminded (by rw [h.stream]; exact hminds)]
  | true =>
    obtain ⟨c, hc, ⟨hstate, hline⟩ | ⟨hstate, hline⟩⟩ := (minds_iff _ n).mp hminds
    · rw [takeEdge_of_start hc hstate hline, takeEdge_of_start (by rw [h.stream]; exact hc) (by rw [h.stream]; exact hstate) hline]
      exact h.takeTrigger hc _
    · rw [takeEdge_of_stop hc hstate hline, takeEdge_of_stop (by rw [h.stream]; exact hc) (by rw [h.stream]; exact hstate) hline]
      exact h.enterDraining (by decide)

/-! ### A tick at a stream -/

namespace State.ActsAs

theorem stepsOf (h : s.ActsAs i t) : s.stepsOf i = t.stepsOf i := by
  unfold State.stepsOf
  rw [h.stream, h.scanLists]

theorem beginPass (h : s.ActsAs i t) (hid : s.nextPassId = t.nextPassId) (number : Option Word) (dropped : Nat) :
    (beginPass i number dropped s).ActsAs i (beginPass i number dropped t) := by
  obtain ⟨_, es⟩ := beginPass_frame i number dropped s
  obtain ⟨_, et⟩ := beginPass_frame i number dropped t
  rw [es, et, hid, h.count, h.stepsOf]
  have k := (h.mapStaging (fun q => q.append (newRecord t.nextPassId number t.timebase.count (t.stepsOf i).length dropped))).mapStream
    (fun x => { x with pass := some ⟨t.nextPassId, 0⟩ })
  exact ⟨k.stream, k.staging, k.buffers, k.scanLists, k.count, k.writing⟩

theorem beginHistory (h : s.ActsAs i t) (hid : s.nextPassId = t.nextPassId) :
    (beginHistory i s).ActsAs i (beginHistory i t) := by
  unfold Machine.beginHistory
  rw [h.stepsOf, h.stream]
  exact (h.mapStaging _).beginPass hid _ _

theorem takeSlip (h : s.ActsAs i t) (c : StreamConfig) (p : PassInProgress) :
    (takeSlip i c p s).ActsAs i (takeSlip i c p t) := by
  unfold Machine.takeSlip
  have k := (h.mapStream (fun x =>
    { x with slippedSince := satSucc limit16 x.slippedSince, totalSlipped := satSucc limit32 x.totalSlipped })).mapStaging
    (fun q => q.modRecord p.pass (fun r => { r with slips := satSucc limit16 r.slips }))
  dsimp only
  split
  · exact k
  · exact k.enterDraining (by decide)

theorem takeOverrun (h : s.ActsAs i t) (c : StreamConfig) : (takeOverrun i c s).ActsAs i (takeOverrun i c t) := by
  have k : (s.overrun i).ActsAs i (t.overrun i) := by
    unfold State.overrun
    rw [h.stream, h.staging]
    exact ((h.mapStream _).mapStaging _).clearSlips _
  cases hpolicy : c.overrunPolicy with
  | halt =>
    rw [takeOverrun_of_halt hpolicy, takeOverrun_of_halt hpolicy]
    exact (k.enterDraining (by decide)).records (noteEligible_recordsOnly i s _) (noteEligible_recordsOnly i t _)
  | mark =>
    rw [takeOverrun_of_mark hpolicy, takeOverrun_of_mark hpolicy, k.stream]
    refine records (s := if countMet c ((t.overrun i).streams[i]).begun then Machine.enterDraining i .countReached (s.overrun i)
        else s.overrun i) (t := if countMet c ((t.overrun i).streams[i]).begun then Machine.enterDraining i .countReached (t.overrun i)
        else t.overrun i) ?_ (noteEligible_recordsOnly i s _) (noteEligible_recordsOnly i t _)
    split
    · exact k.enterDraining (by decide)
    · exact k

theorem takeAttempt (h : s.ActsAs i t) (hid : s.nextPassId = t.nextPassId) (c : StreamConfig) :
    (takeAttempt i c s).ActsAs i (takeAttempt i c t) := by
  have k : (s.attempted i).ActsAs i (t.attempted i) := by
    unfold State.attempted
    rw [h.stream]
    exact h.mapStream _
  by_cases hroom : (t.staging[i]).slotsInUse (t.stepsOf i).length + (t.stepsOf i).length ≤ (t.streams[i]).capacity
  · rw [takeAttempt_of_room c hroom, takeAttempt_of_room c (by rw [h.stepsOf, h.staging, h.stream]; exact hroom), h.stream]
    exact (k.mapStream _).beginPass hid _ _
  · rw [Nat.not_le] at hroom
    rw [takeAttempt_of_full c hroom, takeAttempt_of_full c (by rw [h.stepsOf, h.staging, h.stream]; exact hroom)]
    exact k.takeOverrun c

/-- A stream takes a tick by what it sees, and a pass that begins has the model's next number. -/
theorem takeTick (h : s.ActsAs i t) (hid : s.nextPassId = t.nextPassId) : (takeTick i s).ActsAs i (takeTick i t) := by
  cases hc : (t.streams[i]).config with
  | none => rwa [takeTick_of_no_config hc, takeTick_of_no_config (by rw [h.stream]; exact hc)]
  | some c =>
    have hc' : (s.streams[i]).config = some c := by rw [h.stream]; exact hc
    have hstates : (s.streams[i]).state = (t.streams[i]).state := by rw [h.stream]
    have hpasses : (s.streams[i]).pass = (t.streams[i]).pass := by rw [h.stream]
    by_cases harmed : (t.streams[i]).state = .armed
    · cases hp : (t.streams[i]).pass with
      | some p => rwa [takeTick_of_walking hc harmed hp, takeTick_of_walking hc' (hstates.trans harmed) (hpasses.trans hp)]
      | none =>
        rw [takeTick_of_armed hc harmed hp, takeTick_of_armed hc' (hstates.trans harmed) (hpasses.trans hp)]
        exact h.beginHistory hid
    · by_cases hrunning : (t.streams[i]).state = .running
      · cases hp : (t.streams[i]).pass with
        | some p =>
          rw [takeTick_of_slip hc hrunning hp, takeTick_of_slip hc' (hstates.trans hrunning) (hpasses.trans hp)]
          exact h.takeSlip c p
        | none =>
          rw [takeTick_of_attempt hc hrunning hp, takeTick_of_attempt hc' (hstates.trans hrunning) (hpasses.trans hp)]
          exact h.takeAttempt hid c
      · rwa [takeTick_of_idle hc harmed hrunning,
          takeTick_of_idle hc' (by rw [hstates]; exact harmed) (by rw [hstates]; exact hrunning)]

end State.ActsAs

/-! ### An edge begins no pass -/

theorem RecordsOnly.nextPassId (h : RecordsOnly s t) : t.nextPassId = s.nextPassId := by
  obtain ⟨_, _, _, _, rfl⟩ := h
  rfl

theorem Aside.nextPassId (h : Aside i s t) : t.nextPassId = s.nextPassId := by
  rw [h.eq]
  rfl

theorem enterDraining_nextPassId {reason : EndReason} (hreason : reason ≠ .aborted) :
    (enterDraining i reason s).nextPassId = s.nextPassId := by
  by_cases hpass : (s.streams[i]).pass = none
  · by_cases hleft : s.staging[i] ≠ Staging.empty ∨ s.writing i = true
    · rw [(enterDraining_waits reason hpass hleft).nextPassId, drainEndMark_aside.nextPassId]
      rfl
    · obtain ⟨hempty, hwriting⟩ := not_or.mp hleft
      exact (enterDraining_ends hpass (not_not.mp hempty) (Bool.not_eq_true _ ▸ hwriting) hreason).nextPassId
  · exact (enterDraining_walks reason hpass).nextPassId

theorem triggered_nextPassId (source : TriggerSource) (c : StreamConfig) :
    (streamRecord i (.triggered source (s.historyOf i c).2) (s.triggered i source c)).nextPassId = s.nextPassId :=
  (triggered_recordsOnly i source c s).nextPassId.trans (triggered_aside source c).nextPassId

theorem takeTrigger_nextPassId (hc : (s.streams[i]).config = some c) (source : TriggerSource) :
    (takeTrigger i source s).nextPassId = s.nextPassId := by
  by_cases hreached : ∃ T, c.stop = .time T ∧ T ≤ s.timebase.count
  · obtain ⟨T, hstop, hT⟩ := hreached
    rw [takeTrigger_of_reached hc hstop hT, (noteEligible_recordsOnly i s _).nextPassId, enterDraining_nextPassId (by decide),
      triggered_nextPassId]
  · have hlater : ∀ T, c.stop = .time T → s.timebase.count < T := fun T hstop =>
      BitVec.not_le.mp fun hT => hreached ⟨T, hstop, hT⟩
    rw [takeTrigger_of_later hc hlater, (noteEligible_recordsOnly i s _).nextPassId, triggered_nextPassId]

theorem takeEdge_nextPassId (n : LineId) (i : StreamId) (s : State) : (takeEdge n i s).nextPassId = s.nextPassId := by
  cases hminds : (s.streams[i]).minds n with
  | false => rw [takeEdge_of_unminded hminds]
  | true =>
    obtain ⟨c, hc, ⟨hstate, hline⟩ | ⟨hstate, hline⟩⟩ := (minds_iff _ n).mp hminds
    · rw [takeEdge_of_start hc hstate hline, takeTrigger_nextPassId hc]
    · rw [takeEdge_of_stop hc hstate hline, enterDraining_nextPassId (by decide)]

end Sys2Proof.Machine
end


-- ==== Sys2Proof/Proofs/EdgesReceived.lean ====
section
/-!
PROOFS. Proofs/EdgesReceived.lean: the receivers of an edge of a trigger line, streams and generators, one after another
(06_pacing_and_external_lines.md section 6.5).
-/

namespace Sys2Proof.Machine

variable {n : LineId} {i : StreamId} {g : GeneratorId} {s t u v : State} {x : Generator} {c : StreamConfig}
  {streams : List StreamId}

/-! ### Receivers -/

/-- Stream `i` as a receiver of an edge. -/
def streamReceiver (i : StreamId) : Fin 12 := ⟨i.val, by omega⟩

/-- Generator `g` as a receiver of an edge. -/
def generatorReceiver (g : GeneratorId) : Fin 12 := ⟨8 + g.val, by omega⟩

theorem receiver_cases (r : Fin 12) : (∃ i, r = streamReceiver i) ∨ ∃ g, r = generatorReceiver g := by
  by_cases h : r.val < 8
  · exact .inl ⟨⟨r.val, h⟩, rfl⟩
  · exact .inr ⟨⟨r.val - 8, by omega⟩, Fin.ext (show r.val = 8 + (r.val - 8) by omega)⟩

theorem streamReceiver_val (i : StreamId) : (streamReceiver i).val = i.val := rfl

theorem generatorReceiver_val (g : GeneratorId) : (generatorReceiver g).val = 8 + g.val := rfl

theorem streamReceiver_inj {i j : StreamId} (h : streamReceiver i = streamReceiver j) : i = j := by
  have hval := congrArg Fin.val h
  rw [streamReceiver_val, streamReceiver_val] at hval
  exact Fin.ext hval

theorem generatorReceiver_inj {g k : GeneratorId} (h : generatorReceiver g = generatorReceiver k) : g = k := by
  have hval := congrArg Fin.val h
  rw [generatorReceiver_val, generatorReceiver_val] at hval
  exact Fin.ext (by omega)

theorem receivers_differ (i : StreamId) (g : GeneratorId) : streamReceiver i ≠ generatorReceiver g := by
  intro h
  have hval := congrArg Fin.val h
  rw [streamReceiver_val, generatorReceiver_val] at hval
  omega

theorem generatorReceiver_not_lt (g : GeneratorId) : ¬(generatorReceiver g).val < 8 := by
  rw [generatorReceiver_val]
  omega

theorem takeEdgeAt_stream (n : LineId) (streams : List StreamId) (i : StreamId) (s : State) :
    takeEdgeAt n streams (streamReceiver i) s = takeEdge n i s := dif_pos i.isLt

theorem takeEdgeAt_generator (n : LineId) (streams : List StreamId) (g : GeneratorId) (s : State) :
    takeEdgeAt n streams (generatorReceiver g) s = takeSourceEdge n g streams s := by
  have hval : (generatorReceiver g).val - 8 = g.val := Nat.add_sub_cancel_left 8 g.val
  unfold takeEdgeAt
  rw [dif_neg (generatorReceiver_not_lt g)]
  exact congrArg (fun k => takeSourceEdge n k streams s) (Fin.ext hval)

/-- Whether a generator counts the edges of a line (R102). -/
def Generator.countsEdges (x : Generator) (n : LineId) : Prop := x.state = .running ∧ x.source = .trig n

theorem mem_receivers_stream : streamReceiver i ∈ s.receivers n ↔ (s.streams[i]).minds n = true := by
  have hall : streamReceiver i ∈ allReceivers := by
    revert i
    decide
  rw [State.receivers, List.mem_filter, and_iff_right hall, dif_pos (show (streamReceiver i).val < 8 from i.isLt)]
  rfl

theorem mem_receivers_generator : generatorReceiver g ∈ s.receivers n ↔ (s.generators[g]).countsEdges n := by
  have hall : generatorReceiver g ∈ allReceivers := by
    revert g
    decide
  have hget : s.generators.get ⟨(generatorReceiver g).val - 8, by rw [generatorReceiver_val]; omega⟩ = s.generators[g] :=
    congrArg s.generators.get (Fin.ext (Nat.add_sub_cancel_left 8 g.val))
  rw [State.receivers, List.mem_filter, and_iff_right hall,
    dif_neg (generatorReceiver_not_lt g), hget, Bool.and_eq_true, beq_iff_eq,
    beq_iff_eq]
  rfl

theorem nodup_receivers (order : List (Fin 12)) (n : LineId) (s : State) : (arrange order (s.receivers n)).Nodup :=
  nodup_arrange _ (List.Nodup.filter _ (by decide))

/-! ### An edge at a generator -/

theorem takeSourceEdge_of_other (h : ¬(s.generators[g]).countsEdges n) : takeSourceEdge n g streams s = s := if_neg h

theorem takeSourceEdge_of_counted (h : (s.generators[g]).countsEdges n) (hno : (s.generators[g]).sourceEvent.2 = false) :
    takeSourceEdge n g streams s = s.modGenerator g (fun y => y.sourceEvent.1) :=
  (if_pos h).trans (if_neg (by rw [hno]; decide))

theorem takeSourceEdge_of_tick (h : (s.generators[g]).countsEdges n) (htick : (s.generators[g]).sourceEvent.2 = true) :
    takeSourceEdge n g streams s = issueTick g streams (s.modGenerator g (fun y => y.sourceEvent.1)) :=
  (if_pos h).trans (if_pos htick)

/-- Whether an edge of a line completes a generator's interval (R102). -/
def Generator.ticksOn (x : Generator) (n : LineId) : Bool :=
  x.state == .running && x.source == .trig n && x.sourceEvent.2

theorem ticksOn_iff (x : Generator) (n : LineId) : x.ticksOn n = true ↔ x.countsEdges n ∧ x.sourceEvent.2 = true := by
  unfold Generator.ticksOn Generator.countsEdges
  rw [Bool.and_eq_true, Bool.and_eq_true, beq_iff_eq, beq_iff_eq]

theorem ticksOn_of_other (h : ¬x.countsEdges n) : x.ticksOn n = false :=
  Bool.eq_false_iff.mpr fun k => h ((ticksOn_iff x n).mp k).1

theorem ticksOn_of_counted (h : x.sourceEvent.2 = false) : x.ticksOn n = false :=
  Bool.eq_false_iff.mpr fun k => by rw [((ticksOn_iff x n).mp k).2] at h; cases h

/-- A generator after an edge of a line (R102, R104). -/
def Generator.edged (x : Generator) (n : LineId) : Generator :=
  if x.state = .running ∧ x.source = .trig n then if x.sourceEvent.2 then x.sourceEvent.1.ticked else x.sourceEvent.1 else x

theorem edged_of_other (h : ¬x.countsEdges n) : x.edged n = x := if_neg h

theorem edged_of_counted (h : x.countsEdges n) (hno : x.sourceEvent.2 = false) : x.edged n = x.sourceEvent.1 :=
  (if_pos h).trans (if_neg (by rw [hno]; decide))

theorem edged_of_tick (h : x.countsEdges n) (htick : x.sourceEvent.2 = true) : x.edged n = x.sourceEvent.1.ticked :=
  (if_pos h).trans (if_pos htick)

theorem takeSourceEdge_generators : (takeSourceEdge n g streams s).generators = upd s.generators g (fun y => y.edged n) := by
  by_cases h : (s.generators[g]).countsEdges n
  · cases hevent : (s.generators[g]).sourceEvent.2 with
    | false =>
      rw [takeSourceEdge_of_counted h hevent]
      exact upd_congr (f := fun y : Generator => y.sourceEvent.1) (g := fun y : Generator => y.edged n) (edged_of_counted h hevent).symm
    | true =>
      rw [takeSourceEdge_of_tick h hevent, issueTick_eq]
      exact (upd_upd _ _ _ _).trans (upd_congr (g := fun y : Generator => y.edged n) (edged_of_tick h hevent).symm)
  · rw [takeSourceEdge_of_other h]
    exact (upd_fixed (v := s.generators) (edged_of_other h)).symm

theorem takeEdgeAt_generator_self (n : LineId) (streams : List StreamId) (g : GeneratorId) (s : State) :
    (takeEdgeAt n streams (generatorReceiver g) s).generators[g] = (s.generators[g]).edged n := by
  rw [takeEdgeAt_generator, takeSourceEdge_generators]
  exact upd_same _ _ _

theorem takeEdgeAt_generator_other {r : Fin 12} (hr : r ≠ generatorReceiver g) (n : LineId) (streams : List StreamId) (s : State) :
    (takeEdgeAt n streams r s).generators[g] = s.generators[g] := by
  rcases receiver_cases r with ⟨j, rfl⟩ | ⟨k, rfl⟩
  · rw [takeEdgeAt_stream, (takeEdge_step n j s).generators]
  · rw [takeEdgeAt_generator, takeSourceEdge_generators]
    exact upd_other _ _ (fun e => hr (by rw [e]))

/-- The source event of R102. -/
theorem sourceEvent_of_prescale (h : x.prescaleCount + 1 < x.prescale) :
    x.sourceEvent = ({ x with prescaleCount := x.prescaleCount + 1 }, false) := if_pos h

theorem sourceEvent_of_divide (h : x.prescale ≤ x.prescaleCount + 1) (hd : x.divideCount + 1 < x.divide) :
    x.sourceEvent = ({ x with prescaleCount := 0, divideCount := x.divideCount + 1 }, false) :=
  (if_neg (Nat.not_lt.mpr h)).trans (if_pos hd)

theorem sourceEvent_of_tick (h : x.prescale ≤ x.prescaleCount + 1) (hd : x.divide ≤ x.divideCount + 1) :
    x.sourceEvent = ({ x with prescaleCount := 0, divideCount := 0 }, true) :=
  (if_neg (Nat.not_lt.mpr h)).trans (if_neg (Nat.not_lt.mpr hd))

theorem sourceEvent_ticks (x : Generator) : x.sourceEvent.2 = true ↔
    x.prescale ≤ x.prescaleCount + 1 ∧ x.divide ≤ x.divideCount + 1 := by
  by_cases hp : x.prescaleCount + 1 < x.prescale
  · rw [sourceEvent_of_prescale hp]
    exact ⟨(nomatch ·), fun h => absurd hp (Nat.not_lt.mpr h.1)⟩
  · by_cases hd : x.divideCount + 1 < x.divide
    · rw [sourceEvent_of_divide (Nat.not_lt.mp hp) hd]
      exact ⟨(nomatch ·), fun h => absurd hd (Nat.not_lt.mpr h.2)⟩
    · rw [sourceEvent_of_tick (Nat.not_lt.mp hp) (Nat.not_lt.mp hd)]
      exact ⟨fun _ => ⟨Nat.not_lt.mp hp, Nat.not_lt.mp hd⟩, fun _ => rfl⟩

/-! ### A receiver at a stream -/

/-- A stream takes a tick that is issued. -/
def tickIf (b : Bool) (i : StreamId) (s : State) : State := if b then takeTick i s else s

theorem tickIf_step (b : Bool) (i : StreamId) (s : State) : StreamStep i s (tickIf b i s) := by
  cases b with
  | false => exact .refl i s
  | true => exact takeTick_step i s

theorem modGenerator_seen (i : StreamId) (g : GeneratorId) (f : Generator → Generator) (s : State) :
    (s.modGenerator g f).SeesAlike i s := ⟨rfl, rfl, rfl, rfl, rfl, rfl, rfl, rfl, rfl, rfl⟩

/-- A stream cannot tell that a receiver acts that is neither it nor its generator. -/
theorem receiver_unseen {r : Fin 12} (hc : (s.streams[i]).config = some c) (hstream : r ≠ streamReceiver i)
    (hgenerator : r ≠ generatorReceiver c.generator) : (takeEdgeAt n streams r s).SeesAlike i s := by
  rcases receiver_cases r with ⟨j, rfl⟩ | ⟨k, rfl⟩
  · rw [takeEdgeAt_stream]
    exact (takeEdge_step n j s).seen (fun e => hstream (by rw [e]))
  · rw [takeEdgeAt_generator]
    by_cases h : (s.generators[k]).countsEdges n
    · cases hevent : (s.generators[k]).sourceEvent.2 with
      | false =>
        rw [takeSourceEdge_of_counted h hevent]
        exact modGenerator_seen i k _ s
      | true =>
        rw [takeSourceEdge_of_tick h hevent]
        refine (issueTick_unseen streams fun hi => ?_).trans (modGenerator_seen i k _ s)
        obtain ⟨_, c', hc', hk⟩ := (mem_boundTo _ k i).mp hi
        have e : c = c' := Option.some.inj (hc.symm.trans hc')
        exact hgenerator (by rw [e, hk])
    · rw [takeSourceEdge_of_other h]
      exact .refl i s

/-- A stream takes the tick that its generator issues at an edge. -/
theorem generator_seen (hc : (s.streams[i]).config = some c) :
    ∃ u, u.SeesAlike i s ∧ (takeEdgeAt n streams (generatorReceiver c.generator) s).SeesAlike i
      (tickIf ((s.generators[c.generator]).ticksOn n) i u) := by
  rw [takeEdgeAt_generator]
  by_cases h : (s.generators[c.generator]).countsEdges n
  · cases hevent : (s.generators[c.generator]).sourceEvent.2 with
    | false =>
      rw [takeSourceEdge_of_counted h hevent, ticksOn_of_counted hevent]
      exact ⟨s, .refl i s, modGenerator_seen i _ _ s⟩
    | true =>
      rw [takeSourceEdge_of_tick h hevent, (ticksOn_iff _ n).mpr ⟨h, hevent⟩]
      by_cases hi : i ∈ (s.modGenerator c.generator (fun y => y.sourceEvent.1)).boundTo c.generator
      · obtain ⟨u, hu, ht⟩ := issueTick_seen streams hi
        exact ⟨u, hu.trans (modGenerator_seen i _ _ s), ht⟩
      · have hunconfigured : (s.streams[i]).state = .unconfigured := by
          by_contra hstate
          exact hi ((mem_boundTo _ _ i).mpr ⟨hstate, c, hc, rfl⟩)
        refine ⟨s, .refl i s, ?_⟩
        have hsame : tickIf true i s = s :=
          takeTick_of_inactive (by rw [hunconfigured]; decide) (by rw [hunconfigured]; decide)
        rw [hsame]
        exact (issueTick_unseen streams hi).trans (modGenerator_seen i _ _ s)
  · rw [takeSourceEdge_of_other h, ticksOn_of_other h]
    exact ⟨s, .refl i s, .refl i s⟩

/-! ### Receivers in order -/

/-- One receiver of a list acts, and the others keep what holds before and after. -/
theorem foldl_at {α : Type} (f : State → α → State) {a : α} {l : List α} (hl : l.Nodup) (ha : a ∈ l) (P Q : State → Prop)
    (before : ∀ v b, b ∈ l → b ≠ a → P v → P (f v b)) (after : ∀ v b, b ∈ l → b ≠ a → Q v → Q (f v b))
    (acts : ∀ v, P v → Q (f v a)) {s : State} (h : P s) : Q (l.foldl f s) := by
  obtain ⟨l₁, l₂, e⟩ := List.append_of_mem ha
  rw [e, List.nodup_append, List.nodup_cons] at hl
  obtain ⟨_, ⟨hnot, _⟩, hdisjoint⟩ := hl
  rw [e, List.foldl_append, List.foldl_cons]
  refine foldl_keeps f Q l₂ _ (fun v b hb => after v b (by rw [e]; simp [hb]) fun eb => hnot (eb ▸ hb)) (acts _ ?_)
  exact foldl_keeps f P l₁ s (fun v b hb => before v b (by rw [e]; simp [hb]) (hdisjoint b hb a (by simp))) h

/-- Two receivers of a list act, in either order. -/
theorem foldl_both {α : Type} (f : State → α → State) {a b : α} {l : List α} (hab : a ≠ b) (hl : l.Nodup) (ha : a ∈ l)
    (hb : b ∈ l) (P A B R : State → Prop) (hP : ∀ v x, x ≠ a → x ≠ b → P v → P (f v x))
    (hA : ∀ v x, x ≠ a → x ≠ b → A v → A (f v x)) (hB : ∀ v x, x ≠ a → x ≠ b → B v → B (f v x))
    (hR : ∀ v x, x ≠ a → x ≠ b → R v → R (f v x)) (first : ∀ v, P v → A (f v a)) (second : ∀ v, P v → B (f v b))
    (thenSecond : ∀ v, A v → R (f v b)) (thenFirst : ∀ v, B v → R (f v a)) {s : State} (h : P s) : R (l.foldl f s) := by
  obtain ⟨l₁, l₂, e⟩ := List.append_of_mem ha
  rw [e, List.nodup_append, List.nodup_cons] at hl
  obtain ⟨hl₁, ⟨hnot, hl₂⟩, hdisjoint⟩ := hl
  have left : ∀ x ∈ l₁, x ≠ a := fun x hx => hdisjoint x hx a (by simp)
  have right : ∀ x ∈ l₂, x ≠ a := fun x hx ex => hnot (ex ▸ hx)
  rw [e, List.mem_append, List.mem_cons] at hb
  rw [e, List.foldl_append, List.foldl_cons]
  by_cases hb₁ : b ∈ l₁
  · refine foldl_keeps f R l₂ _ (fun v x hx => hR v x (right x hx) fun ex =>
      hdisjoint b hb₁ x (by simp [hx]) ex.symm) (thenFirst _ ?_)
    exact foldl_at f hl₁ hb₁ P B (fun v x hx hxb => hP v x (left x hx) hxb) (fun v x hx hxb => hB v x (left x hx) hxb) second h
  · have hb₂ : b ∈ l₂ := (hb.resolve_left hb₁).resolve_left hab.symm
    refine foldl_at f hl₂ hb₂ A R (fun v x hx hxb => hA v x (right x hx) hxb) (fun v x hx hxb => hR v x (right x hx) hxb)
      thenSecond (first _ ?_)
    exact foldl_keeps f P l₁ s (fun v x hx => hP v x (left x hx) fun ex => hb₁ (ex ▸ hx)) h

end Sys2Proof.Machine
end


-- ==== Sys2Proof/Proofs/EdgesTaken.lean ====
section
/-!
PROOFS. Proofs/EdgesTaken.lean: what an edge of a trigger line leaves of every stream and generator (06_pacing_and_external_lines.md
section 6.5).
-/

namespace Sys2Proof.Machine

variable {n : LineId} {i : StreamId} {g : GeneratorId} {s t u v : State} {c : StreamConfig} {streams : List StreamId}
  {l : List (Fin 12)}

/-! ### Streams -/

theorem State.SeesAlike.config (h : s.SeesAlike i t) (hc : (t.streams[i]).config = some c) :
    (s.streams[i]).config = some c := by
  rw [h.stream]
  exact hc

/-- A state that a stream cannot tell from another, with another number of the next pass. -/
theorem State.SeesAlike.numbered (h : s.SeesAlike i t) (k : Nat) : ({ s with nextPassId := k } : State).SeesAlike i t :=
  ⟨h.stream, h.staging, h.buffers, h.outbox, h.scanLists, h.channels, h.count, h.elapsed, h.link, h.writeInFlight⟩

theorem State.ActsAs.tickIf (h : s.ActsAs i t) (hid : s.nextPassId = t.nextPassId) (b : Bool) :
    (tickIf b i s).ActsAs i (tickIf b i t) := by
  cases b with
  | false => exact h
  | true => exact h.takeTick hid

/-- A state that looks to a stream like the one after its edge comes from one that looks like the state before, by an edge
and with the same number of the next pass. -/
theorem seen_after_edge (h : v.SeesAlike i (takeEdge n i u)) (hu : u.SeesAlike i s) :
    ∃ w, w.SeesAlike i s ∧ v.ActsAs i (takeEdge n i w) ∧ v.nextPassId = (takeEdge n i w).nextPassId := by
  refine ⟨{ u with nextPassId := v.nextPassId }, hu.numbered _, (State.ActsAs.of_seen h).trans ?_, ?_⟩
  · exact (State.ActsAs.of_seen ((State.SeesAlike.refl i u).numbered v.nextPassId)).symm.takeEdge n
  · rw [takeEdge_nextPassId]

/-- Whether the generator of a configuration issues a tick at an edge. -/
def State.ticksFor (s : State) (c : StreamConfig) (n : LineId) : Bool := (s.generators[c.generator]).ticksOn n

/-- Neither a stream nor its generator has taken the edge. -/
def Untouched (i : StreamId) (c : StreamConfig) (s v : State) : Prop :=
  v.SeesAlike i s ∧ v.generators[c.generator] = s.generators[c.generator]

/-- The stream has taken the edge, its generator has not. -/
def EdgeTaken (n : LineId) (i : StreamId) (c : StreamConfig) (s v : State) : Prop :=
  (∃ u, u.SeesAlike i s ∧ v.SeesAlike i (takeEdge n i u)) ∧ v.generators[c.generator] = s.generators[c.generator]

/-- The generator has taken the edge, and the stream the tick when one is issued. -/
def TickTaken (n : LineId) (i : StreamId) (c : StreamConfig) (s v : State) : Prop :=
  ∃ u, u.SeesAlike i s ∧ v.SeesAlike i (tickIf (s.ticksFor c n) i u)

/-- Stream and generator have taken the edge, in either order. -/
def BothTaken (n : LineId) (i : StreamId) (c : StreamConfig) (s v : State) : Prop :=
  ∃ u, u.SeesAlike i s ∧ (v.ActsAs i (tickIf (s.ticksFor c n) i (takeEdge n i u)) ∨
    v.ActsAs i (takeEdge n i (tickIf (s.ticksFor c n) i u)))

section Receivers

variable (hc : (s.streams[i]).config = some c)

include hc

theorem Untouched.config (h : Untouched i c s v) : (v.streams[i]).config = some c := h.1.config hc

theorem EdgeTaken.config (h : EdgeTaken n i c s v) : (v.streams[i]).config = some c := by
  obtain ⟨⟨u, hu, hv⟩, _⟩ := h
  rw [hv.stream, (takeEdge_step n i u).config, hu.stream, hc]

theorem TickTaken.config (h : TickTaken n i c s v) : (v.streams[i]).config = some c := by
  obtain ⟨u, hu, hv⟩ := h
  rw [hv.stream, (tickIf_step _ i u).config, hu.stream, hc]

theorem BothTaken.config (h : BothTaken n i c s v) : (v.streams[i]).config = some c := by
  obtain ⟨u, hu, hv | hv⟩ := h
  · rw [hv.stream, (tickIf_step _ i _).config, (takeEdge_step n i u).config, hu.stream, hc]
  · rw [hv.stream, (takeEdge_step n i _).config, (tickIf_step _ i u).config, hu.stream, hc]

variable {r : Fin 12}

theorem Untouched.other (h : Untouched i c s v) (hstream : r ≠ streamReceiver i) (hgenerator : r ≠ generatorReceiver c.generator) :
    Untouched i c s (takeEdgeAt n streams r v) :=
  ⟨(receiver_unseen (h.config hc) hstream hgenerator).trans h.1, (takeEdgeAt_generator_other hgenerator n streams v).trans h.2⟩

theorem EdgeTaken.other (h : EdgeTaken n i c s v) (hstream : r ≠ streamReceiver i) (hgenerator : r ≠ generatorReceiver c.generator) :
    EdgeTaken n i c s (takeEdgeAt n streams r v) := by
  have hunseen := receiver_unseen (n := n) (streams := streams) (h.config hc) hstream hgenerator
  obtain ⟨⟨u, hu, hv⟩, hkept⟩ := h
  exact ⟨⟨u, hu, hunseen.trans hv⟩, (takeEdgeAt_generator_other hgenerator n streams v).trans hkept⟩

theorem TickTaken.other (h : TickTaken n i c s v) (hstream : r ≠ streamReceiver i) (hgenerator : r ≠ generatorReceiver c.generator) :
    TickTaken n i c s (takeEdgeAt n streams r v) := by
  have hunseen := receiver_unseen (n := n) (streams := streams) (h.config hc) hstream hgenerator
  obtain ⟨u, hu, hv⟩ := h
  exact ⟨u, hu, hunseen.trans hv⟩

theorem BothTaken.other (h : BothTaken n i c s v) (hstream : r ≠ streamReceiver i) (hgenerator : r ≠ generatorReceiver c.generator) :
    BothTaken n i c s (takeEdgeAt n streams r v) := by
  have hunseen := State.ActsAs.of_seen (receiver_unseen (n := n) (streams := streams) (h.config hc) hstream hgenerator)
  obtain ⟨u, hu, hv⟩ := h
  exact ⟨u, hu, hv.imp hunseen.trans hunseen.trans⟩

omit hc in
/-- What the generator's turn does to the stream, while the generator is as it was. -/
theorem generator_turn (hv : (v.streams[i]).config = some c) (hkept : v.generators[c.generator] = s.generators[c.generator]) :
    ∃ u, u.SeesAlike i v ∧
      (takeEdgeAt n streams (generatorReceiver c.generator) v).SeesAlike i (tickIf (s.ticksFor c n) i u) := by
  have h := generator_seen (n := n) (streams := streams) hv
  rwa [hkept] at h

omit hc in
theorem Untouched.edge (h : Untouched i c s v) : EdgeTaken n i c s (takeEdgeAt n streams (streamReceiver i) v) := by
  refine ⟨⟨v, h.1, ?_⟩, (takeEdgeAt_generator_other (receivers_differ i _) n streams v).trans h.2⟩
  rw [takeEdgeAt_stream]
  exact .refl i _

theorem Untouched.tick (h : Untouched i c s v) :
    TickTaken n i c s (takeEdgeAt n streams (generatorReceiver c.generator) v) := by
  obtain ⟨u, hu, ht⟩ := generator_turn (n := n) (streams := streams) (h.config hc) h.2
  exact ⟨u, hu.trans h.1, ht⟩

theorem EdgeTaken.tick (h : EdgeTaken n i c s v) :
    BothTaken n i c s (takeEdgeAt n streams (generatorReceiver c.generator) v) := by
  obtain ⟨u, hu, ht⟩ := generator_turn (n := n) (streams := streams) (h.config hc) h.2
  obtain ⟨⟨w, hw, hv⟩, _⟩ := h
  obtain ⟨w', hw', hacts, hid⟩ := seen_after_edge (hu.trans hv) hw
  exact ⟨w', hw', .inl ((State.ActsAs.of_seen ht).trans (hacts.tickIf hid _))⟩

omit hc in
theorem TickTaken.edge (h : TickTaken n i c s v) : BothTaken n i c s (takeEdgeAt n streams (streamReceiver i) v) := by
  obtain ⟨u, hu, hv⟩ := h
  refine ⟨u, hu, .inr ?_⟩
  rw [takeEdgeAt_stream]
  exact (State.ActsAs.of_seen hv).takeEdge n

/-- A stream takes an edge, its generator's tick, or both in either order, in a state that it cannot tell from the one
before (R108, R111). -/
theorem received_acts (hl : l.Nodup) (hi : streamReceiver i ∈ l ↔ (s.streams[i]).minds n = true)
    (hg : generatorReceiver c.generator ∈ l ↔ (s.generators[c.generator]).countsEdges n) :
    ∃ u, u.SeesAlike i s ∧
      ((l.foldl (fun v r => takeEdgeAt n streams r v) s).ActsAs i (tickIf (s.ticksFor c n) i (takeEdge n i u)) ∨
        ((s.streams[i]).minds n = true ∧
          (l.foldl (fun v r => takeEdgeAt n streams r v) s).ActsAs i (takeEdge n i (tickIf (s.ticksFor c n) i u)))) := by
  have hbefore : Untouched i c s s := ⟨.refl i s, rfl⟩
  by_cases hstream : streamReceiver i ∈ l
  · have hminds := hi.mp hstream
    by_cases hgenerator : generatorReceiver c.generator ∈ l
    · obtain ⟨u, hu, hv⟩ := foldl_both (fun v r => takeEdgeAt n streams r v) (receivers_differ i c.generator) hl hstream
        hgenerator (Untouched i c s) (EdgeTaken n i c s) (TickTaken n i c s) (BothTaken n i c s)
        (fun v r h1 h2 h => h.other hc h1 h2) (fun v r h1 h2 h => h.other hc h1 h2) (fun v r h1 h2 h => h.other hc h1 h2)
        (fun v r h1 h2 h => h.other hc h1 h2) (fun v h => h.edge) (fun v h => h.tick hc) (fun v h => h.tick hc)
        (fun v h => h.edge) hbefore
      exact ⟨u, hu, hv.imp_right fun h => ⟨hminds, h⟩⟩
    · have hquiet : s.ticksFor c n = false := ticksOn_of_other fun h => hgenerator (hg.mpr h)
      obtain ⟨⟨u, hu, hv⟩, _⟩ := foldl_at (fun v r => takeEdgeAt n streams r v) hl hstream (Untouched i c s)
        (EdgeTaken n i c s) (fun v r hr h1 h => h.other hc h1 fun e => hgenerator (e ▸ hr))
        (fun v r hr h1 h => h.other hc h1 fun e => hgenerator (e ▸ hr)) (fun v h => h.edge) hbefore
      rw [hquiet]
      exact ⟨u, hu, .inl (.of_seen hv)⟩
  · have hunminded : (s.streams[i]).minds n = false := Bool.eq_false_iff.mpr fun h => hstream (hi.mpr h)
    have hsame : ∀ u : State, u.SeesAlike i s → takeEdge n i u = u := fun u hu =>
      takeEdge_of_unminded (by rw [hu.stream]; exact hunminded)
    by_cases hgenerator : generatorReceiver c.generator ∈ l
    · obtain ⟨u, hu, hv⟩ := foldl_at (fun v r => takeEdgeAt n streams r v) hl hgenerator (Untouched i c s)
        (TickTaken n i c s) (fun v r hr h1 h => h.other hc (fun e => hstream (e ▸ hr)) h1)
        (fun v r hr h1 h => h.other hc (fun e => hstream (e ▸ hr)) h1) (fun v h => h.tick hc) hbefore
      refine ⟨u, hu, .inl ?_⟩
      rw [hsame u hu]
      exact .of_seen hv
    · have hquiet : s.ticksFor c n = false := ticksOn_of_other fun h => hgenerator (hg.mpr h)
      have hv := foldl_keeps (fun v r => takeEdgeAt n streams r v) (Untouched i c s) l s
        (fun v r hr h => h.other hc (fun e => hstream (e ▸ hr)) fun e => hgenerator (e ▸ hr)) hbefore
      refine ⟨s, .refl i s, .inl ?_⟩
      rw [hquiet, hsame s (.refl i s)]
      exact .of_seen hv.1

end Receivers

/-! ### Generators -/

/-- Every generator takes the edge by its own state (R102, R111). -/
theorem received_generator (hl : l.Nodup) (hg : generatorReceiver g ∈ l ↔ (s.generators[g]).countsEdges n) :
    (l.foldl (fun v r => takeEdgeAt n streams r v) s).generators[g] = (s.generators[g]).edged n := by
  by_cases hmem : generatorReceiver g ∈ l
  · exact foldl_reaches (fun v r => takeEdgeAt n streams r v) (generatorReceiver g)
      (fun v => v.generators[g] = s.generators[g]) (fun v => v.generators[g] = (s.generators[g]).edged n)
      (fun v r hr h => (takeEdgeAt_generator_other hr n streams v).trans h)
      (fun v r hr h => (takeEdgeAt_generator_other hr n streams v).trans h)
      (fun v h => (takeEdgeAt_generator_self n streams g v).trans (by rw [h])) l s hl hmem rfl
  · rw [edged_of_other fun h => hmem (hg.mpr h)]
    exact foldl_keeps (fun v r => takeEdgeAt n streams r v) (fun v => v.generators[g] = s.generators[g]) l s
      (fun v r hr h => (takeEdgeAt_generator_other (fun e => hmem (e ▸ hr)) n streams v).trans h) rfl

/-- What an edge leaves of a generator that counts it, by its counts (R102, R104). -/
theorem edged_counts {x : Generator} (h : x.countsEdges n) :
    (x.prescaleCount + 1 < x.prescale → x.edged n = { x with prescaleCount := x.prescaleCount + 1 }) ∧
    (x.prescale ≤ x.prescaleCount + 1 →
      (x.divideCount + 1 < x.divide → x.edged n = { x with prescaleCount := 0, divideCount := x.divideCount + 1 }) ∧
      (∀ ticks, x.divide ≤ x.divideCount + 1 → ticks = min (x.ticks + 1) 4294967295 →
        (x.mode = .continuous ∨ ticks < x.burst →
          x.edged n = { x with prescaleCount := 0, divideCount := 0, ticks := ticks }) ∧
        (x.mode = .burst → x.burst ≤ ticks → x.edged n =
          { x with prescaleCount := 0, divideCount := 0, ticks := ticks, state := .done, owed := 0 }))) := by
  refine ⟨fun hp => ?_, fun hp => ⟨fun hd => ?_, fun ticks hd hticks => ?_⟩⟩
  · rw [edged_of_counted h (by rw [sourceEvent_of_prescale hp]), sourceEvent_of_prescale hp]
  · rw [edged_of_counted h (by rw [sourceEvent_of_divide hp hd]), sourceEvent_of_divide hp hd]
  · rw [edged_of_tick h (by rw [sourceEvent_of_tick hp hd]), sourceEvent_of_tick hp hd, hticks]
    refine ⟨fun hmore => ?_, fun hmode hlast => ?_⟩
    · rcases hmore with hmode | hmore
      · exact ticked_of_continuous hmode
      · exact ticked_of_more hmore
    · exact ticked_of_last hmode hlast

/-! ### The edge of a line -/

/-- What a line looks like once its edge is handed to the other receivers (R110, R111). -/
def Line.edgeGiven (l : Line) (elapsed : Nat) : Line :=
  if l.active = false then l.sampled elapsed true .change else l.settled

theorem edgeGiven_fields {l : Line} (elapsed : Nat) :
    (l.edgeGiven elapsed).active = true ∧ (l.edgeGiven elapsed).polarity = l.polarity ∧
      (l.edgeGiven elapsed).nextSample = (if l.active = true then l.nextSample else elapsed + 1) ∧
      (l.edgeGiven elapsed).owed = (if l.active = true then .nothing else .change) := by
  unfold Line.edgeGiven
  cases h : l.active with
  | false => exact ⟨sampled_active _ _ _ _, sampled_polarity _ _ _ _, rfl, rfl⟩
  | true => exact ⟨h, rfl, rfl, rfl⟩

/-- A line that is found ACTIVE, or owes its edge, hands it over. -/
theorem takeLineEdge_given (h : (s.lines[n]).active = false ∨ (s.lines[n]).owed = .edge) (order : List (Fin 12))
    (streams : List StreamId) :
    takeLineEdge n order streams s = handEdge n order streams (s.modLine n (fun l => l.edgeGiven s.elapsed)) := by
  cases hactive : (s.lines[n]).active with
  | false =>
    rw [takeLineEdge_of_inactive hactive]
    exact congrArg (fun L => handEdge n order streams { s with lines := L })
      (upd_congr (g := fun l : Line => l.edgeGiven s.elapsed) (if_pos hactive).symm)
  | true =>
    rw [takeLineEdge_of_owed hactive (h.resolve_left (by rw [hactive]; decide))]
    exact congrArg (fun L => handEdge n order streams { s with lines := L })
      (upd_congr (g := fun l : Line => l.edgeGiven s.elapsed) (if_neg (by rw [hactive]; decide)).symm)

/-- A stream after an edge of a line (R108, R111). -/
theorem handEdge_stream (order : List (Fin 12)) (streams : List StreamId) (hc : (s.streams[i]).config = some c) :
    ∃ u, u.SeesAlike i s ∧
      ((handEdge n order streams s).ActsAs i (tickIf (s.ticksFor c n) i (takeEdge n i u)) ∨
        ((s.streams[i]).minds n = true ∧
          (handEdge n order streams s).ActsAs i (takeEdge n i (tickIf (s.ticksFor c n) i u)))) :=
  received_acts hc (nodup_receivers order n s) (by rw [mem_arrange]; exact mem_receivers_stream)
    (by rw [mem_arrange]; exact mem_receivers_generator)

/-- A stream whose generator issues no tick takes at most the edge. -/
theorem handEdge_stream_of_quiet (order : List (Fin 12)) (streams : List StreamId) (hc : (s.streams[i]).config = some c)
    (hquiet : s.ticksFor c n = false) :
    ∃ u, u.SeesAlike i s ∧ (handEdge n order streams s).ActsAs i (takeEdge n i u) := by
  obtain ⟨u, hu, ht⟩ := handEdge_stream (n := n) order streams hc
  rw [hquiet] at ht
  exact ⟨u, hu, ht.elim id (·.2)⟩

/-- A stream that does not mind the edge takes at most the tick. -/
theorem handEdge_stream_of_unminded (order : List (Fin 12)) (streams : List StreamId) (hc : (s.streams[i]).config = some c)
    (hunminded : (s.streams[i]).minds n = false) :
    ∃ u, u.SeesAlike i s ∧ (handEdge n order streams s).ActsAs i (tickIf (s.ticksFor c n) i u) := by
  obtain ⟨u, hu, ht⟩ := handEdge_stream (n := n) order streams hc
  rw [takeEdge_of_unminded (s := u) (by rw [hu.stream]; exact hunminded)] at ht
  exact ⟨u, hu, ht.resolve_right fun h => Bool.false_ne_true (hunminded.symm.trans h.1)⟩

theorem handEdge_generator (order : List (Fin 12)) (streams : List StreamId) (g : GeneratorId) (s : State) :
    (handEdge n order streams s).generators[g] = (s.generators[g]).edged n :=
  received_generator (nodup_receivers order n s) (by rw [mem_arrange]; exact mem_receivers_generator)

theorem minds_of_either (hc : (s.streams[i]).config = some c) : (s.streams[i]).minds n = true ↔
    ((s.streams[i]).state = .armed ∧ c.start = .line n) ∨ ((s.streams[i]).state = .running ∧ c.stop = .line n) := by
  rw [minds_iff]
  exact ⟨(fun ⟨_, hc', h⟩ => by rwa [Option.some.inj (hc.symm.trans hc')]), (fun h => ⟨c, hc, h⟩)⟩

theorem unminded_of_neither (hc : (s.streams[i]).config = some c)
    (harmed : ¬((s.streams[i]).state = .armed ∧ c.start = .line n))
    (hrunning : ¬((s.streams[i]).state = .running ∧ c.stop = .line n)) : (s.streams[i]).minds n = false :=
  Bool.eq_false_iff.mpr fun h => ((minds_of_either hc).mp h).elim harmed hrunning

/-- The trigger, the drain and the rest that an edge leaves of a stream whose generator issues no tick (R8, R15, R111). -/
theorem handEdge_of_quiet (order : List (Fin 12)) (streams : List StreamId) (hc : (s.streams[i]).config = some c)
    (hquiet : s.ticksFor c n = false) (ht : t = handEdge n order streams s) :
    ((s.streams[i]).state = .armed → c.start = .line n → (∀ T, c.stop = .time T → s.timebase.count < T) →
      (t.streams[i]).state = .running ∧ (t.streams[i]).trigger = some ⟨s.timebase.count, .line n⟩ ∧
      (t.streams[i]).nextPass = some 0) ∧
    (∀ T, (s.streams[i]).state = .armed → c.start = .line n → c.stop = .time T → T ≤ s.timebase.count →
      t.streams[i] = (takeTrigger i (.line n) s).streams[i] ∧
      (t.streams[i]).trigger = some ⟨s.timebase.count, .line n⟩ ∧ (t.streams[i]).endReason = some .stopTime) ∧
    ((s.streams[i]).state = .running → c.stop = .line n →
      ((t.streams[i]).state = .draining ∨ (t.streams[i]).state = .idle) ∧ (t.streams[i]).endReason = some .stopLine) ∧
    (¬((s.streams[i]).state = .armed ∧ c.start = .line n) → ¬((s.streams[i]).state = .running ∧ c.stop = .line n) →
      t.streams[i] = s.streams[i] ∧ t.staging[i] = s.staging[i]) := by
  obtain ⟨u, hu, hacts⟩ := handEdge_stream_of_quiet (n := n) order streams hc hquiet
  have k : t.ActsAs i (takeEdge n i s) := by
    rw [ht]
    exact hacts.trans ((State.ActsAs.of_seen hu).takeEdge n)
  refine ⟨fun hstate hstart hlater => ?_, fun T hstate hstart hstop hT => ?_, fun hstate hstop => ?_, fun harmed hrunning => ?_⟩
  · rw [k.stream, takeEdge_of_start hc hstate hstart, takeTrigger_later_stream hc hlater, triggered_stream]
    exact ⟨rfl, rfl, rfl⟩
  · rw [k.stream, takeEdge_of_start hc hstate hstart]
    exact ⟨rfl, takeTrigger_reached_stream hc hstop hT _⟩
  · obtain ⟨state, _, hstates, _, _, e⟩ := enterDraining_stream (i := i) (s := s) (reason := .stopLine) (by decide)
    rw [k.stream, takeEdge_of_stop hc hstate hstop, e]
    exact ⟨hstates, rfl⟩
  · rw [takeEdge_of_unminded (unminded_of_neither hc harmed hrunning)] at k
    exact ⟨k.stream, k.staging⟩

/-- The receivers of an edge, one after another (R111). -/
theorem handEdge_receivers (order : List (Fin 12)) (streams : List StreamId) (s : State) :
    ∃ receivers : List (Fin 12), receivers.Nodup ∧
      (∀ r : Fin 12, r ∈ receivers ↔
        (∃ (i : StreamId) (c : StreamConfig), r.val = i.val ∧ (s.streams[i]).config = some c ∧
          (((s.streams[i]).state = .armed ∧ c.start = .line n) ∨ ((s.streams[i]).state = .running ∧ c.stop = .line n))) ∨
        ∃ g : GeneratorId, r.val = 8 + g.val ∧ (s.generators[g]).state = .running ∧ (s.generators[g]).source = .trig n) ∧
      handEdge n order streams s = receivers.foldl (fun u r => takeEdgeAt n streams r u) s := by
  refine ⟨arrange order (s.receivers n), nodup_receivers order n s, fun r => ?_, rfl⟩
  rw [mem_arrange]
  constructor
  · intro hr
    rcases receiver_cases r with ⟨i, rfl⟩ | ⟨g, rfl⟩
    · obtain ⟨c, hc, h⟩ := (minds_iff _ n).mp (mem_receivers_stream.mp hr)
      exact .inl ⟨i, c, rfl, hc, h⟩
    · exact .inr ⟨g, rfl, mem_receivers_generator.mp hr⟩
  · rintro (⟨i, c, hr, hc, h⟩ | ⟨g, hr, h⟩)
    · obtain rfl : r = streamReceiver i := Fin.ext hr
      exact mem_receivers_stream.mpr ((minds_iff _ n).mpr ⟨c, hc, h⟩)
    · obtain rfl : r = generatorReceiver g := Fin.ext hr
      exact mem_receivers_generator.mpr h

/-! ### One receiver -/

/-- What one receiver does (R8, R15, R102, R111). -/
theorem takeEdgeAt_cases (n : LineId) (streams : List StreamId) (r : Fin 12) (s t : State) (ht : takeEdgeAt n streams r s = t) :
    (∀ i : StreamId, r.val = i.val → t = takeEdge n i s ∧ ((s.streams[i]).config = none → t = s) ∧
      ∀ c : StreamConfig, (s.streams[i]).config = some c →
        ((s.streams[i]).state = .armed → c.start = .line n → t = takeTrigger i (.line n) s) ∧
        ((s.streams[i]).state = .running → c.stop = .line n → t = enterDraining i .stopLine s) ∧
        (¬((s.streams[i]).state = .armed ∧ c.start = .line n) →
          ¬((s.streams[i]).state = .running ∧ c.stop = .line n) → t = s)) ∧
    (∀ g : GeneratorId, r.val = 8 + g.val →
      (¬((s.generators[g]).state = .running ∧ (s.generators[g]).source = .trig n) → t = s) ∧
      ((s.generators[g]).state = .running → (s.generators[g]).source = .trig n →
        ((s.generators[g]).sourceEvent.2 = false → t = { s with generators := t.generators }) ∧
        ((s.generators[g]).sourceEvent.2 = true → ∃ (bound : List StreamId) (v : State), bound.Nodup ∧
          (∀ i : StreamId, i ∈ bound ↔ (s.streams[i]).state ≠ .unconfigured ∧
            ∃ c, (s.streams[i]).config = some c ∧ c.generator = g) ∧
          v = { s with generators := v.generators } ∧
          t = { bound.foldl (fun u i => takeTick i u) v with generators := t.generators }))) := by
  refine ⟨fun i hr => ?_, fun g hr => ?_⟩
  · obtain rfl : r = streamReceiver i := Fin.ext hr
    rw [takeEdgeAt_stream] at ht
    refine ⟨ht.symm, fun hc => ?_, fun c hc => ⟨fun hstate hstart => ?_, fun hstate hstop => ?_, fun harmed hrunning => ?_⟩⟩
    · rw [← ht, takeEdge_of_unminded]
      exact Bool.eq_false_iff.mpr fun h => by
        obtain ⟨c, hc', _⟩ := (minds_iff _ n).mp h
        rw [hc] at hc'
        cases hc'
    · rw [← ht, takeEdge_of_start hc hstate hstart]
    · rw [← ht, takeEdge_of_stop hc hstate hstop]
    · rw [← ht, takeEdge_of_unminded (unminded_of_neither hc harmed hrunning)]
  · obtain rfl : r = generatorReceiver g := Fin.ext hr
    rw [takeEdgeAt_generator] at ht
    refine ⟨fun h => by rw [← ht, takeSourceEdge_of_other h], fun hstate hsource => ⟨fun hevent => ?_, fun hevent => ?_⟩⟩
    · rw [← ht, takeSourceEdge_of_counted ⟨hstate, hsource⟩ hevent]
      rfl
    · rw [takeSourceEdge_of_tick ⟨hstate, hsource⟩ hevent] at ht
      refine ⟨arrange streams ((s.modGenerator g (fun y => y.sourceEvent.1)).boundTo g),
        (s.modGenerator g (fun y => y.sourceEvent.1)).modGenerator g (fun x => { x with ticks := satSucc limit32 x.ticks }),
        nodup_boundTo _ g streams, fun i => ?_, rfl, ?_⟩
      · rw [mem_arrange]
        exact mem_boundTo _ g i
      · rw [← ht]
        exact issueTick_receivers g streams _

/-! ### Two edges -/

/-- Of two edges of a line the second comes two reference periods later or more (R110). -/
theorem edges_apart {k l : List (Fin 12)} {p q : List StreamId} (hinactive : (s.lines[n]).active = false)
    (ht : exec (.trigEdge n k p) s = .next t) (hu : exec (.gateChange n false) t = .next u)
    (hv : exec (.trigEdge n l q) u = .next v) : t.elapsed + 2 ≤ v.elapsed := by
  obtain rfl : takeLineEdge n k p (s.atSample n true) = t := Host.Outcome.next.inj ht
  obtain ⟨hlines, helapsed⟩ := takeLineEdge_line (s := s.atSample n true) (by rw [atSample_active]; exact hinactive) k p
  generalize takeLineEdge n k p (s.atSample n true) = t at *
  have hline : t.lines[n] = ((s.atSample n true).lines[n]).sampled (s.atSample n true).elapsed true .change := by
    rw [hlines]
    exact upd_same _ _ _
  have hnext : (t.lines[n]).nextSample = t.elapsed + 1 := by
    rw [hline, helapsed]
    rfl
  have hchanged : (t.lines[n]).active ≠ false := by
    rw [hline, sampled_active]
    decide
  obtain rfl : takeLineChange n false (t.atSample n false) = u := Host.Outcome.next.inj hu
  obtain ⟨hlines', helapsed'⟩ := takeLineChange_line (s := t.atSample n false) (by rw [atSample_active]; exact hchanged)
  have hlater := atSample_elapsed hchanged
  generalize takeLineChange n false (t.atSample n false) = u at *
  have hline' : u.lines[n] = ((t.atSample n false).lines[n]).sampled (t.atSample n false).elapsed false .nothing := by
    rw [hlines']
    exact upd_same _ _ _
  have hnext' : (u.lines[n]).nextSample = u.elapsed + 1 := by
    rw [hline', helapsed']
    rfl
  have hinactive' : (u.lines[n]).active = false := by rw [hline', sampled_active]
  obtain rfl : takeLineEdge n l q (u.atSample n true) = v := Host.Outcome.next.inj hv
  have hlast := atSample_elapsed (s := u) (n := n) (active := true) (by rw [hinactive']; decide)
  rw [(takeLineEdge_line (by rw [atSample_active]; exact hinactive') l q).2]
  omega

/-- The lines are ready for a moment once they have handed over what they owe (R110). -/
theorem readyAt_cases (s : State) (m : Nat) :
    (m ≤ s.elapsed ∨ (∀ k : LineId, (s.lines[k]).owed = .nothing) → s.readyAt m = s) ∧
    (s.elapsed < m →
      (∀ k : LineId, (s.readyAt m).lines[k] = { s.lines[k] with owed := .nothing }) ∧
      (s.readyAt m).elapsed = s.elapsed ∧ (s.readyAt m).timebase = s.timebase ∧
      (∀ n : LineId, (s.lines[n]).active = true → (s.lines[n]).owed = .edge →
        (∀ k : LineId, k ≠ n → (s.lines[k]).owed = .nothing) →
        exec (.trigEdge n (Config.receiverOrder s.choices) (Config.streamOrder s.choices)) s = .next (s.readyAt m)) ∧
      (∀ n : LineId, (s.lines[n]).active = true → (s.lines[n]).owed = .change →
        (∀ k : LineId, k ≠ n → (s.lines[k]).owed = .nothing) →
        exec (.gateChange n true) s = .next (s.readyAt m))) := by
  refine ⟨readyAt_same, fun h => ?_⟩
  obtain ⟨hlines, helapsed, htimebase⟩ := readyAt_keeps h
  refine ⟨fun k => ?_, helapsed, htimebase, fun n hactive howed hothers => ?_, fun n hactive howed hothers => ?_⟩
  · rw [hlines]
    exact settled_line k s
  · rw [trigEdge_of_owed hactive howed, readyAt_of_one (by rw [howed]; decide) hothers h]
  · rw [gateChange_of_owed hactive howed, readyAt_of_one (by rw [howed]; decide) hothers h]

theorem ticksFor_of_quiet (h : (s.generators[c.generator]).state = .running → (s.generators[c.generator]).source = .trig n →
    (s.generators[c.generator]).sourceEvent.2 = false) : s.ticksFor c n = false :=
  Bool.eq_false_iff.mpr fun k => by
    obtain ⟨⟨hstate, hsource⟩, hevent⟩ := (ticksOn_iff _ n).mp k
    rw [h hstate hsource] at hevent
    cases hevent

theorem ticksFor_of_tick (hstate : (s.generators[c.generator]).state = .running)
    (hsource : (s.generators[c.generator]).source = .trig n) (hevent : (s.generators[c.generator]).sourceEvent.2 = true) :
    s.ticksFor c n = true := (ticksOn_iff _ n).mpr ⟨⟨hstate, hsource⟩, hevent⟩

/-- Settles O35. -/
theorem triggerEdgeReachesItsReceivers : Obligations.TriggerEdgeReachesItsReceivers := by
  refine ⟨fun n order streams s₀ s hs => ?_, takeEdgeAt_cases, fun g => sourceEvent_ticks g,
    fun n active s => ⟨atSample_of_same, atSample_of_changed⟩, readyAt_cases,
    fun n k l p q s t u v hinactive ht hu hv => edges_apart hinactive ht hu hv⟩
  have hexec : exec (.trigEdge n order streams) s₀ = .next (takeLineEdge n order streams s) := by
    rw [hs]
    rfl
  refine ⟨fun hactive howed => ?_, fun h => ⟨_, hexec, ?_⟩⟩
  · have hactive₀ : (s₀.lines[n]).active = true := by
      rw [← atSample_active n n true s₀, ← hs]
      exact hactive
    rw [hexec, takeLineEdge_of_none hactive howed, hs, atSample_of_same hactive₀]
  · rw [takeLineEdge_given h]
    have hseen : ∀ i : StreamId, (s.modLine n (fun l => l.edgeGiven s.elapsed)).SeesAlike i s :=
      fun i => ⟨rfl, rfl, rfl, rfl, rfl, rfl, rfl, rfl, rfl, rfl⟩
    have hgiven : s.modLine n (fun l => l.edgeGiven s.elapsed)
        = { s with lines := (s.modLine n (fun l => l.edgeGiven s.elapsed)).lines } := rfl
    have hline : (s.modLine n (fun l => l.edgeGiven s.elapsed)).lines[n] = (s.lines[n]).edgeGiven s.elapsed :=
      upd_same s.lines n _
    have hothers : ∀ m : LineId, m ≠ n → (s.modLine n (fun l => l.edgeGiven s.elapsed)).lines[m] = s.lines[m] :=
      fun m hm => upd_other s.lines _ hm
    generalize s.modLine n (fun l => l.edgeGiven s.elapsed) = w at *
    have hedge := handEdge_edge n order streams w
    have hgenerators : w.generators = s.generators := by rw [hgiven]
    have hstreams : ∀ i : StreamId, w.streams[i] = s.streams[i] := fun i => (hseen i).stream
    have htimebase : w.timebase = s.timebase := by rw [hgiven]
    have hticks : ∀ c, w.ticksFor c n = s.ticksFor c n := fun c => by rw [hgiven]; rfl
    obtain ⟨hactive, hpolarity, hnext, howed⟩ := edgeGiven_fields (l := s.lines[n]) s.elapsed
    rw [← hline] at hactive hpolarity hnext howed
    rw [hedge.lines, hedge.timebase]
    refine ⟨hactive, hpolarity, hnext, howed, hothers, fun i c hc hno => ?_,
      fun i c hc harmed hrunning _ hstate hsource hevent => ?_, fun g => ?_, ?_,
      fun i c hc _ hstate hsource hevent => ?_, htimebase, ?_⟩
    · obtain ⟨htriggers, hreached, hdrains, hrest⟩ := handEdge_of_quiet (n := n) order streams ((hseen i).config hc)
        ((hticks c).trans (ticksFor_of_quiet hno)) rfl
      rw [hstreams i, htimebase] at htriggers hreached
      rw [hstreams i] at hdrains
      rw [hstreams i, (hseen i).staging] at hrest
      refine ⟨htriggers, fun T hstate hstart hstop hT => ?_, hdrains, hrest⟩
      obtain ⟨hafter, htrigger, hend⟩ := hreached T hstate hstart hstop hT
      exact ⟨hafter.trans ((State.ActsAs.of_seen (hseen i)).takeTrigger hc _).stream, htrigger, hend⟩
    · obtain ⟨u, hu, ht⟩ := handEdge_stream_of_unminded (n := n) order streams ((hseen i).config hc)
        (by rw [hstreams i]; exact unminded_of_neither hc harmed hrunning)
      rw [hticks c, ticksFor_of_tick hstate hsource hevent] at ht
      exact ⟨u, hu.trans (hseen i), ht.stream, ht.staging, ht.buffers⟩
    · rw [handEdge_generator, hgenerators]
      exact ⟨edged_of_other, fun hstate hsource => edged_counts ⟨hstate, hsource⟩⟩
    · obtain ⟨receivers, hnodup, hmem, heq⟩ := handEdge_receivers (n := n) order streams w
      refine ⟨receivers, hnodup, fun r => ?_, heq.trans (congrArg (receivers.foldl _) hgiven)⟩
      rw [hmem r, hgenerators]
      simp only [hstreams]
    · obtain ⟨u, hu, ht⟩ := handEdge_stream (n := n) order streams ((hseen i).config hc)
      rw [hticks c, ticksFor_of_tick hstate hsource hevent] at ht
      rcases ht with ht | ⟨_, ht⟩
      · exact ⟨u, _, hu.trans (hseen i), .inl rfl, ht.stream, ht.staging, ht.buffers⟩
      · exact ⟨u, _, hu.trans (hseen i), .inr rfl, ht.stream, ht.staging, ht.buffers⟩
    · obtain ⟨_, _, _, _, _, _, _, _, _, _, _, e⟩ := hedge
      rw [e, hgiven]
      exact ⟨rfl, rfl⟩

end Sys2Proof.Machine
end


-- ==== Sys2Proof/Proofs/WatchJudgement.lean ====
section
/-!
PROOFS. Proofs/WatchJudgement.lean: how watches judge offers and take answers (07_watches_and_alert_levels.md sections 7.3 to 7.6).
-/

namespace Sys2Proof.Machine

variable {m k : WatchId} {o : Offer} {s t u v : State} {w : Watch} {x : Int}

/-! ### Placement of a watch's record -/

theorem placeWatchEvent_of_placed {e : WatchEvent} {outcome : ActionOutcome}
    (h : place (s.watches[m]).ring (.watchEvent e outcome (s.watches[m]).lost) s = some t) (replaced : Bool) :
    placeWatchEvent m e outcome replaced s = t.modWatch m (fun w => { w with lost := 0 }) := by
  unfold placeWatchEvent
  dsimp only
  rw [h]

theorem placeWatchEvent_of_lost {e : WatchEvent} {outcome : ActionOutcome}
    (h : place (s.watches[m]).ring (.watchEvent e outcome (s.watches[m]).lost) s = none) (replaced : Bool) :
    placeWatchEvent m e outcome replaced s =
      s.modWatch m (fun w => { w with lost := if replaced then w.lost else min (w.lost + 1) 65535 }) := by
  unfold placeWatchEvent
  dsimp only
  rw [h]
  cases replaced with
  | true =>
    refine congrArg (fun W => { s with watches := W }) (upd_fixed ?_).symm
    rfl
  | false => rfl

theorem RingStep.watches (h : RingStep s t) : t.watches = s.watches := by
  obtain ⟨_, _, e⟩ := h.frame
  rw [e]

theorem RingStep.alertLevel (h : RingStep s t) : t.alertLevel = s.alertLevel := by
  obtain ⟨_, _, e⟩ := h.frame
  rw [e]

/-- A placement changes the watch table in the lost count of its watch only. -/
theorem placeWatchEvent_watches (m : WatchId) (e : WatchEvent) (outcome : ActionOutcome) (replaced : Bool) (s : State) :
    ∃ lost, (placeWatchEvent m e outcome replaced s).watches = upd s.watches m (fun w => { w with lost := lost }) ∧
      (placeWatchEvent m e outcome replaced s).alertLevel = s.alertLevel := by
  cases h : place (s.watches[m]).ring (.watchEvent e outcome (s.watches[m]).lost) s with
  | none =>
    rw [placeWatchEvent_of_lost h]
    refine ⟨if replaced then (s.watches[m]).lost else min ((s.watches[m]).lost + 1) 65535, ?_, rfl⟩
    rw [State.modWatch_watches]
    refine upd_congr ?_
    rfl
  | some t =>
    rw [placeWatchEvent_of_placed h]
    refine ⟨0, ?_, (place_step h).alertLevel⟩
    rw [State.modWatch_watches, (place_step h).watches]

/-! ### The alert level -/

theorem alertOf_upd {f : Watch → Watch} {W : Vector Watch 16}
    (hf : (f W[m]).enabled = (W[m]).enabled ∧ (f W[m]).state = (W[m]).state ∧ (f W[m]).alert = (W[m]).alert) :
    alertOf (upd W m f) = alertOf W := by
  have hsame : ∀ k : WatchId, ((upd W m f)[k]).enabled = (W[k]).enabled ∧ ((upd W m f)[k]).state = (W[k]).state ∧
      ((upd W m f)[k]).alert = (W[k]).alert := by
    intro k
    by_cases e : k = m
    · subst e
      rw [upd_same]
      exact hf
    · rw [upd_other _ _ e]
      exact ⟨rfl, rfl, rfl⟩
  unfold alertOf
  congr 1
  funext level k
  dsimp only
  rw [(hsame k).1, (hsame k).2.1, (hsame k).2.2]

/-! ### A change of state -/

/-- The state once a watch has changed its state and the alert level is recomputed (R121, R122, R125). -/
def State.entered (s : State) (m : WatchId) (state : WatchState) : State :=
  recomputeAlert (s.modWatch m (fun w => { w with state := state, runCount := 0, runSide := .none }))

theorem entered_watches (s : State) (m : WatchId) (state : WatchState) : (s.entered m state).watches =
    upd s.watches m (fun w => { w with state := state, runCount := 0, runSide := .none }) := rfl

theorem entered_watch (s : State) (m : WatchId) (state : WatchState) : (s.entered m state).watches[m] =
    { s.watches[m] with state := state, runCount := 0, runSide := .none } := upd_same _ _ _

/-- A watch changes its state (R121, R122). -/
def changeWatch (m : WatchId) (state : WatchState) (o : Offer) (s : State) : State :=
  if state = .inside then returnWatch m o s else enterWatch m state o s

theorem changeWatch_of_action {state : WatchState} (hstate : state ≠ .inside) (haction : (s.watches[m]).action ≠ .none) :
    changeWatch m state o s = (s.entered m state).modWatch m (fun y => { y with
      wait := some ⟨(s.watches[m]).action, none,
        if (s.watches[m]).note = true then some ⟨m, state, o, (s.watches[m]).action⟩ else none, false⟩ }) := by
  refine (if_neg hstate).trans ?_
  unfold enterWatch
  dsimp only
  cases h : (s.watches[m]).action with
  | none => exact absurd h haction
  | start i => rfl
  | halt i => rfl

theorem changeWatch_of_none {state : WatchState} (h : state = .inside ∨ (s.watches[m]).action = .none) :
    changeWatch m state o s = if (s.watches[m]).note then placeWatchEvent m ⟨m, state, o, .none⟩ .none false (s.entered m state)
      else s.entered m state := by
  by_cases hstate : state = .inside
  · rw [hstate]
    rfl
  · refine (if_neg hstate).trans ?_
    unfold enterWatch
    dsimp only
    rw [h.resolve_left hstate]
    rfl

/-- A change of state changes its watch, and the alert level follows. -/
theorem changeWatch_watches (m : WatchId) (state : WatchState) (o : Offer) (s : State) :
    ∃ lost wait, (changeWatch m state o s).watches = upd s.watches m (fun w => { w with
        state := state, runCount := 0, runSide := .none, lost := lost, wait := wait }) ∧
      (state = .inside → wait = (s.watches[m]).wait) ∧
      (changeWatch m state o s).alertLevel = alertOf (changeWatch m state o s).watches := by
  by_cases h : state = .inside ∨ (s.watches[m]).action = .none
  · rw [changeWatch_of_none h]
    split
    · obtain ⟨lost, hwatches, halert⟩ := placeWatchEvent_watches m ⟨m, state, o, .none⟩ .none false (s.entered m state)
      refine ⟨lost, (s.watches[m]).wait, ?_, fun _ => rfl, ?_⟩
      · rw [hwatches, entered_watches, upd_upd]
        refine upd_congr ?_
        rfl
      · rw [halert, hwatches, alertOf_upd ⟨rfl, rfl, rfl⟩]
        rfl
    · refine ⟨(s.watches[m]).lost, (s.watches[m]).wait, ?_, fun _ => rfl, rfl⟩
      rw [entered_watches]
      refine upd_congr ?_
      rfl
  · obtain ⟨hstate, haction⟩ := not_or.mp h
    rw [changeWatch_of_action hstate haction]
    refine ⟨(s.watches[m]).lost, some ⟨(s.watches[m]).action, none,
      if (s.watches[m]).note = true then some ⟨m, state, o, (s.watches[m]).action⟩ else none, false⟩, ?_,
      fun e => absurd e hstate, ?_⟩
    · rw [State.modWatch_watches, entered_watches, upd_upd]
      refine upd_congr ?_
      rfl
    · exact (alertOf_upd (W := (s.entered m state).watches) ⟨rfl, rfl, rfl⟩).symm

/-! ### Judgement -/

/-- The side of the band on which a sample lies (R121). -/
def Watch.side (w : Watch) (x : Int) : RunSide :=
  if w.high.toInt < x then .high else if x < w.low.toInt then .low else .none

/-- The run that a sample on a side makes (R121). -/
def Watch.run (w : Watch) (side : RunSide) : Nat := if w.runSide = side then w.runCount + 1 else 1

/-- The state that a sample makes a watch enter, if any (R121, R122). -/
def Watch.enters (w : Watch) (x : Int) : Option WatchState :=
  match w.state with
  | .inside =>
    match w.side x with
    | .high => if w.run .high = w.persistence then some .above else none
    | .low => if w.run .low = w.persistence then some .below else none
    | .none => none
  | .above => if x ≤ w.high.toInt - (w.hysteresis : Int) then some .inside else none
  | .below => if w.low.toInt + (w.hysteresis : Int) ≤ x then some .inside else none

theorem side_high_iff : w.side x = .high ↔ w.high.toInt < x := by
  unfold Watch.side
  split
  · simp [*]
  · split <;> simp [*]

theorem side_low_iff : w.side x = .low ↔ x ≤ w.high.toInt ∧ x < w.low.toInt := by
  unfold Watch.side
  split
  · next h => exact ⟨(nomatch ·), fun k => absurd h (by omega)⟩
  · next h =>
    split
    · next hlow => exact ⟨fun _ => ⟨by omega, hlow⟩, fun _ => rfl⟩
    · next hlow => exact ⟨(nomatch ·), fun k => absurd k.2 hlow⟩

theorem enters_above_iff : w.enters x = some .above ↔
    w.state = .inside ∧ w.high.toInt < x ∧ w.run .high = w.persistence := by
  unfold Watch.enters
  rw [← side_high_iff]
  cases w.state <;> cases w.side x <;> simp

theorem enters_below_iff : w.enters x = some .below ↔
    w.state = .inside ∧ x ≤ w.high.toInt ∧ x < w.low.toInt ∧ w.run .low = w.persistence := by
  unfold Watch.enters
  rw [← and_assoc (b := x < w.low.toInt), ← side_low_iff]
  cases w.state <;> cases w.side x <;> simp

theorem enters_inside_iff : w.enters x = some .inside ↔ (w.state = .above ∧ x ≤ w.high.toInt - (w.hysteresis : Int)) ∨
    (w.state = .below ∧ w.low.toInt + (w.hysteresis : Int) ≤ x) := by
  unfold Watch.enters
  cases w.state <;> cases w.side x <;> simp

/-- The state entered is another one. -/
theorem enters_changes {state : WatchState} (h : w.enters x = some state) : state ≠ w.state := by
  cases state with
  | inside =>
    rcases enters_inside_iff.mp h with k | k
    · rw [k.1]; decide
    · rw [k.1]; decide
  | above => rw [(enters_above_iff.mp h).1]; decide
  | below => rw [(enters_below_iff.mp h).1]; decide

theorem countRun_of_enters {side : RunSide} {state : WatchState} (hw : s.watches[m] = w) (h : w.run side = w.persistence) :
    countRun m side state o s = enterWatch m state o s := by
  unfold countRun
  dsimp only
  rw [hw]
  exact if_pos h

theorem countRun_of_counts {side : RunSide} {state : WatchState} (hw : s.watches[m] = w) (h : w.run side ≠ w.persistence) :
    countRun m side state o s = s.modWatch m (fun y => { y with runCount := w.run side, runSide := side }) := by
  unfold countRun
  dsimp only
  rw [hw]
  exact if_neg h

/-- A sample that makes a watch enter a state (R121, R122). -/
theorem judge_of_enters {state : WatchState} (hw : s.watches[m] = w) (hx : o.sample.code.toInt = x)
    (h : w.enters x = some state) : judge m o s = changeWatch m state o s := by
  unfold judge
  dsimp only
  rw [hw, hx]
  cases state with
  | inside =>
    rcases enters_inside_iff.mp h with ⟨hstate, hle⟩ | ⟨hstate, hle⟩
    · rw [hstate]
      exact if_pos hle
    · rw [hstate]
      exact if_pos hle
  | above =>
    obtain ⟨hstate, hhigh, hrun⟩ := enters_above_iff.mp h
    rw [hstate]
    exact (if_pos hhigh).trans (countRun_of_enters hw hrun)
  | below =>
    obtain ⟨hstate, hhigh, hlow, hrun⟩ := enters_below_iff.mp h
    rw [hstate]
    exact (if_neg (by omega)).trans ((if_pos hlow).trans (countRun_of_enters hw hrun))

/-- A sample in INSIDE that makes a watch enter no state counts on its side, or ends the run (R121). -/
theorem judge_of_counts (hw : s.watches[m] = w) (hx : o.sample.code.toInt = x) (hstate : w.state = .inside)
    (h : w.enters x = none) : judge m o s = s.modWatch m (fun y => { y with
      runCount := if w.side x = .none then 0 else w.run (w.side x), runSide := w.side x }) := by
  unfold judge
  dsimp only
  rw [hw, hx, hstate]
  unfold Watch.enters at h
  rw [hstate] at h
  dsimp only at h ⊢
  unfold Watch.side at h ⊢
  by_cases hhigh : w.high.toInt < x
  · simp only [if_pos hhigh] at h ⊢
    refine (countRun_of_counts hw fun hrun => ?_).trans rfl
    rw [if_pos hrun] at h
    cases h
  · simp only [if_neg hhigh] at h ⊢
    by_cases hlow : x < w.low.toInt
    · simp only [if_pos hlow] at h ⊢
      refine (countRun_of_counts hw fun hrun => ?_).trans rfl
      rw [if_pos hrun] at h
      cases h
    · simp only [if_neg hlow]
      rfl

/-- A sample outside INSIDE that does not return a watch changes nothing (R122). -/
theorem judge_of_stays (hw : s.watches[m] = w) (hx : o.sample.code.toInt = x) (hstate : w.state ≠ .inside)
    (h : w.enters x = none) : judge m o s = s := by
  unfold judge
  dsimp only
  rw [hw, hx]
  unfold Watch.enters at h
  cases hs : w.state with
  | inside => exact absurd hs hstate
  | above =>
    rw [hs] at h
    refine if_neg fun hle => ?_
    rw [if_pos hle] at h
    cases h
  | below =>
    rw [hs] at h
    refine if_neg fun hle => ?_
    rw [if_pos hle] at h
    cases h

/-! ### An offer at a watch -/

theorem matches_iff (w : Watch) (o : Offer) : w.matches o = true ↔
    w.enabled = true ∧ w.channel = o.channel ∧ (w.filter = none ∨ w.filter = some o.stream) := by
  unfold Watch.matches
  rw [Bool.and_eq_true, Bool.and_eq_true, beq_iff_eq, and_assoc]
  cases w.filter with
  | none => simp
  | some i => simp

theorem offerTo_of_other (h : (s.watches[m]).matches o = false) : offerTo m o s = s := if_neg (by rw [h]; decide)

theorem offerTo_of_waiting (h : (s.watches[m]).matches o = true) (hwait : (s.watches[m]).wait ≠ none) :
    offerTo m o s = s.modWatch m (fun w => { w with
      waiting := if w.waiting.length < 16 then w.waiting ++ [o] else w.waiting }) := by
  obtain ⟨a, ha⟩ := Option.ne_none_iff_exists'.mp hwait
  refine (if_pos h).trans ?_
  rw [ha]
  dsimp only
  by_cases hroom : (s.watches[m]).waiting.length < 16
  · refine (if_pos hroom).trans (congrArg (fun W => { s with watches := W }) (upd_congr ?_))
    rw [if_pos hroom]
  · refine (if_neg hroom).trans (congrArg (fun W => { s with watches := W }) (upd_fixed ?_).symm)
    rw [if_neg hroom]

theorem offerTo_of_free (h : (s.watches[m]).matches o = true) (hwait : (s.watches[m]).wait = none) :
    offerTo m o s = judge m o s := by
  refine (if_pos h).trans ?_
  rw [hwait]

end Sys2Proof.Machine
end


-- ==== Sys2Proof/Proofs/OffersJudged.lean ====
section
/-!
PROOFS. Proofs/OffersJudged.lean: an offer at every watch that matches it, and the alert level after it
(07_watches_and_alert_levels.md sections 7.3 to 7.6).
-/

namespace Sys2Proof.Machine

variable {m k : WatchId} {o : Offer} {s t u v : State} {w : Watch} {x : Int} {l : List WatchId}

/-! ### What an offer changes -/

/-- A free watch that matches an offer: the three outcomes of its judgement. -/
theorem offerTo_cases (h : (s.watches[m]).matches o = true) (hwait : (s.watches[m]).wait = none)
    (hx : o.sample.code.toInt = x) :
    (∃ state, (s.watches[m]).enters x = some state ∧ offerTo m o s = changeWatch m state o s) ∨
    ((s.watches[m]).enters x = none ∧ (s.watches[m]).state = .inside ∧ offerTo m o s = s.modWatch m (fun y => { y with
      runCount := if (s.watches[m]).side x = .none then 0 else (s.watches[m]).run ((s.watches[m]).side x)
      runSide := (s.watches[m]).side x })) ∨
    ((s.watches[m]).enters x = none ∧ (s.watches[m]).state ≠ .inside ∧ offerTo m o s = s) := by
  rw [offerTo_of_free h hwait]
  cases hentered : (s.watches[m]).enters x with
  | some state => exact .inl ⟨state, rfl, judge_of_enters rfl hx hentered⟩
  | none =>
    by_cases hstate : (s.watches[m]).state = .inside
    · exact .inr (.inl ⟨rfl, hstate, judge_of_counts rfl hx hstate hentered⟩)
    · exact .inr (.inr ⟨rfl, hstate, judge_of_stays rfl hx hstate hentered⟩)

/-- An offer changes the state of its watch and recomputes the alert level, or neither; no other watch changes. -/
theorem offerTo_watches (m : WatchId) (o : Offer) (s : State) :
    ∃ f : Watch → Watch, (offerTo m o s).watches = upd s.watches m f ∧
      (((f s.watches[m]).state = (s.watches[m]).state ∧ (offerTo m o s).alertLevel = s.alertLevel ∧
          alertOf (offerTo m o s).watches = alertOf s.watches) ∨
        ((f s.watches[m]).state ≠ (s.watches[m]).state ∧ (offerTo m o s).alertLevel = alertOf (offerTo m o s).watches)) := by
  have same : ∃ f : Watch → Watch, s.watches = upd s.watches m f ∧
      (((f s.watches[m]).state = (s.watches[m]).state ∧ s.alertLevel = s.alertLevel ∧ alertOf s.watches = alertOf s.watches) ∨
        ((f s.watches[m]).state ≠ (s.watches[m]).state ∧ s.alertLevel = alertOf s.watches)) :=
    ⟨id, (upd_fixed rfl).symm, .inl ⟨rfl, rfl, rfl⟩⟩
  cases hmatches : (s.watches[m]).matches o with
  | false => rwa [offerTo_of_other hmatches]
  | true =>
    by_cases hwait : (s.watches[m]).wait = none
    · rcases offerTo_cases hmatches hwait rfl with ⟨state, hentered, e⟩ | ⟨_, _, e⟩ | ⟨_, _, e⟩
      · obtain ⟨lost, wait, hwatches, _, halert⟩ := changeWatch_watches m state o s
        rw [e]
        exact ⟨_, hwatches, .inr ⟨enters_changes hentered, halert⟩⟩
      · rw [e]
        refine ⟨_, State.modWatch_watches s m _, .inl ⟨?_, rfl, alertOf_upd ⟨rfl, rfl, rfl⟩⟩⟩
        rfl
      · rwa [e]
    · rw [offerTo_of_waiting hmatches hwait]
      refine ⟨_, State.modWatch_watches s m _, .inl ⟨?_, rfl, alertOf_upd ⟨rfl, rfl, rfl⟩⟩⟩
      rfl

theorem offerTo_others (h : k ≠ m) (o : Offer) (s : State) : (offerTo m o s).watches[k] = s.watches[k] := by
  obtain ⟨f, e, _⟩ := offerTo_watches m o s
  rw [e]
  exact upd_other _ _ h

/-- The alert level is recomputed exactly when the watch changes its state (R125). -/
theorem offerTo_alert (m : WatchId) (o : Offer) (s : State) :
    (((offerTo m o s).watches[m]).state = (s.watches[m]).state ∧ (offerTo m o s).alertLevel = s.alertLevel ∧
      alertOf (offerTo m o s).watches = alertOf s.watches) ∨
    (((offerTo m o s).watches[m]).state ≠ (s.watches[m]).state ∧
      (offerTo m o s).alertLevel = alertOf (offerTo m o s).watches) := by
  obtain ⟨f, e, h⟩ := offerTo_watches m o s
  have hat : (offerTo m o s).watches[m] = f s.watches[m] := by
    rw [e]
    exact upd_same _ _ _
  rwa [hat]

/-! ### Watches in order -/

theorem offers_others (h : k ∉ l) (s : State) : (l.foldl (fun v m => offerTo m o v) s).watches[k] = s.watches[k] :=
  foldl_keeps (fun v m => offerTo m o v) (fun v => v.watches[k] = s.watches[k]) l s
    (fun v m hm hv => (offerTo_others (k := k) (m := m) (fun e => h (e ▸ hm)) o v).trans hv) rfl

/-- A watch judges the offer as it stood before the others did. -/
theorem offers_watch (hl : l.Nodup) (hm : m ∈ l) (s : State) : ∃ v : State, v.watches[m] = s.watches[m] ∧
    (l.foldl (fun v m => offerTo m o v) s).watches[m] = (offerTo m o v).watches[m] :=
  foldl_reaches (fun v m => offerTo m o v) m (fun v => v.watches[m] = s.watches[m])
    (fun t => ∃ v : State, v.watches[m] = s.watches[m] ∧ t.watches[m] = (offerTo m o v).watches[m])
    (fun v k hk hv => (offerTo_others (Ne.symm hk) o v).trans hv)
    (fun v k hk ⟨u, hu, hv⟩ => ⟨u, hu, (offerTo_others (Ne.symm hk) o v).trans hv⟩)
    (fun v hv => ⟨v, hv, rfl⟩) l s hl hm rfl

/-- With no watch changed in its state the alert level stays. -/
theorem offers_alert_kept : ∀ (l : List WatchId) (s : State), l.Nodup →
    (∀ m ∈ l, ((l.foldl (fun v m => offerTo m o v) s).watches[m]).state = (s.watches[m]).state) →
    (l.foldl (fun v m => offerTo m o v) s).alertLevel = s.alertLevel := by
  intro l
  induction l with
  | nil => exact fun s _ _ => rfl
  | cons m l ih =>
    intro s hl h
    rw [List.nodup_cons] at hl
    have hhead := h m (by simp)
    rw [List.foldl_cons, offers_others hl.1] at hhead
    rw [List.foldl_cons, ih _ hl.2]
    · exact ((offerTo_alert m o s).resolve_right fun k => k.1 hhead).2.1
    · intro k hk
      have hkm : k ≠ m := fun e => hl.1 (e ▸ hk)
      rw [offerTo_others hkm]
      exact h k (List.mem_cons_of_mem m hk)

theorem offers_alert_follows : ∀ (l : List WatchId) (s : State), s.alertLevel = alertOf s.watches →
    (l.foldl (fun v m => offerTo m o v) s).alertLevel = alertOf (l.foldl (fun v m => offerTo m o v) s).watches := by
  refine fun l s h => foldl_keeps (fun v m => offerTo m o v) (fun v => v.alertLevel = alertOf v.watches) l s ?_ h
  intro v m _ hv
  rcases offerTo_alert m o v with ⟨_, hlevel, hsame⟩ | ⟨_, hlevel⟩
  · exact hlevel.trans (hv.trans hsame.symm)
  · exact hlevel

/-- With a watch changed in its state the alert level is that of the watches as they are then. -/
theorem offers_alert_changed : ∀ (l : List WatchId) (s : State), l.Nodup →
    (∃ m ∈ l, ((l.foldl (fun v m => offerTo m o v) s).watches[m]).state ≠ (s.watches[m]).state) →
    (l.foldl (fun v m => offerTo m o v) s).alertLevel = alertOf (l.foldl (fun v m => offerTo m o v) s).watches := by
  intro l
  induction l with
  | nil => exact fun s _ ⟨m, hm, _⟩ => nomatch hm
  | cons m l ih =>
    intro s hl h
    rw [List.nodup_cons] at hl
    rw [List.foldl_cons] at h ⊢
    rcases offerTo_alert m o s with ⟨hsame, _, _⟩ | ⟨_, hlevel⟩
    · refine ih _ hl.2 ?_
      obtain ⟨k, hk, hchanged⟩ := h
      have hkm : k ≠ m := by
        rintro rfl
        rw [offers_others hl.1] at hchanged
        exact hchanged hsame
      refine ⟨k, (List.mem_cons.mp hk).resolve_left hkm, ?_⟩
      rw [offerTo_others hkm]
      exact hchanged
    · exact offers_alert_follows l _ hlevel

/-! ### The command -/

/-- The watches take an offer. -/
def offered (order : List WatchId) (o : Offer) (s : State) : State :=
  (arrange order (s.watchesFor o)).foldl (fun v m => offerTo m o v) s

theorem mem_watchesFor (order : List WatchId) (s : State) (o : Offer) (m : WatchId) :
    m ∈ arrange order (s.watchesFor o) ↔ (s.watches[m]).matches o = true := by
  rw [mem_arrange, State.watchesFor, List.mem_filter, and_iff_right (mem_allWatches m)]

theorem nodup_watchesFor (order : List WatchId) (s : State) (o : Offer) : (arrange order (s.watchesFor o)).Nodup :=
  nodup_arrange _ (List.Nodup.filter _ (by decide))

theorem exec_watchOffer {which : Nat} (ho : s.offers[which]? = some o) (order : List WatchId) :
    exec (.watchOffer which order) s = .next (offered order o { s with offers := s.offers.eraseIdx which }) := by
  show Host.Outcome.next (takeOffer which order s) = _
  unfold takeOffer
  rw [ho]
  rfl

theorem offered_offers (order : List WatchId) (o : Offer) (s : State) : (offered order o s).offers = s.offers :=
  foldl_keeps (fun v m => offerTo m o v) (fun v => v.offers = s.offers) _ s
    (fun v m _ hv => by obtain ⟨_, _, _, _, e⟩ := offerTo_watch m o v; rw [e]; exact hv) rfl

/-- What the offer leaves of a watch that matches it. -/
theorem offered_watch (order : List WatchId) (hmatches : (s.watches[m]).matches o = true) :
    ∃ v : State, v.watches[m] = s.watches[m] ∧ (offered order o s).watches[m] = (offerTo m o v).watches[m] :=
  offers_watch (nodup_watchesFor order s o) ((mem_watchesFor order s o m).mpr hmatches) s

theorem offered_unmatched (order : List WatchId) (hunmatched : (s.watches[m]).matches o = false) :
    (offered order o s).watches[m] = s.watches[m] :=
  offers_others (fun h => Bool.false_ne_true (hunmatched.symm.trans ((mem_watchesFor order s o m).mp h))) s

theorem offerTo_at_waiting (hw : v.watches[m] = w) (hmatches : w.matches o = true) (hwait : w.wait ≠ none) :
    (offerTo m o v).watches[m] = { w with waiting :=
      if w.waiting.length < 16 then w.waiting ++ [o] else w.waiting } := by
  subst hw
  rw [offerTo_of_waiting hmatches hwait]
  exact upd_same _ _ _

section Judged

variable (hw : v.watches[m] = w) (hx : o.sample.code.toInt = x) (hmatches : w.matches o = true) (hwait : w.wait = none)

include hw hx hmatches hwait

theorem offerTo_at_counts (hstate : w.state = .inside) (hnone : w.enters x = none) :
    (offerTo m o v).watches[m] = { w with
      runCount := if w.side x = .none then 0 else w.run (w.side x), runSide := w.side x } := by
  subst hw
  rw [offerTo_of_free hmatches hwait, judge_of_counts rfl hx hstate hnone]
  exact upd_same _ _ _

theorem offerTo_at_stays (hstate : w.state ≠ .inside) (hnone : w.enters x = none) : (offerTo m o v).watches[m] = w := by
  subst hw
  rw [offerTo_of_free hmatches hwait, judge_of_stays rfl hx hstate hnone]

theorem offerTo_at_enters {state : WatchState} (hentered : w.enters x = some state) :
    ∃ lost wait, (offerTo m o v).watches[m] = { w with
        state := state, runCount := 0, runSide := .none, lost := lost, wait := wait } ∧ (state = .inside → wait = none) := by
  subst hw
  obtain ⟨lost, wait, e, hkept, _⟩ := changeWatch_watches m state o v
  rw [offerTo_of_free hmatches hwait, judge_of_enters rfl hx hentered, e]
  exact ⟨lost, wait, upd_same _ _ _, fun h => (hkept h).trans hwait⟩

end Judged

/-! ### States that a sample does not make a watch enter -/

theorem enters_none_of (habove : ¬(w.state = .inside ∧ w.high.toInt < x ∧ w.run .high = w.persistence))
    (hbelow : ¬(w.state = .inside ∧ x ≤ w.high.toInt ∧ x < w.low.toInt ∧ w.run .low = w.persistence))
    (hinside : ¬((w.state = .above ∧ x ≤ w.high.toInt - (w.hysteresis : Int)) ∨
      (w.state = .below ∧ w.low.toInt + (w.hysteresis : Int) ≤ x))) : w.enters x = none :=
  Option.eq_none_iff_forall_ne_some.mpr fun state h => by
    cases state with
    | inside => exact hinside (enters_inside_iff.mp h)
    | above => exact habove (enters_above_iff.mp h)
    | below => exact hbelow (enters_below_iff.mp h)

theorem not_returns_of_inside (h : w.state = .inside) :
    ¬((w.state = .above ∧ x ≤ w.high.toInt - (w.hysteresis : Int)) ∨
      (w.state = .below ∧ w.low.toInt + (w.hysteresis : Int) ≤ x)) := by
  rw [h]
  rintro (⟨k, _⟩ | ⟨k, _⟩) <;> cases k

/-- A sample in band ends the run (R121). -/
theorem in_band (hstate : w.state = .inside) (hlow : w.low.toInt ≤ x) (hhigh : x ≤ w.high.toInt) :
    w.enters x = none ∧ w.side x = .none :=
  ⟨enters_none_of (fun h => by omega) (fun h => by omega) (not_returns_of_inside hstate),
    (if_neg (by omega)).trans (if_neg (by omega))⟩

/-- A run above the band that has not reached the persistence goes on (R121). -/
theorem above_band (hstate : w.state = .inside) (hhigh : w.high.toInt < x) (hrun : w.run .high ≠ w.persistence) :
    w.enters x = none ∧ w.side x = .high :=
  ⟨enters_none_of (fun h => hrun h.2.2) (fun h => by omega) (not_returns_of_inside hstate), side_high_iff.mpr hhigh⟩

/-- A run below the band that has not reached the persistence goes on (R121). -/
theorem below_band (hstate : w.state = .inside) (hhigh : x ≤ w.high.toInt) (hlow : x < w.low.toInt)
    (hrun : w.run .low ≠ w.persistence) : w.enters x = none ∧ w.side x = .low :=
  ⟨enters_none_of (fun h => by omega) (fun h => hrun h.2.2.2) (not_returns_of_inside hstate),
    side_low_iff.mpr ⟨hhigh, hlow⟩⟩

theorem above_stays (hstate : w.state = .above) (h : w.high.toInt - (w.hysteresis : Int) < x) : w.enters x = none := by
  refine enters_none_of (fun k => ?_) (fun k => ?_) (fun k => ?_)
  · cases hstate.symm.trans k.1
  · cases hstate.symm.trans k.1
  · rcases k with ⟨_, k⟩ | ⟨k, _⟩
    · omega
    · cases hstate.symm.trans k

theorem below_stays (hstate : w.state = .below) (h : x < w.low.toInt + (w.hysteresis : Int)) : w.enters x = none := by
  refine enters_none_of (fun k => ?_) (fun k => ?_) (fun k => ?_)
  · cases hstate.symm.trans k.1
  · cases hstate.symm.trans k.1
  · rcases k with ⟨k, _⟩ | ⟨_, k⟩
    · cases hstate.symm.trans k
    · omega

/-! ### What a change of state does besides -/

/-- The record of an entry without action, or of a return, is placed at once, or lost (R124). -/
theorem changeWatch_record {state : WatchState} (h : state = .inside ∨ (s.watches[m]).action = .none) :
    ((s.watches[m]).note = false → changeWatch m state o s = s.entered m state) ∧
    (∀ t, (s.watches[m]).note = true →
      place (s.watches[m]).ring (.watchEvent ⟨m, state, o, .none⟩ .none (s.watches[m]).lost) (s.entered m state) = some t →
      changeWatch m state o s = { t with watches := upd t.watches m (fun y => { y with lost := 0 }) }) ∧
    ((s.watches[m]).note = true →
      place (s.watches[m]).ring (.watchEvent ⟨m, state, o, .none⟩ .none (s.watches[m]).lost) (s.entered m state) = none →
      changeWatch m state o s = { s.entered m state with watches := upd (s.entered m state).watches m (fun y => { y with
        lost := min ((s.watches[m]).lost + 1) 65535 }) }) := by
  have hw := entered_watch s m state
  have hring : ((s.entered m state).watches[m]).ring = (s.watches[m]).ring := by rw [hw]
  have hlost : ((s.entered m state).watches[m]).lost = (s.watches[m]).lost := by rw [hw]
  rw [changeWatch_of_none h]
  refine ⟨fun hnote => if_neg (by rw [hnote]; decide), fun t hnote hplace => ?_, fun hnote hplace => ?_⟩
  · rw [← hring, ← hlost] at hplace
    exact (if_pos hnote).trans (placeWatchEvent_of_placed hplace false)
  · rw [← hring, ← hlost] at hplace
    refine (if_pos hnote).trans ((placeWatchEvent_of_lost hplace false).trans ?_)
    rw [← hlost]
    exact congrArg (fun W => { s.entered m state with watches := W }) (upd_congr (by rfl))

/-- One watch takes an offer (R120 to R124). -/
theorem offerTo_outcomes (m : WatchId) (o : Offer) (s : State) (w : Watch) (x : Int) (hw : s.watches[m] = w)
    (hx : o.sample.code.toInt = x) :
    (¬(w.enabled = true ∧ w.channel = o.channel ∧ (w.filter = none ∨ w.filter = some o.stream)) → offerTo m o s = s) ∧
    (w.enabled = true → w.channel = o.channel → (w.filter = none ∨ w.filter = some o.stream) →
      (w.wait ≠ none → offerTo m o s = { s with watches := upd s.watches m (fun w => { w with
        waiting := if w.waiting.length < 16 then w.waiting ++ [o] else w.waiting }) }) ∧
      (∀ (run : RunSide → Nat) (enters : WatchState → Prop), w.wait = none →
        (∀ side, run side = if w.runSide = side then w.runCount + 1 else 1) →
        (enters .above ↔ w.state = .inside ∧ w.high.toInt < x ∧ run .high = w.persistence) →
        (enters .below ↔ w.state = .inside ∧ x ≤ w.high.toInt ∧ x < w.low.toInt ∧ run .low = w.persistence) →
        (enters .inside ↔ (w.state = .above ∧ x ≤ w.high.toInt - (w.hysteresis : Int)) ∨
          (w.state = .below ∧ w.low.toInt + (w.hysteresis : Int) ≤ x)) →
        (∀ side : RunSide, (∀ state, ¬enters state) →
          side = (if w.high.toInt < x then .high else if x < w.low.toInt then .low else .none) →
          (w.state = .inside → offerTo m o s = { s with watches := upd s.watches m (fun w => { w with
            runCount := if side = .none then 0 else run side, runSide := side }) }) ∧
          (w.state ≠ .inside → offerTo m o s = s)) ∧
        (∀ (state : WatchState) (v : State), enters state →
          v = recomputeAlert { s with
            watches := upd s.watches m (fun w => { w with state := state, runCount := 0, runSide := .none }) } →
          (state ≠ .inside → w.action ≠ .none →
            offerTo m o s = { v with watches := upd v.watches m (fun y => { y with
              wait := some ⟨w.action, none, if w.note = true then some ⟨m, state, o, w.action⟩ else none, false⟩ }) }) ∧
          (state = .inside ∨ w.action = .none →
            (w.note = false → offerTo m o s = v) ∧
            (∀ t, w.note = true → place w.ring (.watchEvent ⟨m, state, o, .none⟩ .none w.lost) v = some t →
              offerTo m o s = { t with watches := upd t.watches m (fun y => { y with lost := 0 }) }) ∧
            (w.note = true → place w.ring (.watchEvent ⟨m, state, o, .none⟩ .none w.lost) v = none →
              offerTo m o s = { v with watches := upd v.watches m (fun y => { y with
                lost := min (w.lost + 1) 65535 }) }))))) := by
  subst hw
  refine ⟨fun hno => offerTo_of_other (Bool.eq_false_iff.mpr fun h => hno ((matches_iff _ o).mp h)),
    fun henabled hchannel hfilter => ?_⟩
  have hmatches := (matches_iff _ o).mpr ⟨henabled, hchannel, hfilter⟩
  refine ⟨offerTo_of_waiting hmatches, fun run enters hwait hrun habove hbelow hinside => ?_⟩
  obtain rfl : run = (s.watches[m]).run := funext hrun
  have henters : ∀ state, enters state ↔ (s.watches[m]).enters x = some state := by
    intro state
    cases state with
    | inside => exact hinside.trans enters_inside_iff.symm
    | above => exact habove.trans enters_above_iff.symm
    | below => exact hbelow.trans enters_below_iff.symm
  rw [offerTo_of_free hmatches hwait]
  refine ⟨fun side hnone hside => ?_, fun state v hentered hv => ?_⟩
  · have hno : (s.watches[m]).enters x = none :=
      Option.eq_none_iff_forall_ne_some.mpr fun state h => hnone state ((henters state).mpr h)
    obtain rfl : side = (s.watches[m]).side x := hside
    exact ⟨fun hstate => judge_of_counts rfl hx hstate hno, fun hstate => judge_of_stays rfl hx hstate hno⟩
  · obtain rfl : v = s.entered m state := hv
    rw [judge_of_enters rfl hx ((henters state).mp hentered)]
    exact ⟨changeWatch_of_action, changeWatch_record⟩

/-- What an offer leaves of every watch (R120 to R123). -/
theorem offered_outcomes {which : Nat} (order : List WatchId) (o : Offer) (s t : State)
    (ht : t = offered order o { s with offers := s.offers.eraseIdx which }) (m : WatchId) (x : Int)
    (hx : o.sample.code.toInt = x) :
    (¬((s.watches[m]).enabled = true ∧ (s.watches[m]).channel = o.channel ∧
        ((s.watches[m]).filter = none ∨ (s.watches[m]).filter = some o.stream)) → t.watches[m] = s.watches[m]) ∧
    ((s.watches[m]).enabled = true → (s.watches[m]).channel = o.channel →
      ((s.watches[m]).filter = none ∨ (s.watches[m]).filter = some o.stream) →
      ((s.watches[m]).wait ≠ none →
        t.watches[m] = { s.watches[m] with waiting :=
          if (s.watches[m]).waiting.length < 16 then (s.watches[m]).waiting ++ [o] else (s.watches[m]).waiting }) ∧
      ((s.watches[m]).wait = none →
        ((s.watches[m]).state = .inside → (s.watches[m]).low.toInt ≤ x → x ≤ (s.watches[m]).high.toInt →
          t.watches[m] = { s.watches[m] with runCount := 0, runSide := .none }) ∧
        (∀ run, (s.watches[m]).state = .inside → (s.watches[m]).high.toInt < x →
          run = (if (s.watches[m]).runSide = .high then (s.watches[m]).runCount + 1 else 1) →
          (run ≠ (s.watches[m]).persistence →
            t.watches[m] = { s.watches[m] with runCount := run, runSide := .high }) ∧
          (run = (s.watches[m]).persistence → (t.watches[m]).state = .above ∧ (t.watches[m]).runCount = 0 ∧
            (t.watches[m]).runSide = .none)) ∧
        (∀ run, (s.watches[m]).state = .inside → x ≤ (s.watches[m]).high.toInt → x < (s.watches[m]).low.toInt →
          run = (if (s.watches[m]).runSide = .low then (s.watches[m]).runCount + 1 else 1) →
          (run ≠ (s.watches[m]).persistence →
            t.watches[m] = { s.watches[m] with runCount := run, runSide := .low }) ∧
          (run = (s.watches[m]).persistence → (t.watches[m]).state = .below ∧ (t.watches[m]).runCount = 0 ∧
            (t.watches[m]).runSide = .none)) ∧
        ((s.watches[m]).state = .above →
          (x ≤ (s.watches[m]).high.toInt - ((s.watches[m]).hysteresis : Int) →
            (t.watches[m]).state = .inside ∧ (t.watches[m]).wait = none) ∧
          ((s.watches[m]).high.toInt - ((s.watches[m]).hysteresis : Int) < x → t.watches[m] = s.watches[m])) ∧
        ((s.watches[m]).state = .below →
          ((s.watches[m]).low.toInt + ((s.watches[m]).hysteresis : Int) ≤ x →
            (t.watches[m]).state = .inside ∧ (t.watches[m]).wait = none) ∧
          (x < (s.watches[m]).low.toInt + ((s.watches[m]).hysteresis : Int) → t.watches[m] = s.watches[m])))) := by
  rw [ht]
  refine ⟨fun hno => offered_unmatched order (Bool.eq_false_iff.mpr fun h => hno ((matches_iff _ o).mp h)),
    fun henabled hchannel hfilter => ?_⟩
  have hmatches := (matches_iff _ o).mpr ⟨henabled, hchannel, hfilter⟩
  obtain ⟨v, hv, e⟩ := offered_watch (s := { s with offers := s.offers.eraseIdx which }) order hmatches
  have hw : v.watches[m] = s.watches[m] := hv
  rw [e]
  generalize s.watches[m] = w at hw hmatches
  refine ⟨offerTo_at_waiting hw hmatches, fun hwait => ⟨fun hstate hlow hhigh => ?_, fun run hstate hhigh hrun => ?_,
    fun run hstate hhigh hlow hrun => ?_, fun hstate => ⟨fun hle => ?_, fun hlt => ?_⟩,
    fun hstate => ⟨fun hle => ?_, fun hlt => ?_⟩⟩⟩
  · obtain ⟨hnone, hside⟩ := in_band hstate hlow hhigh
    rw [offerTo_at_counts hw hx hmatches hwait hstate hnone, hside]
    rfl
  · obtain rfl : run = w.run .high := hrun
    refine ⟨fun hrun => ?_, fun hrun => ?_⟩
    · obtain ⟨hnone, hside⟩ := above_band hstate hhigh hrun
      rw [offerTo_at_counts hw hx hmatches hwait hstate hnone, hside]
      rfl
    · obtain ⟨_, _, h, _⟩ := offerTo_at_enters hw hx hmatches hwait (enters_above_iff.mpr ⟨hstate, hhigh, hrun⟩)
      rw [h]
      exact ⟨rfl, rfl, rfl⟩
  · obtain rfl : run = w.run .low := hrun
    refine ⟨fun hrun => ?_, fun hrun => ?_⟩
    · obtain ⟨hnone, hside⟩ := below_band hstate hhigh hlow hrun
      rw [offerTo_at_counts hw hx hmatches hwait hstate hnone, hside]
      rfl
    · obtain ⟨_, _, h, _⟩ := offerTo_at_enters hw hx hmatches hwait (enters_below_iff.mpr ⟨hstate, hhigh, hlow, hrun⟩)
      rw [h]
      exact ⟨rfl, rfl, rfl⟩
  · obtain ⟨_, _, h, hkept⟩ := offerTo_at_enters hw hx hmatches hwait (enters_inside_iff.mpr (.inl ⟨hstate, hle⟩))
    rw [h]
    exact ⟨rfl, hkept rfl⟩
  · exact offerTo_at_stays hw hx hmatches hwait (by rw [hstate]; decide) (above_stays hstate hlt)
  · obtain ⟨_, _, h, hkept⟩ := offerTo_at_enters hw hx hmatches hwait (enters_inside_iff.mpr (.inr ⟨hstate, hle⟩))
    rw [h]
    exact ⟨rfl, hkept rfl⟩
  · exact offerTo_at_stays hw hx hmatches hwait (by rw [hstate]; decide) (below_stays hstate hlt)

/-- Settles O45. -/
theorem offerIsJudged : Obligations.OfferIsJudged := by
  refine ⟨fun which order o s ho => ⟨_, exec_watchOffer ho order, offered_offers order o _,
    fun m x hx => offered_outcomes order o s _ rfl m x hx⟩, fun which order o s t ho ht => ?_, offerTo_outcomes⟩
  rw [exec_watchOffer ho] at ht
  obtain rfl := Host.Outcome.next.inj ht
  have hnodup := nodup_watchesFor order { s with offers := s.offers.eraseIdx which } o
  have hmem := mem_watchesFor order { s with offers := s.offers.eraseIdx which } o
  refine ⟨⟨_, hnodup, fun m => (hmem m).trans (matches_iff _ o), rfl⟩, fun hsame => ?_, fun ⟨m, hm⟩ => ?_⟩
  · exact offers_alert_kept _ { s with offers := s.offers.eraseIdx which } hnodup fun m _ => hsame m
  · have hlevel : (offered order o { s with offers := s.offers.eraseIdx which }).alertLevel
        = alertOf (offered order o { s with offers := s.offers.eraseIdx which }).watches := by
      refine offers_alert_changed _ { s with offers := s.offers.eraseIdx which } hnodup ⟨m, (hmem m).mpr ?_, hm⟩
      by_contra hunmatched
      exact hm (congrArg Watch.state (offered_unmatched (s := { s with offers := s.offers.eraseIdx which }) order
        (Bool.eq_false_iff.mpr hunmatched)))
    rw [hlevel]
    exact ⟨fun k henabled hstate => le_alertOf (mem_levelsOutOfBand.mpr ⟨k, henabled, hstate, rfl⟩),
      fun h => mem_levelsOutOfBand.mp (alertOf_mem_levelsOutOfBand h)⟩

end Sys2Proof.Machine
end


-- ==== Sys2Proof/Proofs/WatchAnswers.lean ====
section
/-!
PROOFS. Proofs/WatchAnswers.lean: a watch's request at its target, and the answer at the watch (01_streams.md section 1.8,
07_watches_and_alert_levels.md sections 7.4 and 7.5).
-/

namespace Sys2Proof.Machine

variable {m : WatchId} {i : StreamId} {s t u : State} {w : AnswerWait} {a : ActionOutcome}

/-! ### Requests -/

theorem request_of_unanswered (hw : (s.watches[m]).wait = some w) (hnone : w.answer = none) :
    (s.watches[m]).request = w.request := by
  unfold Watch.request
  rw [hw]
  dsimp only
  rw [hnone]
  rfl

theorem StreamStep.watches (h : StreamStep i s t) : t.watches = s.watches := by
  obtain ⟨_, _, _, _, _, _, _, _, _, _, e⟩ := h.frame
  rw [e]

/-- The answer reaches the watch whose request the Stream Controller took (R123). -/
theorem giveAnswer_of_kept (hu : u.watches = s.watches) (hw : (s.watches[m]).wait = some w) :
    giveAnswer m a u = { u with
      watches := upd s.watches m (fun x => { x with wait := some { w with answer := some a } }) } := by
  refine congrArg (fun W => { u with watches := W }) ?_
  rw [hu]
  refine upd_congr ?_
  rw [hw]
  rfl

theorem answerStart_of_start (h : (s.watches[m]).request = .start i) :
    answerStart m s = giveAnswer m (takeStartRequest m i s).2 (takeStartRequest m i s).1 := by
  unfold answerStart
  rw [h]

theorem answerHalt_of_halt (h : (s.watches[m]).request = .halt i) :
    answerHalt m s = giveAnswer m (takeHaltRequest i s).2 (takeHaltRequest i s).1 := by
  unfold answerHalt
  rw [h]

theorem answerStart_of_halt (h : (s.watches[m]).request = .halt i) : answerStart m s = s := by
  unfold answerStart
  rw [h]

theorem answerHalt_of_start (h : (s.watches[m]).request = .start i) : answerHalt m s = s := by
  unfold answerHalt
  rw [h]

/-- A START request is taken in ARMED only (R18). -/
theorem takeStartRequest_cases (harmed : (s.streams[i]).state = .armed → a = .taken ∧ u = takeTrigger i (.watch m) s)
    (hother : (s.streams[i]).state ≠ .armed → a = .ignored ∧ u = s) : takeStartRequest m i s = (u, a) := by
  unfold takeStartRequest
  by_cases h : (s.streams[i]).state = .armed
  · obtain ⟨ha, hu⟩ := harmed h
    rw [if_pos h, ha, hu]
  · obtain ⟨ha, hu⟩ := hother h
    rw [if_neg h, ha, hu]

/-- A HALT request is taken in RUNNING and ARMED only (R19). -/
theorem takeHaltRequest_cases (hrunning : (s.streams[i]).state = .running → a = .taken ∧ u = enterDraining i .watchHalt s)
    (harmed : (s.streams[i]).state = .armed → a = .taken ∧ u = endArmed i .watchHalt s)
    (hother : (s.streams[i]).state ≠ .running → (s.streams[i]).state ≠ .armed → a = .ignored ∧ u = s) :
    takeHaltRequest i s = (u, a) := by
  unfold takeHaltRequest
  cases h : (s.streams[i]).state with
  | running =>
    obtain ⟨ha, hu⟩ := hrunning h
    rw [ha, hu]
  | armed =>
    obtain ⟨ha, hu⟩ := harmed h
    rw [ha, hu]
  | unconfigured | idle | draining | faulted =>
    obtain ⟨ha, hu⟩ := hother (by rw [h]; decide) (by rw [h]; decide)
    rw [ha, hu]

/-! ### Answers -/

/-- The state in which a watch that has its answer takes the offers that wait (R123). -/
def State.waitEnded (s : State) (m : WatchId) : State := s.modWatch m (fun x => { x with wait := none, waiting := [] })

theorem takeAnswer_of_answer (hw : (s.watches[m]).wait = some w) (ha : w.answer = some a) : takeAnswer m s = endWait m w a s := by
  unfold takeAnswer
  rw [hw]
  dsimp only
  rw [ha]

theorem endWait_of_none (hheld : w.held = none) :
    endWait m w a s = (s.watches[m]).waiting.foldl (fun v o => offerTo m o v) (s.waitEnded m) := by
  unfold endWait
  rw [hheld]
  rfl

theorem endWait_of_held {e : WatchEvent} (hheld : w.held = some e) :
    endWait m w a s = ((placeWatchEvent m e a w.replaced s).watches[m]).waiting.foldl (fun v o => offerTo m o v)
      ((placeWatchEvent m e a w.replaced s).waitEnded m) := by
  unfold endWait
  rw [hheld]
  rfl

theorem placeWatchEvent_waiting (m : WatchId) (e : WatchEvent) (outcome : ActionOutcome) (replaced : Bool) (s : State) :
    ((placeWatchEvent m e outcome replaced s).watches[m]).waiting = (s.watches[m]).waiting := by
  obtain ⟨lost, h, _⟩ := placeWatchEvent_watches m e outcome replaced s
  rw [h]
  exact (congrArg Watch.waiting (upd_same _ _ _)).trans rfl

/-- A held record that is placed leaves the lost count 0 as the wait ends (R124). -/
theorem waitEnded_of_placed {e : WatchEvent} (replaced : Bool)
    (h : place (s.watches[m]).ring (.watchEvent e a (s.watches[m]).lost) s = some t) :
    (placeWatchEvent m e a replaced s).waitEnded m = { t with
      watches := upd s.watches m (fun x => { x with lost := 0, wait := none, waiting := [] }) } := by
  rw [placeWatchEvent_of_placed h]
  refine congrArg (fun W => { t with watches := W }) ?_
  rw [State.modWatch_watches, (place_step h).watches, upd_upd]

/-- A held record that is lost is counted as the wait ends, but for a replaced setting (R123, R124). -/
theorem waitEnded_of_lost {e : WatchEvent} (replaced : Bool)
    (h : place (s.watches[m]).ring (.watchEvent e a (s.watches[m]).lost) s = none) :
    (placeWatchEvent m e a replaced s).waitEnded m = { s with
      watches := upd s.watches m (fun x => { x with
        lost := if replaced then x.lost else min (x.lost + 1) 65535, wait := none, waiting := [] }) } := by
  rw [placeWatchEvent_of_lost h]
  refine congrArg (fun W => { s with watches := W }) ?_
  rw [State.modWatch_watches, upd_upd]

/-- A disabled watch drops the offers that wait (R123). -/
theorem offers_of_disabled (h : (u.watches[m]).enabled = false) (l : List Offer) :
    l.foldl (fun v o => offerTo m o v) u = u :=
  foldl_keeps (fun v o => offerTo m o v) (fun v => v = u) l u (fun v o _ hv => by
    rw [hv]
    exact offerTo_of_other (Bool.eq_false_iff.mpr fun k => Bool.false_ne_true (h.symm.trans ((matches_iff _ o).mp k).1))) rfl

/-- Settles O46. -/
theorem watchRequestAndAnswer : Obligations.WatchRequestAndAnswer := by
  refine ⟨fun m i w s hw hnone => ⟨fun a u hrequest harmed hother => ?_, fun a u hrequest hrunning harmed hother => ?_⟩,
    fun m w a s u hw ha hfree hheld => ?_⟩
  · have h := (request_of_unanswered hw hnone).trans hrequest
    have hstep := takeStartRequest_step m i s
    have hcases := takeStartRequest_cases harmed hother
    rw [hcases] at hstep
    refine ⟨congrArg Host.Outcome.next ?_, congrArg Host.Outcome.next (answerHalt_of_start h)⟩
    rw [answerStart_of_start h, hcases]
    exact giveAnswer_of_kept hstep.watches hw
  · have h := (request_of_unanswered hw hnone).trans hrequest
    have hstep := takeHaltRequest_step i s
    have hcases := takeHaltRequest_cases hrunning harmed hother
    rw [hcases] at hstep
    refine ⟨congrArg Host.Outcome.next ?_, congrArg Host.Outcome.next (answerStart_of_halt h)⟩
    rw [answerHalt_of_halt h, hcases]
    exact giveAnswer_of_kept hstep.watches hw
  · have hend : takeAnswer m s = (s.watches[m]).waiting.foldl (fun v o => offerTo m o v) u ∧
        (u.watches[m]).enabled = (s.watches[m]).enabled := by
      rw [takeAnswer_of_answer hw ha]
      cases hh : w.held with
      | none =>
        rw [endWait_of_none hh, hfree hh]
        exact ⟨rfl, (congrArg Watch.enabled (upd_same _ _ _)).trans rfl⟩
      | some e =>
        obtain ⟨hplaced, hlost⟩ := hheld e hh
        rw [endWait_of_held hh, placeWatchEvent_waiting]
        cases hplace : place (s.watches[m]).ring (.watchEvent e a (s.watches[m]).lost) s with
        | some t =>
          rw [waitEnded_of_placed _ hplace, hplaced t hplace]
          exact ⟨rfl, (congrArg Watch.enabled (upd_same _ _ _)).trans rfl⟩
        | none =>
          rw [waitEnded_of_lost _ hplace, hlost hplace]
          exact ⟨rfl, (congrArg Watch.enabled (upd_same _ _ _)).trans rfl⟩
    obtain ⟨htaken, henabled⟩ := hend
    have hexec : exec (.watchAnswer m) s = .next ((s.watches[m]).waiting.foldl (fun v o => offerTo m o v) u) :=
      congrArg Host.Outcome.next htaken
    refine ⟨hexec, fun h => hexec.trans (congrArg Host.Outcome.next ?_)⟩
    rcases h with hempty | hdisabled
    · rw [hempty]
      rfl
    · exact offers_of_disabled (henabled.trans hdisabled) _

end Sys2Proof.Machine
end
